-- ==== Sys2Proof/Word.lean ====
section
/-! DEFINITION. The bit-vector types of HUFFCORE and the plainest operations on bits: the first bit of a
field is its most significant one (20_memory.md rule R79). -/

namespace Sys2Proof

/-- A CSR, a command word, a count of FREQ: 32 bits (00_scope.md rule R8, CSR_WIDTH and W_COUNT). -/
abbrev Word := BitVec 32

/-- One channel byte (00_scope.md rule R7, WORD_BITS). -/
abbrev Byte := BitVec 8

/-- A symbol: 0 to 255 a byte value, 256 the sentinel, 257 to 511 only from a crafted header
(00_scope.md rule R7, SYM_BITS; 30_encoding.md rule R107). -/
abbrev Sym := BitVec 9

/-- An index into node memory (00_scope.md rule R8, NODE_IDX_BITS). -/
abbrev NodeIdx := BitVec 10

/-- A node weight (00_scope.md rule R8, W_WEIGHT). -/
abbrev Weight := BitVec 41

/-- The bits of one code: bit `j` of the vector is `CODEBITS[s][j]`, the code's `j`-th bit, first bit 0
(10_state.md rule R65). -/
abbrev CodeBits := BitVec 256

/-- The low `n` bits of `v`, most significant first: the order in which `WriteBits(n, v)` sends them
(20_memory.md rule R79). -/
def bitsOf {w : Nat} : (n : Nat) → BitVec w → List Bool
  | 0, _ => []
  | n + 1, v => v.getLsbD n :: bitsOf n v

/-- The unsigned value of a bit sequence, first bit most significant, in `w` bits (30_encoding.md rule R107). -/
def ofBits (w : Nat) : List Bool → BitVec w :=
  List.foldl (fun v b => v.shiftConcat b) 0#w

end Sys2Proof
end

