-- ==== Sys2Proof/Syntax.lean ====
section
/-! DEFINITION. The instructions of HUFFCORE: one constructor per row of spec/opcode_table.json. A command word is
an instruction of the host, written to CMD (30_encoding.md rules R100 to R103); SOFT_RESET is a word written
to CTRL (rule R104); the two header tokens are the instructions the header deserializer decodes from the IN
stream (rule R106). -/

namespace Sys2Proof

/-- The rows of the opcode table. -/
inductive Instr where
  /-- NOP, CMD word 0x00000000 (47_control.md rule R253). -/
  | nop
  /-- COMPRESS, CMD word 0x00000001 (45_compressor.md rule R210). -/
  | compress
  /-- DECOMPRESS, CMD word 0x00000002 (46_decompressor.md rule R230). -/
  | decompress
  /-- COUNT, CMD word 0x00000003 (41_frequency_counter.md rule R151). -/
  | count
  /-- BUILD_TREE, CMD word 0x00000004 (42_tree_builder.md rule R167). -/
  | buildTree
  /-- BUILD_CODES, CMD word 0x00000005 (43_code_table.md rule R185). -/
  | buildCodes
  /-- WRITE_HEADER, CMD word 0x00000006 (44_header_codec.md rule R191). -/
  | writeHeader
  /-- ENCODE_BODY, CMD word 0x00000007 (45_compressor.md rule R213). -/
  | encodeBody
  /-- READ_HEADER, CMD word 0x00000008 (44_header_codec.md rule R200). -/
  | readHeader
  /-- DECODE_BODY, CMD word 0x00000009 (46_decompressor.md rule R235). -/
  | decodeBody
  /-- A CMD word with OP 0xA or 0xB and no reserved bit set; `low` is bit 0 (47_control.md rule R254). -/
  | illegalOpAB (low : BitVec 1)
  /-- A CMD word with OP 0xC to 0xF and no reserved bit set; `low` is bits 1:0 (47_control.md rule R254). -/
  | illegalOpCF (low : BitVec 2)
  /-- A CMD word whose reserved bits 31:4 are not all zero, whatever its OP (47_control.md rule R254). -/
  | illegalReservedBits (reserved : BitVec 28) (op : BitVec 4)
  /-- A CTRL word with bit 0 set; bits 31:1 are ignored (47_control.md rule R258). -/
  | softReset (ignored : BitVec 31)
  /-- The header token "0" (30_encoding.md rule R106). -/
  | hdrInternal
  /-- The header token "1" and nine symbol bits, s[8] first (30_encoding.md rule R106). -/
  | hdrLeaf (sym : Sym)
deriving DecidableEq, Repr

end Sys2Proof
end

