-- ==== Sys2Proof/WellFormed.lean ====
section
/-! DEFINITION. Which terms of Instr stand for a row of the opcode table. Field widths are in the types; the one
condition left is that the reserved bits of an ILLEGAL_RESERVED_BITS word are not all zero. -/

namespace Sys2Proof

/-- The check on an instruction term (spec/opcode_table.json, row ILLEGAL_RESERVED_BITS: "31:4, any value
other than all zero"). -/
def Instr.wellFormed : Instr → Bool
  | .illegalReservedBits reserved _ => reserved != 0#28
  | .nop | .compress | .decompress | .count | .buildTree | .buildCodes | .writeHeader | .encodeBody => true
  | .readHeader | .decodeBody | .illegalOpAB _ | .illegalOpCF _ | .softReset _ => true
  | .hdrInternal | .hdrLeaf _ => true

end Sys2Proof
end

