-- ==== Sys2Proof/Decode.lean ====
section
/-! DEFINITION. The decoders of the three kinds of instruction pattern (30_encoding.md rules R100 to R107): a word
written to CMD, a word written to CTRL, a token at the head of the header's bit stream. After them the encoder,
from the same tables, and the host's numbering of a table row (decodeTableWord). -/

namespace Sys2Proof

/-- Why a pattern is no instruction. -/
inductive Reject where
  /-- A CTRL word with bit 0 = 0: the write does nothing (30_encoding.md rule R104). -/
  | ctrlNoOperation
  /-- Too few bits for a whole header token (30_encoding.md rule R109). -/
  | tokenIncomplete
deriving DecidableEq, Repr

/-- Where an instruction's pattern stands: a CMD word, a CTRL word, or bits of a header, first bit first. -/
inductive Pattern where
  | cmdWord (w : Word)
  | ctrlWord (w : Word)
  | headerBits (bits : List Bool)
deriving DecidableEq, Repr

/-- The command a CMD word with no reserved bit set selects by its OP (30_encoding.md rule R101). -/
def decodeOp (w : Word) : Instr :=
  match (w.extractLsb' 0 4).toNat with
  | 0 => .nop
  | 1 => .compress
  | 2 => .decompress
  | 3 => .count
  | 4 => .buildTree
  | 5 => .buildCodes
  | 6 => .writeHeader
  | 7 => .encodeBody
  | 8 => .readHeader
  | 9 => .decodeBody
  | 10 | 11 => .illegalOpAB (w.extractLsb' 0 1)
  | _ => .illegalOpCF (w.extractLsb' 0 2)

/-- A CMD word, decoded whole: every 32-bit word is one of the rows (30_encoding.md rules R100, R101, R103). -/
def decodeCmd (w : Word) : Instr :=
  if w.extractLsb' 4 28 = 0#28 then decodeOp w
  else .illegalReservedBits (w.extractLsb' 4 28) (w.extractLsb' 0 4)

/-- A CTRL word: bit 0 set is the soft reset, bits 31:1 are ignored (30_encoding.md rule R104). -/
def decodeCtrl (w : Word) : Except Reject Instr :=
  if w.getLsbD 0 then .ok (.softReset (w.extractLsb' 1 31)) else .error .ctrlNoOperation

/-- The header token at the head of a bit sequence, and the bits after it (30_encoding.md rules R106, R109):
0 is the whole token; 1 is followed by nine symbol bits. -/
def decodeToken : List Bool → Except Reject (Instr × List Bool)
  | false :: rest => .ok (.hdrInternal, rest)
  | true :: s8 :: s7 :: s6 :: s5 :: s4 :: s3 :: s2 :: s1 :: s0 :: rest =>
    .ok (.hdrLeaf (ofBits 9 [s8, s7, s6, s5, s4, s3, s2, s1, s0]), rest)
  | _ => .error .tokenIncomplete

/-- The instruction a pattern stands for; header bits are one token and nothing after it is looked at. -/
def decode : Pattern → Except Reject Instr
  | .cmdWord w => .ok (decodeCmd w)
  | .ctrlWord w => decodeCtrl w
  | .headerBits bits => (decodeToken bits).map Prod.fst

/-- The CMD word with the given OP and no reserved bit set (30_encoding.md rule R100). -/
def opWord (op : BitVec 4) : Word := 0#28 ++ op

/-- The bits of a header token (30_encoding.md rule R106). -/
def tokenBits : Option Sym → List Bool
  | none => [false]
  | some s => true :: bitsOf 9 s

/-- The pattern of an instruction (30_encoding.md rules R100 to R106). -/
def encode : Instr → Pattern
  | .nop => .cmdWord (opWord 0x0#4)
  | .compress => .cmdWord (opWord 0x1#4)
  | .decompress => .cmdWord (opWord 0x2#4)
  | .count => .cmdWord (opWord 0x3#4)
  | .buildTree => .cmdWord (opWord 0x4#4)
  | .buildCodes => .cmdWord (opWord 0x5#4)
  | .writeHeader => .cmdWord (opWord 0x6#4)
  | .encodeBody => .cmdWord (opWord 0x7#4)
  | .readHeader => .cmdWord (opWord 0x8#4)
  | .decodeBody => .cmdWord (opWord 0x9#4)
  | .illegalOpAB low => .cmdWord (opWord (0b101#3 ++ low))
  | .illegalOpCF low => .cmdWord (opWord (0b11#2 ++ low))
  | .illegalReservedBits reserved op => .cmdWord (reserved ++ op)
  | .softReset ignored => .ctrlWord (ignored ++ 1#1)
  | .hdrInternal => .headerBits (tokenBits none)
  | .hdrLeaf sym => .headerBits (tokenBits (some sym))

/-- Which pattern a row of the opcode table with `nbits` bits, numbered as the table numbers them, lies in. A 32-bit
row is a CMD word. The table gives SOFT_RESET one bit (its mask), a byte here, and HDR_INTERNAL one bit too: bit 0
tells them apart. HDR_LEAF has ten bits, two bytes here, its first bit the highest. DESIGN CHOICE, safe: log
entry 4. -/
def tablePattern (nbits w : Nat) : Option Pattern :=
  match nbits with
  | 32 => some (.cmdWord (BitVec.ofNat 32 w))
  | 8 => some (if (BitVec.ofNat 8 w).getLsbD 0 then .ctrlWord (BitVec.ofNat 32 w) else .headerBits [false])
  | 16 => some (.headerBits (bitsOf 10 (BitVec.ofNat 16 w)))
  | _ => none

/-- The instruction the decoders read from a row's bits; none where they refuse, or where bits are left over after
a header token. -/
def decodeTableWord (nbits w : Nat) : Option Instr :=
  match tablePattern nbits w with
  | some (.cmdWord v) => some (decodeCmd v)
  | some (.ctrlWord v) => (decodeCtrl v).toOption
  | some (.headerBits bits) =>
    match decodeToken bits with
    | .ok (i, []) => some i
    | _ => none
  | none => none

end Sys2Proof
end

