-- ==== Sys2Proof/Config.lean ====
section
/-! DEFINITION. What one build of HUFFCORE fixes: the constants of 00_scope.md rules R7 and R8, the two OPEN
parameters of rule R8, and the free values of 20_memory.md rule R74. No constant here is state: 00_scope.md
rule R9, no CSR write changes one. -/

namespace Sys2Proof.Config

/-- `HUFF_MAGIC`, an OPEN parameter (00_scope.md rule R8, decision D4): no value is assumed. DESIGN CHOICE of the
form, safe: log entry 1. -/
opaque huffMagic : Word

/-- `HUFF_BASE`, the platform address of the CSR window, an OPEN parameter (00_scope.md rule R8, 20_memory.md
rule R71): no value is assumed. DESIGN CHOICE of the form, safe: log entry 2. -/
opaque huffBase : Nat

/-- The free value of the `n`-th read of an "any value" register while BUSY = 1: unconstrained, drawn fresh at
each read (20_memory.md rule R74, 93_implementation_defined.md I20). DESIGN CHOICE of the form, safe: log entry 3. -/
opaque freeRead : Nat → Word

/-- `ALPH_SIZE`: the number of byte values (00_scope.md rule R7). -/
abbrev alphSize : Nat := 256

/-- `NSYM`: the number of symbols, the byte values and the sentinel (00_scope.md rule R7). -/
abbrev nSym : Nat := 257

/-- `NODE_MAX`: the capacity of node memory (00_scope.md rule R8). -/
abbrev nodeMax : Nat := 513

/-- `PSEUDO_EOF`: the end-of-stream sentinel (00_scope.md rule R7). -/
def pseudoEof : Sym := 256#9

/-- `MAX_IN` = 2^32 - 2: the most input bytes one counting pass accepts (00_scope.md rule R8). -/
def maxIn : Word := 0xFFFFFFFE#32

/-- The constant the ID register reads, ASCII "HUFF" (10_state.md rule R25). -/
def idValue : Word := 0x48554646#32

/-- The CSR offset a platform address reaches, if it lies in the 256-byte window at `HUFF_BASE`
(20_memory.md rule R71). -/
def windowOffset (addr : Nat) : Option Nat :=
  if huffBase ≤ addr ∧ addr < huffBase + 256 then some (addr - huffBase) else none

end Sys2Proof.Config
end

