-- ==== Sys2Proof/Machine/State.lean ====
section
/-! DEFINITION. The state of HUFFCORE and of the two channels and the host beside it (10_state.md rules R20 to R69,
20_memory.md rules R76, R77, R80), and the state right after reset (10_state.md rule R69). -/

namespace Sys2Proof.Machine

/-- PHASE, the sequencer's register: the nine values that are ever entered (10_state.md rule R21). -/
inductive Phase where
  | idle | count | tree | codes | hdrWrite | encode | flush | hdrRead | decode
deriving DecidableEq, Repr

/-- One entry of node memory (10_state.md rule R61). `sym` is meaningful only for a leaf, `left` and `right` only
for an internal node. -/
structure Node where
  leaf : Bool
  sym : Sym
  left : NodeIdx
  right : NodeIdx
  weight : Weight
deriving DecidableEq, Repr

/-- A token of the OUT channel: a byte, or the close marker `End` (20_memory.md rule R77). -/
inductive OutTok where
  | byte (b : Byte)
  | close
deriving DecidableEq, Repr

/-- Which child of an internal node. -/
inductive Side where
  | left | right
deriving DecidableEq, Repr

/-- A child of an internal node that the header has not supplied yet (the "pending parent slots" of
95_test_vectors.md V-H3). -/
structure Slot where
  parent : NodeIdx
  side : Side
deriving DecidableEq, Repr

/-- Where inside its phase the sequencer stands: the loop counters and the traversal stack that 10_state.md rule R66
lets the block keep ("Neither is architectural"). The model's own state; 47_control.md rule R255 lets a model
split a phase into steps as fine as it likes. DEDUCED, safe: log entry 5. -/
inductive Seq where
  /-- At the first line of the phase's rule; also the value while IDLE. -/
  | start
  /-- The phase's rule has finished: the next step moves PHASE (47_control.md rule R255). -/
  | phaseEnd
  /-- COUNT and ENCODE: at the head of the loop that reads 8-bit chunks. -/
  | byteLoop
  /-- TREE: at the head of the merge loop. -/
  | merge
  /-- CODES: the nodes still to visit, each with its path from ROOT, the next one first. -/
  | visit (todo : List (NodeIdx × List Bool))
  /-- HDR_WRITE: the bits still to write, then the nodes still to serialize, the next one first. -/
  | hdrOut (bits : List Bool) (todo : List NodeIdx)
  /-- ENCODE: the bits still to write of the code being written; `last` for the sentinel's code. -/
  | codeOut (bits : List Bool) (last : Bool)
  /-- HDR_READ: `k` bits of the magic have been read, with value `v`. -/
  | magicIn (k : Nat) (v : Word)
  /-- HDR_READ: the bits of the current token read so far, and the slots the header has still to fill, the next
  one first. -/
  | token (bits : List Bool) (slots : List Slot)
  /-- DECODE: at the head of the loop, about to start at ROOT. -/
  | symbol
  /-- DECODE: walking the tree at CUR. -/
  | descend
deriving DecidableEq, Repr

/-- What the host, or the schedule, does next. The list of moves in State is the host's program and the interleaving
of its accesses with the block's steps (20_memory.md rules R80, R85; 47_control.md rule R255). DESIGN CHOICE, unsafe
for endless stalls: log entry 10. -/
inductive Move where
  /-- The block takes one step, if one is enabled. -/
  | block
  /-- `MemRead(off, width)`, `width` in bytes (20_memory.md rule R72). -/
  | read (off width : Nat)
  /-- `MemWrite(off, width, v)`, `width` in bytes (20_memory.md rule R72). -/
  | write (off width : Nat) (v : Word)
  /-- A read at a platform address (20_memory.md rule R71). -/
  | platformRead (addr width : Nat)
  /-- A write at a platform address (20_memory.md rule R71). -/
  | platformWrite (addr width : Nat) (v : Word)
  /-- The host loads a new input stream (20_memory.md rules R76, R80). -/
  | loadIn (bytes : List Byte)
  /-- The host looks at OUT_LOG (20_memory.md rule R80: no effect on the block). DEDUCED, safe: log
  entry 22. -/
  | drainOut
  /-- `poll`: the host reads STATUS until it finds BUSY = 0 (30_encoding.md rule R115). `gaps` is how many block steps
  fall between one read and the next, and one where the list has ended. DESIGN CHOICE, safe: log entry 6. -/
  | poll (gaps : List Nat)
  /-- The host waits until the interrupt output is 1 (20_memory.md rule R86). -/
  | waitIrq
  /-- `rst_n` falls: hardware reset begins (70_reset_and_hazards.md rule R310). DEDUCED, safe: log entry 24. -/
  | rstLow
  /-- `rst_n` rises: hardware reset ends (70_reset_and_hazards.md rule R310). DEDUCED, safe: log entry 24. -/
  | rstHigh
deriving DecidableEq, Repr

/-- The state of the machine. Everything down to `cur` is the block's (10_state.md rule R20); `pq` to `seq` are its
hidden working state; then the reset input, the two channels, the host's moves and what it has read. -/
structure State where
  /-- PHASE (R21). BUSY is not stored: it is 1 exactly when PHASE is not IDLE (R22). -/
  phase : Phase
  /-- LAST_CMD, the CMD register as it reads back (R26, R66). -/
  lastCmd : Word
  /-- STATUS.DONE (R27). -/
  done : Bool
  /-- STATUS.ERR (R27). -/
  err : Bool
  /-- STATUS.OVERRUN (R27). -/
  overrun : Bool
  /-- ERR_CODE (R28). -/
  errCode : Word
  /-- ERR_INFO (R29). -/
  errInfo : Word
  /-- IRQ_EN: bit 0 DONE_IE, bit 1 ERR_IE (R30). -/
  irqEn : BitVec 2
  /-- MAGIC: HUFF_MAGIC, fixed for the instance (R32, R9). -/
  magic : Word
  /-- IN_BYTES (R33). -/
  inBytes : Word
  /-- OUT_BYTES (R34). -/
  outBytes : Word
  /-- ROOT (R35, R61). -/
  root : NodeIdx
  /-- NODES, 0 to 513 (R36, R61). -/
  nodes : NodeIdx
  /-- FREQ_IDX (R37). -/
  freqIdx : BitVec 9
  /-- CODE_IDX (R39). -/
  codeIdx : BitVec 9
  /-- NODE_IDX (R42). -/
  nodeIdx : BitVec 10
  /-- FREQ, 257 counts (R60). -/
  freq : Vector Word 257
  /-- NODE, node memory, 513 entries (R61). -/
  node : Vector Node 513
  /-- CODELEN, 257 lengths (R65). -/
  codeLen : Vector (BitVec 9) 257
  /-- CODEBITS, 257 entries of 256 bits (R65). -/
  codeBits : Vector CodeBits 257
  /-- RBUF, the byte being consumed by the bit reader (R66). -/
  rbuf : BitVec 8
  /-- RCNT, unread bits left in RBUF (R66). -/
  rcnt : BitVec 4
  /-- WBUF, bits gathered by the bit writer, right-aligned (R66). -/
  wbuf : BitVec 8
  /-- WCNT, bits held in WBUF (R66). -/
  wcnt : BitVec 3
  /-- CUR, the tree walker's node index (R66). -/
  cur : NodeIdx
  /-- PQ, a set of node indices, kept in ascending order (R66). -/
  pq : List NodeIdx
  /-- The model's own: where inside the phase the sequencer stands (R66, last paragraph; R255). -/
  seq : Seq
  /-- The input `rst_n` (R78, R310). -/
  rstN : Bool
  /-- IN_DATA, the byte stream the host has loaded (R76). -/
  inData : List Byte
  /-- IN_POS, the IN channel's read position (R76). -/
  inPos : Nat
  /-- OUT_LOG, the tokens sent on the OUT channel, oldest first (R77). -/
  outLog : List OutTok
  /-- The moves of the host and the schedule still to come (R80, R85). -/
  agenda : List Move
  /-- The CSR reads the host has made, offset and value, oldest first (R332). -/
  reads : List (Nat × Word)
  /-- The model's own: how many "any value" reads have been answered (R74). -/
  draws : Nat
deriving DecidableEq, Repr

/-- Why the machine cannot go on. No instruction of the opcode table raises one. -/
inductive Fault where
  /-- Raised by `step` when the host waits for the interrupt, the block is idle or in reset and the output is 0: nobody
  can move any more (93_implementation_defined.md, treatment `stuck`). DESIGN CHOICE, safe: log entry
  20. -/
  | waitsForever
  /-- Raised by the block's step in a state whose sequencer position does not belong to its phase, which no run
  reaches (Safety.lean, `State.Inv`). DESIGN CHOICE, safe: nothing can be proved of what follows. Log entry
  7. -/
  | sequencerLost
deriving DecidableEq, Repr

/-- What the spec tells a model to refuse, by name. No instruction of the opcode table ends in one. -/
inductive Refusal where
  /-- Raised by `exec` for an instruction with no meaning yet: none is left. Safe. -/
  | notModelled (mnemonic : String)
  /-- Raised by `step` for a CSR access that is not a 32-bit access at an aligned offset of the window (20_memory.md
  rule R72: "A model treats such an access as refused"; 93_implementation_defined.md I26). DEDUCED, safe:
  log entry 11. -/
  | csrAccess
  /-- Raised by `step` for a CSR access while `rst_n` = 0 (70_reset_and_hazards.md rule R310, "refused"; I27).
  DEDUCED, safe: log entry 11. -/
  | accessInReset
  /-- Raised by `step` for a host load of IN while BUSY = 1 (20_memory.md rule R80, "no move while BUSY = 1"; I28).
  The spec lists it as erring toward proving, so unsafe: a host that breaks the duty is outside every claim.
  DEDUCED: log entry 12. -/
  | loadWhileBusy
deriving DecidableEq, Repr

/-- What a step of this machine answers. -/
abbrev Answer := Host.Outcome State Fault Refusal

/-- The contents named for a node entry that nothing has written (10_state.md rule R69: "unspecified and
unreadable"). DESIGN CHOICE, unsafe in form: log entry 8. -/
def Node.blank : Node := { leaf := true, sym := 0, left := 0, right := 0, weight := 0 }

/-- The machine right after reset (10_state.md rule R69), with HUFF_MAGIC as built, nothing loaded, nothing sent,
and no move of the host to come (the host's side: DESIGN CHOICE, unsafe: log entry 9). -/
def State.reset : State where
  phase := .idle
  lastCmd := 0
  done := false
  err := false
  overrun := false
  errCode := 0
  errInfo := 0
  irqEn := 0
  magic := Config.huffMagic
  inBytes := 0
  outBytes := 0
  root := 0
  nodes := 0
  freqIdx := 0
  codeIdx := 0
  nodeIdx := 0
  freq := Vector.replicate 257 0
  node := Vector.replicate 513 Node.blank
  codeLen := Vector.replicate 257 0
  codeBits := Vector.replicate 257 0
  rbuf := 0
  rcnt := 0
  wbuf := 0
  wcnt := 0
  cur := 0
  pq := []
  seq := .start
  rstN := true
  inData := []
  inPos := 0
  outLog := []
  agenda := []
  reads := []
  draws := 0

end Sys2Proof.Machine
end

