-- ==== Sys2Proof/Machine/Flags.lean ====
section
/-! DEFINITION. The flags of HUFFCORE: STATUS, its write-1-to-clear rule, ERR_CODE's layout and the interrupt output
(10_state.md rules R21, R22, R27, R28, R67; 60_exceptions.md rules R270, R286). -/

namespace Sys2Proof.Machine

/-- The value STATUS.PHASE shows (10_state.md rule R21). -/
def Phase.code : Phase → BitVec 4
  | .idle => 0
  | .count => 1
  | .tree => 2
  | .codes => 3
  | .hdrWrite => 4
  | .encode => 5
  | .flush => 6
  | .hdrRead => 7
  | .decode => 8

/-- BUSY = 1 exactly when PHASE is not IDLE (10_state.md rule R22). -/
def State.busy (s : State) : Bool := s.phase != .idle

/-- The word STATUS reads: BUSY, DONE, ERR, OVERRUN in bits 0 to 3, PHASE in bits 11:8 (10_state.md rule R27). -/
def State.statusWord (s : State) : Word :=
  0#20 ++ s.phase.code ++ 0#4 ++ BitVec.ofBool s.overrun ++ BitVec.ofBool s.err ++ BitVec.ofBool s.done
    ++ BitVec.ofBool s.busy

/-- A write of STATUS: each of DONE, ERR, OVERRUN is cleared where `v` has a 1 (10_state.md rule R27). -/
def State.clearStatus (s : State) (v : Word) : State :=
  { s with done := s.done && !v.getLsbD 1, err := s.err && !v.getLsbD 2, overrun := s.overrun && !v.getLsbD 3 }

/-- The interrupt output, level-sensitive (60_exceptions.md rule R286). -/
def State.irq (s : State) : Bool := (s.done && s.irqEn.getLsbD 0) || (s.err && s.irqEn.getLsbD 1)

/-- The kinds of error (60_exceptions.md rule R270). -/
inductive Error where
  | badMagic | truncatedHeader | truncatedBody | emptyFrequencySet | illegalCommand | noCode | headerOverflow
  | inputTooLong | noTree
deriving DecidableEq, Repr

/-- ERR_CODE.CODE of each kind (60_exceptions.md rule R270). -/
def Error.code : Error → BitVec 4
  | .badMagic => 1
  | .truncatedHeader => 2
  | .truncatedBody => 3
  | .emptyFrequencySet => 4
  | .illegalCommand => 5
  | .noCode => 6
  | .headerOverflow => 7
  | .inputTooLong => 8
  | .noTree => 9

/-- The kinds whose abort empties the tree (60_exceptions.md rule R281). -/
def Error.emptiesTree : Error → Bool
  | .badMagic | .truncatedHeader | .emptyFrequencySet | .headerOverflow => true
  | .truncatedBody | .illegalCommand | .noCode | .inputTooLong | .noTree => false

/-- The ERR_CODE word of an abort: NBITS in bits 13:8 over a CODE in bits 3:0 (60_exceptions.md rule R280,
10_state.md rule R28). -/
def errWord (e : Error) (nbits : BitVec 6) : Word := 0#18 ++ nbits ++ 0#4 ++ e.code

/-- ERR_CODE.CODE of an ERR_CODE word (10_state.md rule R28). -/
def errKind (w : Word) : BitVec 4 := w.extractLsb' 0 4

/-- ERR_CODE.NBITS of an ERR_CODE word (10_state.md rule R28). -/
def errBits (w : Word) : BitVec 6 := w.extractLsb' 8 6

end Sys2Proof.Machine
end

