-- ==== Sys2Proof/Machine/Operands.lean ====
section
/-! DEFINITION. What commands take as operands: the entries of the internal tables (30_encoding.md rule R102, 10_state.md
rules R60 to R65). Every read and write of FREQ, NODE, CODELEN and CODEBITS goes through these. -/

namespace Sys2Proof.Machine

/-- FREQ[s] (10_state.md rule R60); 0 beyond the table. -/
def State.freqAt (s : State) (i : Nat) : Word := s.freq[i]?.getD 0

/-- FREQ[i] <- v; nothing beyond the table. -/
def State.setFreq (s : State) (i : Nat) (v : Word) : State := { s with freq := s.freq.setIfInBounds i v }

/-- NODE[i] (10_state.md rule R61); the blank entry beyond node memory (DESIGN CHOICE, unsafe in form: log entry 8). -/
def State.nodeAt (s : State) (i : NodeIdx) : Node := s.node[i.toNat]?.getD Node.blank

/-- NODE[i] <- n; nothing beyond node memory. -/
def State.setNode (s : State) (i : NodeIdx) (n : Node) : State :=
  { s with node := s.node.setIfInBounds i.toNat n }

/-- CODELEN[i] (10_state.md rule R65); 0, "no code", beyond the table. -/
def State.codeLenAt (s : State) (i : Nat) : BitVec 9 := s.codeLen[i]?.getD 0

/-- CODEBITS[i], all its 256 bits (10_state.md rule R65); 0 beyond the table. -/
def State.codeBitsAt (s : State) (i : Nat) : CodeBits := s.codeBits[i]?.getD 0

/-- The code of symbol `i` as it stands: CODELEN[i] bits, first bit first (10_state.md rule R65, 30_encoding.md
rule R110). -/
def State.codeOf (s : State) (i : Nat) : List Bool :=
  (List.range (s.codeLenAt i).toNat).map fun j => (s.codeBitsAt i).getLsbD j

/-- A code path as CODEBITS holds it: bit `j` is the path's `j`-th bit, and the bits past its end are 0. -/
def pathBits : List Bool → CodeBits
  | [] => 0
  | b :: rest => (pathBits rest).shiftConcat b

/-- `SetCode(s, n, p)` (43_code_table.md rule R180): a symbol above 256 gets no entry (rule R184).
DESIGN CHOICE, safe: log entry 23. -/
def State.setCode (s : State) (sym : Sym) (n : Nat) (p : List Bool) : State :=
  { s with codeLen := s.codeLen.setIfInBounds sym.toNat (BitVec.ofNat 9 n),
           codeBits := s.codeBits.setIfInBounds sym.toNat (pathBits p) }

/-- NODE[NODES] <- n and NODES <- NODES + 1: the next free entry is taken (42_tree_builder.md rule R160,
44_header_codec.md rule R196). -/
def State.allocNode (s : State) (n : Node) : State := { s.setNode s.nodes n with nodes := s.nodes + 1 }

/-- A leaf entry; its child fields are without meaning and stand at 0 (10_state.md rule R61). DESIGN CHOICE, unsafe
in form: log entry 14. -/
def Node.mkLeaf (sym : Sym) (weight : Weight) : Node := { leaf := true, sym, left := 0, right := 0, weight }

/-- An internal entry; its symbol is without meaning and stands at 0 (10_state.md rule R64). DESIGN CHOICE, unsafe in
form: log entry 14. -/
def Node.mkInternal (left right : NodeIdx) (weight : Weight) : Node := { leaf := false, sym := 0, left, right, weight }

end Sys2Proof.Machine
end

