-- ==== Sys2Proof/Machine/Ops.lean ====
section
/-! DEFINITION. The named operations every phase and command is made of: the channels (20_memory.md rules R76, R77), the bit
reader and writer (40_bitio.md), the start of a command, the abort, the completion, the move to the next
phase, and reset. -/

namespace Sys2Proof.Machine

/-! ### The channels -/

/-- `InRead()`: the next byte of IN_DATA, or `none` for `End`, which is sticky (20_memory.md rule R76). -/
def State.inRead (s : State) : Option Byte × State :=
  match s.inData[s.inPos]? with
  | some b => (some b, { s with inPos := s.inPos + 1 })
  | none => (none, s)

/-- `InRewind()` (20_memory.md rule R76). -/
def State.inRewind (s : State) : State := { s with inPos := 0 }

/-- `OutByte(b)`, and the count of it (20_memory.md rule R77; 40_bitio.md rule R135). -/
def State.outByte (s : State) (b : Byte) : State :=
  { s with outLog := s.outLog ++ [.byte b], outBytes := s.outBytes + 1 }

/-- `OutEnd()` (20_memory.md rule R77): the `End` token is not counted (10_state.md rule R34). -/
def State.outEnd (s : State) : State := { s with outLog := s.outLog ++ [.close] }

/-! ### The bit reader -/

/-- `TakeByte()`: the only place IN_BYTES is incremented (40_bitio.md rule R130). -/
def State.takeByte (s : State) : Option Byte × State :=
  match s.inRead with
  | (some b, s') => (some b, { s' with inBytes := s'.inBytes + 1 })
  | (none, s') => (none, s')

/-- RCNT <- RCNT - 1 and the bit RBUF[RCNT] (40_bitio.md rule R131). -/
def State.popBit (s : State) : Bool × State :=
  (s.rbuf.getLsbD (s.rcnt - 1).toNat, { s with rcnt := s.rcnt - 1 })

/-- `ReadBit()`: the next bit, or `none` for NoData (40_bitio.md rule R131). -/
def State.readBit (s : State) : Option Bool × State :=
  if s.rcnt = 0 then
    match s.takeByte with
    | (none, s') => (none, s')
    | (some b, s') => (some ({ s' with rbuf := b, rcnt := 8 } : State).popBit.1,
        ({ s' with rbuf := b, rcnt := 8 } : State).popBit.2)
  else (some s.popBit.1, s.popBit.2)

/-- What `ReadBits(n)` returns (40_bitio.md rule R132). -/
inductive BitsRead where
  /-- The unsigned value of the n bits. -/
  | value (v : Word)
  /-- The input ended after `k` bits, whose value is `v`. -/
  | noData (v : Word) (k : Nat)
deriving DecidableEq, Repr

/-- The loop of `ReadBits`: `n` bits to go, `k` read, of value `v` (40_bitio.md rule R132). -/
def readBitsFrom : (n k : Nat) → (v : Word) → State → BitsRead × State
  | 0, _, v, s => (.value v, s)
  | n + 1, k, v, s =>
    match s.readBit with
    | (none, s') => (.noData v k, s')
    | (some b, s') => readBitsFrom n (k + 1) (v.shiftConcat b) s'

/-- `ReadBits(n)` (40_bitio.md rule R132). -/
def State.readBits (s : State) (n : Nat) : BitsRead × State := readBitsFrom n 0 0 s

/-- `ReaderClear()` (40_bitio.md rule R133). -/
def State.readerClear (s : State) : State := { s with rbuf := 0, rcnt := 0 }

/-! ### The bit writer -/

/-- `WriteBit(b)`: the only place an output byte is produced (40_bitio.md rule R135). -/
def State.writeBit (s : State) (b : Bool) : State :=
  if s.wcnt = 7 then { s.outByte (s.wbuf.shiftConcat b) with wbuf := 0, wcnt := 0 }
  else { s with wbuf := s.wbuf.shiftConcat b, wcnt := s.wcnt + 1 }

/-- The bits of a list through `WriteBit`, the first one first. -/
def State.writeList (s : State) (bits : List Bool) : State := bits.foldl State.writeBit s

/-- `WriteBits(n, v)` (40_bitio.md rule R136). -/
def State.writeBits {w : Nat} (s : State) (n : Nat) (v : BitVec w) : State := s.writeList (bitsOf n v)

/-- `WriteCode(s)`: exactly CODELEN[s] bits, leading zeros included (40_bitio.md rule R137). -/
def State.writeCode (s : State) (sym : Nat) : State := s.writeList (s.codeOf sym)

/-- `WriterClear()` (40_bitio.md rule R139). -/
def State.writerClear (s : State) : State := { s with wbuf := 0, wcnt := 0 }

/-! ### The life of a command -/

/-- The phases of a command, in order (10_state.md rule R23). -/
def phaseRow (op : BitVec 4) : List Phase :=
  match op.toNat with
  | 1 => [.count, .tree, .codes, .hdrWrite, .encode, .flush]
  | 2 => [.hdrRead, .decode, .flush]
  | 3 => [.count]
  | 4 => [.tree]
  | 5 => [.codes]
  | 6 => [.hdrWrite]
  | 7 => [.encode, .flush]
  | 8 => [.hdrRead]
  | 9 => [.decode, .flush]
  | _ => []

/-- OP of a CMD word (30_encoding.md rule R100). -/
def cmdOp (w : Word) : BitVec 4 := w.extractLsb' 0 4

/-- The commands whose start clears the bit reader (47_control.md rule R252). -/
def clearsReader (op : BitVec 4) : Bool :=
  match op.toNat with
  | 1 | 2 | 3 | 8 => true
  | _ => false

/-- The commands whose start clears the bit writer (47_control.md rule R252). -/
def clearsWriter (op : BitVec 4) : Bool :=
  match op.toNat with
  | 1 | 2 | 6 | 9 => true
  | _ => false

/-- The flags, the error record and the byte counters as a command's start leaves them (47_control.md rules R251,
R254). -/
def State.clearRecord (s : State) : State :=
  { s with done := false, err := false, errCode := 0, errInfo := 0, inBytes := 0, outBytes := 0 }

/-- `CommandStart(v)` for the OP `op` (47_control.md rules R251, R252). -/
def State.commandStart (s : State) (op : BitVec 4) : State :=
  let t := s.clearRecord
  let t := if clearsReader op then t.readerClear else t
  let t := if clearsWriter op then t.writerClear else t
  { t with cur := 0, pq := [], phase := (phaseRow op).headD .idle, seq := .start }

/-- TAKING AN EXCEPTION: `raise E(info)`, the abort (60_exceptions.md rules R280, R281). `nbits` is 0 but for
BadMagic. -/
def State.abort (s : State) (e : Error) (info : Word) (nbits : BitVec 6 := 0) : State :=
  let t := s.readerClear.writerClear
  { t with
    errCode := errWord e nbits
    errInfo := info
    nodes := if e.emptiesTree then 0 else t.nodes
    root := if e.emptiesTree then 0 else t.root
    cur := 0
    pq := []
    phase := .idle
    seq := .start
    done := false
    err := true }

/-- `Complete()` (60_exceptions.md rule R283). There is no return from an exception: "no return instruction and no
saved state to restore" (rule R285). -/
def State.complete (s : State) : State :=
  { s with cur := 0, pq := [], phase := .idle, seq := .start, done := true }

/-- The phase after `p` in a command's row, if there is one (10_state.md rule R23). -/
def phaseAfter (p : Phase) : List Phase → Option Phase
  | q :: r :: rest => if q = p then some r else phaseAfter p (r :: rest)
  | _ => none

/-- PHASE takes the next phase of the running command's row; after the last one the command completes
(10_state.md rule R23). The running command is LAST_CMD's (20_memory.md rule R88). -/
def State.nextPhase (s : State) : State :=
  match phaseAfter s.phase (phaseRow (cmdOp s.lastCmd)) with
  | some p => { s with phase := p, seq := .start }
  | none => s.complete

/-- The phase's rule has finished without error; the next block step moves PHASE (47_control.md rule R255). -/
def State.endPhase (s : State) : State := { s with seq := .phaseEnd }

/-- `CmdWrite(v)`: while BUSY the write only sets OVERRUN; while idle the word is latched and `accepted` is what its
decoding does (47_control.md rules R250, R256). -/
def State.cmdWrite (s : State) (v : Word) (accepted : State → State) : State :=
  if s.busy then { s with overrun := true } else accepted { s with lastCmd := v }

/-- `IllegalCommand(v)` (47_control.md rule R254). -/
def State.illegalCommand (s : State) (v : Word) : State := s.clearRecord.abort .illegalCommand v

/-- `ResetBlock()`: every piece of block state takes its reset value; IN_DATA, IN_POS and OUT_LOG stay
(10_state.md rule R69; 70_reset_and_hazards.md rules R310, R311). -/
def State.resetBlock (s : State) : State :=
  { State.reset with
    magic := s.magic
    rstN := s.rstN
    inData := s.inData
    inPos := s.inPos
    outLog := s.outLog
    agenda := s.agenda
    reads := s.reads
    draws := s.draws }

end Sys2Proof.Machine
end

