-- ==== Sys2Proof/Machine/Codes.lean ====
section
/-! DEFINITION. The CODES phase (43_code_table.md rules R180 to R184), one node of the tree a step. -/

namespace Sys2Proof.Machine

/-- `for s in 0 .. 256: CODELEN[s] <- 0; CODEBITS[s] <- 0` (43_code_table.md rule R180). -/
def State.clearCodes (s : State) : State :=
  { s with codeLen := Vector.replicate 257 0, codeBits := Vector.replicate 257 0 }

/-- The phase up to its traversal: no stale code survives; NoTree; the one-bit placeholder of a single-leaf tree
(43_code_table.md rules R180, R181). -/
def State.codesStart (s : State) : State :=
  if s.nodes = 0 then s.clearCodes.abort .noTree 0
  else if (s.nodeAt s.root).leaf then (s.clearCodes.setCode (s.nodeAt s.root).sym 1 [false]).endPhase
  else { s.clearCodes with seq := .visit [(s.root, [])] }

/-- `Visit(i, p)`: a leaf gets its path as code; an internal node's children are visited next, the left one first
(43_code_table.md rule R180). -/
def State.visitNode (s : State) (i : NodeIdx) (p : List Bool) (todo : List (NodeIdx × List Bool)) : State :=
  if (s.nodeAt i).leaf then { s.setCode (s.nodeAt i).sym p.length p with seq := .visit todo }
  else { s with seq := .visit (((s.nodeAt i).left, p ++ [false]) :: ((s.nodeAt i).right, p ++ [true]) :: todo) }

/-- A step of the CODES phase. -/
def codesStep (s : State) : Answer :=
  match s.seq with
  | .start => .next s.codesStart
  | .visit [] => .next s.endPhase
  | .visit ((i, p) :: todo) => .next (s.visitNode i p todo)
  | .phaseEnd => .next s.nextPhase
  | _ => .fault .sequencerLost

end Sys2Proof.Machine
end

