-- ==== Sys2Proof/Machine/Count.lean ====
section
/-! DEFINITION. The COUNT phase (41_frequency_counter.md rules R150, R152), one 8-bit chunk a step. -/

namespace Sys2Proof.Machine

/-- `for s in 0 .. 256: FREQ[s] <- 0` (41_frequency_counter.md rule R150). -/
def State.clearFreq (s : State) : State := { s with freq := Vector.replicate 257 0 }

/-- One turn of the counting loop (41_frequency_counter.md rule R150): InputTooLong, a count, or the end of the
stream, which forces FREQ[256] to 1. -/
def State.countByte (s : State) : State :=
  match s.readBits 8 with
  | (.noData _ _, t) => (t.setFreq 256 1).endPhase
  | (.value v, t) =>
    if t.inBytes > Config.maxIn then t.abort .inputTooLong t.inBytes
    else t.setFreq v.toNat (t.freqAt v.toNat + 1)

/-- A step of the COUNT phase. -/
def countStep (s : State) : Answer :=
  match s.seq with
  | .start => .next { s.clearFreq with seq := .byteLoop }
  | .byteLoop => .next s.countByte
  | .phaseEnd => .next s.nextPhase
  | _ => .fault .sequencerLost

end Sys2Proof.Machine
end

