-- ==== Sys2Proof/Machine/DecodeBody.lean ====
section
/-! DEFINITION. The DECODE phase (46_decompressor.md rules R232, R233, R237): one body bit or one emitted byte a step. -/

namespace Sys2Proof.Machine

/-- TruncatedBody, ERR_INFO = OUT_BYTES (46_decompressor.md rule R232; 60_exceptions.md rule R273). -/
def State.truncatedBody (s : State) : State := s.abort .truncatedBody s.outBytes

/-- The head of the loop: CUR <- ROOT; a single-leaf tree consumes one bit, whose value is ignored
(46_decompressor.md rules R232, R237). -/
def State.decodeSymbol (s : State) : State :=
  let s := { s with cur := s.root }
  if (s.nodeAt s.root).leaf then
    match s.readBit with
    | (none, t) => t.truncatedBody
    | (some _, t) => { t with seq := .descend }
  else { s with seq := .descend }

/-- At a leaf the sentinel ends the phase, and any other symbol is written as its low 8 bits; at an internal node
one bit chooses the child (46_decompressor.md rules R232, R233). -/
def State.decodeDescend (s : State) : State :=
  if (s.nodeAt s.cur).leaf then
    if (s.nodeAt s.cur).sym = Config.pseudoEof then s.endPhase
    else { s.writeBits 8 (s.nodeAt s.cur).sym with seq := .symbol }
  else
    match s.readBit with
    | (none, t) => t.truncatedBody
    | (some b, t) => { t with cur := if b then (s.nodeAt s.cur).right else (s.nodeAt s.cur).left }

/-- A step of the DECODE phase; NoTree is checked before any bit is read (46_decompressor.md rule R232). -/
def decodeStep (s : State) : Answer :=
  match s.seq with
  | .start => .next (if s.nodes = 0 then s.abort .noTree 0 else { s with seq := .symbol })
  | .symbol => .next s.decodeSymbol
  | .descend => .next s.decodeDescend
  | .phaseEnd => .next s.nextPhase
  | _ => .fault .sequencerLost

end Sys2Proof.Machine
end

