-- ==== Sys2Proof/Machine/Encode.lean ====
section
/-! DEFINITION. The ENCODE phase (45_compressor.md rule R212): one 8-bit chunk or one code bit a step; and the FLUSH phase
(40_bitio.md rule R138), one pad bit or the `End` token a step. -/

namespace Sys2Proof.Machine

/-- Step 4 of DOC0's compressor: InRewind(), ReaderClear(), IN_BYTES <- 0 (45_compressor.md rule R212). -/
def State.encodeStart (s : State) : State :=
  { s.inRewind.readerClear with inBytes := 0, seq := .byteLoop }

/-- The code of a symbol is due, the sentinel's if `last`; NoCode if it has none (45_compressor.md rule R212). -/
def State.startCode (s : State) (sym : Sym) (last : Bool) : State :=
  if s.codeLenAt sym.toNat = 0 then s.abort .noCode (sym.setWidth 32)
  else { s with seq := .codeOut (s.codeOf sym.toNat) last }

/-- One turn of the loop: the code of the next chunk, or at the end of the stream the sentinel's code
(45_compressor.md rule R212). -/
def State.encodeByte (s : State) : State :=
  match s.readBits 8 with
  | (.noData _ _, t) => t.startCode Config.pseudoEof true
  | (.value v, t) => t.startCode (v.setWidth 9) false

/-- A step of the ENCODE phase. -/
def encodeStep (s : State) : Answer :=
  match s.seq with
  | .start => .next s.encodeStart
  | .byteLoop => .next s.encodeByte
  | .codeOut (b :: bits) last => .next { s.writeBit b with seq := .codeOut bits last }
  | .codeOut [] last => .next (if last then s.endPhase else { s with seq := .byteLoop })
  | .phaseEnd => .next s.nextPhase
  | _ => .fault .sequencerLost

/-- A step of the FLUSH phase: zero bits up to the byte boundary, then `End` (40_bitio.md rule R138). -/
def flushStep (s : State) : Answer :=
  match s.seq with
  | .start => .next (if s.wcnt = 0 then s.outEnd.endPhase else s.writeBit false)
  | .phaseEnd => .next s.nextPhase
  | _ => .fault .sequencerLost

end Sys2Proof.Machine
end

