-- ==== Sys2Proof/Machine/Command.lean ====
section
/-! DEFINITION. The meanings of the CMD words: what a host write of the word to CMD does in its one atomic step
(47_control.md rules R250 to R254). A command's phases follow as later block steps (rule R255; Machine/Block.lean). -/

namespace Sys2Proof.Machine

/-- NOP (47_control.md rule R253): LAST_CMD alone is written. -/
def execNop (s : State) : Answer := .next (s.cmdWrite (opWord 0x0#4) fun t => t)

/-- COMPRESS (45_compressor.md rule R210): the start; then COUNT, TREE, CODES, HDR_WRITE, ENCODE, FLUSH. -/
def execCompress (s : State) : Answer := .next (s.cmdWrite (opWord 0x1#4) fun t => t.commandStart 0x1#4)

/-- DECOMPRESS (46_decompressor.md rule R230): the start; then HDR_READ, DECODE, FLUSH. -/
def execDecompress (s : State) : Answer := .next (s.cmdWrite (opWord 0x2#4) fun t => t.commandStart 0x2#4)

/-- COUNT (41_frequency_counter.md rule R151): the start; then COUNT. -/
def execCount (s : State) : Answer := .next (s.cmdWrite (opWord 0x3#4) fun t => t.commandStart 0x3#4)

/-- BUILD_TREE (42_tree_builder.md rule R167): the start; then TREE. -/
def execBuildTree (s : State) : Answer := .next (s.cmdWrite (opWord 0x4#4) fun t => t.commandStart 0x4#4)

/-- BUILD_CODES (43_code_table.md rule R185): the start; then CODES. -/
def execBuildCodes (s : State) : Answer := .next (s.cmdWrite (opWord 0x5#4) fun t => t.commandStart 0x5#4)

/-- WRITE_HEADER (44_header_codec.md rule R191): the start; then HDR_WRITE. -/
def execWriteHeader (s : State) : Answer := .next (s.cmdWrite (opWord 0x6#4) fun t => t.commandStart 0x6#4)

/-- ENCODE_BODY (45_compressor.md rule R213): the start; then ENCODE, FLUSH. -/
def execEncodeBody (s : State) : Answer := .next (s.cmdWrite (opWord 0x7#4) fun t => t.commandStart 0x7#4)

/-- READ_HEADER (44_header_codec.md rule R200): the start; then HDR_READ. -/
def execReadHeader (s : State) : Answer := .next (s.cmdWrite (opWord 0x8#4) fun t => t.commandStart 0x8#4)

/-- DECODE_BODY (46_decompressor.md rule R235): the start; then DECODE, FLUSH. -/
def execDecodeBody (s : State) : Answer := .next (s.cmdWrite (opWord 0x9#4) fun t => t.commandStart 0x9#4)

/-- A word with OP 0xA or 0xB: IllegalCommand, ERR_INFO the word (47_control.md rule R254). -/
def execIllegalOpAB (low : BitVec 1) (s : State) : Answer :=
  .next (s.cmdWrite (opWord (0b101#3 ++ low)) fun t => t.illegalCommand (opWord (0b101#3 ++ low)))

/-- A word with OP 0xC to 0xF: IllegalCommand, ERR_INFO the word (47_control.md rule R254). -/
def execIllegalOpCF (low : BitVec 2) (s : State) : Answer :=
  .next (s.cmdWrite (opWord (0b11#2 ++ low)) fun t => t.illegalCommand (opWord (0b11#2 ++ low)))

/-- A word with a reserved bit set: IllegalCommand, ERR_INFO the word (47_control.md rule R254). -/
def execIllegalReservedBits (reserved : BitVec 28) (op : BitVec 4) (s : State) : Answer :=
  .next (s.cmdWrite (reserved ++ op) fun t => t.illegalCommand (reserved ++ op))

end Sys2Proof.Machine
end

