-- ==== Sys2Proof/Machine/Control.lean ====
section
/-! DEFINITION. The meaning of the soft reset, a CTRL word with bit 0 set (47_control.md rule R258). -/

namespace Sys2Proof.Machine

/-- SOFT_RESET (47_control.md rule R258): accepted whether BUSY is 0 or 1; the ignored bits are ignored. -/
def execSoftReset (_ignored : BitVec 31) (s : State) : Answer := .next s.resetBlock

end Sys2Proof.Machine
end

