-- ==== Sys2Proof/Machine/HeaderToken.lean ====
section
/-! DEFINITION. The meanings of the two header tokens: what HDR_READ's `ReadNode` does when a token is complete
(44_header_codec.md rules R196, R197). -/

namespace Sys2Proof.Machine

/-- The slots the header has still to fill, the next one first; none before the root's token. -/
def State.pendingSlots (s : State) : List Slot :=
  match s.seq with
  | .token _ slots => slots
  | _ => []

/-- NODE[parent].left <- i, or NODE[parent].right <- i; the root has no parent (44_header_codec.md rule R196). -/
def State.linkChild (s : State) (i : NodeIdx) : Option Slot → State
  | none => s
  | some ⟨p, .left⟩ => s.setNode p { s.nodeAt p with left := i }
  | some ⟨p, .right⟩ => s.setNode p { s.nodeAt p with right := i }

/-- The end of a token: with no slot left the root is closed, ROOT is its index, always 0, and the phase ends;
otherwise the next token is due (44_header_codec.md rule R196). -/
def State.afterToken (s : State) (slots : List Slot) : State :=
  if slots.isEmpty then { s.endPhase with root := 0 } else { s with seq := .token [] slots }

/-- A complete token makes a node: HeaderOverflow when node memory is full; otherwise the next free index
(44_header_codec.md rules R196, R197). `opens` is the slots the new node adds. DESIGN CHOICE, safe: log entry
21. -/
def State.headerNode (s : State) (n : Node) (opens : NodeIdx → List Slot) : State :=
  if s.nodes = 513#10 then s.abort .headerOverflow 513#32
  else
    ((s.allocNode n).linkChild s.nodes s.pendingSlots.head?).afterToken
      (opens s.nodes ++ s.pendingSlots.tail)

/-- HDR_INTERNAL (30_encoding.md rule R106; 44_header_codec.md rule R196): an internal node, whose left and right
subtrees follow. -/
def execHdrInternal (s : State) : Answer :=
  .next (s.headerNode (Node.mkInternal 0 0 0) fun i => [⟨i, .left⟩, ⟨i, .right⟩])

/-- HDR_LEAF (30_encoding.md rule R106; 44_header_codec.md rule R196): a leaf, of weight 0. -/
def execHdrLeaf (sym : Sym) (s : State) : Answer :=
  .next (s.headerNode (Node.mkLeaf sym 0) fun _ => [])

end Sys2Proof.Machine
end

