-- ==== Sys2Proof/Machine/Dispatch.lean ====
section
/-! DEFINITION. The meaning of every instruction: one arm per row of spec/opcode_table.json. -/

namespace Sys2Proof.Machine

def exec (i : Instr) (s : State) : Host.Outcome State Fault Refusal :=
  match i with
  | .nop => Sys2Proof.Machine.execNop s
  | .compress => Sys2Proof.Machine.execCompress s
  | .decompress => Sys2Proof.Machine.execDecompress s
  | .count => Sys2Proof.Machine.execCount s
  | .buildTree => Sys2Proof.Machine.execBuildTree s
  | .buildCodes => Sys2Proof.Machine.execBuildCodes s
  | .writeHeader => Sys2Proof.Machine.execWriteHeader s
  | .encodeBody => Sys2Proof.Machine.execEncodeBody s
  | .readHeader => Sys2Proof.Machine.execReadHeader s
  | .decodeBody => Sys2Proof.Machine.execDecodeBody s
  | .illegalOpAB low => Sys2Proof.Machine.execIllegalOpAB low s
  | .illegalOpCF low => Sys2Proof.Machine.execIllegalOpCF low s
  | .illegalReservedBits reserved op => Sys2Proof.Machine.execIllegalReservedBits reserved op s
  | .softReset ignored => Sys2Proof.Machine.execSoftReset ignored s
  | .hdrInternal => Sys2Proof.Machine.execHdrInternal s
  | .hdrLeaf sym => Sys2Proof.Machine.execHdrLeaf sym s

end Sys2Proof.Machine
end

