-- ==== Sys2Proof/Machine/HeaderRead.lean ====
section
/-! DEFINITION. The HDR_READ phase (44_header_codec.md rules R196 to R199): one bit of the magic or of a token a step; a
complete token is decoded and its meaning taken from `exec` in a step of its own. -/

namespace Sys2Proof.Machine

/-- NODES <- 0; ROOT <- 0 (44_header_codec.md rule R196). -/
def State.hdrReadStart (s : State) : State := { s with nodes := 0, root := 0, seq := .magicIn 0 0 }

/-- One bit of `ReadBits(32)`, `k` bits read so far with value `v`; BadMagic at the end of input or when the 32 bits
are not HUFF_MAGIC (44_header_codec.md rule R196; 60_exceptions.md rule R271). -/
def State.magicBit (s : State) (k : Nat) (v : Word) : State :=
  match s.readBit with
  | (none, t) => t.abort .badMagic v (BitVec.ofNat 6 k)
  | (some b, t) =>
    if k < 31 then { t with seq := .magicIn (k + 1) (v.shiftConcat b) }
    else if v.shiftConcat b = t.magic then { t with seq := .token [] [] }
    else t.abort .badMagic (v.shiftConcat b) 32#6

/-- The next bit of a token; TruncatedHeader at the end of input (44_header_codec.md rules R196, R198). -/
def State.tokenBit (s : State) (bits : List Bool) (slots : List Slot) : State :=
  match s.readBit with
  | (none, t) => t.abort .truncatedHeader (t.nodes.setWidth 32)
  | (some b, t) => { t with seq := .token (bits ++ [b]) slots }

/-- A step of the HDR_READ phase. -/
def hdrReadStep (s : State) : Answer :=
  match s.seq with
  | .start => .next s.hdrReadStart
  | .magicIn k v => .next (s.magicBit k v)
  | .token bits slots =>
    match decodeToken bits with
    | .ok (i, _) => exec i s
    | .error _ => .next (s.tokenBit bits slots)
  | .phaseEnd => .next s.nextPhase
  | _ => .fault .sequencerLost

end Sys2Proof.Machine
end

