-- ==== Sys2Proof/Machine/HeaderWrite.lean ====
section
/-! DEFINITION. The HDR_WRITE phase (44_header_codec.md rule R190), at most one bit a step. -/

namespace Sys2Proof.Machine

/-- The phase up to its first bit: NoTree is checked before any bit is written; then the magic's 32 bits and the tree
from ROOT (44_header_codec.md rule R190). -/
def State.hdrWriteStart (s : State) : State :=
  if s.nodes = 0 then s.abort .noTree 0 else { s with seq := .hdrOut (bitsOf 32 s.magic) [s.root] }

/-- `WriteNode(i)`: the node's token, and before everything else its children, the left one first
(44_header_codec.md rule R190; 30_encoding.md rule R106). -/
def State.hdrNode (s : State) (i : NodeIdx) (todo : List NodeIdx) : State :=
  if (s.nodeAt i).leaf then { s with seq := .hdrOut (tokenBits (some (s.nodeAt i).sym)) todo }
  else { s with seq := .hdrOut (tokenBits none) ((s.nodeAt i).left :: (s.nodeAt i).right :: todo) }

/-- A step of the HDR_WRITE phase. -/
def hdrWriteStep (s : State) : Answer :=
  match s.seq with
  | .start => .next s.hdrWriteStart
  | .hdrOut (b :: bits) todo => .next { s.writeBit b with seq := .hdrOut bits todo }
  | .hdrOut [] (i :: todo) => .next (s.hdrNode i todo)
  | .hdrOut [] [] => .next s.endPhase
  | .phaseEnd => .next s.nextPhase
  | _ => .fault .sequencerLost

end Sys2Proof.Machine
end

