-- ==== Sys2Proof/Machine/Tree.lean ====
section
/-! DEFINITION. The TREE phase (42_tree_builder.md rules R160 to R165): the leaves in one step, then one merge a step. -/

namespace Sys2Proof.Machine

/-- A leaf for a symbol of positive count, its weight the count zero-extended, put into PQ (42_tree_builder.md rules
R160, R163). -/
def State.seedLeaf (s : State) (sym : Nat) (count : Word) : State :=
  { s.allocNode (Node.mkLeaf (BitVec.ofNat 9 sym) (count.setWidth 41)) with pq := s.pq ++ [s.nodes] }

/-- The leaves for the symbols from `sym` on, in ascending order; `counts` is what FREQ holds for them
(42_tree_builder.md rule R161). -/
def seedFrom : (counts : List Word) → (sym : Nat) → State → State
  | [], _, s => s
  | c :: rest, sym, s => seedFrom rest (sym + 1) (if c = 0 then s else s.seedLeaf sym c)

/-- The phase up to its loop: NODES, ROOT and PQ empty, then the leaves (42_tree_builder.md rule R160). -/
def State.seedLeaves (s : State) : State := seedFrom s.freq.toList 0 { s with nodes := 0, root := 0, pq := [] }

/-- Does `i` come before `j` in PQ: by weight, then by index (42_tree_builder.md rule R161). -/
def State.pqBefore (s : State) (i j : NodeIdx) : Bool :=
  (s.nodeAt i).weight < (s.nodeAt j).weight || ((s.nodeAt i).weight == (s.nodeAt j).weight && i < j)

/-- The first, in PQ's order, of `m` and a list of indices. -/
def State.pqLeast (s : State) : (m : NodeIdx) → List NodeIdx → NodeIdx
  | m, [] => m
  | m, i :: rest => s.pqLeast (if s.pqBefore i m then i else m) rest

/-- `ExtractMin(PQ)` from a PQ whose entries are `i` and those of `rest` (42_tree_builder.md rule R161). -/
def State.extractMin (s : State) (i : NodeIdx) (rest : List NodeIdx) : NodeIdx × List NodeIdx :=
  (s.pqLeast i rest, (i :: rest).erase (s.pqLeast i rest))

/-- The merge of the nodes `a` and `b`, `rest` what is left of PQ (42_tree_builder.md rules R160, R161, R163). -/
def State.mergePair (s : State) (a b : NodeIdx) (rest : List NodeIdx) : State :=
  { s.allocNode (Node.mkInternal a b ((s.nodeAt a).weight + (s.nodeAt b).weight)) with pq := rest ++ [s.nodes] }

/-- One turn of the merge loop (42_tree_builder.md rule R160): a merge while PQ has two entries or more, the first one
extracted the left child; with one entry left it is the root. -/
def State.mergeStep (s : State) : Answer :=
  match s.pq with
  | [] => .fault .sequencerLost
  | [r] => .next { s.endPhase with root := r, pq := [] }
  | i :: j :: rest =>
    match s.extractMin i (j :: rest) with
    | (_, []) => .fault .sequencerLost
    | (a, i' :: rest') =>
      .next (s.mergePair a (s.extractMin i' rest').1 (s.extractMin i' rest').2)

/-- A step of the TREE phase. -/
def treeStep (s : State) : Answer :=
  match s.seq with
  | .start =>
    .next (if s.seedLeaves.pq.isEmpty then s.seedLeaves.abort .emptyFrequencySet 0
      else { s.seedLeaves with seq := .merge })
  | .merge => s.mergeStep
  | .phaseEnd => .next s.nextPhase
  | _ => .fault .sequencerLost

end Sys2Proof.Machine
end

