-- ==== Sys2Proof/Machine/Block.lean ====
section
/-! DEFINITION. One step of the block (47_control.md rule R255). -/

namespace Sys2Proof.Machine

/-- The step of the phase PHASE names, at most one channel event with the computation around it (47_control.md rule
R255); while BUSY = 0 no step is enabled and nothing happens (10_state.md rule R22). -/
def phaseStep (s : State) : Answer :=
  match s.phase with
  | .idle => .next s
  | .count => countStep s
  | .tree => treeStep s
  | .codes => codesStep s
  | .hdrWrite => hdrWriteStep s
  | .encode => encodeStep s
  | .flush => flushStep s
  | .hdrRead => hdrReadStep s
  | .decode => decodeStep s

/-- One atomic step of the block; in reset it makes none (70_reset_and_hazards.md rule R310). -/
def blockStep (s : State) : Answer := if s.rstN then phaseStep s else .next s

end Sys2Proof.Machine
end

