-- ==== Sys2Proof/Machine/Csr.lean ====
section
/-! DEFINITION. The CSR window: which register an offset reaches, what a read returns and what a write does (10_state.md rules
R24 to R45; 20_memory.md rules R72 to R75; 47_control.md rules R250, R256, R258). -/

namespace Sys2Proof.Machine

/-- The registers of the window (10_state.md rule R24). -/
inductive Csr where
  | id | cmd | status | errCode | errInfo | irqEn | ctrl | magic | inBytes | outBytes | root | nodes
  | freqIdx | freqData | codeIdx | codeLen | codeBits (w : Fin 8) | nodeIdx | nodeInfo | nodeWlo | nodeWhi
  | reserved
deriving DecidableEq, Repr

/-- The register at a byte offset; none at an offset that is misaligned or beyond 0xFC (10_state.md rule R24;
20_memory.md rule R72). -/
def csrAt (off : Nat) : Option Csr :=
  if off % 4 ≠ 0 ∨ 0xFC < off then none
  else
    match off / 4 with
    | 0 => some .id
    | 1 => some .cmd
    | 2 => some .status
    | 3 => some .errCode
    | 4 => some .errInfo
    | 5 => some .irqEn
    | 6 => some .ctrl
    | 7 => some .magic
    | 8 => some .inBytes
    | 9 => some .outBytes
    | 10 => some .root
    | 11 => some .nodes
    | 12 => some .freqIdx
    | 13 => some .freqData
    | 14 => some .codeIdx
    | 15 => some .codeLen
    | 16 => some (.codeBits 0)
    | 17 => some (.codeBits 1)
    | 18 => some (.codeBits 2)
    | 19 => some (.codeBits 3)
    | 20 => some (.codeBits 4)
    | 21 => some (.codeBits 5)
    | 22 => some (.codeBits 6)
    | 23 => some (.codeBits 7)
    | 24 => some .nodeIdx
    | 25 => some .nodeInfo
    | 26 => some .nodeWlo
    | 27 => some .nodeWhi
    | _ => some .reserved

/-- The registers that read "any value" while BUSY = 1 (20_memory.md rule R74). -/
def Csr.freeWhenBusy : Csr → Bool
  | .inBytes | .outBytes | .root | .nodes | .freqData | .codeLen | .codeBits _ => true
  | .nodeInfo | .nodeWlo | .nodeWhi => true
  | .id | .cmd | .status | .errCode | .errInfo | .irqEn | .ctrl | .magic => false
  | .freqIdx | .codeIdx | .nodeIdx | .reserved => false

/-- The node the NODE windows show, if NODE_IDX < NODES (10_state.md rules R43, R44). -/
def State.shownNode (s : State) : Option Node :=
  if s.nodeIdx < s.nodes then some (s.nodeAt s.nodeIdx) else none

/-- NODE_INFO's word for an entry: LEAF in bit 31, SYM in bits 28:20, RIGHT in bits 19:10, LEFT in bits 9:0
(10_state.md rule R43). -/
def Node.infoWord (n : Node) : Word :=
  if n.leaf then 0b100#3 ++ n.sym ++ 0#20 else 0#12 ++ n.right ++ n.left

/-- CODE_BITSw for the symbol in CODE_IDX: code bit 32w + j in bit 31 - j, 0 past the code's length
(10_state.md rule R41). -/
def State.codeWord (s : State) (w : Nat) : Word :=
  ofBits 32 ((List.range 32).map fun j =>
    decide (32 * w + j < (s.codeLenAt s.codeIdx.toNat).toNat) &&
      (s.codeBitsAt s.codeIdx.toNat).getLsbD (32 * w + j))

/-- What a register reads when it reads exactly: always, or while BUSY = 0 for the "any value" registers
(10_state.md rules R25 to R45). FREQ, CODELEN and CODEBITS read 0 beyond 256. -/
def State.csrValue (s : State) : Csr → Word
  | .id => Config.idValue
  | .cmd => s.lastCmd
  | .status => s.statusWord
  | .errCode => s.errCode
  | .errInfo => s.errInfo
  | .irqEn => s.irqEn.setWidth 32
  | .ctrl => 0
  | .magic => s.magic
  | .inBytes => s.inBytes
  | .outBytes => s.outBytes
  | .root => s.root.setWidth 32
  | .nodes => s.nodes.setWidth 32
  | .freqIdx => s.freqIdx.setWidth 32
  | .freqData => s.freqAt s.freqIdx.toNat
  | .codeIdx => s.codeIdx.setWidth 32
  | .codeLen => (s.codeLenAt s.codeIdx.toNat).setWidth 32
  | .codeBits w => s.codeWord w
  | .nodeIdx => s.nodeIdx.setWidth 32
  | .nodeInfo => (s.shownNode.map Node.infoWord).getD 0
  | .nodeWlo => (s.shownNode.map fun n => n.weight.extractLsb' 0 32).getD 0
  | .nodeWhi => (s.shownNode.map fun n => (n.weight.extractLsb' 32 9).setWidth 32).getD 0
  | .reserved => 0

/-- `MemRead` of a register: the value goes to the host; an "any value" read while BUSY = 1 draws a fresh free value;
nothing else changes (20_memory.md rules R74, R75). -/
def State.csrRead (s : State) (off : Nat) (r : Csr) : State :=
  if s.busy && r.freeWhenBusy then
    { s with reads := s.reads ++ [(off, Config.freeRead s.draws)], draws := s.draws + 1 }
  else { s with reads := s.reads ++ [(off, s.csrValue r)] }

/-- A write of FREQ_DATA: while BUSY it is lost and sets OVERRUN; while idle it writes FREQ[FREQ_IDX], or nothing
beyond 256 (10_state.md rule R38; 47_control.md rule R256). -/
def State.writeFreqData (s : State) (v : Word) : State :=
  if s.busy then { s with overrun := true } else s.setFreq s.freqIdx.toNat v

/-- `MemWrite` of a register (20_memory.md rule R75). A CMD word is decoded and its meaning taken from `exec`, and so
is a CTRL word that is a soft reset. -/
def csrWrite (r : Csr) (v : Word) (s : State) : Answer :=
  match r with
  | .cmd => exec (decodeCmd v) s
  | .ctrl =>
    match decodeCtrl v with
    | .ok i => exec i s
    | .error _ => .next s
  | .status => .next (s.clearStatus v)
  | .irqEn => .next { s with irqEn := v.extractLsb' 0 2 }
  | .freqIdx => .next { s with freqIdx := v.extractLsb' 0 9 }
  | .freqData => .next (s.writeFreqData v)
  | .codeIdx => .next { s with codeIdx := v.extractLsb' 0 9 }
  | .nodeIdx => .next { s with nodeIdx := v.extractLsb' 0 10 }
  | .id | .errCode | .errInfo | .magic | .inBytes | .outBytes | .root | .nodes | .codeLen | .codeBits _ => .next s
  | .nodeInfo | .nodeWlo | .nodeWhi | .reserved => .next s

end Sys2Proof.Machine
end

