-- ==== Sys2Proof/Machine/Schedule.lean ====
section
/-! DEFINITION. Who moves next and what the move does: the host's accesses and the block's steps, one at a time
(20_memory.md rules R72, R80, R85; 47_control.md rule R255; 70_reset_and_hazards.md rule R310). -/

namespace Sys2Proof.Machine

/-- `MemRead(off, width)`: refused in reset and refused unless it is a 32-bit access at an aligned offset of the
window (20_memory.md rule R72; 70_reset_and_hazards.md rule R310). -/
def memRead (off width : Nat) (s : State) : Answer :=
  if !s.rstN then .refused .accessInReset
  else if width ≠ 4 then .refused .csrAccess
  else
    match csrAt off with
    | none => .refused .csrAccess
    | some r => .next (s.csrRead off r)

/-- `MemWrite(off, width, v)`, under the same conditions (20_memory.md rule R72; 70_reset_and_hazards.md rule
R310). -/
def memWrite (off width : Nat) (v : Word) (s : State) : Answer :=
  if !s.rstN then .refused .accessInReset
  else if width ≠ 4 then .refused .csrAccess
  else
    match csrAt off with
    | none => .refused .csrAccess
    | some r => csrWrite r v s

/-- A new input stream, loaded at its start; no move while BUSY = 1 (20_memory.md rules R76, R80).
DEDUCED, unsafe: log entry 12. -/
def loadInput (bytes : List Byte) (s : State) : Answer :=
  if s.busy then .refused .loadWhileBusy else .next { s with inData := bytes, inPos := 0 }

/-- The moves still to make after a read of STATUS by `poll`: with BUSY = 1 the next gap's block steps and then the rest
of the poll, with BUSY = 0 the moves after it (30_encoding.md rule R115). DESIGN CHOICE of the gaps, safe: log
entry 6. -/
def afterPoll (busy : Bool) (gaps : List Nat) (rest : List Move) : List Move :=
  if busy then List.replicate (gaps.headD 1) .block ++ .poll gaps.tail :: rest else rest

/-- One turn of `poll`: a `rd 0x08`, recorded like any other, and again until bit 0 of its value is 0 (30_encoding.md
rule R115; 70_reset_and_hazards.md rule R332). -/
def pollStep (gaps : List Nat) (rest : List Move) (s : State) : Answer :=
  memRead 0x08 4 { s with agenda := afterPoll s.busy gaps rest }

/-- The wait for the interrupt: over when the output is 1; until then the block takes its steps; with the block idle
it never ends (20_memory.md rule R86; 60_exceptions.md rule R286). -/
def waitIrqStep (rest : List Move) (s : State) : Answer :=
  if s.irq then .next { s with agenda := rest }
  else if s.busy then blockStep s
  else .fault .waitsForever

/-- One step of the whole machine: the next move of the agenda, or, when none is left, a step of the block. -/
def moveNext (s : State) : Answer :=
  match s.agenda with
  | [] => blockStep s
  | .block :: rest => blockStep { s with agenda := rest }
  | .read off width :: rest => memRead off width { s with agenda := rest }
  | .write off width v :: rest => memWrite off width v { s with agenda := rest }
  | .platformRead addr width :: rest =>
    match Config.windowOffset addr with
    | none => .refused .csrAccess
    | some off => memRead off width { s with agenda := rest }
  | .platformWrite addr width v :: rest =>
    match Config.windowOffset addr with
    | none => .refused .csrAccess
    | some off => memWrite off width v { s with agenda := rest }
  | .loadIn bytes :: rest => loadInput bytes { s with agenda := rest }
  | .drainOut :: rest => .next { s with agenda := rest }
  | .poll gaps :: rest => pollStep gaps rest s
  | .waitIrq :: rest => waitIrqStep rest s
  | .rstLow :: rest => .next { s.resetBlock with agenda := rest, rstN := false }
  | .rstHigh :: rest => .next { s.resetBlock with agenda := rest, rstN := true }

/-- The state whose very next step runs the instruction with the given pattern: a CMD word or a CTRL word as the
host's next write, a header token as the token HDR_READ has just read. DESIGN CHOICE, safe: log entry 4. -/
def State.placePattern (s : State) : Pattern → State
  | .cmdWord v => { s with rstN := true, agenda := .write 0x04 4 v :: s.agenda }
  | .ctrlWord v => { s with rstN := true, agenda := .write 0x18 4 v :: s.agenda }
  | .headerBits bits =>
    { s with rstN := true, agenda := .block :: s.agenda, phase := .hdrRead, seq := .token bits s.pendingSlots }

end Sys2Proof.Machine
end

