-- ==== Sys2Proof/Machine/Step.lean ====
section
/-! DEFINITION. One step of the machine, and the placing of an instruction where the next step runs it. -/

namespace Sys2Proof.Machine

/-- One step: the next move of the host or the schedule, or a step of the block. -/
def step (s : State) : Host.Outcome State Fault Refusal := moveNext s

/-- `s` with an instruction of the opcode table placed so that the next step runs it: its bits as the table numbers
them (Decode.lean, `tablePattern`). Bits that are no row's are not placed. -/
def State.withFetchWord (s : State) (nbits w : Nat) : State :=
  match tablePattern nbits w with
  | some p => s.placePattern p
  | none => s

end Sys2Proof.Machine
end

