-- ==== Sys2Proof/Safety.lean ====
section
/-! DEFINITION. The terms claims are made in: the invariants of every run, the tree that node memory stands for, the bit
streams the reader and the writer stand for, and the outcome of a command. -/

namespace Sys2Proof.Machine

/-! ### The invariant of every run -/

/-- Does the sequencer's position belong to the phase (10_state.md rule R21; State.lean, `Seq`). -/
def seqFits : Phase → Seq → Bool
  | .idle, .start => true
  | .idle, _ => false
  | _, .start | _, .phaseEnd => true
  | .count, .byteLoop | .encode, .byteLoop | .encode, .codeOut _ _ => true
  | .tree, .merge | .codes, .visit _ | .hdrWrite, .hdrOut _ _ => true
  | .hdrRead, .magicIn _ _ | .hdrRead, .token _ _ | .decode, .symbol | .decode, .descend => true
  | _, _ => false

/-- What holds in every state a run reaches, tables apart. -/
structure State.Inv (s : State) : Prop where
  /-- NODES is 0 to 513 (10_state.md rule R36). -/
  nodesBound : s.nodes.toNat ≤ 513
  /-- RCNT is 0 to 8 (10_state.md rule R66). -/
  readerBound : s.rcnt.toNat ≤ 8
  /-- WBUF's bits above the pending ones are 0 (40_bitio.md rule R135, "right-aligned"). -/
  writerBound : s.wbuf.toNat < 2 ^ s.wcnt.toNat
  /-- The IN channel's position never passes the end of IN_DATA (20_memory.md rule R76). -/
  inPosBound : s.inPos ≤ s.inData.length
  /-- DONE and ERR are never both 1 (60_exceptions.md rule R284). -/
  oneOutcome : ¬(s.done = true ∧ s.err = true)
  /-- While a command runs there is no outcome and no error record (47_control.md rule R251). -/
  busyClear : s.busy = true → s.done = false ∧ s.err = false ∧ s.errCode = 0 ∧ s.errInfo = 0
  /-- DONE stands with an empty error record (60_exceptions.md rule R283, 47_control.md rule R251). -/
  doneClear : s.done = true → s.errCode = 0
  /-- ERR stands with an error kind of the table (70_reset_and_hazards.md rule R332). -/
  errNamed : s.err = true → errKind s.errCode ≠ 0
  /-- While IDLE, CUR and PQ are clear (60_exceptions.md rules R280, R283). -/
  idleRest : s.busy = false → s.cur = 0 ∧ s.pq = [] ∧ s.seq = .start
  /-- ERR_CODE's reserved bits read 0 (10_state.md rule R28). -/
  errReserved : s.errCode.extractLsb' 14 18 = 0 ∧ s.errCode.extractLsb' 4 4 = 0
  /-- CODE is 0 to 9, NBITS 0 to 32 and 0 but for BadMagic (60_exceptions.md rule R270). -/
  errRange : errKind s.errCode ≤ 9 ∧ errBits s.errCode ≤ 32 ∧ (errKind s.errCode ≠ 1 → errBits s.errCode = 0)
  /-- The sequencer's position belongs to the phase. -/
  seqFits : seqFits s.phase s.seq = true
  /-- The phase is one of the running command's row (10_state.md rule R23). -/
  rowFits : s.busy = true → s.phase ∈ phaseRow (cmdOp s.lastCmd)
  /-- In DECODE the writer is at a byte boundary (46_decompressor.md rule R232, "Output alignment"), and so it is in
  the HDR_READ phase that leads there. -/
  decodeAligned : (s.phase = .decode ∨ (s.phase = .hdrRead ∧ cmdOp s.lastCmd = 2)) → s.wcnt = 0
  /-- In the merge loop PQ is not empty, and node memory has room for the merges to come (42_tree_builder.md rules
  R160, R162). -/
  mergeRoom : s.phase = .tree → s.seq = .merge → s.pq ≠ [] ∧ s.nodes.toNat + s.pq.length ≤ 514
  /-- Fewer than 32 bits of the magic have been read while more are due (44_header_codec.md rule R196). -/
  magicRoom : ∀ k v, s.seq = .magicIn k v → k < 32
  /-- While `rst_n` = 0 the block holds its reset values (70_reset_and_hazards.md rule R310). -/
  resetHeld : s.rstN = false → s = s.resetBlock

/-! ### The tree in node memory -/

/-- The child of node `p` on a side. -/
def State.childOf (s : State) (p : NodeIdx) : Side → NodeIdx
  | .left => (s.nodeAt p).left
  | .right => (s.nodeAt p).right

/-- Is `p` a valid internal entry. -/
def State.isInternal (s : State) (p : NodeIdx) : Prop := p < s.nodes ∧ (s.nodeAt p).leaf = false

/-- The entries 0 to NODES-1 form one strictly binary tree rooted at ROOT (10_state.md rule R62). -/
structure State.IsTree (s : State) : Prop where
  /-- ROOT is a valid entry. -/
  rootValid : s.root < s.nodes
  /-- "Every internal entry has left < NODES and right < NODES." -/
  childValid : ∀ p side, s.isInternal p → s.childOf p side < s.nodes
  /-- "Every entry other than ROOT is the child of exactly one internal entry." -/
  oneParent : ∀ j, j < s.nodes → j ≠ s.root → ∃! slot : NodeIdx × Side, s.isInternal slot.1 ∧ s.childOf slot.1 slot.2 = j
  /-- "ROOT is nobody's child." -/
  rootFree : ∀ p side, s.isInternal p → s.childOf p side ≠ s.root
  /-- "There are no cycles." -/
  acyclic : ∃ rank : NodeIdx → Nat, ∀ p side, s.isInternal p → rank (s.childOf p side) < rank p

/-- The TREE phase in its merge loop: PQ holds the roots of the trees built so far, and children have lower indices
(42_tree_builder.md rules R160 to R162). -/
structure State.IsForest (s : State) : Prop where
  pqNodup : s.pq.Nodup
  pqValid : ∀ i ∈ s.pq, i < s.nodes
  childLower : ∀ p side, s.isInternal p → s.childOf p side < p
  rootsFree : ∀ p side, s.isInternal p → s.childOf p side ∉ s.pq
  oneParent : ∀ j, j < s.nodes → j ∉ s.pq → ∃! slot : NodeIdx × Side, s.isInternal slot.1 ∧ s.childOf slot.1 slot.2 = j

/-- HDR_READ between tokens: the children that stand in `slots` are still to come; every other child has a higher
index than its parent (44_header_codec.md rule R197). -/
structure State.IsPartial (s : State) (slots : List Slot) : Prop where
  slotsNodup : slots.Nodup
  slotsInternal : ∀ slot ∈ slots, s.isInternal slot.parent
  childHigher : ∀ p side, s.isInternal p → ⟨p, side⟩ ∉ slots → p < s.childOf p side ∧ s.childOf p side < s.nodes
  oneParent : ∀ j, j < s.nodes → j ≠ 0 →
    ∃! slot : NodeIdx × Side, s.isInternal slot.1 ∧ ⟨slot.1, slot.2⟩ ∉ slots ∧ s.childOf slot.1 slot.2 = j
  begun : slots = [] ↔ s.nodes = 0

/-- The tree invariant of every run: outside the phases that build one, a tree stands whenever NODES > 0 (10_state.md
rule R62, which speaks of BUSY = 0; it holds in every phase that only reads the tree as well). -/
structure State.TreeInv (s : State) : Prop where
  settled : s.phase ≠ .tree → s.phase ≠ .hdrRead → s.nodes ≠ 0 → s.IsTree
  built : s.phase = .tree ∨ s.phase = .hdrRead → s.seq = .phaseEnd → s.nodes ≠ 0 → s.IsTree
  merging : s.phase = .tree → s.seq = .merge → s.IsForest
  readingMagic : s.phase = .hdrRead → (∃ k v, s.seq = .magicIn k v) → s.nodes = 0
  parsing : s.phase = .hdrRead → ∀ bits slots, s.seq = .token bits slots → s.IsPartial slots

/-! ### Reset -/

/-- Every piece of block state holds its reset value, and every register reads its own (10_state.md rules R24, R69);
MAGIC reads the instance's constant. NODE entries have none. -/
structure State.AtReset (s : State) : Prop where
  idle : s.phase = .idle
  registers : ∀ r, s.csrValue r = match r with
    | .id => 0x48554646#32
    | .magic => s.magic
    | _ => 0
  irqEn : s.irqEn = 0
  indices : s.freqIdx = 0 ∧ s.codeIdx = 0 ∧ s.nodeIdx = 0
  freq : ∀ i, s.freqAt i = 0
  tree : s.nodes = 0 ∧ s.root = 0
  codes : ∀ i, s.codeLenAt i = 0 ∧ s.codeBitsAt i = 0
  reader : s.rbuf = 0 ∧ s.rcnt = 0
  writer : s.wbuf = 0 ∧ s.wcnt = 0
  walker : s.cur = 0
  queue : s.pq = []
  lastCmd : s.lastCmd = 0
  irq : s.irq = false

/-! ### Trees, codes and headers as the spec speaks of them -/

/-- A Huffman tree: its shape, its left/right order and its leaf symbols (44_header_codec.md rule R197). -/
inductive CodeTree where
  | leaf (sym : Sym)
  | node (left right : CodeTree)
deriving DecidableEq, Repr

/-- How many nodes a tree has. -/
def CodeTree.nodeCount : CodeTree → Nat
  | .leaf _ => 1
  | .node l r => 1 + l.nodeCount + r.nodeCount

/-- The length of the longest path from the root. -/
def CodeTree.depth : CodeTree → Nat
  | .leaf _ => 0
  | .node l r => 1 + max l.depth r.depth

/-- The leaves in pre-order, each with its path from the root: 0 for left, 1 for right (43_code_table.md rule
R180). -/
def CodeTree.paths : CodeTree → List (Sym × List Bool)
  | .leaf sym => [(sym, [])]
  | .node l r => (l.paths.map fun e => (e.1, false :: e.2)) ++ (r.paths.map fun e => (e.1, true :: e.2))

/-- The codes of a tree: the leaf paths, and the placeholder "0" for a single leaf (43_code_table.md rules R180,
R181). -/
def CodeTree.codes : CodeTree → List (Sym × List Bool)
  | .leaf sym => [(sym, [false])]
  | .node l r => (CodeTree.node l r).paths

/-- The code of a symbol: of the leaves that carry it the one visited last wins; empty if none does
(43_code_table.md rule R184). -/
def CodeTree.codeFor (T : CodeTree) (sym : Sym) : List Bool :=
  ((T.codes.reverse.find? fun e => e.1 == sym).map Prod.snd).getD []

/-- The pre-order serialization of a tree (30_encoding.md rule R106). -/
def CodeTree.header : CodeTree → List Bool
  | .leaf sym => true :: bitsOf 9 sym
  | .node l r => false :: (l.header ++ r.header)

/-- How many whole header tokens a bit sequence holds, `skip` symbol bits of a leaf's token still to come
(30_encoding.md rules R106, R109). -/
def tokensIn : (skip : Nat) → List Bool → Nat
  | _, [] => 0
  | 0, false :: rest => 1 + tokensIn 0 rest
  | 0, true :: rest => tokensIn 9 rest
  | 1, _ :: rest => 1 + tokensIn 0 rest
  | k + 2, _ :: rest => tokensIn (k + 1) rest

/-- The walk down a tree, one bit an edge: the leaf reached and the bits left, or none when the bits run out first
(46_decompressor.md rule R232). -/
def CodeTree.descend : CodeTree → List Bool → Option (Sym × List Bool)
  | .leaf sym, bits => some (sym, bits)
  | .node _ _, [] => none
  | .node l _, false :: bits => l.descend bits
  | .node _ r, true :: bits => r.descend bits

/-- The next symbol of a body: a single-leaf tree consumes one bit of any value (46_decompressor.md rules R232,
R237). -/
def CodeTree.nextSym : CodeTree → List Bool → Option (Sym × List Bool)
  | .leaf _, [] => none
  | .leaf sym, _ :: bits => some (sym, bits)
  | .node l r, bits => (CodeTree.node l r).descend bits

/-- The body `bits` spells the symbols `syms` and then the sentinel, with `rest` after it (46_decompressor.md rule
R232). -/
inductive CodeTree.Spells (T : CodeTree) : List Bool → List Sym → List Bool → Prop where
  | stop {bits rest : List Bool} : T.nextSym bits = some (256#9, rest) → T.Spells bits [] rest
  | emit {bits more rest : List Bool} {sym : Sym} {syms : List Sym} : T.nextSym bits = some (sym, more) →
      sym ≠ 256#9 → T.Spells more syms rest → T.Spells bits (sym :: syms) rest

/-- The body `bits` spells the symbols `syms` and ends before the sentinel (60_exceptions.md rule R273). -/
inductive CodeTree.Starves (T : CodeTree) : List Bool → List Sym → Prop where
  | dry {bits : List Bool} : T.nextSym bits = none → T.Starves bits []
  | emit {bits more : List Bool} {sym : Sym} {syms : List Sym} : T.nextSym bits = some (sym, more) →
      sym ≠ 256#9 → T.Starves more syms → T.Starves bits (sym :: syms)

/-- The symbols of positive count, in ascending order (42_tree_builder.md rule R161). -/
def State.positives (s : State) : List Nat := (List.range 257).filter fun i => s.freqAt i != 0

/-- FREQ as COUNT leaves it for the given bytes, with the given count of the sentinel (41_frequency_counter.md rule
R150). -/
def countsOf (bytes : List Byte) (sentinel : Word) : Vector Word 257 :=
  Vector.ofFn fun i => if i.val = 256 then sentinel else BitVec.ofNat 32 (bytes.count (BitVec.ofNat 8 i.val))

/-- Node `i` of node memory is the root of the tree `T`. -/
def State.Represents (s : State) : NodeIdx → CodeTree → Prop
  | i, .leaf sym => i < s.nodes ∧ (s.nodeAt i).leaf = true ∧ (s.nodeAt i).sym = sym
  | i, .node l r =>
    i < s.nodes ∧ (s.nodeAt i).leaf = false ∧ s.Represents (s.nodeAt i).left l ∧ s.Represents (s.nodeAt i).right r

/-- Node memory holds the tree `T` in pre-order from index `i`: the node at `i`, then its left subtree from `i + 1`, then
its right subtree (44_header_codec.md rule R197). -/
def State.PreOrder (s : State) : Nat → CodeTree → Prop
  | i, .leaf sym => (s.nodeAt (BitVec.ofNat 10 i)).leaf = true ∧ (s.nodeAt (BitVec.ofNat 10 i)).sym = sym
  | i, .node l r =>
    (s.nodeAt (BitVec.ofNat 10 i)).leaf = false ∧
    (s.nodeAt (BitVec.ofNat 10 i)).left = BitVec.ofNat 10 (i + 1) ∧
    (s.nodeAt (BitVec.ofNat 10 i)).right = BitVec.ofNat 10 (i + 1 + l.nodeCount) ∧
    s.PreOrder (i + 1) l ∧ s.PreOrder (i + 1 + l.nodeCount) r

/-! ### Bit streams -/

/-- The bytes the IN channel has still to give (20_memory.md rule R76). -/
def State.inLeft (s : State) : List Byte := s.inData.drop s.inPos

/-- Bytes as bits, bit 7 of each first (20_memory.md rule R79). -/
def byteBits (bytes : List Byte) : List Bool := bytes.flatMap (bitsOf 8)

/-- The bits the reader has still to give: those left in RBUF, then those of the bytes not yet taken
(20_memory.md rule R79). -/
def State.inBits (s : State) : List Bool :=
  bitsOf s.rcnt.toNat s.rbuf ++ byteBits s.inLeft

/-- The bits of an OUT token. -/
def OutTok.bits : OutTok → List Bool
  | .byte b => bitsOf 8 b
  | .close => []

/-- The bits the writer has been given: those sent, then those pending (20_memory.md rule R79). -/
def State.outBits (s : State) : List Bool := s.outLog.flatMap OutTok.bits ++ bitsOf s.wcnt.toNat s.wbuf

/-- A bit sequence as bytes, the last one padded with 0 bits (20_memory.md rule R79, 30_encoding.md rule R111). -/
def packBits : List Bool → List Byte
  | b7 :: b6 :: b5 :: b4 :: b3 :: b2 :: b1 :: b0 :: rest => ofBits 8 [b7, b6, b5, b4, b3, b2, b1, b0] :: packBits rest
  | [] => []
  | bits => [ofBits 8 (bits ++ List.replicate (8 - bits.length) false)]

/-! ### Runs and outcomes -/

/-- A state in which a command is accepted, and after it the block runs undisturbed: out of reset, IDLE, and no move
of the host to come (70_reset_and_hazards.md rule R313). -/
structure State.Quiet (s : State) : Prop where
  outOfReset : s.rstN = true
  idle : s.phase = .idle
  alone : s.agenda = []

/-- `t` is reached from `s` in some number of steps. -/
def Reaches (s t : State) : Prop := ∃ n, Host.Core.run Sys2Proof.core n s = .next t

/-- What every command that ends well leaves alike, for a command of OP `op` accepted in `s`: LAST_CMD, the flags, no
error record, the sequencer at rest; the rest as in `s` (47_control.md rules R250, R251; 60_exceptions.md rule
R283). -/
def State.wellEnded (s : State) (op : BitVec 4) : State :=
  { s with
    lastCmd := 0#28 ++ op, done := true, err := false, errCode := 0, errInfo := 0
    cur := 0, pq := [], phase := .idle, seq := .start }

/-- What every aborted command leaves alike, for a command of OP `op` accepted in `s`: LAST_CMD, the flags, the error
record, the reader and the writer clear, no tree after the errors that empty it; the rest as in `s` (60_exceptions.md
rules R280, R281). -/
def State.failedWith (s : State) (op : BitVec 4) (code : BitVec 4) (info : Word) (nbits : BitVec 6 := 0) : State :=
  { s with
    lastCmd := 0#28 ++ op, done := false, err := true, errCode := 0#18 ++ nbits ++ 0#4 ++ code, errInfo := info
    rbuf := 0, rcnt := 0, wbuf := 0, wcnt := 0
    nodes := if code ∈ [1#4, 2#4, 4#4, 7#4] then 0 else s.nodes
    root := if code ∈ [1#4, 2#4, 4#4, 7#4] then 0 else s.root
    cur := 0, pq := [], phase := .idle, seq := .start }

/-- The command has ended well (70_reset_and_hazards.md rule R332, "Success"). -/
structure State.Succeeded (s : State) : Prop where
  idle : s.phase = .idle
  done : s.done = true
  noErr : s.err = false

end Sys2Proof.Machine
end

