-- ==== Sys2Proof/Certificates/Slice0/Obligations.lean ====
section
/-! DEFINITION. The statements for the provers: what HUFFCORE's instructions, registers, phases and commands do, rule by
rule of the spec. A run of a command is stated from a `Quiet` state: out of reset, idle, and no host move to come. -/

open Sys2Proof Sys2Proof.Machine

/-! ### Encoding -/

/-- 30_encoding.md rules R101, R103, R104, R106, R107: words and tokens written out from the tables. -/
def Obligations.DecodeWords : Prop :=
  decodeCmd 0x00000000#32 = .nop ∧ decodeCmd 0x00000001#32 = .compress ∧ decodeCmd 0x00000002#32 = .decompress ∧
  decodeCmd 0x00000003#32 = .count ∧ decodeCmd 0x00000004#32 = .buildTree ∧
  decodeCmd 0x00000005#32 = .buildCodes ∧ decodeCmd 0x00000006#32 = .writeHeader ∧
  decodeCmd 0x00000007#32 = .encodeBody ∧ decodeCmd 0x00000008#32 = .readHeader ∧
  decodeCmd 0x00000009#32 = .decodeBody ∧ decodeCmd 0x0000000B#32 = .illegalOpAB 1 ∧
  decodeCmd 0x0000000E#32 = .illegalOpCF 2 ∧ decodeCmd 0x00000010#32 = .illegalReservedBits 1 0 ∧
  decodeCmd 0x80000003#32 = .illegalReservedBits 0x8000000 3 ∧
  decodeCtrl 0x00000001#32 = .ok (.softReset 0) ∧ decodeCtrl 0xFFFFFFFE#32 = .error .ctrlNoOperation ∧
  decodeToken [false, true] = .ok (.hdrInternal, [true]) ∧
  decodeToken [true, false, false, true, false, false, false, false, true, false, true] = .ok (.hdrLeaf 66, [true]) ∧
  decodeToken [true, true, false, false, false, false, false, false, false] = .error .tokenIncomplete

/-- 30_encoding.md rules R100 to R107: the pattern of every well-formed instruction decodes to it, with every field at
every value. -/
def Obligations.DecodeEncode : Prop := ∀ i : Instr, i.wellFormed = true → decode (encode i) = .ok i

/-- 30_encoding.md rules R100, R103, R104, R106, R109: the other direction. Every CMD word is the word of a well-formed
instruction; a CTRL word is one exactly when bit 0 is set; a token is exactly the bits its decoding takes. -/
def Obligations.EncodeDecode : Prop :=
  (∀ w, (decodeCmd w).wellFormed = true ∧ encode (decodeCmd w) = .cmdWord w) ∧
  (∀ w i, decodeCtrl w = .ok i ↔ encode i = .ctrlWord w) ∧
  (∀ w, decodeCtrl w = .error .ctrlNoOperation ↔ w.getLsbD 0 = false) ∧
  (∀ bits i rest, decodeToken bits = .ok (i, rest) ↔ ∃ token, encode i = .headerBits token ∧ bits = token ++ rest)

/-! ### Accepting a command word -/

/-- 47_control.md rule R250: a CMD write while BUSY = 1 sets OVERRUN and nothing else; while BUSY = 0 the word is
latched and is illegal, NOP, or the start of a command. -/
def Obligations.CommandWord : Prop :=
  ∀ (w : Word) (s : State),
    (s.phase ≠ .idle → exec (decodeCmd w) s = .next { s with overrun := true }) ∧
    (s.phase = .idle → exec (decodeCmd w) s = .next
      (if w.extractLsb' 4 28 ≠ 0 ∨ 0xA ≤ (w.extractLsb' 0 4).toNat then
        ({ s with lastCmd := w } : State).illegalCommand w
      else if w.extractLsb' 0 4 = 0 then { s with lastCmd := w }
      else ({ s with lastCmd := w } : State).commandStart (w.extractLsb' 0 4)))

/-- 47_control.md rules R251, R252; 10_state.md rule R23: what accepting each of the nine commands leaves, all of it, with
the first phase and the two clearings of the table's rows. -/
def Obligations.CommandStart : Prop :=
  ∀ row ∈ ([(.compress, 1, .count, true, true), (.decompress, 2, .hdrRead, true, true),
      (.count, 3, .count, true, false), (.buildTree, 4, .tree, false, false),
      (.buildCodes, 5, .codes, false, false), (.writeHeader, 6, .hdrWrite, false, true),
      (.encodeBody, 7, .encode, false, false), (.readHeader, 8, .hdrRead, true, false),
      (.decodeBody, 9, .decode, false, true)] : List (Instr × Word × Phase × Bool × Bool)),
    ∀ s : State, s.phase = .idle → exec row.1 s = .next { s with
      lastCmd := row.2.1, done := false, err := false, errCode := 0, errInfo := 0, inBytes := 0, outBytes := 0
      rbuf := if row.2.2.2.1 then 0 else s.rbuf
      rcnt := if row.2.2.2.1 then 0 else s.rcnt
      wbuf := if row.2.2.2.2 then 0 else s.wbuf
      wcnt := if row.2.2.2.2 then 0 else s.wcnt
      cur := 0, pq := [], phase := row.2.2.1, seq := .start }

/-- 47_control.md rule R253: a NOP accepted while idle writes LAST_CMD alone; while busy it sets OVERRUN. -/
def Obligations.NopCommand : Prop :=
  ∀ s : State,
    (s.phase = .idle → exec .nop s = .next { s with lastCmd := 0 }) ∧
    (s.phase ≠ .idle → exec .nop s = .next { s with overrun := true })

/-- 47_control.md rule R254, with 60_exceptions.md rule R280: an illegal word accepted while idle, all it leaves. -/
def Obligations.IllegalCommand : Prop :=
  ∀ (s : State) (i : Instr) (w : Word), s.phase = .idle →
    (∃ low, i = .illegalOpAB low ∧ w = 0x5#31 ++ low) ∨ (∃ low, i = .illegalOpCF low ∧ w = 0x3#30 ++ low) ∨
      (∃ reserved op, reserved ≠ 0 ∧ i = .illegalReservedBits reserved op ∧ w = reserved ++ op) →
    exec i s = .next { s with
      lastCmd := w, done := false, err := true, errCode := 5, errInfo := w, inBytes := 0, outBytes := 0
      rbuf := 0, rcnt := 0, wbuf := 0, wcnt := 0, cur := 0, pq := [], seq := .start }

/-- 47_control.md rule R256: what a write of each register does while BUSY = 1. -/
def Obligations.BusyWrites : Prop :=
  ∀ (s : State) (v : Word), s.phase ≠ .idle →
    csrWrite .cmd v s = .next { s with overrun := true } ∧
    csrWrite .freqData v s = .next { s with overrun := true } ∧
    csrWrite .status v s = .next { s with
      done := s.done && !v.getLsbD 1, err := s.err && !v.getLsbD 2, overrun := s.overrun && !v.getLsbD 3 } ∧
    csrWrite .irqEn v s = .next { s with irqEn := v.extractLsb' 0 2 } ∧
    csrWrite .freqIdx v s = .next { s with freqIdx := v.extractLsb' 0 9 } ∧
    csrWrite .codeIdx v s = .next { s with codeIdx := v.extractLsb' 0 9 } ∧
    csrWrite .nodeIdx v s = .next { s with nodeIdx := v.extractLsb' 0 10 } ∧
    (v.getLsbD 0 = true → csrWrite .ctrl v s = .next s.resetBlock) ∧
    (v.getLsbD 0 = false → csrWrite .ctrl v s = .next s) ∧
    ∀ r ∈ ([.id, .errCode, .errInfo, .magic, .inBytes, .outBytes, .root, .nodes, .codeLen, .nodeInfo, .nodeWlo,
        .nodeWhi, .reserved] : List Csr) ++ (List.finRange 8).map .codeBits, csrWrite r v s = .next s

/-! ### Reset -/

/-- 47_control.md rule R258, 70_reset_and_hazards.md rule R311: the soft reset, accepted whether BUSY is 0 or 1, whatever
the ignored bits; and a CTRL write with bit 0 clear does nothing. -/
def Obligations.SoftReset : Prop :=
  (∀ (ignored : BitVec 31) (s : State), ∃ t, exec (.softReset ignored) s = .next t ∧ t.AtReset ∧
    t.magic = s.magic ∧ t.rstN = s.rstN ∧ t.inData = s.inData ∧ t.inPos = s.inPos ∧ t.outLog = s.outLog) ∧
  (∀ (v : Word) (s : State), v.getLsbD 0 = false → csrWrite .ctrl v s = .next s)

/-- 70_reset_and_hazards.md rule R310: hardware reset. While `rst_n` is 0 a CSR access is refused and the block makes no
step; when it rises the block state is the reset state; the host's side is untouched. That the block state is the reset
state as soon as `rst_n` falls is the model's inference, log entry 24 (DEDUCED). -/
def Obligations.HardwareReset : Prop :=
  ∀ (s : State) (rest : List Move),
    (∃ t, step { s with agenda := .rstLow :: rest } = .next t ∧ t.rstN = false ∧ t.AtReset ∧
      t.inData = s.inData ∧ t.inPos = s.inPos ∧ t.outLog = s.outLog) ∧
    (∃ t, step { s with agenda := .rstHigh :: rest } = .next t ∧ t.rstN = true ∧ t.AtReset ∧
      t.magic = s.magic ∧ t.inData = s.inData ∧ t.inPos = s.inPos ∧ t.outLog = s.outLog) ∧
    (s.rstN = false → blockStep s = .next s ∧ ∀ off width v,
      memRead off width s = .refused .accessInReset ∧ memWrite off width v s = .refused .accessInReset)

/-- 10_state.md rule R69: the machine right after reset, ready for a command. That nothing is loaded, sent or read and no
host move is to come is the model's choice (log entry 9). -/
def Obligations.ResetState : Prop :=
  State.reset.AtReset ∧ State.reset.Quiet ∧ State.reset.magic = Config.huffMagic ∧ State.reset.inData = [] ∧
    State.reset.inPos = 0 ∧ State.reset.outLog = [] ∧ State.reset.reads = []

/-! ### Invariants -/

/-- The two invariants hold right after reset. -/
def Obligations.InvAtReset : Prop := State.reset.Inv ∧ State.reset.TreeInv

/-- Every step of the machine, the block's and the host's, keeps the invariant of every run: the ranges of 10_state.md
rules R36, R66, the flags of 60_exceptions.md rule R284, the error record's form, the sequencer's. -/
def Obligations.InvKept : Prop := ∀ s t : State, s.Inv → step s = .next t → t.Inv

/-- 10_state.md rule R62: every step keeps the tree invariant, whatever phase builds, reads or empties the tree. -/
def Obligations.TreeInvKept : Prop := ∀ s t : State, s.Inv → s.TreeInv → step s = .next t → t.TreeInv

/-- 10_state.md rule R62, 43_code_table.md rule R182: what the tree invariant says, as a tree: every entry is a node of
it, and no path is longer than 256. -/
def Obligations.TreeOfNodes : Prop :=
  ∀ s : State, s.nodes.toNat ≤ 513 → s.IsTree →
    ∃ T : CodeTree, s.Represents s.root T ∧ T.nodeCount = s.nodes.toNat ∧ T.depth ≤ 256

/-! ### A step runs the decoded instruction -/

/-- The next move a CMD write, a CTRL write or a completed header token: the step is `exec` of the decoded instruction on
the state with that move taken off the agenda. The last clause says the same of an instruction placed by its pattern, as
`State.withFetchWord` places one (log entry 4). -/
def Obligations.StepRunsInstruction : Prop :=
  (∀ (s : State) (w : Word) (rest : List Move), s.rstN = true →
    step { s with agenda := .write 0x04 4 w :: rest } = exec (decodeCmd w) { s with agenda := rest }) ∧
  (∀ (s : State) (w : Word) (rest : List Move) (i : Instr), s.rstN = true → decodeCtrl w = .ok i →
    step { s with agenda := .write 0x18 4 w :: rest } = exec i { s with agenda := rest }) ∧
  (∀ (s : State) (bits more : List Bool) (slots : List Slot) (i : Instr), s.rstN = true → s.phase = .hdrRead →
    s.seq = .token bits slots → decodeToken bits = .ok (i, more) →
    (s.agenda = [] → step s = exec i s) ∧
    (∀ rest, s.agenda = .block :: rest → step s = exec i { s with agenda := rest })) ∧
  (∀ (s : State) (i : Instr), i.wellFormed = true →
    (∀ w, encode i = .cmdWord w ∨ encode i = .ctrlWord w →
      step (s.placePattern (encode i)) = exec i { s with rstN := true }) ∧
    (∀ bits, encode i = .headerBits bits → step (s.placePattern (encode i)) =
      exec i { s with rstN := true, phase := .hdrRead, seq := .token bits s.pendingSlots }))

/-! ### The header tokens -/

/-- 44_header_codec.md rules R196, R197: the HDR_INTERNAL token takes the next free index, hangs its node in the slot that
is due, and its own two slots are due next, the left one first. The list of due slots, and that the parent's field is
written when the child is allocated and not when both subtrees are complete, are the model's choice, log entry 21 (DESIGN
CHOICE). -/
def Obligations.HdrInternalToken : Prop :=
  ∀ s : State, s.nodes.toNat ≤ 512 → (∀ slot ∈ s.pendingSlots, slot.parent < s.nodes) →
    ∃ t, exec .hdrInternal s = .next t ∧
      t = { s with node := t.node, nodes := s.nodes + 1
                   seq := .token [] (⟨s.nodes, .left⟩ :: ⟨s.nodes, .right⟩ :: s.pendingSlots.tail) } ∧
      (t.nodeAt s.nodes).leaf = false ∧ (t.nodeAt s.nodes).left = 0 ∧ (t.nodeAt s.nodes).right = 0 ∧
      (t.nodeAt s.nodes).weight = 0 ∧
      ∀ p, p ≠ s.nodes → t.nodeAt p =
        (if s.pendingSlots.head? = some ⟨p, .left⟩ then { s.nodeAt p with left := s.nodes }
         else if s.pendingSlots.head? = some ⟨p, .right⟩ then { s.nodeAt p with right := s.nodes }
         else s.nodeAt p)

/-- 44_header_codec.md rules R196, R197: the HDR_LEAF token, likewise; with no slot left the root is closed. The list of
due slots, and that the parent's field is written when the child is allocated, are the model's choice, log entry 21
(DESIGN CHOICE). -/
def Obligations.HdrLeafToken : Prop :=
  ∀ (s : State) (sym : Sym), s.nodes.toNat ≤ 512 → (∀ slot ∈ s.pendingSlots, slot.parent < s.nodes) →
    ∃ t, exec (.hdrLeaf sym) s = .next t ∧
      t = { s with
        node := t.node, nodes := s.nodes + 1
        root := if s.pendingSlots.tail = [] then 0 else s.root
        seq := if s.pendingSlots.tail = [] then .phaseEnd else .token [] s.pendingSlots.tail } ∧
      (t.nodeAt s.nodes).leaf = true ∧ (t.nodeAt s.nodes).sym = sym ∧ (t.nodeAt s.nodes).weight = 0 ∧
      ∀ p, p ≠ s.nodes → t.nodeAt p =
        (if s.pendingSlots.head? = some ⟨p, .left⟩ then { s.nodeAt p with left := s.nodes }
         else if s.pendingSlots.head? = some ⟨p, .right⟩ then { s.nodeAt p with right := s.nodes }
         else s.nodeAt p)

/-- 44_header_codec.md rule R196, 60_exceptions.md rules R277, R280, R281: a token that completes while node memory holds
513 nodes aborts with HeaderOverflow, all the abort leaves. -/
def Obligations.TokenOverflow : Prop :=
  ∀ (s : State) (i : Instr), s.nodes = 513 → (i = .hdrInternal ∨ ∃ sym, i = .hdrLeaf sym) →
    exec i s = .next { s with
      done := false, err := true, errCode := 7, errInfo := 513, nodes := 0, root := 0
      rbuf := 0, rcnt := 0, wbuf := 0, wcnt := 0, cur := 0, pq := [], phase := .idle, seq := .start }

/-! ### The bit reader and writer -/

/-- 40_bitio.md rules R130, R131, 20_memory.md rule R79: ReadBit gives the next bit of the stream, bit 7 of a byte first,
or NoData at its end; it counts a byte it takes, and touches nothing else. -/
def Obligations.ReadBit : Prop :=
  ∀ s : State, s.rcnt.toNat ≤ 8 →
    (s.inBits = [] → s.readBit = (none, s)) ∧
    (∀ b bits, s.inBits = b :: bits → ∃ t, s.readBit = (some b, t) ∧ t.inBits = bits ∧
      t = { s with rbuf := t.rbuf, rcnt := t.rcnt, inPos := t.inPos
                   inBytes := s.inBytes + BitVec.ofNat 32 (t.inPos - s.inPos) } ∧
      t.rcnt.toNat ≤ 7 ∧ t.inPos = s.inPos + (if s.rcnt = 0 then 1 else 0))

/-- 40_bitio.md rule R132, 20_memory.md rule R79: ReadBits takes n bits as an unsigned value, first bit most significant;
when the input ends first it consumes and returns what there was. -/
def Obligations.ReadBits : Prop :=
  ∀ (s : State) (n : Nat), 1 ≤ n → n ≤ 32 → s.rcnt.toNat ≤ 8 →
    ∃ t, s.readBits n =
        (if n ≤ s.inBits.length then .value (ofBits 32 (s.inBits.take n))
          else .noData (ofBits 32 s.inBits) s.inBits.length, t) ∧
      t.inBits = s.inBits.drop n ∧
      t = { s with rbuf := t.rbuf, rcnt := t.rcnt, inPos := t.inPos
                   inBytes := s.inBytes + BitVec.ofNat 32 (t.inPos - s.inPos) }

/-- 40_bitio.md rules R135, R136, 20_memory.md rule R79: WriteBits(n, v) appends v[n-1] first and v[0] last to the output
bit stream; a byte leaves, and is counted, when its eighth bit comes. -/
def Obligations.WriteBits : Prop :=
  ∀ (s : State) (n : Nat) (v : Word), 1 ≤ n → n ≤ 32 →
    ∃ bytes : List Byte, ∃ t, s.writeBits n v = t ∧
      t = { s with
        outLog := s.outLog ++ bytes.map .byte, outBytes := s.outBytes + BitVec.ofNat 32 bytes.length
        wbuf := t.wbuf, wcnt := t.wcnt } ∧
      bytes.length = (s.wcnt.toNat + n) / 8 ∧ t.wcnt.toNat = (s.wcnt.toNat + n) % 8 ∧
      byteBits bytes ++ bitsOf t.wcnt.toNat t.wbuf =
        bitsOf s.wcnt.toNat s.wbuf ++ (List.range n).map fun i => v.getLsbD (n - 1 - i)

/-- 40_bitio.md rule R138, 30_encoding.md rule R111: the FLUSH phase, from its start to its end: zero bits up to the byte
boundary, then `End`. -/
def Obligations.FlushPhase : Prop :=
  ∀ s : State, s.rstN = true → s.agenda = [] → s.phase = .flush → s.seq = .start →
    Reaches s { s with
      outLog := s.outLog ++ (if s.wcnt = 0 then [] else [.byte (s.wbuf <<< (8 - s.wcnt.toNat))]) ++ [.close]
      outBytes := if s.wcnt = 0 then s.outBytes else s.outBytes + 1
      wbuf := if s.wcnt = 0 then s.wbuf else 0
      wcnt := 0, seq := .phaseEnd }

/-! ### COUNT -/

/-- 41_frequency_counter.md rules R150, R151, R152: a COUNT of at most 2^32 - 2 bytes, all it leaves. -/
def Obligations.CountCommand : Prop :=
  ∀ s : State, s.Quiet → s.inLeft.length ≤ 0xFFFFFFFE →
    ∃ t₀, exec .count s = .next t₀ ∧ Reaches t₀ { s.wellEnded 3 with
      freq := countsOf s.inLeft 1
      inBytes := BitVec.ofNat 32 s.inLeft.length, outBytes := 0
      rbuf := s.inLeft.getLast?.getD 0, rcnt := 0, inPos := s.inPos + s.inLeft.length }

/-- 41_frequency_counter.md rule R150, 45_compressor.md rule R210, 60_exceptions.md rules R270, R278: COUNT, and COMPRESS in
its COUNT phase, of more bytes aborts at byte 2^32 - 1 with the counts of the bytes before it. All they leave: the tree
and the code table as they were, and no OUT token. -/
def Obligations.CountTooLong : Prop :=
  ∀ row ∈ ([(.count, 3), (.compress, 1)] : List (Instr × BitVec 4)), ∀ s : State, s.Quiet →
    0xFFFFFFFE < s.inLeft.length →
    ∃ t₀, exec row.1 s = .next t₀ ∧ Reaches t₀ { s.failedWith row.2 8 0xFFFFFFFF with
      freq := countsOf (s.inLeft.take 0xFFFFFFFE) 0
      inBytes := 0xFFFFFFFF, outBytes := 0, inPos := s.inPos + 0xFFFFFFFF }

/-! ### BUILD_TREE -/

/-- 42_tree_builder.md rules R160, R161: the TREE phase's leaves, one for each symbol of positive count and no other, in
ascending symbol order from index 0. -/
def Obligations.TreeLeaves : Prop :=
  ∀ s : State, s.phase = .tree → s.seq = .start → s.positives ≠ [] →
    ∃ t, phaseStep s = .next t ∧
      t = { s with node := t.node, nodes := BitVec.ofNat 10 s.positives.length, root := 0, seq := .merge
                   pq := (List.range s.positives.length).map (BitVec.ofNat 10) } ∧
      ∀ (k : Nat) (h : k < s.positives.length), (t.nodeAt (BitVec.ofNat 10 k)).leaf = true ∧
        (t.nodeAt (BitVec.ofNat 10 k)).sym = BitVec.ofNat 9 s.positives[k] ∧
        (t.nodeAt (BitVec.ofNat 10 k)).weight = (s.freqAt s.positives[k]).setWidth 41

/-- 42_tree_builder.md rules R160, R161, R165: a merge takes the two entries that come first by weight and then by index,
the first the left child, the second the right one, and makes the next free index their parent. -/
def Obligations.MergeLeast : Prop :=
  ∀ s : State, s.phase = .tree → s.seq = .merge → 2 ≤ s.pq.length → s.pq.Nodup → s.nodes.toNat ≤ 512 →
    ∃ a ∈ s.pq, ∃ b ∈ s.pq, a ≠ b ∧
      (∀ j ∈ s.pq, j ≠ a → (s.nodeAt a).weight < (s.nodeAt j).weight ∨
        ((s.nodeAt a).weight = (s.nodeAt j).weight ∧ a < j)) ∧
      (∀ j ∈ s.pq, j ≠ a → j ≠ b → (s.nodeAt b).weight < (s.nodeAt j).weight ∨
        ((s.nodeAt b).weight = (s.nodeAt j).weight ∧ b < j)) ∧
      ∃ t, phaseStep s = .next t ∧
        t = { s with node := t.node, nodes := s.nodes + 1, pq := (s.pq.erase a).erase b ++ [s.nodes] } ∧
        (t.nodeAt s.nodes).leaf = false ∧ (t.nodeAt s.nodes).left = a ∧ (t.nodeAt s.nodes).right = b ∧
        (t.nodeAt s.nodes).weight = (s.nodeAt a).weight + (s.nodeAt b).weight ∧
        ∀ p, p ≠ s.nodes → t.nodeAt p = s.nodeAt p

/-- 42_tree_builder.md rules R160, R162, R163, R164, R167: BUILD_TREE with k positive counts, all it leaves: 2k - 1 nodes
that form one tree, children below their parents, exact weights, one leaf for each positive symbol. -/
def Obligations.BuildTree : Prop :=
  ∀ s : State, s.Quiet → s.positives ≠ [] →
    ∃ t₀ t T, exec .buildTree s = .next t₀ ∧ Reaches t₀ t ∧
      t = { s.wellEnded 4 with node := t.node, nodes := t.nodes, root := t.root, inBytes := 0, outBytes := 0 } ∧
      t.nodes.toNat = 2 * s.positives.length - 1 ∧ t.root.toNat = 2 * s.positives.length - 2 ∧
      t.IsTree ∧ t.Represents t.root T ∧
      (T.paths.map Prod.fst).Perm (s.positives.map (BitVec.ofNat 9)) ∧
      (∀ p, t.isInternal p → (t.nodeAt p).left < p ∧ (t.nodeAt p).right < p ∧ (t.nodeAt p).weight.toNat =
        (t.nodeAt (t.nodeAt p).left).weight.toNat + (t.nodeAt (t.nodeAt p).right).weight.toNat) ∧
      (∀ p, p < t.nodes → (t.nodeAt p).leaf = true →
        (t.nodeAt p).weight.toNat = (s.freqAt (t.nodeAt p).sym.toNat).toNat) ∧
      (t.nodeAt t.root).weight.toNat = (s.freq.toList.map BitVec.toNat).sum

/-- 60_exceptions.md rules R274, R280, R281: BUILD_TREE with no positive count, all it leaves. -/
def Obligations.EmptyFrequencySet : Prop :=
  ∀ s : State, s.Quiet → s.positives = [] →
    ∃ t₀, exec .buildTree s = .next t₀ ∧
      Reaches t₀ { s.failedWith 4 4 0 with inBytes := 0, outBytes := 0 }

/-- 42_tree_builder.md rule R166: two runs of BUILD_TREE on the same FREQ leave the same tree, as NODE_INFO and the
weights show it, whatever else the states hold. -/
def Obligations.TreeReproducible : Prop :=
  ∀ s u : State, s.Quiet → u.Quiet → s.freq = u.freq → s.positives ≠ [] →
    ∃ t₀ t v₀ v, exec .buildTree s = .next t₀ ∧ Reaches t₀ t ∧ t.Succeeded ∧
      exec .buildTree u = .next v₀ ∧ Reaches v₀ v ∧ v.Succeeded ∧
      t.nodes = v.nodes ∧ t.root = v.root ∧ ∀ i, i < t.nodes →
        (t.nodeAt i).infoWord = (v.nodeAt i).infoWord ∧ (t.nodeAt i).weight = (v.nodeAt i).weight

/-! ### BUILD_CODES -/

/-- 43_code_table.md rules R180 to R185: BUILD_CODES on the tree T, all it leaves: each symbol's code is its leaf's path,
the one-bit placeholder on a single leaf, the last visited of several leaves, none without a leaf. -/
def Obligations.BuildCodes : Prop :=
  ∀ (s : State) (T : CodeTree), s.Quiet → s.nodes.toNat ≤ 513 → s.IsTree → s.Represents s.root T →
    ∃ t₀ t, exec .buildCodes s = .next t₀ ∧ Reaches t₀ t ∧
      t = { s.wellEnded 5 with codeLen := t.codeLen, codeBits := t.codeBits, inBytes := 0, outBytes := 0 } ∧
      ∀ sym, sym ≤ 256 → t.codeOf sym = T.codeFor (BitVec.ofNat 9 sym) ∧ (t.codeLenAt sym).toNat ≤ 256 ∧
        ∀ j, (t.codeLenAt sym).toNat ≤ j → (t.codeBitsAt sym).getLsbD j = false

/-- 30_encoding.md rule R113: in the code table of one tree no symbol's code is a prefix of another's. -/
def Obligations.PrefixFree : Prop :=
  ∀ s : State, s.Quiet → s.nodes.toNat ≤ 513 → s.IsTree →
    ∃ t₀ t, exec .buildCodes s = .next t₀ ∧ Reaches t₀ t ∧ t.Succeeded ∧
      ∀ a b, a ≤ 256 → b ≤ 256 → a ≠ b → t.codeLenAt a ≠ 0 → t.codeLenAt b ≠ 0 → ¬ t.codeOf a <+: t.codeOf b

/-- 60_exceptions.md rules R279, R280, R287; 43_code_table.md rule R180, 44_header_codec.md rule R190, 46_decompressor.md rule
R232: with no tree BUILD_CODES, WRITE_HEADER and DECODE_BODY abort with NoTree, all they leave. -/
def Obligations.NoTree : Prop :=
  ∀ s : State, s.Quiet → s.nodes = 0 →
    (∃ t₀, exec .buildCodes s = .next t₀ ∧ Reaches t₀ { s.failedWith 5 9 0 with
      codeLen := Vector.replicate 257 0, codeBits := Vector.replicate 257 0, inBytes := 0, outBytes := 0 }) ∧
    (∃ t₀, exec .writeHeader s = .next t₀ ∧
      Reaches t₀ { s.failedWith 6 9 0 with inBytes := 0, outBytes := 0 }) ∧
    (∃ t₀, exec .decodeBody s = .next t₀ ∧
      Reaches t₀ { s.failedWith 9 9 0 with inBytes := 0, outBytes := 0 })

/-! ### WRITE_HEADER and READ_HEADER -/

/-- 44_header_codec.md rules R190, R191; 30_encoding.md rules R105, R106: WRITE_HEADER on the tree T sends the magic and T's
pre-order tokens from a byte boundary; bits past the last whole byte stay in the writer. All it leaves. -/
def Obligations.WriteHeader : Prop :=
  ∀ (s : State) (T : CodeTree), s.Quiet → s.Represents s.root T →
    ∃ t₀ t, ∃ bytes : List Byte, exec .writeHeader s = .next t₀ ∧ Reaches t₀ t ∧
      t = { s.wellEnded 6 with
        outLog := s.outLog ++ bytes.map .byte, outBytes := BitVec.ofNat 32 bytes.length, inBytes := 0
        wbuf := t.wbuf, wcnt := t.wcnt } ∧
      byteBits bytes ++ bitsOf t.wcnt.toNat t.wbuf = bitsOf 32 s.magic ++ T.header ∧
      t.wbuf.toNat < 2 ^ t.wcnt.toNat

/-- 44_header_codec.md rules R196, R197, R199, R200, R201: READ_HEADER on the magic and the tokens of any tree T of at most
513 nodes rebuilds T from node 0, every node's index its position in the header's pre-order, with weight 0 everywhere,
and leaves the reader where the header ended. All it leaves. -/
def Obligations.ReadHeader : Prop :=
  ∀ (s : State) (T : CodeTree) (rest : List Bool), s.Quiet → T.nodeCount ≤ 513 →
    byteBits s.inLeft = bitsOf 32 s.magic ++ T.header ++ rest →
    ∃ t₀ t, exec .readHeader s = .next t₀ ∧ Reaches t₀ t ∧
      t = { s.wellEnded 8 with
        node := t.node, nodes := BitVec.ofNat 10 T.nodeCount, root := 0
        inBytes := BitVec.ofNat 32 (t.inPos - s.inPos), outBytes := 0
        rbuf := t.rbuf, rcnt := t.rcnt, inPos := t.inPos } ∧
      t.Represents 0 T ∧ t.PreOrder 0 T ∧ t.IsTree ∧ (∀ i, i < t.nodes → (t.nodeAt i).weight = 0) ∧
      (∀ p, t.isInternal p → (t.nodeAt p).left = p + 1 ∧ p < (t.nodeAt p).right) ∧
      t.inBits = rest ∧ t.rcnt.toNat ≤ 7 ∧ s.inPos ≤ t.inPos

/-- 60_exceptions.md rules R271, R280, R281; 44_header_codec.md rule R196: READ_HEADER and DECOMPRESS on an input whose first
32 bits, or all its bits if fewer, are not the magic: BadMagic with the bits read and their number, and no OUT
token. All they leave. -/
def Obligations.BadMagic : Prop :=
  ∀ row ∈ ([(.readHeader, 8), (.decompress, 2)] : List (Instr × BitVec 4)), ∀ s : State, s.Quiet →
    (byteBits s.inLeft).take 32 ≠ bitsOf 32 s.magic →
    ∃ t₀, exec row.1 s = .next t₀ ∧ Reaches t₀
      { s.failedWith row.2 1 (ofBits 32 ((byteBits s.inLeft).take 32))
          (BitVec.ofNat 6 ((byteBits s.inLeft).take 32).length) with
        inBytes := BitVec.ofNat 32 (min 4 s.inLeft.length), outBytes := 0
        inPos := s.inPos + min 4 s.inLeft.length }

/-- 60_exceptions.md rules R272, R287; 44_header_codec.md rule R198: an input that ends before the root closes, in or between
tokens, and with at most 513 whole ones: TruncatedHeader, ERR_INFO the number of whole tokens. -/
def Obligations.TruncatedHeader : Prop :=
  ∀ row ∈ ([(.readHeader, 8), (.decompress, 2)] : List (Instr × BitVec 4)),
    ∀ (s : State) (T : CodeTree) (p q : List Bool), s.Quiet → T.header = p ++ q → q ≠ [] → tokensIn 0 p ≤ 513 →
    byteBits s.inLeft = bitsOf 32 s.magic ++ p →
    ∃ t₀ t, exec row.1 s = .next t₀ ∧ Reaches t₀ t ∧
      t = { s.failedWith row.2 2 (BitVec.ofNat 32 (tokensIn 0 p)) with
        node := t.node, inBytes := BitVec.ofNat 32 s.inLeft.length, outBytes := 0
        inPos := s.inPos + s.inLeft.length }

/-- 60_exceptions.md rules R277, R287; 44_header_codec.md rule R198: a header whose 514th token completes: HeaderOverflow,
ERR_INFO 513. -/
def Obligations.HeaderOverflow : Prop :=
  ∀ row ∈ ([(.readHeader, 8), (.decompress, 2)] : List (Instr × BitVec 4)),
    ∀ (s : State) (T : CodeTree) (p q rest : List Bool), s.Quiet → T.header = p ++ q → tokensIn 0 p = 514 →
    byteBits s.inLeft = bitsOf 32 s.magic ++ p ++ rest →
    ∃ t₀ t, exec row.1 s = .next t₀ ∧ Reaches t₀ t ∧ s.inPos ≤ t.inPos ∧
      t = { s.failedWith row.2 7 513 with
        node := t.node, inBytes := BitVec.ofNat 32 (t.inPos - s.inPos), outBytes := 0, inPos := t.inPos }

/-! ### ENCODE_BODY and DECODE_BODY -/

/-- 45_compressor.md rules R212, R213, R214; 30_encoding.md rules R110, R111; 40_bitio.md rule R138: ENCODE_BODY with a code
for every input byte and for the sentinel: it rewinds, and continues the writer's bits with the codes in input order and
the sentinel's, padded with zero bits, then `End`. All it leaves. -/
def Obligations.EncodeBody : Prop :=
  ∀ s : State, s.Quiet → (∀ b ∈ s.inData, s.codeLenAt b.toNat ≠ 0) → s.codeLenAt 256 ≠ 0 →
    ∃ t₀, ∃ bytes : List Byte, exec .encodeBody s = .next t₀ ∧
      bytes = packBits (bitsOf s.wcnt.toNat s.wbuf ++ s.inData.flatMap (fun b => s.codeOf b.toNat) ++ s.codeOf 256) ∧
      Reaches t₀ { s.wellEnded 7 with
        outLog := s.outLog ++ bytes.map .byte ++ [.close], outBytes := BitVec.ofNat 32 bytes.length
        inBytes := BitVec.ofNat 32 s.inData.length, inPos := s.inData.length
        rbuf := s.inData.getLast?.getD 0, rcnt := 0, wbuf := 0, wcnt := 0 }

/-- 45_compressor.md rule R212, 60_exceptions.md rules R276, R280, R287: ENCODE_BODY when the first symbol without a code is
`sym`, a byte after the bytes `pre` or the sentinel after all: NoCode, with the whole bytes of the codes before it sent
and no `End`. All it leaves. -/
def Obligations.NoCode : Prop :=
  ∀ (s : State) (pre post : List Byte) (sym : Nat), s.Quiet → s.inData = pre ++ post →
    (∀ b ∈ pre, s.codeLenAt b.toNat ≠ 0) → (post.head?.map BitVec.toNat).getD 256 = sym → s.codeLenAt sym = 0 →
    ∃ t₀, ∃ bits : List Bool, ∃ bytes : List Byte, exec .encodeBody s = .next t₀ ∧
      bits = bitsOf s.wcnt.toNat s.wbuf ++ pre.flatMap (fun b => s.codeOf b.toNat) ∧
      bytes = packBits (bits.take (bits.length / 8 * 8)) ∧
      Reaches t₀ { s.failedWith 7 6 (BitVec.ofNat 32 sym) with
        outLog := s.outLog ++ bytes.map .byte, outBytes := BitVec.ofNat 32 bytes.length
        inBytes := BitVec.ofNat 32 (min (pre.length + 1) s.inData.length)
        inPos := min (pre.length + 1) s.inData.length }

/-- 46_decompressor.md rules R232 to R237: DECODE_BODY on the tree T when the reader's bits spell `syms` and then the
sentinel: one byte for each symbol, its low 8 bits, then `End`; the bits after the sentinel are not read. All it
leaves. -/
def Obligations.DecodeBody : Prop :=
  ∀ (s : State) (T : CodeTree) (syms : List Sym) (rest : List Bool), s.Quiet → s.rcnt.toNat ≤ 8 →
    s.Represents s.root T → T.Spells s.inBits syms rest →
    ∃ t₀ t, exec .decodeBody s = .next t₀ ∧ Reaches t₀ t ∧
      t = { s.wellEnded 9 with
        outLog := s.outLog ++ syms.map (fun sym => .byte (sym.setWidth 8)) ++ [.close]
        outBytes := BitVec.ofNat 32 syms.length
        inBytes := BitVec.ofNat 32 (t.inPos - s.inPos), inPos := t.inPos
        rbuf := t.rbuf, rcnt := t.rcnt, wbuf := 0, wcnt := 0 } ∧
      t.inBits = rest ∧ t.rcnt.toNat ≤ 7 ∧ s.inPos ≤ t.inPos

/-- 60_exceptions.md rules R273, R280; 46_decompressor.md rule R232: DECODE_BODY when the reader's bits end before the
sentinel: TruncatedBody, ERR_INFO the bytes sent, and no `End`. All it leaves. -/
def Obligations.TruncatedBody : Prop :=
  ∀ (s : State) (T : CodeTree) (syms : List Sym), s.Quiet → s.rcnt.toNat ≤ 8 →
    s.Represents s.root T → T.Starves s.inBits syms →
    ∃ t₀, exec .decodeBody s = .next t₀ ∧ Reaches t₀
      { s.failedWith 9 3 (BitVec.ofNat 32 syms.length) with
        outLog := s.outLog ++ syms.map (fun sym => .byte (sym.setWidth 8))
        outBytes := BitVec.ofNat 32 syms.length
        inBytes := BitVec.ofNat 32 s.inLeft.length, inPos := s.inPos + s.inLeft.length }

/-! ### COMPRESS and DECOMPRESS -/

/-- 45_compressor.md rules R210, R211; 30_encoding.md rules R105, R110, R111: COMPRESS of an input at its start: the stream
of the tree T that it leaves in node memory, whose leaves are the bytes counted and the sentinel. All it leaves. -/
def Obligations.Compress : Prop :=
  ∀ s : State, s.Quiet → s.inPos = 0 → s.inData.length ≤ 0xFFFFFFFE →
    ∃ t₀ t T, ∃ bytes : List Byte, exec .compress s = .next t₀ ∧ Reaches t₀ t ∧
      bytes = packBits (bitsOf 32 s.magic ++ T.header ++
        s.inData.flatMap (fun b => T.codeFor (b.setWidth 9)) ++ T.codeFor 256) ∧
      t = { s.wellEnded 1 with
        freq := countsOf s.inData 1
        node := t.node, nodes := t.nodes, root := t.root, codeLen := t.codeLen, codeBits := t.codeBits
        outLog := s.outLog ++ bytes.map .byte ++ [.close], outBytes := BitVec.ofNat 32 bytes.length
        inBytes := BitVec.ofNat 32 s.inData.length, inPos := s.inData.length
        rbuf := s.inData.getLast?.getD 0, rcnt := 0, wbuf := 0, wcnt := 0 } ∧
      t.Represents t.root T ∧ T.nodeCount = t.nodes.toNat ∧
      (T.paths.map Prod.fst).Perm (t.positives.map (BitVec.ofNat 9)) ∧
      ∀ sym, sym ≤ 256 → t.codeOf sym = T.codeFor (BitVec.ofNat 9 sym)

/-- 30_encoding.md rules R108, R112: the number of bytes COMPRESS sends, from the number L of leaves and the code lengths it
leaves. -/
def Obligations.CompressedLength : Prop :=
  ∀ s : State, s.Quiet → s.inPos = 0 → s.inData.length ≤ 0xFFFFFFFE →
    ∃ t₀ t, ∃ bytes : List Byte, exec .compress s = .next t₀ ∧ Reaches t₀ t ∧ t.Succeeded ∧
      t.outLog = s.outLog ++ bytes.map .byte ++ [.close] ∧
      bytes.length = (32 + (11 * t.positives.length - 1) +
        (s.inData.map fun b => (t.codeLenAt b.toNat).toNat).sum + (t.codeLenAt 256).toNat + 7) / 8

/-- 46_decompressor.md rules R230, R232, R233, R234: DECOMPRESS of the magic, the tokens of a tree T of at most 513 nodes and
a body that spells `syms` on T. All it leaves. -/
def Obligations.Decompress : Prop :=
  ∀ (s : State) (T : CodeTree) (body rest : List Bool) (syms : List Sym), s.Quiet → T.nodeCount ≤ 513 →
    byteBits s.inLeft = bitsOf 32 s.magic ++ T.header ++ body → T.Spells body syms rest →
    ∃ t₀ t, exec .decompress s = .next t₀ ∧ Reaches t₀ t ∧
      t = { s.wellEnded 2 with
        node := t.node, nodes := BitVec.ofNat 10 T.nodeCount, root := 0
        outLog := s.outLog ++ syms.map (fun sym => .byte (sym.setWidth 8)) ++ [.close]
        outBytes := BitVec.ofNat 32 syms.length
        inBytes := BitVec.ofNat 32 (t.inPos - s.inPos), inPos := t.inPos
        rbuf := t.rbuf, rcnt := t.rcnt, wbuf := 0, wcnt := 0 } ∧
      t.Represents 0 T ∧ t.inBits = rest ∧ t.rcnt.toNat ≤ 7 ∧ s.inPos ≤ t.inPos

/-- 46_decompressor.md rule R231: the round trip. COMPRESS of any input of at most 2^32 - 2 bytes, and DECOMPRESS of the
bytes it sent, on any block of the same magic. -/
def Obligations.RoundTrip : Prop :=
  ∀ s : State, s.Quiet → s.inPos = 0 → s.inData.length ≤ 0xFFFFFFFE →
    ∃ t₀ t, ∃ bytes : List Byte, exec .compress s = .next t₀ ∧ Reaches t₀ t ∧ t.Succeeded ∧
      t.outLog = s.outLog ++ bytes.map .byte ++ [.close] ∧
      ∀ u : State, u.Quiet → u.magic = s.magic → u.inData = bytes → u.inPos = 0 →
        ∃ v₀ v, exec .decompress u = .next v₀ ∧ Reaches v₀ v ∧ v.Succeeded ∧
          v.outLog = u.outLog ++ s.inData.map .byte ++ [.close] ∧ v.inPos = bytes.length

/-- 46_decompressor.md rule R236: READ_HEADER and then DECODE_BODY, with no load in between, send the OUT tokens DECOMPRESS
sends on the same input, take the same bytes and end the same way, whatever the input, each counting its own bytes; if
READ_HEADER fails, so does DECOMPRESS, with the same error record. -/
def Obligations.SplitDecompress : Prop :=
  ∀ s : State, s.Quiet →
    ∃ t₀ t u₀ u, exec .decompress s = .next t₀ ∧ Reaches t₀ t ∧ t.phase = .idle ∧
      exec .readHeader s = .next u₀ ∧ Reaches u₀ u ∧ u.phase = .idle ∧
      ((u.err = true ∧ t.err = true ∧ t.errCode = u.errCode ∧ t.errInfo = u.errInfo ∧ t.outLog = u.outLog ∧
          t.inPos = u.inPos) ∨
        (u.Succeeded ∧ ∃ v₀ v, exec .decodeBody u = .next v₀ ∧ Reaches v₀ v ∧ v.phase = .idle ∧
          v.outLog = t.outLog ∧ v.inPos = t.inPos ∧ v.done = t.done ∧ v.err = t.err ∧ v.errCode = t.errCode ∧
          v.errInfo = t.errInfo ∧ v.node = t.node ∧ v.nodes = t.nodes ∧ v.outBytes = t.outBytes ∧
          t.inBytes = u.inBytes + v.inBytes))

/-! ### Every command, every step -/

/-- 70_reset_and_hazards.md rules R331, R332; 60_exceptions.md rules R280, R283, R284: every command ends, with exactly one
of DONE and ERR; DONE with `End` as its last token if the command has a FLUSH phase; ERR with a code of the table and no
`End` among its tokens. -/
def Obligations.CommandOutcome : Prop :=
  ∀ row ∈ ([(.compress, true), (.decompress, true), (.count, false), (.buildTree, false), (.buildCodes, false),
      (.writeHeader, false), (.encodeBody, true), (.readHeader, false), (.decodeBody, true)] : List (Instr × Bool)),
    ∀ s : State, s.Quiet → s.Inv → s.TreeInv →
      ∃ t₀ t, ∃ bytes : List Byte, exec row.1 s = .next t₀ ∧ Reaches t₀ t ∧ t.phase = .idle ∧
        ((t.done = true ∧ t.err = false ∧ t.errCode = 0 ∧
            t.outLog = s.outLog ++ bytes.map .byte ++ (if row.2 then [.close] else [])) ∨
          (t.done = false ∧ t.err = true ∧ 1 ≤ (t.errCode.extractLsb' 0 4).toNat ∧
            (t.errCode.extractLsb' 0 4).toNat ≤ 9 ∧ t.outLog = s.outLog ++ bytes.map .byte))

/-- 10_state.md rule R23: the phases of each command, the first one at its start; when a phase's rule has finished, the
block step takes the next phase of the running command's row, or completes after the last one; an abort goes to IDLE; and a
block step makes no other transition. -/
def Obligations.PhaseTransitions : Prop :=
  (phaseRow 0 = [] ∧ phaseRow 1 = [.count, .tree, .codes, .hdrWrite, .encode, .flush] ∧
    phaseRow 2 = [.hdrRead, .decode, .flush] ∧ phaseRow 3 = [.count] ∧ phaseRow 4 = [.tree] ∧
    phaseRow 5 = [.codes] ∧ phaseRow 6 = [.hdrWrite] ∧ phaseRow 7 = [.encode, .flush] ∧
    phaseRow 8 = [.hdrRead] ∧ phaseRow 9 = [.decode, .flush] ∧ ∀ op : BitVec 4, 10 ≤ op.toNat → phaseRow op = []) ∧
  (∀ (op : BitVec 4) (s : State), 1 ≤ op.toNat → op.toNat ≤ 9 →
    (phaseRow op).head? = some (s.commandStart op).phase) ∧
  (∀ s : State, s.Inv → s.rstN = true → s.phase ≠ .idle → s.seq = .phaseEnd →
    ∃ k, (phaseRow (s.lastCmd.extractLsb' 0 4))[k]? = some s.phase ∧
      blockStep s = .next (match (phaseRow (s.lastCmd.extractLsb' 0 4))[k + 1]? with
        | some p => { s with phase := p, seq := .start }
        | none => { s with cur := 0, pq := [], phase := .idle, seq := .start, done := true })) ∧
  (∀ (s : State) (e : Error) (info : Word) (n : BitVec 6), (s.abort e info n).phase = .idle) ∧
  ∀ s t : State, s.Inv → s.phase ≠ .idle → blockStep s = .next t →
    t.phase = s.phase ∨
    (∃ k, (phaseRow (s.lastCmd.extractLsb' 0 4))[k]? = some s.phase ∧
      (phaseRow (s.lastCmd.extractLsb' 0 4))[k + 1]? = some t.phase) ∨
    ((phaseRow (s.lastCmd.extractLsb' 0 4)).getLast? = some s.phase ∧ t.phase = .idle ∧ t.done = true ∧
      t.err = false) ∨
    (t.phase = .idle ∧ t.done = false ∧ t.err = true)

/-- 10_state.md rules R20, R60, R61, R65; 70_reset_and_hazards.md rule R323: what a block step leaves unchanged: FREQ outside
COUNT, the code table outside CODES, the tree outside TREE and HDR_READ, the channels in the phases that do not use
them, and the host's registers always. -/
def Obligations.BlockFrame : Prop :=
  ∀ s t : State, blockStep s = .next t →
    (s.phase ≠ .count → t.freq = s.freq) ∧
    (s.phase ≠ .codes → t.codeLen = s.codeLen ∧ t.codeBits = s.codeBits) ∧
    (s.phase ≠ .tree → s.phase ≠ .hdrRead → t.node = s.node ∧ t.nodes = s.nodes ∧ t.root = s.root) ∧
    (s.phase ∉ ([.hdrWrite, .encode, .flush, .decode] : List Phase) →
      t.outLog = s.outLog ∧ t.outBytes = s.outBytes) ∧
    (s.phase ∉ ([.count, .encode, .hdrRead, .decode] : List Phase) → t.inPos = s.inPos ∧ t.inBytes = s.inBytes) ∧
    t.lastCmd = s.lastCmd ∧ t.overrun = s.overrun ∧ t.irqEn = s.irqEn ∧ t.magic = s.magic ∧
    t.freqIdx = s.freqIdx ∧ t.codeIdx = s.codeIdx ∧ t.nodeIdx = s.nodeIdx ∧ t.rstN = s.rstN ∧
    t.inData = s.inData ∧ t.agenda = s.agenda ∧ t.reads = s.reads ∧ t.draws = s.draws

/-- 20_memory.md rule R75, 10_state.md rules R60, R61, R65: what a CSR write leaves unchanged: every table but FREQ through
FREQ_DATA, unless it is a soft reset; the channels and MAGIC always. -/
def Obligations.HostWriteFrame : Prop :=
  ∀ (r : Csr) (v : Word) (s t : State), csrWrite r v s = .next t →
    (r ≠ .freqData → r ≠ .ctrl → t.freq = s.freq) ∧
    (r ≠ .ctrl → t.node = s.node ∧ t.nodes = s.nodes ∧ t.root = s.root ∧ t.codeLen = s.codeLen ∧
      t.codeBits = s.codeBits) ∧
    (r ≠ .ctrl → r ≠ .cmd → t.phase = s.phase ∧ t.lastCmd = s.lastCmd ∧ t.errCode = s.errCode ∧
      t.errInfo = s.errInfo ∧ t.inBytes = s.inBytes ∧ t.outBytes = s.outBytes ∧ t.rbuf = s.rbuf ∧
      t.rcnt = s.rcnt ∧ t.wbuf = s.wbuf ∧ t.wcnt = s.wcnt ∧ t.cur = s.cur ∧ t.pq = s.pq ∧ t.seq = s.seq) ∧
    t.magic = s.magic ∧ t.rstN = s.rstN ∧ t.inData = s.inData ∧ t.inPos = s.inPos ∧ t.outLog = s.outLog ∧
    t.agenda = s.agenda ∧ t.reads = s.reads ∧ t.draws = s.draws

/-- 20_memory.md rules R77, R85; 60_exceptions.md rule R280: a step only appends to OUT_LOG, at most one token, and `End`
only in FLUSH. -/
def Obligations.OutLogGrows : Prop :=
  ∀ s t : State, step s = .next t → ∃ tokens, t.outLog = s.outLog ++ tokens ∧ tokens.length ≤ 1 ∧
    (.close ∈ tokens → s.phase = .flush)

/-- 47_control.md rule R256, 20_memory.md rule R88: while BUSY = 1 a write of any register but CTRL touches OVERRUN, IRQ_EN
and the index registers alone, and the block's next step does the same with it as without it. -/
def Obligations.HostCannotDisturb : Prop :=
  ∀ (r : Csr) (v : Word) (s s' t : State), s.Inv → s.phase ≠ .idle → r ≠ .ctrl →
    csrWrite r v s = .next s' → blockStep s = .next t →
    s' = { s with overrun := s'.overrun, irqEn := s'.irqEn
                  freqIdx := s'.freqIdx, codeIdx := s'.codeIdx, nodeIdx := s'.nodeIdx } ∧
    blockStep s' = .next { t with overrun := s'.overrun, irqEn := s'.irqEn
                                  freqIdx := s'.freqIdx, codeIdx := s'.codeIdx, nodeIdx := s'.nodeIdx }

/-! ### The CSR window -/

/-- 10_state.md rules R21, R27: a read of STATUS, bit by bit, and a write. 30_encoding.md rule R115: `poll` is that read,
again until its bit 0 is 0; how many block steps fall between two reads is the move's own list (log entry 6). -/
def Obligations.StatusRegister : Prop :=
  ∀ s : State, s.rstN = true →
    (∃ v, memRead 0x08 4 s = .next { s with reads := s.reads ++ [(0x08, v)] } ∧
      v.getLsbD 0 = decide (s.phase ≠ .idle) ∧ v.getLsbD 1 = s.done ∧ v.getLsbD 2 = s.err ∧
      v.getLsbD 3 = s.overrun ∧ v.extractLsb' 4 4 = 0 ∧ v.extractLsb' 12 20 = 0 ∧
      (s.phase, (v.extractLsb' 8 4).toNat) ∈ ([(.idle, 0), (.count, 1), (.tree, 2), (.codes, 3), (.hdrWrite, 4),
        (.encode, 5), (.flush, 6), (.hdrRead, 7), (.decode, 8)] : List (Phase × Nat))) ∧
    (∀ v, memWrite 0x08 4 v s = .next { s with
      done := s.done && !v.getLsbD 1, err := s.err && !v.getLsbD 2, overrun := s.overrun && !v.getLsbD 3 }) ∧
    ∀ (gaps : List Nat) (rest : List Move), ∃ v,
      step { s with agenda := .poll gaps :: rest } = .next { s with
        reads := s.reads ++ [(0x08, v)]
        agenda := if v.getLsbD 0 then List.replicate (gaps.headD 1) .block ++ .poll gaps.tail :: rest else rest } ∧
      memRead 0x08 4 s = .next { s with reads := s.reads ++ [(0x08, v)] }

/-- 10_state.md rules R40, R41, R43, R44, R64: a read of CODE_LEN, of a CODE_BITSw, of NODE_INFO, NODE_WLO or NODE_WHI while
BUSY = 0. -/
def Obligations.TableWindows : Prop :=
  ∀ s : State, s.rstN = true → s.phase = .idle →
    memRead 0x3C 4 s = .next { s with reads := s.reads ++ [(0x3C,
      if s.codeIdx.toNat ≤ 256 then (s.codeLenAt s.codeIdx.toNat).setWidth 32 else 0)] } ∧
    (∀ w, w < 8 → ∃ v, memRead (0x40 + 4 * w) 4 s = .next { s with reads := s.reads ++ [(0x40 + 4 * w, v)] } ∧
      (s.codeIdx.toNat ≤ 256 → ∀ j, j < 32 → v.getLsbD (31 - j) =
        (decide (32 * w + j < (s.codeLenAt s.codeIdx.toNat).toNat) &&
          (s.codeBitsAt s.codeIdx.toNat).getLsbD (32 * w + j))) ∧
      (256 < s.codeIdx.toNat → v = 0)) ∧
    ∃ info lo hi : Word,
      memRead 0x64 4 s = .next { s with reads := s.reads ++ [(0x64, info)] } ∧
      memRead 0x68 4 s = .next { s with reads := s.reads ++ [(0x68, lo)] } ∧
      memRead 0x6C 4 s = .next { s with reads := s.reads ++ [(0x6C, hi)] } ∧
      (s.nodes ≤ s.nodeIdx → info = 0 ∧ lo = 0 ∧ hi = 0) ∧
      (s.nodeIdx < s.nodes →
        info.extractLsb' 0 10 = (if (s.nodeAt s.nodeIdx).leaf then 0 else (s.nodeAt s.nodeIdx).left) ∧
        info.extractLsb' 10 10 = (if (s.nodeAt s.nodeIdx).leaf then 0 else (s.nodeAt s.nodeIdx).right) ∧
        info.extractLsb' 20 9 = (if (s.nodeAt s.nodeIdx).leaf then (s.nodeAt s.nodeIdx).sym else 0) ∧
        info.extractLsb' 29 2 = 0 ∧ info.getLsbD 31 = (s.nodeAt s.nodeIdx).leaf ∧
        lo.toNat + 2 ^ 32 * hi.toNat = (s.nodeAt s.nodeIdx).weight.toNat)

/-- 10_state.md rule R38, 47_control.md rule R256: the FREQ_DATA window: what a write leaves and what the next read finds. -/
def Obligations.FreqWindow : Prop :=
  ∀ (s : State) (v : Word), s.rstN = true →
    (s.phase = .idle → s.freqIdx.toNat ≤ 256 → ∃ t,
      memWrite 0x34 4 v s = .next t ∧ t = { s with freq := t.freq } ∧
      (∀ i, t.freqAt i = if i = s.freqIdx.toNat then v else s.freqAt i) ∧
      memRead 0x34 4 t = .next { t with reads := t.reads ++ [(0x34, v)] }) ∧
    (s.phase = .idle → 256 < s.freqIdx.toNat →
      memWrite 0x34 4 v s = .next s ∧ memRead 0x34 4 s = .next { s with reads := s.reads ++ [(0x34, 0)] }) ∧
    (s.phase ≠ .idle → memWrite 0x34 4 v s = .next { s with overrun := true })

/-- 20_memory.md rules R74, R75: while BUSY = 1 the seventeen "any value" windows read a free value, drawn fresh at each read (its
form is the model's choice, log entry 3: no claim rests on the value), and every other register reads exactly as while
BUSY = 0; no read changes anything else. -/
def Obligations.AnyValueReads : Prop :=
  ∀ (s : State) (off : Nat), s.rstN = true → off % 4 = 0 → off ≤ 0xFC → s.phase ≠ .idle →
    if off ∈ ([0x20, 0x24, 0x28, 0x2C, 0x34, 0x3C, 0x40, 0x44, 0x48, 0x4C, 0x50, 0x54, 0x58, 0x5C, 0x64, 0x68,
        0x6C] : List Nat) then
      memRead off 4 s = .next { s with
        reads := s.reads ++ [(off, Config.freeRead s.draws)], draws := s.draws + 1 }
    else ∃ r, csrAt off = some r ∧
      memRead off 4 s = .next { s with reads := s.reads ++ [(off, s.csrValue r)] }

/-- 10_state.md rules R24 to R26, R28 to R37, R39, R42, R45; 20_memory.md rules R71, R72, R75: which CSR accesses are
refused, that all others complete, what a read of each register that is no window or flag returns, what a write of the
index registers, IRQ_EN and the read-only registers does, and that the host reaches an offset at HUFF_BASE plus it. That an
access outside the window is refused under that name is the model's choice (log entry 2). STATUS is in StatusRegister; the
FREQ, CODE and NODE windows are in FreqWindow and TableWindows; reads while BUSY = 1 are in AnyValueReads. -/
def Obligations.CsrAccess : Prop :=
  (∀ (s : State) (off width : Nat) (v : Word), s.rstN = true →
    (width ≠ 4 ∨ off % 4 ≠ 0 ∨ 0xFC < off →
      memRead off width s = .refused .csrAccess ∧ memWrite off width v s = .refused .csrAccess) ∧
    (width = 4 → off % 4 = 0 → off ≤ 0xFC →
      (∃ t x, memRead off width s = .next t ∧ t = { s with reads := s.reads ++ [(off, x)], draws := t.draws } ∧
        (off = 0x00 → x = 0x48554646) ∧ (off = 0x04 → x = s.lastCmd) ∧ (off = 0x0C → x = s.errCode) ∧
        (off = 0x10 → x = s.errInfo) ∧ (off = 0x14 → x = s.irqEn.setWidth 32) ∧ (off = 0x18 → x = 0) ∧
        (off = 0x1C → x = s.magic) ∧ (off = 0x30 → x = s.freqIdx.setWidth 32) ∧
        (off = 0x38 → x = s.codeIdx.setWidth 32) ∧ (off = 0x60 → x = s.nodeIdx.setWidth 32) ∧ (0x70 ≤ off → x = 0) ∧
        (s.phase = .idle → (off = 0x20 → x = s.inBytes) ∧ (off = 0x24 → x = s.outBytes) ∧
          (off = 0x28 → x = s.root.setWidth 32) ∧ (off = 0x2C → x = s.nodes.setWidth 32))) ∧
      (∃ t, memWrite off width v s = .next t) ∧
      (off = 0x14 → memWrite off width v s = .next { s with irqEn := v.extractLsb' 0 2 }) ∧
      (off = 0x30 → memWrite off width v s = .next { s with freqIdx := v.extractLsb' 0 9 }) ∧
      (off = 0x38 → memWrite off width v s = .next { s with codeIdx := v.extractLsb' 0 9 }) ∧
      (off = 0x60 → memWrite off width v s = .next { s with nodeIdx := v.extractLsb' 0 10 }) ∧
      (off ∈ ([0x00, 0x0C, 0x10, 0x1C, 0x20, 0x24, 0x28, 0x2C, 0x3C, 0x40, 0x44, 0x48, 0x4C, 0x50, 0x54, 0x58,
          0x5C, 0x64, 0x68, 0x6C] : List Nat) ∨ 0x70 ≤ off → memWrite off width v s = .next s))) ∧
  ∀ (s : State) (addr off width : Nat) (v : Word) (rest : List Move),
    step { s with agenda := .read off width :: rest } = memRead off width { s with agenda := rest } ∧
    step { s with agenda := .write off width v :: rest } = memWrite off width v { s with agenda := rest } ∧
    (off ≤ 0xFF →
      step { s with agenda := .platformRead (Config.huffBase + off) width :: rest } =
        memRead off width { s with agenda := rest } ∧
      step { s with agenda := .platformWrite (Config.huffBase + off) width v :: rest } =
        memWrite off width v { s with agenda := rest }) ∧
    (addr < Config.huffBase ∨ Config.huffBase + 0xFF < addr →
      step { s with agenda := .platformRead addr width :: rest } = .refused .csrAccess ∧
      step { s with agenda := .platformWrite addr width v :: rest } = .refused .csrAccess)

/-- 60_exceptions.md rule R286: the interrupt output; that it rises at a completion or an abort with the enable set, and
when the host sets an enable while the flag is already 1; and when it falls: on a write that clears the flags or the
enables, at a command's start, at reset. -/
def Obligations.Interrupt : Prop :=
  ∀ s : State,
    s.irq = (s.done && s.irqEn.getLsbD 0 || s.err && s.irqEn.getLsbD 1) ∧
    (∀ v, ∃ t, csrWrite .irqEn v s = .next t ∧ t.done = s.done ∧ t.err = s.err ∧
      t.irq = (s.done && v.getLsbD 0 || s.err && v.getLsbD 1)) ∧
    (∀ v, ∃ t, csrWrite .status v s = .next t ∧
      t.irq = (s.done && !v.getLsbD 1 && s.irqEn.getLsbD 0 || s.err && !v.getLsbD 2 && s.irqEn.getLsbD 1)) ∧
    (s.clearStatus 0x6).irq = false ∧ (∀ op, (s.commandStart op).irq = false) ∧ s.resetBlock.irq = false ∧
    (∀ t, csrWrite .irqEn 0 s = .next t → t.irq = false) ∧
    (s.complete.irq = (s.irqEn.getLsbD 0 || s.err && s.irqEn.getLsbD 1)) ∧
    ∀ e info n, (s.abort e info n).irq = s.irqEn.getLsbD 1

/-- 20_memory.md rules R76, R80, 93_implementation_defined.md I28: the host loads a new input at its start while BUSY = 0;
while BUSY = 1 the load is refused. -/
def Obligations.LoadInput : Prop :=
  ∀ (s : State) (bytes : List Byte) (rest : List Move),
    (s.phase = .idle → step { s with agenda := .loadIn bytes :: rest } =
      .next { s with agenda := rest, inData := bytes, inPos := 0 }) ∧
    (s.phase ≠ .idle → step { s with agenda := .loadIn bytes :: rest } = .refused .loadWhileBusy)
end

