-- ==== Sys2Proof/Laws/State.lean ====
section
/-! SUPPORT. One lemma per field per update of State, true by rfl: what each named update writes, and that it leaves every
other field as it was. -/

namespace Sys2Proof.Machine

/-! ### setFreq -/

@[simp] theorem State.setFreq_phase (s : State) (i : Nat) (v : Word) : (s.setFreq i v).phase = s.phase := rfl
@[simp] theorem State.setFreq_lastCmd (s : State) (i : Nat) (v : Word) : (s.setFreq i v).lastCmd = s.lastCmd := rfl
@[simp] theorem State.setFreq_done (s : State) (i : Nat) (v : Word) : (s.setFreq i v).done = s.done := rfl
@[simp] theorem State.setFreq_err (s : State) (i : Nat) (v : Word) : (s.setFreq i v).err = s.err := rfl
@[simp] theorem State.setFreq_overrun (s : State) (i : Nat) (v : Word) : (s.setFreq i v).overrun = s.overrun := rfl
@[simp] theorem State.setFreq_errCode (s : State) (i : Nat) (v : Word) : (s.setFreq i v).errCode = s.errCode := rfl
@[simp] theorem State.setFreq_errInfo (s : State) (i : Nat) (v : Word) : (s.setFreq i v).errInfo = s.errInfo := rfl
@[simp] theorem State.setFreq_irqEn (s : State) (i : Nat) (v : Word) : (s.setFreq i v).irqEn = s.irqEn := rfl
@[simp] theorem State.setFreq_magic (s : State) (i : Nat) (v : Word) : (s.setFreq i v).magic = s.magic := rfl
@[simp] theorem State.setFreq_inBytes (s : State) (i : Nat) (v : Word) : (s.setFreq i v).inBytes = s.inBytes := rfl
@[simp] theorem State.setFreq_outBytes (s : State) (i : Nat) (v : Word) : (s.setFreq i v).outBytes = s.outBytes := rfl
@[simp] theorem State.setFreq_root (s : State) (i : Nat) (v : Word) : (s.setFreq i v).root = s.root := rfl
@[simp] theorem State.setFreq_nodes (s : State) (i : Nat) (v : Word) : (s.setFreq i v).nodes = s.nodes := rfl
@[simp] theorem State.setFreq_freqIdx (s : State) (i : Nat) (v : Word) : (s.setFreq i v).freqIdx = s.freqIdx := rfl
@[simp] theorem State.setFreq_codeIdx (s : State) (i : Nat) (v : Word) : (s.setFreq i v).codeIdx = s.codeIdx := rfl
@[simp] theorem State.setFreq_nodeIdx (s : State) (i : Nat) (v : Word) : (s.setFreq i v).nodeIdx = s.nodeIdx := rfl
@[simp] theorem State.setFreq_freq (s : State) (i : Nat) (v : Word) : (s.setFreq i v).freq = s.freq.setIfInBounds i v := rfl
@[simp] theorem State.setFreq_node (s : State) (i : Nat) (v : Word) : (s.setFreq i v).node = s.node := rfl
@[simp] theorem State.setFreq_codeLen (s : State) (i : Nat) (v : Word) : (s.setFreq i v).codeLen = s.codeLen := rfl
@[simp] theorem State.setFreq_codeBits (s : State) (i : Nat) (v : Word) : (s.setFreq i v).codeBits = s.codeBits := rfl
@[simp] theorem State.setFreq_rbuf (s : State) (i : Nat) (v : Word) : (s.setFreq i v).rbuf = s.rbuf := rfl
@[simp] theorem State.setFreq_rcnt (s : State) (i : Nat) (v : Word) : (s.setFreq i v).rcnt = s.rcnt := rfl
@[simp] theorem State.setFreq_wbuf (s : State) (i : Nat) (v : Word) : (s.setFreq i v).wbuf = s.wbuf := rfl
@[simp] theorem State.setFreq_wcnt (s : State) (i : Nat) (v : Word) : (s.setFreq i v).wcnt = s.wcnt := rfl
@[simp] theorem State.setFreq_cur (s : State) (i : Nat) (v : Word) : (s.setFreq i v).cur = s.cur := rfl
@[simp] theorem State.setFreq_pq (s : State) (i : Nat) (v : Word) : (s.setFreq i v).pq = s.pq := rfl
@[simp] theorem State.setFreq_seq (s : State) (i : Nat) (v : Word) : (s.setFreq i v).seq = s.seq := rfl
@[simp] theorem State.setFreq_rstN (s : State) (i : Nat) (v : Word) : (s.setFreq i v).rstN = s.rstN := rfl
@[simp] theorem State.setFreq_inData (s : State) (i : Nat) (v : Word) : (s.setFreq i v).inData = s.inData := rfl
@[simp] theorem State.setFreq_inPos (s : State) (i : Nat) (v : Word) : (s.setFreq i v).inPos = s.inPos := rfl
@[simp] theorem State.setFreq_outLog (s : State) (i : Nat) (v : Word) : (s.setFreq i v).outLog = s.outLog := rfl
@[simp] theorem State.setFreq_agenda (s : State) (i : Nat) (v : Word) : (s.setFreq i v).agenda = s.agenda := rfl
@[simp] theorem State.setFreq_reads (s : State) (i : Nat) (v : Word) : (s.setFreq i v).reads = s.reads := rfl
@[simp] theorem State.setFreq_draws (s : State) (i : Nat) (v : Word) : (s.setFreq i v).draws = s.draws := rfl

/-! ### setNode -/

@[simp] theorem State.setNode_phase (s : State) (i : NodeIdx) (n : Node) : (s.setNode i n).phase = s.phase := rfl
@[simp] theorem State.setNode_lastCmd (s : State) (i : NodeIdx) (n : Node) : (s.setNode i n).lastCmd = s.lastCmd := rfl
@[simp] theorem State.setNode_done (s : State) (i : NodeIdx) (n : Node) : (s.setNode i n).done = s.done := rfl
@[simp] theorem State.setNode_err (s : State) (i : NodeIdx) (n : Node) : (s.setNode i n).err = s.err := rfl
@[simp] theorem State.setNode_overrun (s : State) (i : NodeIdx) (n : Node) : (s.setNode i n).overrun = s.overrun := rfl
@[simp] theorem State.setNode_errCode (s : State) (i : NodeIdx) (n : Node) : (s.setNode i n).errCode = s.errCode := rfl
@[simp] theorem State.setNode_errInfo (s : State) (i : NodeIdx) (n : Node) : (s.setNode i n).errInfo = s.errInfo := rfl
@[simp] theorem State.setNode_irqEn (s : State) (i : NodeIdx) (n : Node) : (s.setNode i n).irqEn = s.irqEn := rfl
@[simp] theorem State.setNode_magic (s : State) (i : NodeIdx) (n : Node) : (s.setNode i n).magic = s.magic := rfl
@[simp] theorem State.setNode_inBytes (s : State) (i : NodeIdx) (n : Node) : (s.setNode i n).inBytes = s.inBytes := rfl
@[simp] theorem State.setNode_outBytes (s : State) (i : NodeIdx) (n : Node) : (s.setNode i n).outBytes = s.outBytes := rfl
@[simp] theorem State.setNode_root (s : State) (i : NodeIdx) (n : Node) : (s.setNode i n).root = s.root := rfl
@[simp] theorem State.setNode_nodes (s : State) (i : NodeIdx) (n : Node) : (s.setNode i n).nodes = s.nodes := rfl
@[simp] theorem State.setNode_freqIdx (s : State) (i : NodeIdx) (n : Node) : (s.setNode i n).freqIdx = s.freqIdx := rfl
@[simp] theorem State.setNode_codeIdx (s : State) (i : NodeIdx) (n : Node) : (s.setNode i n).codeIdx = s.codeIdx := rfl
@[simp] theorem State.setNode_nodeIdx (s : State) (i : NodeIdx) (n : Node) : (s.setNode i n).nodeIdx = s.nodeIdx := rfl
@[simp] theorem State.setNode_freq (s : State) (i : NodeIdx) (n : Node) : (s.setNode i n).freq = s.freq := rfl
@[simp] theorem State.setNode_node (s : State) (i : NodeIdx) (n : Node) : (s.setNode i n).node = s.node.setIfInBounds i.toNat n := rfl
@[simp] theorem State.setNode_codeLen (s : State) (i : NodeIdx) (n : Node) : (s.setNode i n).codeLen = s.codeLen := rfl
@[simp] theorem State.setNode_codeBits (s : State) (i : NodeIdx) (n : Node) : (s.setNode i n).codeBits = s.codeBits := rfl
@[simp] theorem State.setNode_rbuf (s : State) (i : NodeIdx) (n : Node) : (s.setNode i n).rbuf = s.rbuf := rfl
@[simp] theorem State.setNode_rcnt (s : State) (i : NodeIdx) (n : Node) : (s.setNode i n).rcnt = s.rcnt := rfl
@[simp] theorem State.setNode_wbuf (s : State) (i : NodeIdx) (n : Node) : (s.setNode i n).wbuf = s.wbuf := rfl
@[simp] theorem State.setNode_wcnt (s : State) (i : NodeIdx) (n : Node) : (s.setNode i n).wcnt = s.wcnt := rfl
@[simp] theorem State.setNode_cur (s : State) (i : NodeIdx) (n : Node) : (s.setNode i n).cur = s.cur := rfl
@[simp] theorem State.setNode_pq (s : State) (i : NodeIdx) (n : Node) : (s.setNode i n).pq = s.pq := rfl
@[simp] theorem State.setNode_seq (s : State) (i : NodeIdx) (n : Node) : (s.setNode i n).seq = s.seq := rfl
@[simp] theorem State.setNode_rstN (s : State) (i : NodeIdx) (n : Node) : (s.setNode i n).rstN = s.rstN := rfl
@[simp] theorem State.setNode_inData (s : State) (i : NodeIdx) (n : Node) : (s.setNode i n).inData = s.inData := rfl
@[simp] theorem State.setNode_inPos (s : State) (i : NodeIdx) (n : Node) : (s.setNode i n).inPos = s.inPos := rfl
@[simp] theorem State.setNode_outLog (s : State) (i : NodeIdx) (n : Node) : (s.setNode i n).outLog = s.outLog := rfl
@[simp] theorem State.setNode_agenda (s : State) (i : NodeIdx) (n : Node) : (s.setNode i n).agenda = s.agenda := rfl
@[simp] theorem State.setNode_reads (s : State) (i : NodeIdx) (n : Node) : (s.setNode i n).reads = s.reads := rfl
@[simp] theorem State.setNode_draws (s : State) (i : NodeIdx) (n : Node) : (s.setNode i n).draws = s.draws := rfl

/-! ### setCode -/

@[simp] theorem State.setCode_phase (s : State) (y : Sym) (n : Nat) (p : List Bool) : (s.setCode y n p).phase = s.phase := rfl
@[simp] theorem State.setCode_lastCmd (s : State) (y : Sym) (n : Nat) (p : List Bool) : (s.setCode y n p).lastCmd = s.lastCmd := rfl
@[simp] theorem State.setCode_done (s : State) (y : Sym) (n : Nat) (p : List Bool) : (s.setCode y n p).done = s.done := rfl
@[simp] theorem State.setCode_err (s : State) (y : Sym) (n : Nat) (p : List Bool) : (s.setCode y n p).err = s.err := rfl
@[simp] theorem State.setCode_overrun (s : State) (y : Sym) (n : Nat) (p : List Bool) : (s.setCode y n p).overrun = s.overrun := rfl
@[simp] theorem State.setCode_errCode (s : State) (y : Sym) (n : Nat) (p : List Bool) : (s.setCode y n p).errCode = s.errCode := rfl
@[simp] theorem State.setCode_errInfo (s : State) (y : Sym) (n : Nat) (p : List Bool) : (s.setCode y n p).errInfo = s.errInfo := rfl
@[simp] theorem State.setCode_irqEn (s : State) (y : Sym) (n : Nat) (p : List Bool) : (s.setCode y n p).irqEn = s.irqEn := rfl
@[simp] theorem State.setCode_magic (s : State) (y : Sym) (n : Nat) (p : List Bool) : (s.setCode y n p).magic = s.magic := rfl
@[simp] theorem State.setCode_inBytes (s : State) (y : Sym) (n : Nat) (p : List Bool) : (s.setCode y n p).inBytes = s.inBytes := rfl
@[simp] theorem State.setCode_outBytes (s : State) (y : Sym) (n : Nat) (p : List Bool) : (s.setCode y n p).outBytes = s.outBytes := rfl
@[simp] theorem State.setCode_root (s : State) (y : Sym) (n : Nat) (p : List Bool) : (s.setCode y n p).root = s.root := rfl
@[simp] theorem State.setCode_nodes (s : State) (y : Sym) (n : Nat) (p : List Bool) : (s.setCode y n p).nodes = s.nodes := rfl
@[simp] theorem State.setCode_freqIdx (s : State) (y : Sym) (n : Nat) (p : List Bool) : (s.setCode y n p).freqIdx = s.freqIdx := rfl
@[simp] theorem State.setCode_codeIdx (s : State) (y : Sym) (n : Nat) (p : List Bool) : (s.setCode y n p).codeIdx = s.codeIdx := rfl
@[simp] theorem State.setCode_nodeIdx (s : State) (y : Sym) (n : Nat) (p : List Bool) : (s.setCode y n p).nodeIdx = s.nodeIdx := rfl
@[simp] theorem State.setCode_freq (s : State) (y : Sym) (n : Nat) (p : List Bool) : (s.setCode y n p).freq = s.freq := rfl
@[simp] theorem State.setCode_node (s : State) (y : Sym) (n : Nat) (p : List Bool) : (s.setCode y n p).node = s.node := rfl
@[simp] theorem State.setCode_codeLen (s : State) (y : Sym) (n : Nat) (p : List Bool) : (s.setCode y n p).codeLen = s.codeLen.setIfInBounds y.toNat (BitVec.ofNat 9 n) := rfl
@[simp] theorem State.setCode_codeBits (s : State) (y : Sym) (n : Nat) (p : List Bool) : (s.setCode y n p).codeBits = s.codeBits.setIfInBounds y.toNat (pathBits p) := rfl
@[simp] theorem State.setCode_rbuf (s : State) (y : Sym) (n : Nat) (p : List Bool) : (s.setCode y n p).rbuf = s.rbuf := rfl
@[simp] theorem State.setCode_rcnt (s : State) (y : Sym) (n : Nat) (p : List Bool) : (s.setCode y n p).rcnt = s.rcnt := rfl
@[simp] theorem State.setCode_wbuf (s : State) (y : Sym) (n : Nat) (p : List Bool) : (s.setCode y n p).wbuf = s.wbuf := rfl
@[simp] theorem State.setCode_wcnt (s : State) (y : Sym) (n : Nat) (p : List Bool) : (s.setCode y n p).wcnt = s.wcnt := rfl
@[simp] theorem State.setCode_cur (s : State) (y : Sym) (n : Nat) (p : List Bool) : (s.setCode y n p).cur = s.cur := rfl
@[simp] theorem State.setCode_pq (s : State) (y : Sym) (n : Nat) (p : List Bool) : (s.setCode y n p).pq = s.pq := rfl
@[simp] theorem State.setCode_seq (s : State) (y : Sym) (n : Nat) (p : List Bool) : (s.setCode y n p).seq = s.seq := rfl
@[simp] theorem State.setCode_rstN (s : State) (y : Sym) (n : Nat) (p : List Bool) : (s.setCode y n p).rstN = s.rstN := rfl
@[simp] theorem State.setCode_inData (s : State) (y : Sym) (n : Nat) (p : List Bool) : (s.setCode y n p).inData = s.inData := rfl
@[simp] theorem State.setCode_inPos (s : State) (y : Sym) (n : Nat) (p : List Bool) : (s.setCode y n p).inPos = s.inPos := rfl
@[simp] theorem State.setCode_outLog (s : State) (y : Sym) (n : Nat) (p : List Bool) : (s.setCode y n p).outLog = s.outLog := rfl
@[simp] theorem State.setCode_agenda (s : State) (y : Sym) (n : Nat) (p : List Bool) : (s.setCode y n p).agenda = s.agenda := rfl
@[simp] theorem State.setCode_reads (s : State) (y : Sym) (n : Nat) (p : List Bool) : (s.setCode y n p).reads = s.reads := rfl
@[simp] theorem State.setCode_draws (s : State) (y : Sym) (n : Nat) (p : List Bool) : (s.setCode y n p).draws = s.draws := rfl

/-! ### allocNode -/

@[simp] theorem State.allocNode_phase (s : State) (n : Node) : (s.allocNode n).phase = s.phase := rfl
@[simp] theorem State.allocNode_lastCmd (s : State) (n : Node) : (s.allocNode n).lastCmd = s.lastCmd := rfl
@[simp] theorem State.allocNode_done (s : State) (n : Node) : (s.allocNode n).done = s.done := rfl
@[simp] theorem State.allocNode_err (s : State) (n : Node) : (s.allocNode n).err = s.err := rfl
@[simp] theorem State.allocNode_overrun (s : State) (n : Node) : (s.allocNode n).overrun = s.overrun := rfl
@[simp] theorem State.allocNode_errCode (s : State) (n : Node) : (s.allocNode n).errCode = s.errCode := rfl
@[simp] theorem State.allocNode_errInfo (s : State) (n : Node) : (s.allocNode n).errInfo = s.errInfo := rfl
@[simp] theorem State.allocNode_irqEn (s : State) (n : Node) : (s.allocNode n).irqEn = s.irqEn := rfl
@[simp] theorem State.allocNode_magic (s : State) (n : Node) : (s.allocNode n).magic = s.magic := rfl
@[simp] theorem State.allocNode_inBytes (s : State) (n : Node) : (s.allocNode n).inBytes = s.inBytes := rfl
@[simp] theorem State.allocNode_outBytes (s : State) (n : Node) : (s.allocNode n).outBytes = s.outBytes := rfl
@[simp] theorem State.allocNode_root (s : State) (n : Node) : (s.allocNode n).root = s.root := rfl
@[simp] theorem State.allocNode_nodes (s : State) (n : Node) : (s.allocNode n).nodes = s.nodes + 1 := rfl
@[simp] theorem State.allocNode_freqIdx (s : State) (n : Node) : (s.allocNode n).freqIdx = s.freqIdx := rfl
@[simp] theorem State.allocNode_codeIdx (s : State) (n : Node) : (s.allocNode n).codeIdx = s.codeIdx := rfl
@[simp] theorem State.allocNode_nodeIdx (s : State) (n : Node) : (s.allocNode n).nodeIdx = s.nodeIdx := rfl
@[simp] theorem State.allocNode_freq (s : State) (n : Node) : (s.allocNode n).freq = s.freq := rfl
@[simp] theorem State.allocNode_node (s : State) (n : Node) : (s.allocNode n).node = s.node.setIfInBounds s.nodes.toNat n := rfl
@[simp] theorem State.allocNode_codeLen (s : State) (n : Node) : (s.allocNode n).codeLen = s.codeLen := rfl
@[simp] theorem State.allocNode_codeBits (s : State) (n : Node) : (s.allocNode n).codeBits = s.codeBits := rfl
@[simp] theorem State.allocNode_rbuf (s : State) (n : Node) : (s.allocNode n).rbuf = s.rbuf := rfl
@[simp] theorem State.allocNode_rcnt (s : State) (n : Node) : (s.allocNode n).rcnt = s.rcnt := rfl
@[simp] theorem State.allocNode_wbuf (s : State) (n : Node) : (s.allocNode n).wbuf = s.wbuf := rfl
@[simp] theorem State.allocNode_wcnt (s : State) (n : Node) : (s.allocNode n).wcnt = s.wcnt := rfl
@[simp] theorem State.allocNode_cur (s : State) (n : Node) : (s.allocNode n).cur = s.cur := rfl
@[simp] theorem State.allocNode_pq (s : State) (n : Node) : (s.allocNode n).pq = s.pq := rfl
@[simp] theorem State.allocNode_seq (s : State) (n : Node) : (s.allocNode n).seq = s.seq := rfl
@[simp] theorem State.allocNode_rstN (s : State) (n : Node) : (s.allocNode n).rstN = s.rstN := rfl
@[simp] theorem State.allocNode_inData (s : State) (n : Node) : (s.allocNode n).inData = s.inData := rfl
@[simp] theorem State.allocNode_inPos (s : State) (n : Node) : (s.allocNode n).inPos = s.inPos := rfl
@[simp] theorem State.allocNode_outLog (s : State) (n : Node) : (s.allocNode n).outLog = s.outLog := rfl
@[simp] theorem State.allocNode_agenda (s : State) (n : Node) : (s.allocNode n).agenda = s.agenda := rfl
@[simp] theorem State.allocNode_reads (s : State) (n : Node) : (s.allocNode n).reads = s.reads := rfl
@[simp] theorem State.allocNode_draws (s : State) (n : Node) : (s.allocNode n).draws = s.draws := rfl

/-! ### inRewind -/

@[simp] theorem State.inRewind_phase (s : State) : (s.inRewind).phase = s.phase := rfl
@[simp] theorem State.inRewind_lastCmd (s : State) : (s.inRewind).lastCmd = s.lastCmd := rfl
@[simp] theorem State.inRewind_done (s : State) : (s.inRewind).done = s.done := rfl
@[simp] theorem State.inRewind_err (s : State) : (s.inRewind).err = s.err := rfl
@[simp] theorem State.inRewind_overrun (s : State) : (s.inRewind).overrun = s.overrun := rfl
@[simp] theorem State.inRewind_errCode (s : State) : (s.inRewind).errCode = s.errCode := rfl
@[simp] theorem State.inRewind_errInfo (s : State) : (s.inRewind).errInfo = s.errInfo := rfl
@[simp] theorem State.inRewind_irqEn (s : State) : (s.inRewind).irqEn = s.irqEn := rfl
@[simp] theorem State.inRewind_magic (s : State) : (s.inRewind).magic = s.magic := rfl
@[simp] theorem State.inRewind_inBytes (s : State) : (s.inRewind).inBytes = s.inBytes := rfl
@[simp] theorem State.inRewind_outBytes (s : State) : (s.inRewind).outBytes = s.outBytes := rfl
@[simp] theorem State.inRewind_root (s : State) : (s.inRewind).root = s.root := rfl
@[simp] theorem State.inRewind_nodes (s : State) : (s.inRewind).nodes = s.nodes := rfl
@[simp] theorem State.inRewind_freqIdx (s : State) : (s.inRewind).freqIdx = s.freqIdx := rfl
@[simp] theorem State.inRewind_codeIdx (s : State) : (s.inRewind).codeIdx = s.codeIdx := rfl
@[simp] theorem State.inRewind_nodeIdx (s : State) : (s.inRewind).nodeIdx = s.nodeIdx := rfl
@[simp] theorem State.inRewind_freq (s : State) : (s.inRewind).freq = s.freq := rfl
@[simp] theorem State.inRewind_node (s : State) : (s.inRewind).node = s.node := rfl
@[simp] theorem State.inRewind_codeLen (s : State) : (s.inRewind).codeLen = s.codeLen := rfl
@[simp] theorem State.inRewind_codeBits (s : State) : (s.inRewind).codeBits = s.codeBits := rfl
@[simp] theorem State.inRewind_rbuf (s : State) : (s.inRewind).rbuf = s.rbuf := rfl
@[simp] theorem State.inRewind_rcnt (s : State) : (s.inRewind).rcnt = s.rcnt := rfl
@[simp] theorem State.inRewind_wbuf (s : State) : (s.inRewind).wbuf = s.wbuf := rfl
@[simp] theorem State.inRewind_wcnt (s : State) : (s.inRewind).wcnt = s.wcnt := rfl
@[simp] theorem State.inRewind_cur (s : State) : (s.inRewind).cur = s.cur := rfl
@[simp] theorem State.inRewind_pq (s : State) : (s.inRewind).pq = s.pq := rfl
@[simp] theorem State.inRewind_seq (s : State) : (s.inRewind).seq = s.seq := rfl
@[simp] theorem State.inRewind_rstN (s : State) : (s.inRewind).rstN = s.rstN := rfl
@[simp] theorem State.inRewind_inData (s : State) : (s.inRewind).inData = s.inData := rfl
@[simp] theorem State.inRewind_inPos (s : State) : (s.inRewind).inPos = 0 := rfl
@[simp] theorem State.inRewind_outLog (s : State) : (s.inRewind).outLog = s.outLog := rfl
@[simp] theorem State.inRewind_agenda (s : State) : (s.inRewind).agenda = s.agenda := rfl
@[simp] theorem State.inRewind_reads (s : State) : (s.inRewind).reads = s.reads := rfl
@[simp] theorem State.inRewind_draws (s : State) : (s.inRewind).draws = s.draws := rfl

/-! ### outByte -/

@[simp] theorem State.outByte_phase (s : State) (b : Byte) : (s.outByte b).phase = s.phase := rfl
@[simp] theorem State.outByte_lastCmd (s : State) (b : Byte) : (s.outByte b).lastCmd = s.lastCmd := rfl
@[simp] theorem State.outByte_done (s : State) (b : Byte) : (s.outByte b).done = s.done := rfl
@[simp] theorem State.outByte_err (s : State) (b : Byte) : (s.outByte b).err = s.err := rfl
@[simp] theorem State.outByte_overrun (s : State) (b : Byte) : (s.outByte b).overrun = s.overrun := rfl
@[simp] theorem State.outByte_errCode (s : State) (b : Byte) : (s.outByte b).errCode = s.errCode := rfl
@[simp] theorem State.outByte_errInfo (s : State) (b : Byte) : (s.outByte b).errInfo = s.errInfo := rfl
@[simp] theorem State.outByte_irqEn (s : State) (b : Byte) : (s.outByte b).irqEn = s.irqEn := rfl
@[simp] theorem State.outByte_magic (s : State) (b : Byte) : (s.outByte b).magic = s.magic := rfl
@[simp] theorem State.outByte_inBytes (s : State) (b : Byte) : (s.outByte b).inBytes = s.inBytes := rfl
@[simp] theorem State.outByte_outBytes (s : State) (b : Byte) : (s.outByte b).outBytes = s.outBytes + 1 := rfl
@[simp] theorem State.outByte_root (s : State) (b : Byte) : (s.outByte b).root = s.root := rfl
@[simp] theorem State.outByte_nodes (s : State) (b : Byte) : (s.outByte b).nodes = s.nodes := rfl
@[simp] theorem State.outByte_freqIdx (s : State) (b : Byte) : (s.outByte b).freqIdx = s.freqIdx := rfl
@[simp] theorem State.outByte_codeIdx (s : State) (b : Byte) : (s.outByte b).codeIdx = s.codeIdx := rfl
@[simp] theorem State.outByte_nodeIdx (s : State) (b : Byte) : (s.outByte b).nodeIdx = s.nodeIdx := rfl
@[simp] theorem State.outByte_freq (s : State) (b : Byte) : (s.outByte b).freq = s.freq := rfl
@[simp] theorem State.outByte_node (s : State) (b : Byte) : (s.outByte b).node = s.node := rfl
@[simp] theorem State.outByte_codeLen (s : State) (b : Byte) : (s.outByte b).codeLen = s.codeLen := rfl
@[simp] theorem State.outByte_codeBits (s : State) (b : Byte) : (s.outByte b).codeBits = s.codeBits := rfl
@[simp] theorem State.outByte_rbuf (s : State) (b : Byte) : (s.outByte b).rbuf = s.rbuf := rfl
@[simp] theorem State.outByte_rcnt (s : State) (b : Byte) : (s.outByte b).rcnt = s.rcnt := rfl
@[simp] theorem State.outByte_wbuf (s : State) (b : Byte) : (s.outByte b).wbuf = s.wbuf := rfl
@[simp] theorem State.outByte_wcnt (s : State) (b : Byte) : (s.outByte b).wcnt = s.wcnt := rfl
@[simp] theorem State.outByte_cur (s : State) (b : Byte) : (s.outByte b).cur = s.cur := rfl
@[simp] theorem State.outByte_pq (s : State) (b : Byte) : (s.outByte b).pq = s.pq := rfl
@[simp] theorem State.outByte_seq (s : State) (b : Byte) : (s.outByte b).seq = s.seq := rfl
@[simp] theorem State.outByte_rstN (s : State) (b : Byte) : (s.outByte b).rstN = s.rstN := rfl
@[simp] theorem State.outByte_inData (s : State) (b : Byte) : (s.outByte b).inData = s.inData := rfl
@[simp] theorem State.outByte_inPos (s : State) (b : Byte) : (s.outByte b).inPos = s.inPos := rfl
@[simp] theorem State.outByte_outLog (s : State) (b : Byte) : (s.outByte b).outLog = s.outLog ++ [.byte b] := rfl
@[simp] theorem State.outByte_agenda (s : State) (b : Byte) : (s.outByte b).agenda = s.agenda := rfl
@[simp] theorem State.outByte_reads (s : State) (b : Byte) : (s.outByte b).reads = s.reads := rfl
@[simp] theorem State.outByte_draws (s : State) (b : Byte) : (s.outByte b).draws = s.draws := rfl

/-! ### outEnd -/

@[simp] theorem State.outEnd_phase (s : State) : (s.outEnd).phase = s.phase := rfl
@[simp] theorem State.outEnd_lastCmd (s : State) : (s.outEnd).lastCmd = s.lastCmd := rfl
@[simp] theorem State.outEnd_done (s : State) : (s.outEnd).done = s.done := rfl
@[simp] theorem State.outEnd_err (s : State) : (s.outEnd).err = s.err := rfl
@[simp] theorem State.outEnd_overrun (s : State) : (s.outEnd).overrun = s.overrun := rfl
@[simp] theorem State.outEnd_errCode (s : State) : (s.outEnd).errCode = s.errCode := rfl
@[simp] theorem State.outEnd_errInfo (s : State) : (s.outEnd).errInfo = s.errInfo := rfl
@[simp] theorem State.outEnd_irqEn (s : State) : (s.outEnd).irqEn = s.irqEn := rfl
@[simp] theorem State.outEnd_magic (s : State) : (s.outEnd).magic = s.magic := rfl
@[simp] theorem State.outEnd_inBytes (s : State) : (s.outEnd).inBytes = s.inBytes := rfl
@[simp] theorem State.outEnd_outBytes (s : State) : (s.outEnd).outBytes = s.outBytes := rfl
@[simp] theorem State.outEnd_root (s : State) : (s.outEnd).root = s.root := rfl
@[simp] theorem State.outEnd_nodes (s : State) : (s.outEnd).nodes = s.nodes := rfl
@[simp] theorem State.outEnd_freqIdx (s : State) : (s.outEnd).freqIdx = s.freqIdx := rfl
@[simp] theorem State.outEnd_codeIdx (s : State) : (s.outEnd).codeIdx = s.codeIdx := rfl
@[simp] theorem State.outEnd_nodeIdx (s : State) : (s.outEnd).nodeIdx = s.nodeIdx := rfl
@[simp] theorem State.outEnd_freq (s : State) : (s.outEnd).freq = s.freq := rfl
@[simp] theorem State.outEnd_node (s : State) : (s.outEnd).node = s.node := rfl
@[simp] theorem State.outEnd_codeLen (s : State) : (s.outEnd).codeLen = s.codeLen := rfl
@[simp] theorem State.outEnd_codeBits (s : State) : (s.outEnd).codeBits = s.codeBits := rfl
@[simp] theorem State.outEnd_rbuf (s : State) : (s.outEnd).rbuf = s.rbuf := rfl
@[simp] theorem State.outEnd_rcnt (s : State) : (s.outEnd).rcnt = s.rcnt := rfl
@[simp] theorem State.outEnd_wbuf (s : State) : (s.outEnd).wbuf = s.wbuf := rfl
@[simp] theorem State.outEnd_wcnt (s : State) : (s.outEnd).wcnt = s.wcnt := rfl
@[simp] theorem State.outEnd_cur (s : State) : (s.outEnd).cur = s.cur := rfl
@[simp] theorem State.outEnd_pq (s : State) : (s.outEnd).pq = s.pq := rfl
@[simp] theorem State.outEnd_seq (s : State) : (s.outEnd).seq = s.seq := rfl
@[simp] theorem State.outEnd_rstN (s : State) : (s.outEnd).rstN = s.rstN := rfl
@[simp] theorem State.outEnd_inData (s : State) : (s.outEnd).inData = s.inData := rfl
@[simp] theorem State.outEnd_inPos (s : State) : (s.outEnd).inPos = s.inPos := rfl
@[simp] theorem State.outEnd_outLog (s : State) : (s.outEnd).outLog = s.outLog ++ [.close] := rfl
@[simp] theorem State.outEnd_agenda (s : State) : (s.outEnd).agenda = s.agenda := rfl
@[simp] theorem State.outEnd_reads (s : State) : (s.outEnd).reads = s.reads := rfl
@[simp] theorem State.outEnd_draws (s : State) : (s.outEnd).draws = s.draws := rfl

/-! ### readerClear -/

@[simp] theorem State.readerClear_phase (s : State) : (s.readerClear).phase = s.phase := rfl
@[simp] theorem State.readerClear_lastCmd (s : State) : (s.readerClear).lastCmd = s.lastCmd := rfl
@[simp] theorem State.readerClear_done (s : State) : (s.readerClear).done = s.done := rfl
@[simp] theorem State.readerClear_err (s : State) : (s.readerClear).err = s.err := rfl
@[simp] theorem State.readerClear_overrun (s : State) : (s.readerClear).overrun = s.overrun := rfl
@[simp] theorem State.readerClear_errCode (s : State) : (s.readerClear).errCode = s.errCode := rfl
@[simp] theorem State.readerClear_errInfo (s : State) : (s.readerClear).errInfo = s.errInfo := rfl
@[simp] theorem State.readerClear_irqEn (s : State) : (s.readerClear).irqEn = s.irqEn := rfl
@[simp] theorem State.readerClear_magic (s : State) : (s.readerClear).magic = s.magic := rfl
@[simp] theorem State.readerClear_inBytes (s : State) : (s.readerClear).inBytes = s.inBytes := rfl
@[simp] theorem State.readerClear_outBytes (s : State) : (s.readerClear).outBytes = s.outBytes := rfl
@[simp] theorem State.readerClear_root (s : State) : (s.readerClear).root = s.root := rfl
@[simp] theorem State.readerClear_nodes (s : State) : (s.readerClear).nodes = s.nodes := rfl
@[simp] theorem State.readerClear_freqIdx (s : State) : (s.readerClear).freqIdx = s.freqIdx := rfl
@[simp] theorem State.readerClear_codeIdx (s : State) : (s.readerClear).codeIdx = s.codeIdx := rfl
@[simp] theorem State.readerClear_nodeIdx (s : State) : (s.readerClear).nodeIdx = s.nodeIdx := rfl
@[simp] theorem State.readerClear_freq (s : State) : (s.readerClear).freq = s.freq := rfl
@[simp] theorem State.readerClear_node (s : State) : (s.readerClear).node = s.node := rfl
@[simp] theorem State.readerClear_codeLen (s : State) : (s.readerClear).codeLen = s.codeLen := rfl
@[simp] theorem State.readerClear_codeBits (s : State) : (s.readerClear).codeBits = s.codeBits := rfl
@[simp] theorem State.readerClear_rbuf (s : State) : (s.readerClear).rbuf = 0 := rfl
@[simp] theorem State.readerClear_rcnt (s : State) : (s.readerClear).rcnt = 0 := rfl
@[simp] theorem State.readerClear_wbuf (s : State) : (s.readerClear).wbuf = s.wbuf := rfl
@[simp] theorem State.readerClear_wcnt (s : State) : (s.readerClear).wcnt = s.wcnt := rfl
@[simp] theorem State.readerClear_cur (s : State) : (s.readerClear).cur = s.cur := rfl
@[simp] theorem State.readerClear_pq (s : State) : (s.readerClear).pq = s.pq := rfl
@[simp] theorem State.readerClear_seq (s : State) : (s.readerClear).seq = s.seq := rfl
@[simp] theorem State.readerClear_rstN (s : State) : (s.readerClear).rstN = s.rstN := rfl
@[simp] theorem State.readerClear_inData (s : State) : (s.readerClear).inData = s.inData := rfl
@[simp] theorem State.readerClear_inPos (s : State) : (s.readerClear).inPos = s.inPos := rfl
@[simp] theorem State.readerClear_outLog (s : State) : (s.readerClear).outLog = s.outLog := rfl
@[simp] theorem State.readerClear_agenda (s : State) : (s.readerClear).agenda = s.agenda := rfl
@[simp] theorem State.readerClear_reads (s : State) : (s.readerClear).reads = s.reads := rfl
@[simp] theorem State.readerClear_draws (s : State) : (s.readerClear).draws = s.draws := rfl

/-! ### writerClear -/

@[simp] theorem State.writerClear_phase (s : State) : (s.writerClear).phase = s.phase := rfl
@[simp] theorem State.writerClear_lastCmd (s : State) : (s.writerClear).lastCmd = s.lastCmd := rfl
@[simp] theorem State.writerClear_done (s : State) : (s.writerClear).done = s.done := rfl
@[simp] theorem State.writerClear_err (s : State) : (s.writerClear).err = s.err := rfl
@[simp] theorem State.writerClear_overrun (s : State) : (s.writerClear).overrun = s.overrun := rfl
@[simp] theorem State.writerClear_errCode (s : State) : (s.writerClear).errCode = s.errCode := rfl
@[simp] theorem State.writerClear_errInfo (s : State) : (s.writerClear).errInfo = s.errInfo := rfl
@[simp] theorem State.writerClear_irqEn (s : State) : (s.writerClear).irqEn = s.irqEn := rfl
@[simp] theorem State.writerClear_magic (s : State) : (s.writerClear).magic = s.magic := rfl
@[simp] theorem State.writerClear_inBytes (s : State) : (s.writerClear).inBytes = s.inBytes := rfl
@[simp] theorem State.writerClear_outBytes (s : State) : (s.writerClear).outBytes = s.outBytes := rfl
@[simp] theorem State.writerClear_root (s : State) : (s.writerClear).root = s.root := rfl
@[simp] theorem State.writerClear_nodes (s : State) : (s.writerClear).nodes = s.nodes := rfl
@[simp] theorem State.writerClear_freqIdx (s : State) : (s.writerClear).freqIdx = s.freqIdx := rfl
@[simp] theorem State.writerClear_codeIdx (s : State) : (s.writerClear).codeIdx = s.codeIdx := rfl
@[simp] theorem State.writerClear_nodeIdx (s : State) : (s.writerClear).nodeIdx = s.nodeIdx := rfl
@[simp] theorem State.writerClear_freq (s : State) : (s.writerClear).freq = s.freq := rfl
@[simp] theorem State.writerClear_node (s : State) : (s.writerClear).node = s.node := rfl
@[simp] theorem State.writerClear_codeLen (s : State) : (s.writerClear).codeLen = s.codeLen := rfl
@[simp] theorem State.writerClear_codeBits (s : State) : (s.writerClear).codeBits = s.codeBits := rfl
@[simp] theorem State.writerClear_rbuf (s : State) : (s.writerClear).rbuf = s.rbuf := rfl
@[simp] theorem State.writerClear_rcnt (s : State) : (s.writerClear).rcnt = s.rcnt := rfl
@[simp] theorem State.writerClear_wbuf (s : State) : (s.writerClear).wbuf = 0 := rfl
@[simp] theorem State.writerClear_wcnt (s : State) : (s.writerClear).wcnt = 0 := rfl
@[simp] theorem State.writerClear_cur (s : State) : (s.writerClear).cur = s.cur := rfl
@[simp] theorem State.writerClear_pq (s : State) : (s.writerClear).pq = s.pq := rfl
@[simp] theorem State.writerClear_seq (s : State) : (s.writerClear).seq = s.seq := rfl
@[simp] theorem State.writerClear_rstN (s : State) : (s.writerClear).rstN = s.rstN := rfl
@[simp] theorem State.writerClear_inData (s : State) : (s.writerClear).inData = s.inData := rfl
@[simp] theorem State.writerClear_inPos (s : State) : (s.writerClear).inPos = s.inPos := rfl
@[simp] theorem State.writerClear_outLog (s : State) : (s.writerClear).outLog = s.outLog := rfl
@[simp] theorem State.writerClear_agenda (s : State) : (s.writerClear).agenda = s.agenda := rfl
@[simp] theorem State.writerClear_reads (s : State) : (s.writerClear).reads = s.reads := rfl
@[simp] theorem State.writerClear_draws (s : State) : (s.writerClear).draws = s.draws := rfl

/-! ### clearRecord -/

@[simp] theorem State.clearRecord_phase (s : State) : (s.clearRecord).phase = s.phase := rfl
@[simp] theorem State.clearRecord_lastCmd (s : State) : (s.clearRecord).lastCmd = s.lastCmd := rfl
@[simp] theorem State.clearRecord_done (s : State) : (s.clearRecord).done = false := rfl
@[simp] theorem State.clearRecord_err (s : State) : (s.clearRecord).err = false := rfl
@[simp] theorem State.clearRecord_overrun (s : State) : (s.clearRecord).overrun = s.overrun := rfl
@[simp] theorem State.clearRecord_errCode (s : State) : (s.clearRecord).errCode = 0 := rfl
@[simp] theorem State.clearRecord_errInfo (s : State) : (s.clearRecord).errInfo = 0 := rfl
@[simp] theorem State.clearRecord_irqEn (s : State) : (s.clearRecord).irqEn = s.irqEn := rfl
@[simp] theorem State.clearRecord_magic (s : State) : (s.clearRecord).magic = s.magic := rfl
@[simp] theorem State.clearRecord_inBytes (s : State) : (s.clearRecord).inBytes = 0 := rfl
@[simp] theorem State.clearRecord_outBytes (s : State) : (s.clearRecord).outBytes = 0 := rfl
@[simp] theorem State.clearRecord_root (s : State) : (s.clearRecord).root = s.root := rfl
@[simp] theorem State.clearRecord_nodes (s : State) : (s.clearRecord).nodes = s.nodes := rfl
@[simp] theorem State.clearRecord_freqIdx (s : State) : (s.clearRecord).freqIdx = s.freqIdx := rfl
@[simp] theorem State.clearRecord_codeIdx (s : State) : (s.clearRecord).codeIdx = s.codeIdx := rfl
@[simp] theorem State.clearRecord_nodeIdx (s : State) : (s.clearRecord).nodeIdx = s.nodeIdx := rfl
@[simp] theorem State.clearRecord_freq (s : State) : (s.clearRecord).freq = s.freq := rfl
@[simp] theorem State.clearRecord_node (s : State) : (s.clearRecord).node = s.node := rfl
@[simp] theorem State.clearRecord_codeLen (s : State) : (s.clearRecord).codeLen = s.codeLen := rfl
@[simp] theorem State.clearRecord_codeBits (s : State) : (s.clearRecord).codeBits = s.codeBits := rfl
@[simp] theorem State.clearRecord_rbuf (s : State) : (s.clearRecord).rbuf = s.rbuf := rfl
@[simp] theorem State.clearRecord_rcnt (s : State) : (s.clearRecord).rcnt = s.rcnt := rfl
@[simp] theorem State.clearRecord_wbuf (s : State) : (s.clearRecord).wbuf = s.wbuf := rfl
@[simp] theorem State.clearRecord_wcnt (s : State) : (s.clearRecord).wcnt = s.wcnt := rfl
@[simp] theorem State.clearRecord_cur (s : State) : (s.clearRecord).cur = s.cur := rfl
@[simp] theorem State.clearRecord_pq (s : State) : (s.clearRecord).pq = s.pq := rfl
@[simp] theorem State.clearRecord_seq (s : State) : (s.clearRecord).seq = s.seq := rfl
@[simp] theorem State.clearRecord_rstN (s : State) : (s.clearRecord).rstN = s.rstN := rfl
@[simp] theorem State.clearRecord_inData (s : State) : (s.clearRecord).inData = s.inData := rfl
@[simp] theorem State.clearRecord_inPos (s : State) : (s.clearRecord).inPos = s.inPos := rfl
@[simp] theorem State.clearRecord_outLog (s : State) : (s.clearRecord).outLog = s.outLog := rfl
@[simp] theorem State.clearRecord_agenda (s : State) : (s.clearRecord).agenda = s.agenda := rfl
@[simp] theorem State.clearRecord_reads (s : State) : (s.clearRecord).reads = s.reads := rfl
@[simp] theorem State.clearRecord_draws (s : State) : (s.clearRecord).draws = s.draws := rfl

/-! ### endPhase -/

@[simp] theorem State.endPhase_phase (s : State) : (s.endPhase).phase = s.phase := rfl
@[simp] theorem State.endPhase_lastCmd (s : State) : (s.endPhase).lastCmd = s.lastCmd := rfl
@[simp] theorem State.endPhase_done (s : State) : (s.endPhase).done = s.done := rfl
@[simp] theorem State.endPhase_err (s : State) : (s.endPhase).err = s.err := rfl
@[simp] theorem State.endPhase_overrun (s : State) : (s.endPhase).overrun = s.overrun := rfl
@[simp] theorem State.endPhase_errCode (s : State) : (s.endPhase).errCode = s.errCode := rfl
@[simp] theorem State.endPhase_errInfo (s : State) : (s.endPhase).errInfo = s.errInfo := rfl
@[simp] theorem State.endPhase_irqEn (s : State) : (s.endPhase).irqEn = s.irqEn := rfl
@[simp] theorem State.endPhase_magic (s : State) : (s.endPhase).magic = s.magic := rfl
@[simp] theorem State.endPhase_inBytes (s : State) : (s.endPhase).inBytes = s.inBytes := rfl
@[simp] theorem State.endPhase_outBytes (s : State) : (s.endPhase).outBytes = s.outBytes := rfl
@[simp] theorem State.endPhase_root (s : State) : (s.endPhase).root = s.root := rfl
@[simp] theorem State.endPhase_nodes (s : State) : (s.endPhase).nodes = s.nodes := rfl
@[simp] theorem State.endPhase_freqIdx (s : State) : (s.endPhase).freqIdx = s.freqIdx := rfl
@[simp] theorem State.endPhase_codeIdx (s : State) : (s.endPhase).codeIdx = s.codeIdx := rfl
@[simp] theorem State.endPhase_nodeIdx (s : State) : (s.endPhase).nodeIdx = s.nodeIdx := rfl
@[simp] theorem State.endPhase_freq (s : State) : (s.endPhase).freq = s.freq := rfl
@[simp] theorem State.endPhase_node (s : State) : (s.endPhase).node = s.node := rfl
@[simp] theorem State.endPhase_codeLen (s : State) : (s.endPhase).codeLen = s.codeLen := rfl
@[simp] theorem State.endPhase_codeBits (s : State) : (s.endPhase).codeBits = s.codeBits := rfl
@[simp] theorem State.endPhase_rbuf (s : State) : (s.endPhase).rbuf = s.rbuf := rfl
@[simp] theorem State.endPhase_rcnt (s : State) : (s.endPhase).rcnt = s.rcnt := rfl
@[simp] theorem State.endPhase_wbuf (s : State) : (s.endPhase).wbuf = s.wbuf := rfl
@[simp] theorem State.endPhase_wcnt (s : State) : (s.endPhase).wcnt = s.wcnt := rfl
@[simp] theorem State.endPhase_cur (s : State) : (s.endPhase).cur = s.cur := rfl
@[simp] theorem State.endPhase_pq (s : State) : (s.endPhase).pq = s.pq := rfl
@[simp] theorem State.endPhase_seq (s : State) : (s.endPhase).seq = .phaseEnd := rfl
@[simp] theorem State.endPhase_rstN (s : State) : (s.endPhase).rstN = s.rstN := rfl
@[simp] theorem State.endPhase_inData (s : State) : (s.endPhase).inData = s.inData := rfl
@[simp] theorem State.endPhase_inPos (s : State) : (s.endPhase).inPos = s.inPos := rfl
@[simp] theorem State.endPhase_outLog (s : State) : (s.endPhase).outLog = s.outLog := rfl
@[simp] theorem State.endPhase_agenda (s : State) : (s.endPhase).agenda = s.agenda := rfl
@[simp] theorem State.endPhase_reads (s : State) : (s.endPhase).reads = s.reads := rfl
@[simp] theorem State.endPhase_draws (s : State) : (s.endPhase).draws = s.draws := rfl

/-! ### complete -/

@[simp] theorem State.complete_phase (s : State) : (s.complete).phase = .idle := rfl
@[simp] theorem State.complete_lastCmd (s : State) : (s.complete).lastCmd = s.lastCmd := rfl
@[simp] theorem State.complete_done (s : State) : (s.complete).done = true := rfl
@[simp] theorem State.complete_err (s : State) : (s.complete).err = s.err := rfl
@[simp] theorem State.complete_overrun (s : State) : (s.complete).overrun = s.overrun := rfl
@[simp] theorem State.complete_errCode (s : State) : (s.complete).errCode = s.errCode := rfl
@[simp] theorem State.complete_errInfo (s : State) : (s.complete).errInfo = s.errInfo := rfl
@[simp] theorem State.complete_irqEn (s : State) : (s.complete).irqEn = s.irqEn := rfl
@[simp] theorem State.complete_magic (s : State) : (s.complete).magic = s.magic := rfl
@[simp] theorem State.complete_inBytes (s : State) : (s.complete).inBytes = s.inBytes := rfl
@[simp] theorem State.complete_outBytes (s : State) : (s.complete).outBytes = s.outBytes := rfl
@[simp] theorem State.complete_root (s : State) : (s.complete).root = s.root := rfl
@[simp] theorem State.complete_nodes (s : State) : (s.complete).nodes = s.nodes := rfl
@[simp] theorem State.complete_freqIdx (s : State) : (s.complete).freqIdx = s.freqIdx := rfl
@[simp] theorem State.complete_codeIdx (s : State) : (s.complete).codeIdx = s.codeIdx := rfl
@[simp] theorem State.complete_nodeIdx (s : State) : (s.complete).nodeIdx = s.nodeIdx := rfl
@[simp] theorem State.complete_freq (s : State) : (s.complete).freq = s.freq := rfl
@[simp] theorem State.complete_node (s : State) : (s.complete).node = s.node := rfl
@[simp] theorem State.complete_codeLen (s : State) : (s.complete).codeLen = s.codeLen := rfl
@[simp] theorem State.complete_codeBits (s : State) : (s.complete).codeBits = s.codeBits := rfl
@[simp] theorem State.complete_rbuf (s : State) : (s.complete).rbuf = s.rbuf := rfl
@[simp] theorem State.complete_rcnt (s : State) : (s.complete).rcnt = s.rcnt := rfl
@[simp] theorem State.complete_wbuf (s : State) : (s.complete).wbuf = s.wbuf := rfl
@[simp] theorem State.complete_wcnt (s : State) : (s.complete).wcnt = s.wcnt := rfl
@[simp] theorem State.complete_cur (s : State) : (s.complete).cur = 0 := rfl
@[simp] theorem State.complete_pq (s : State) : (s.complete).pq = [] := rfl
@[simp] theorem State.complete_seq (s : State) : (s.complete).seq = .start := rfl
@[simp] theorem State.complete_rstN (s : State) : (s.complete).rstN = s.rstN := rfl
@[simp] theorem State.complete_inData (s : State) : (s.complete).inData = s.inData := rfl
@[simp] theorem State.complete_inPos (s : State) : (s.complete).inPos = s.inPos := rfl
@[simp] theorem State.complete_outLog (s : State) : (s.complete).outLog = s.outLog := rfl
@[simp] theorem State.complete_agenda (s : State) : (s.complete).agenda = s.agenda := rfl
@[simp] theorem State.complete_reads (s : State) : (s.complete).reads = s.reads := rfl
@[simp] theorem State.complete_draws (s : State) : (s.complete).draws = s.draws := rfl

/-! ### clearStatus -/

@[simp] theorem State.clearStatus_phase (s : State) (v : Word) : (s.clearStatus v).phase = s.phase := rfl
@[simp] theorem State.clearStatus_lastCmd (s : State) (v : Word) : (s.clearStatus v).lastCmd = s.lastCmd := rfl
@[simp] theorem State.clearStatus_done (s : State) (v : Word) : (s.clearStatus v).done = (s.done && !v.getLsbD 1) := rfl
@[simp] theorem State.clearStatus_err (s : State) (v : Word) : (s.clearStatus v).err = (s.err && !v.getLsbD 2) := rfl
@[simp] theorem State.clearStatus_overrun (s : State) (v : Word) : (s.clearStatus v).overrun = (s.overrun && !v.getLsbD 3) := rfl
@[simp] theorem State.clearStatus_errCode (s : State) (v : Word) : (s.clearStatus v).errCode = s.errCode := rfl
@[simp] theorem State.clearStatus_errInfo (s : State) (v : Word) : (s.clearStatus v).errInfo = s.errInfo := rfl
@[simp] theorem State.clearStatus_irqEn (s : State) (v : Word) : (s.clearStatus v).irqEn = s.irqEn := rfl
@[simp] theorem State.clearStatus_magic (s : State) (v : Word) : (s.clearStatus v).magic = s.magic := rfl
@[simp] theorem State.clearStatus_inBytes (s : State) (v : Word) : (s.clearStatus v).inBytes = s.inBytes := rfl
@[simp] theorem State.clearStatus_outBytes (s : State) (v : Word) : (s.clearStatus v).outBytes = s.outBytes := rfl
@[simp] theorem State.clearStatus_root (s : State) (v : Word) : (s.clearStatus v).root = s.root := rfl
@[simp] theorem State.clearStatus_nodes (s : State) (v : Word) : (s.clearStatus v).nodes = s.nodes := rfl
@[simp] theorem State.clearStatus_freqIdx (s : State) (v : Word) : (s.clearStatus v).freqIdx = s.freqIdx := rfl
@[simp] theorem State.clearStatus_codeIdx (s : State) (v : Word) : (s.clearStatus v).codeIdx = s.codeIdx := rfl
@[simp] theorem State.clearStatus_nodeIdx (s : State) (v : Word) : (s.clearStatus v).nodeIdx = s.nodeIdx := rfl
@[simp] theorem State.clearStatus_freq (s : State) (v : Word) : (s.clearStatus v).freq = s.freq := rfl
@[simp] theorem State.clearStatus_node (s : State) (v : Word) : (s.clearStatus v).node = s.node := rfl
@[simp] theorem State.clearStatus_codeLen (s : State) (v : Word) : (s.clearStatus v).codeLen = s.codeLen := rfl
@[simp] theorem State.clearStatus_codeBits (s : State) (v : Word) : (s.clearStatus v).codeBits = s.codeBits := rfl
@[simp] theorem State.clearStatus_rbuf (s : State) (v : Word) : (s.clearStatus v).rbuf = s.rbuf := rfl
@[simp] theorem State.clearStatus_rcnt (s : State) (v : Word) : (s.clearStatus v).rcnt = s.rcnt := rfl
@[simp] theorem State.clearStatus_wbuf (s : State) (v : Word) : (s.clearStatus v).wbuf = s.wbuf := rfl
@[simp] theorem State.clearStatus_wcnt (s : State) (v : Word) : (s.clearStatus v).wcnt = s.wcnt := rfl
@[simp] theorem State.clearStatus_cur (s : State) (v : Word) : (s.clearStatus v).cur = s.cur := rfl
@[simp] theorem State.clearStatus_pq (s : State) (v : Word) : (s.clearStatus v).pq = s.pq := rfl
@[simp] theorem State.clearStatus_seq (s : State) (v : Word) : (s.clearStatus v).seq = s.seq := rfl
@[simp] theorem State.clearStatus_rstN (s : State) (v : Word) : (s.clearStatus v).rstN = s.rstN := rfl
@[simp] theorem State.clearStatus_inData (s : State) (v : Word) : (s.clearStatus v).inData = s.inData := rfl
@[simp] theorem State.clearStatus_inPos (s : State) (v : Word) : (s.clearStatus v).inPos = s.inPos := rfl
@[simp] theorem State.clearStatus_outLog (s : State) (v : Word) : (s.clearStatus v).outLog = s.outLog := rfl
@[simp] theorem State.clearStatus_agenda (s : State) (v : Word) : (s.clearStatus v).agenda = s.agenda := rfl
@[simp] theorem State.clearStatus_reads (s : State) (v : Word) : (s.clearStatus v).reads = s.reads := rfl
@[simp] theorem State.clearStatus_draws (s : State) (v : Word) : (s.clearStatus v).draws = s.draws := rfl

/-! ### clearFreq -/

@[simp] theorem State.clearFreq_phase (s : State) : (s.clearFreq).phase = s.phase := rfl
@[simp] theorem State.clearFreq_lastCmd (s : State) : (s.clearFreq).lastCmd = s.lastCmd := rfl
@[simp] theorem State.clearFreq_done (s : State) : (s.clearFreq).done = s.done := rfl
@[simp] theorem State.clearFreq_err (s : State) : (s.clearFreq).err = s.err := rfl
@[simp] theorem State.clearFreq_overrun (s : State) : (s.clearFreq).overrun = s.overrun := rfl
@[simp] theorem State.clearFreq_errCode (s : State) : (s.clearFreq).errCode = s.errCode := rfl
@[simp] theorem State.clearFreq_errInfo (s : State) : (s.clearFreq).errInfo = s.errInfo := rfl
@[simp] theorem State.clearFreq_irqEn (s : State) : (s.clearFreq).irqEn = s.irqEn := rfl
@[simp] theorem State.clearFreq_magic (s : State) : (s.clearFreq).magic = s.magic := rfl
@[simp] theorem State.clearFreq_inBytes (s : State) : (s.clearFreq).inBytes = s.inBytes := rfl
@[simp] theorem State.clearFreq_outBytes (s : State) : (s.clearFreq).outBytes = s.outBytes := rfl
@[simp] theorem State.clearFreq_root (s : State) : (s.clearFreq).root = s.root := rfl
@[simp] theorem State.clearFreq_nodes (s : State) : (s.clearFreq).nodes = s.nodes := rfl
@[simp] theorem State.clearFreq_freqIdx (s : State) : (s.clearFreq).freqIdx = s.freqIdx := rfl
@[simp] theorem State.clearFreq_codeIdx (s : State) : (s.clearFreq).codeIdx = s.codeIdx := rfl
@[simp] theorem State.clearFreq_nodeIdx (s : State) : (s.clearFreq).nodeIdx = s.nodeIdx := rfl
@[simp] theorem State.clearFreq_freq (s : State) : (s.clearFreq).freq = Vector.replicate 257 0 := rfl
@[simp] theorem State.clearFreq_node (s : State) : (s.clearFreq).node = s.node := rfl
@[simp] theorem State.clearFreq_codeLen (s : State) : (s.clearFreq).codeLen = s.codeLen := rfl
@[simp] theorem State.clearFreq_codeBits (s : State) : (s.clearFreq).codeBits = s.codeBits := rfl
@[simp] theorem State.clearFreq_rbuf (s : State) : (s.clearFreq).rbuf = s.rbuf := rfl
@[simp] theorem State.clearFreq_rcnt (s : State) : (s.clearFreq).rcnt = s.rcnt := rfl
@[simp] theorem State.clearFreq_wbuf (s : State) : (s.clearFreq).wbuf = s.wbuf := rfl
@[simp] theorem State.clearFreq_wcnt (s : State) : (s.clearFreq).wcnt = s.wcnt := rfl
@[simp] theorem State.clearFreq_cur (s : State) : (s.clearFreq).cur = s.cur := rfl
@[simp] theorem State.clearFreq_pq (s : State) : (s.clearFreq).pq = s.pq := rfl
@[simp] theorem State.clearFreq_seq (s : State) : (s.clearFreq).seq = s.seq := rfl
@[simp] theorem State.clearFreq_rstN (s : State) : (s.clearFreq).rstN = s.rstN := rfl
@[simp] theorem State.clearFreq_inData (s : State) : (s.clearFreq).inData = s.inData := rfl
@[simp] theorem State.clearFreq_inPos (s : State) : (s.clearFreq).inPos = s.inPos := rfl
@[simp] theorem State.clearFreq_outLog (s : State) : (s.clearFreq).outLog = s.outLog := rfl
@[simp] theorem State.clearFreq_agenda (s : State) : (s.clearFreq).agenda = s.agenda := rfl
@[simp] theorem State.clearFreq_reads (s : State) : (s.clearFreq).reads = s.reads := rfl
@[simp] theorem State.clearFreq_draws (s : State) : (s.clearFreq).draws = s.draws := rfl

/-! ### clearCodes -/

@[simp] theorem State.clearCodes_phase (s : State) : (s.clearCodes).phase = s.phase := rfl
@[simp] theorem State.clearCodes_lastCmd (s : State) : (s.clearCodes).lastCmd = s.lastCmd := rfl
@[simp] theorem State.clearCodes_done (s : State) : (s.clearCodes).done = s.done := rfl
@[simp] theorem State.clearCodes_err (s : State) : (s.clearCodes).err = s.err := rfl
@[simp] theorem State.clearCodes_overrun (s : State) : (s.clearCodes).overrun = s.overrun := rfl
@[simp] theorem State.clearCodes_errCode (s : State) : (s.clearCodes).errCode = s.errCode := rfl
@[simp] theorem State.clearCodes_errInfo (s : State) : (s.clearCodes).errInfo = s.errInfo := rfl
@[simp] theorem State.clearCodes_irqEn (s : State) : (s.clearCodes).irqEn = s.irqEn := rfl
@[simp] theorem State.clearCodes_magic (s : State) : (s.clearCodes).magic = s.magic := rfl
@[simp] theorem State.clearCodes_inBytes (s : State) : (s.clearCodes).inBytes = s.inBytes := rfl
@[simp] theorem State.clearCodes_outBytes (s : State) : (s.clearCodes).outBytes = s.outBytes := rfl
@[simp] theorem State.clearCodes_root (s : State) : (s.clearCodes).root = s.root := rfl
@[simp] theorem State.clearCodes_nodes (s : State) : (s.clearCodes).nodes = s.nodes := rfl
@[simp] theorem State.clearCodes_freqIdx (s : State) : (s.clearCodes).freqIdx = s.freqIdx := rfl
@[simp] theorem State.clearCodes_codeIdx (s : State) : (s.clearCodes).codeIdx = s.codeIdx := rfl
@[simp] theorem State.clearCodes_nodeIdx (s : State) : (s.clearCodes).nodeIdx = s.nodeIdx := rfl
@[simp] theorem State.clearCodes_freq (s : State) : (s.clearCodes).freq = s.freq := rfl
@[simp] theorem State.clearCodes_node (s : State) : (s.clearCodes).node = s.node := rfl
@[simp] theorem State.clearCodes_codeLen (s : State) : (s.clearCodes).codeLen = Vector.replicate 257 0 := rfl
@[simp] theorem State.clearCodes_codeBits (s : State) : (s.clearCodes).codeBits = Vector.replicate 257 0 := rfl
@[simp] theorem State.clearCodes_rbuf (s : State) : (s.clearCodes).rbuf = s.rbuf := rfl
@[simp] theorem State.clearCodes_rcnt (s : State) : (s.clearCodes).rcnt = s.rcnt := rfl
@[simp] theorem State.clearCodes_wbuf (s : State) : (s.clearCodes).wbuf = s.wbuf := rfl
@[simp] theorem State.clearCodes_wcnt (s : State) : (s.clearCodes).wcnt = s.wcnt := rfl
@[simp] theorem State.clearCodes_cur (s : State) : (s.clearCodes).cur = s.cur := rfl
@[simp] theorem State.clearCodes_pq (s : State) : (s.clearCodes).pq = s.pq := rfl
@[simp] theorem State.clearCodes_seq (s : State) : (s.clearCodes).seq = s.seq := rfl
@[simp] theorem State.clearCodes_rstN (s : State) : (s.clearCodes).rstN = s.rstN := rfl
@[simp] theorem State.clearCodes_inData (s : State) : (s.clearCodes).inData = s.inData := rfl
@[simp] theorem State.clearCodes_inPos (s : State) : (s.clearCodes).inPos = s.inPos := rfl
@[simp] theorem State.clearCodes_outLog (s : State) : (s.clearCodes).outLog = s.outLog := rfl
@[simp] theorem State.clearCodes_agenda (s : State) : (s.clearCodes).agenda = s.agenda := rfl
@[simp] theorem State.clearCodes_reads (s : State) : (s.clearCodes).reads = s.reads := rfl
@[simp] theorem State.clearCodes_draws (s : State) : (s.clearCodes).draws = s.draws := rfl

/-! ### abort -/

@[simp] theorem State.abort_phase (s : State) (e : Error) (w : Word) (k : BitVec 6) : (s.abort e w k).phase = .idle := rfl
@[simp] theorem State.abort_lastCmd (s : State) (e : Error) (w : Word) (k : BitVec 6) : (s.abort e w k).lastCmd = s.lastCmd := rfl
@[simp] theorem State.abort_done (s : State) (e : Error) (w : Word) (k : BitVec 6) : (s.abort e w k).done = false := rfl
@[simp] theorem State.abort_err (s : State) (e : Error) (w : Word) (k : BitVec 6) : (s.abort e w k).err = true := rfl
@[simp] theorem State.abort_overrun (s : State) (e : Error) (w : Word) (k : BitVec 6) : (s.abort e w k).overrun = s.overrun := rfl
@[simp] theorem State.abort_errCode (s : State) (e : Error) (w : Word) (k : BitVec 6) : (s.abort e w k).errCode = errWord e k := rfl
@[simp] theorem State.abort_errInfo (s : State) (e : Error) (w : Word) (k : BitVec 6) : (s.abort e w k).errInfo = w := rfl
@[simp] theorem State.abort_irqEn (s : State) (e : Error) (w : Word) (k : BitVec 6) : (s.abort e w k).irqEn = s.irqEn := rfl
@[simp] theorem State.abort_magic (s : State) (e : Error) (w : Word) (k : BitVec 6) : (s.abort e w k).magic = s.magic := rfl
@[simp] theorem State.abort_inBytes (s : State) (e : Error) (w : Word) (k : BitVec 6) : (s.abort e w k).inBytes = s.inBytes := rfl
@[simp] theorem State.abort_outBytes (s : State) (e : Error) (w : Word) (k : BitVec 6) : (s.abort e w k).outBytes = s.outBytes := rfl
@[simp] theorem State.abort_root (s : State) (e : Error) (w : Word) (k : BitVec 6) : (s.abort e w k).root = (if e.emptiesTree then 0 else s.root) := rfl
@[simp] theorem State.abort_nodes (s : State) (e : Error) (w : Word) (k : BitVec 6) : (s.abort e w k).nodes = (if e.emptiesTree then 0 else s.nodes) := rfl
@[simp] theorem State.abort_freqIdx (s : State) (e : Error) (w : Word) (k : BitVec 6) : (s.abort e w k).freqIdx = s.freqIdx := rfl
@[simp] theorem State.abort_codeIdx (s : State) (e : Error) (w : Word) (k : BitVec 6) : (s.abort e w k).codeIdx = s.codeIdx := rfl
@[simp] theorem State.abort_nodeIdx (s : State) (e : Error) (w : Word) (k : BitVec 6) : (s.abort e w k).nodeIdx = s.nodeIdx := rfl
@[simp] theorem State.abort_freq (s : State) (e : Error) (w : Word) (k : BitVec 6) : (s.abort e w k).freq = s.freq := rfl
@[simp] theorem State.abort_node (s : State) (e : Error) (w : Word) (k : BitVec 6) : (s.abort e w k).node = s.node := rfl
@[simp] theorem State.abort_codeLen (s : State) (e : Error) (w : Word) (k : BitVec 6) : (s.abort e w k).codeLen = s.codeLen := rfl
@[simp] theorem State.abort_codeBits (s : State) (e : Error) (w : Word) (k : BitVec 6) : (s.abort e w k).codeBits = s.codeBits := rfl
@[simp] theorem State.abort_rbuf (s : State) (e : Error) (w : Word) (k : BitVec 6) : (s.abort e w k).rbuf = 0 := rfl
@[simp] theorem State.abort_rcnt (s : State) (e : Error) (w : Word) (k : BitVec 6) : (s.abort e w k).rcnt = 0 := rfl
@[simp] theorem State.abort_wbuf (s : State) (e : Error) (w : Word) (k : BitVec 6) : (s.abort e w k).wbuf = 0 := rfl
@[simp] theorem State.abort_wcnt (s : State) (e : Error) (w : Word) (k : BitVec 6) : (s.abort e w k).wcnt = 0 := rfl
@[simp] theorem State.abort_cur (s : State) (e : Error) (w : Word) (k : BitVec 6) : (s.abort e w k).cur = 0 := rfl
@[simp] theorem State.abort_pq (s : State) (e : Error) (w : Word) (k : BitVec 6) : (s.abort e w k).pq = [] := rfl
@[simp] theorem State.abort_seq (s : State) (e : Error) (w : Word) (k : BitVec 6) : (s.abort e w k).seq = .start := rfl
@[simp] theorem State.abort_rstN (s : State) (e : Error) (w : Word) (k : BitVec 6) : (s.abort e w k).rstN = s.rstN := rfl
@[simp] theorem State.abort_inData (s : State) (e : Error) (w : Word) (k : BitVec 6) : (s.abort e w k).inData = s.inData := rfl
@[simp] theorem State.abort_inPos (s : State) (e : Error) (w : Word) (k : BitVec 6) : (s.abort e w k).inPos = s.inPos := rfl
@[simp] theorem State.abort_outLog (s : State) (e : Error) (w : Word) (k : BitVec 6) : (s.abort e w k).outLog = s.outLog := rfl
@[simp] theorem State.abort_agenda (s : State) (e : Error) (w : Word) (k : BitVec 6) : (s.abort e w k).agenda = s.agenda := rfl
@[simp] theorem State.abort_reads (s : State) (e : Error) (w : Word) (k : BitVec 6) : (s.abort e w k).reads = s.reads := rfl
@[simp] theorem State.abort_draws (s : State) (e : Error) (w : Word) (k : BitVec 6) : (s.abort e w k).draws = s.draws := rfl

/-! ### seedLeaf -/

@[simp] theorem State.seedLeaf_phase (s : State) (y : Nat) (c : Word) : (s.seedLeaf y c).phase = s.phase := rfl
@[simp] theorem State.seedLeaf_lastCmd (s : State) (y : Nat) (c : Word) : (s.seedLeaf y c).lastCmd = s.lastCmd := rfl
@[simp] theorem State.seedLeaf_done (s : State) (y : Nat) (c : Word) : (s.seedLeaf y c).done = s.done := rfl
@[simp] theorem State.seedLeaf_err (s : State) (y : Nat) (c : Word) : (s.seedLeaf y c).err = s.err := rfl
@[simp] theorem State.seedLeaf_overrun (s : State) (y : Nat) (c : Word) : (s.seedLeaf y c).overrun = s.overrun := rfl
@[simp] theorem State.seedLeaf_errCode (s : State) (y : Nat) (c : Word) : (s.seedLeaf y c).errCode = s.errCode := rfl
@[simp] theorem State.seedLeaf_errInfo (s : State) (y : Nat) (c : Word) : (s.seedLeaf y c).errInfo = s.errInfo := rfl
@[simp] theorem State.seedLeaf_irqEn (s : State) (y : Nat) (c : Word) : (s.seedLeaf y c).irqEn = s.irqEn := rfl
@[simp] theorem State.seedLeaf_magic (s : State) (y : Nat) (c : Word) : (s.seedLeaf y c).magic = s.magic := rfl
@[simp] theorem State.seedLeaf_inBytes (s : State) (y : Nat) (c : Word) : (s.seedLeaf y c).inBytes = s.inBytes := rfl
@[simp] theorem State.seedLeaf_outBytes (s : State) (y : Nat) (c : Word) : (s.seedLeaf y c).outBytes = s.outBytes := rfl
@[simp] theorem State.seedLeaf_root (s : State) (y : Nat) (c : Word) : (s.seedLeaf y c).root = s.root := rfl
@[simp] theorem State.seedLeaf_nodes (s : State) (y : Nat) (c : Word) : (s.seedLeaf y c).nodes = s.nodes + 1 := rfl
@[simp] theorem State.seedLeaf_freqIdx (s : State) (y : Nat) (c : Word) : (s.seedLeaf y c).freqIdx = s.freqIdx := rfl
@[simp] theorem State.seedLeaf_codeIdx (s : State) (y : Nat) (c : Word) : (s.seedLeaf y c).codeIdx = s.codeIdx := rfl
@[simp] theorem State.seedLeaf_nodeIdx (s : State) (y : Nat) (c : Word) : (s.seedLeaf y c).nodeIdx = s.nodeIdx := rfl
@[simp] theorem State.seedLeaf_freq (s : State) (y : Nat) (c : Word) : (s.seedLeaf y c).freq = s.freq := rfl
@[simp] theorem State.seedLeaf_node (s : State) (y : Nat) (c : Word) : (s.seedLeaf y c).node = s.node.setIfInBounds s.nodes.toNat (Node.mkLeaf (BitVec.ofNat 9 y) (c.setWidth 41)) := rfl
@[simp] theorem State.seedLeaf_codeLen (s : State) (y : Nat) (c : Word) : (s.seedLeaf y c).codeLen = s.codeLen := rfl
@[simp] theorem State.seedLeaf_codeBits (s : State) (y : Nat) (c : Word) : (s.seedLeaf y c).codeBits = s.codeBits := rfl
@[simp] theorem State.seedLeaf_rbuf (s : State) (y : Nat) (c : Word) : (s.seedLeaf y c).rbuf = s.rbuf := rfl
@[simp] theorem State.seedLeaf_rcnt (s : State) (y : Nat) (c : Word) : (s.seedLeaf y c).rcnt = s.rcnt := rfl
@[simp] theorem State.seedLeaf_wbuf (s : State) (y : Nat) (c : Word) : (s.seedLeaf y c).wbuf = s.wbuf := rfl
@[simp] theorem State.seedLeaf_wcnt (s : State) (y : Nat) (c : Word) : (s.seedLeaf y c).wcnt = s.wcnt := rfl
@[simp] theorem State.seedLeaf_cur (s : State) (y : Nat) (c : Word) : (s.seedLeaf y c).cur = s.cur := rfl
@[simp] theorem State.seedLeaf_pq (s : State) (y : Nat) (c : Word) : (s.seedLeaf y c).pq = s.pq ++ [s.nodes] := rfl
@[simp] theorem State.seedLeaf_seq (s : State) (y : Nat) (c : Word) : (s.seedLeaf y c).seq = s.seq := rfl
@[simp] theorem State.seedLeaf_rstN (s : State) (y : Nat) (c : Word) : (s.seedLeaf y c).rstN = s.rstN := rfl
@[simp] theorem State.seedLeaf_inData (s : State) (y : Nat) (c : Word) : (s.seedLeaf y c).inData = s.inData := rfl
@[simp] theorem State.seedLeaf_inPos (s : State) (y : Nat) (c : Word) : (s.seedLeaf y c).inPos = s.inPos := rfl
@[simp] theorem State.seedLeaf_outLog (s : State) (y : Nat) (c : Word) : (s.seedLeaf y c).outLog = s.outLog := rfl
@[simp] theorem State.seedLeaf_agenda (s : State) (y : Nat) (c : Word) : (s.seedLeaf y c).agenda = s.agenda := rfl
@[simp] theorem State.seedLeaf_reads (s : State) (y : Nat) (c : Word) : (s.seedLeaf y c).reads = s.reads := rfl
@[simp] theorem State.seedLeaf_draws (s : State) (y : Nat) (c : Word) : (s.seedLeaf y c).draws = s.draws := rfl

/-! ### mergePair -/

@[simp] theorem State.mergePair_phase (s : State) (a b : NodeIdx) (r : List NodeIdx) : (s.mergePair a b r).phase = s.phase := rfl
@[simp] theorem State.mergePair_lastCmd (s : State) (a b : NodeIdx) (r : List NodeIdx) : (s.mergePair a b r).lastCmd = s.lastCmd := rfl
@[simp] theorem State.mergePair_done (s : State) (a b : NodeIdx) (r : List NodeIdx) : (s.mergePair a b r).done = s.done := rfl
@[simp] theorem State.mergePair_err (s : State) (a b : NodeIdx) (r : List NodeIdx) : (s.mergePair a b r).err = s.err := rfl
@[simp] theorem State.mergePair_overrun (s : State) (a b : NodeIdx) (r : List NodeIdx) : (s.mergePair a b r).overrun = s.overrun := rfl
@[simp] theorem State.mergePair_errCode (s : State) (a b : NodeIdx) (r : List NodeIdx) : (s.mergePair a b r).errCode = s.errCode := rfl
@[simp] theorem State.mergePair_errInfo (s : State) (a b : NodeIdx) (r : List NodeIdx) : (s.mergePair a b r).errInfo = s.errInfo := rfl
@[simp] theorem State.mergePair_irqEn (s : State) (a b : NodeIdx) (r : List NodeIdx) : (s.mergePair a b r).irqEn = s.irqEn := rfl
@[simp] theorem State.mergePair_magic (s : State) (a b : NodeIdx) (r : List NodeIdx) : (s.mergePair a b r).magic = s.magic := rfl
@[simp] theorem State.mergePair_inBytes (s : State) (a b : NodeIdx) (r : List NodeIdx) : (s.mergePair a b r).inBytes = s.inBytes := rfl
@[simp] theorem State.mergePair_outBytes (s : State) (a b : NodeIdx) (r : List NodeIdx) : (s.mergePair a b r).outBytes = s.outBytes := rfl
@[simp] theorem State.mergePair_root (s : State) (a b : NodeIdx) (r : List NodeIdx) : (s.mergePair a b r).root = s.root := rfl
@[simp] theorem State.mergePair_nodes (s : State) (a b : NodeIdx) (r : List NodeIdx) : (s.mergePair a b r).nodes = s.nodes + 1 := rfl
@[simp] theorem State.mergePair_freqIdx (s : State) (a b : NodeIdx) (r : List NodeIdx) : (s.mergePair a b r).freqIdx = s.freqIdx := rfl
@[simp] theorem State.mergePair_codeIdx (s : State) (a b : NodeIdx) (r : List NodeIdx) : (s.mergePair a b r).codeIdx = s.codeIdx := rfl
@[simp] theorem State.mergePair_nodeIdx (s : State) (a b : NodeIdx) (r : List NodeIdx) : (s.mergePair a b r).nodeIdx = s.nodeIdx := rfl
@[simp] theorem State.mergePair_freq (s : State) (a b : NodeIdx) (r : List NodeIdx) : (s.mergePair a b r).freq = s.freq := rfl
@[simp] theorem State.mergePair_node (s : State) (a b : NodeIdx) (r : List NodeIdx) : (s.mergePair a b r).node = s.node.setIfInBounds s.nodes.toNat (Node.mkInternal a b ((s.nodeAt a).weight + (s.nodeAt b).weight)) := rfl
@[simp] theorem State.mergePair_codeLen (s : State) (a b : NodeIdx) (r : List NodeIdx) : (s.mergePair a b r).codeLen = s.codeLen := rfl
@[simp] theorem State.mergePair_codeBits (s : State) (a b : NodeIdx) (r : List NodeIdx) : (s.mergePair a b r).codeBits = s.codeBits := rfl
@[simp] theorem State.mergePair_rbuf (s : State) (a b : NodeIdx) (r : List NodeIdx) : (s.mergePair a b r).rbuf = s.rbuf := rfl
@[simp] theorem State.mergePair_rcnt (s : State) (a b : NodeIdx) (r : List NodeIdx) : (s.mergePair a b r).rcnt = s.rcnt := rfl
@[simp] theorem State.mergePair_wbuf (s : State) (a b : NodeIdx) (r : List NodeIdx) : (s.mergePair a b r).wbuf = s.wbuf := rfl
@[simp] theorem State.mergePair_wcnt (s : State) (a b : NodeIdx) (r : List NodeIdx) : (s.mergePair a b r).wcnt = s.wcnt := rfl
@[simp] theorem State.mergePair_cur (s : State) (a b : NodeIdx) (r : List NodeIdx) : (s.mergePair a b r).cur = s.cur := rfl
@[simp] theorem State.mergePair_pq (s : State) (a b : NodeIdx) (r : List NodeIdx) : (s.mergePair a b r).pq = r ++ [s.nodes] := rfl
@[simp] theorem State.mergePair_seq (s : State) (a b : NodeIdx) (r : List NodeIdx) : (s.mergePair a b r).seq = s.seq := rfl
@[simp] theorem State.mergePair_rstN (s : State) (a b : NodeIdx) (r : List NodeIdx) : (s.mergePair a b r).rstN = s.rstN := rfl
@[simp] theorem State.mergePair_inData (s : State) (a b : NodeIdx) (r : List NodeIdx) : (s.mergePair a b r).inData = s.inData := rfl
@[simp] theorem State.mergePair_inPos (s : State) (a b : NodeIdx) (r : List NodeIdx) : (s.mergePair a b r).inPos = s.inPos := rfl
@[simp] theorem State.mergePair_outLog (s : State) (a b : NodeIdx) (r : List NodeIdx) : (s.mergePair a b r).outLog = s.outLog := rfl
@[simp] theorem State.mergePair_agenda (s : State) (a b : NodeIdx) (r : List NodeIdx) : (s.mergePair a b r).agenda = s.agenda := rfl
@[simp] theorem State.mergePair_reads (s : State) (a b : NodeIdx) (r : List NodeIdx) : (s.mergePair a b r).reads = s.reads := rfl
@[simp] theorem State.mergePair_draws (s : State) (a b : NodeIdx) (r : List NodeIdx) : (s.mergePair a b r).draws = s.draws := rfl

/-! ### resetBlock -/

@[simp] theorem State.resetBlock_phase (s : State) : s.resetBlock.phase = State.reset.phase := rfl
@[simp] theorem State.resetBlock_lastCmd (s : State) : s.resetBlock.lastCmd = State.reset.lastCmd := rfl
@[simp] theorem State.resetBlock_done (s : State) : s.resetBlock.done = State.reset.done := rfl
@[simp] theorem State.resetBlock_err (s : State) : s.resetBlock.err = State.reset.err := rfl
@[simp] theorem State.resetBlock_overrun (s : State) : s.resetBlock.overrun = State.reset.overrun := rfl
@[simp] theorem State.resetBlock_errCode (s : State) : s.resetBlock.errCode = State.reset.errCode := rfl
@[simp] theorem State.resetBlock_errInfo (s : State) : s.resetBlock.errInfo = State.reset.errInfo := rfl
@[simp] theorem State.resetBlock_irqEn (s : State) : s.resetBlock.irqEn = State.reset.irqEn := rfl
@[simp] theorem State.resetBlock_magic (s : State) : s.resetBlock.magic = s.magic := rfl
@[simp] theorem State.resetBlock_inBytes (s : State) : s.resetBlock.inBytes = State.reset.inBytes := rfl
@[simp] theorem State.resetBlock_outBytes (s : State) : s.resetBlock.outBytes = State.reset.outBytes := rfl
@[simp] theorem State.resetBlock_root (s : State) : s.resetBlock.root = State.reset.root := rfl
@[simp] theorem State.resetBlock_nodes (s : State) : s.resetBlock.nodes = State.reset.nodes := rfl
@[simp] theorem State.resetBlock_freqIdx (s : State) : s.resetBlock.freqIdx = State.reset.freqIdx := rfl
@[simp] theorem State.resetBlock_codeIdx (s : State) : s.resetBlock.codeIdx = State.reset.codeIdx := rfl
@[simp] theorem State.resetBlock_nodeIdx (s : State) : s.resetBlock.nodeIdx = State.reset.nodeIdx := rfl
@[simp] theorem State.resetBlock_freq (s : State) : s.resetBlock.freq = State.reset.freq := rfl
@[simp] theorem State.resetBlock_node (s : State) : s.resetBlock.node = State.reset.node := rfl
@[simp] theorem State.resetBlock_codeLen (s : State) : s.resetBlock.codeLen = State.reset.codeLen := rfl
@[simp] theorem State.resetBlock_codeBits (s : State) : s.resetBlock.codeBits = State.reset.codeBits := rfl
@[simp] theorem State.resetBlock_rbuf (s : State) : s.resetBlock.rbuf = State.reset.rbuf := rfl
@[simp] theorem State.resetBlock_rcnt (s : State) : s.resetBlock.rcnt = State.reset.rcnt := rfl
@[simp] theorem State.resetBlock_wbuf (s : State) : s.resetBlock.wbuf = State.reset.wbuf := rfl
@[simp] theorem State.resetBlock_wcnt (s : State) : s.resetBlock.wcnt = State.reset.wcnt := rfl
@[simp] theorem State.resetBlock_cur (s : State) : s.resetBlock.cur = State.reset.cur := rfl
@[simp] theorem State.resetBlock_pq (s : State) : s.resetBlock.pq = State.reset.pq := rfl
@[simp] theorem State.resetBlock_seq (s : State) : s.resetBlock.seq = State.reset.seq := rfl
@[simp] theorem State.resetBlock_rstN (s : State) : s.resetBlock.rstN = s.rstN := rfl
@[simp] theorem State.resetBlock_inData (s : State) : s.resetBlock.inData = s.inData := rfl
@[simp] theorem State.resetBlock_inPos (s : State) : s.resetBlock.inPos = s.inPos := rfl
@[simp] theorem State.resetBlock_outLog (s : State) : s.resetBlock.outLog = s.outLog := rfl
@[simp] theorem State.resetBlock_agenda (s : State) : s.resetBlock.agenda = s.agenda := rfl
@[simp] theorem State.resetBlock_reads (s : State) : s.resetBlock.reads = s.reads := rfl
@[simp] theorem State.resetBlock_draws (s : State) : s.resetBlock.draws = s.draws := rfl

/-! ### The reset state -/

@[simp] theorem State.reset_phase : State.reset.phase = .idle := rfl
@[simp] theorem State.reset_lastCmd : State.reset.lastCmd = 0 := rfl
@[simp] theorem State.reset_done : State.reset.done = false := rfl
@[simp] theorem State.reset_err : State.reset.err = false := rfl
@[simp] theorem State.reset_overrun : State.reset.overrun = false := rfl
@[simp] theorem State.reset_errCode : State.reset.errCode = 0 := rfl
@[simp] theorem State.reset_errInfo : State.reset.errInfo = 0 := rfl
@[simp] theorem State.reset_irqEn : State.reset.irqEn = 0 := rfl
@[simp] theorem State.reset_magic : State.reset.magic = Config.huffMagic := rfl
@[simp] theorem State.reset_inBytes : State.reset.inBytes = 0 := rfl
@[simp] theorem State.reset_outBytes : State.reset.outBytes = 0 := rfl
@[simp] theorem State.reset_root : State.reset.root = 0 := rfl
@[simp] theorem State.reset_nodes : State.reset.nodes = 0 := rfl
@[simp] theorem State.reset_freqIdx : State.reset.freqIdx = 0 := rfl
@[simp] theorem State.reset_codeIdx : State.reset.codeIdx = 0 := rfl
@[simp] theorem State.reset_nodeIdx : State.reset.nodeIdx = 0 := rfl
@[simp] theorem State.reset_freq : State.reset.freq = Vector.replicate 257 0 := rfl
@[simp] theorem State.reset_node : State.reset.node = Vector.replicate 513 Node.blank := rfl
@[simp] theorem State.reset_codeLen : State.reset.codeLen = Vector.replicate 257 0 := rfl
@[simp] theorem State.reset_codeBits : State.reset.codeBits = Vector.replicate 257 0 := rfl
@[simp] theorem State.reset_rbuf : State.reset.rbuf = 0 := rfl
@[simp] theorem State.reset_rcnt : State.reset.rcnt = 0 := rfl
@[simp] theorem State.reset_wbuf : State.reset.wbuf = 0 := rfl
@[simp] theorem State.reset_wcnt : State.reset.wcnt = 0 := rfl
@[simp] theorem State.reset_cur : State.reset.cur = 0 := rfl
@[simp] theorem State.reset_pq : State.reset.pq = [] := rfl
@[simp] theorem State.reset_seq : State.reset.seq = .start := rfl
@[simp] theorem State.reset_rstN : State.reset.rstN = true := rfl
@[simp] theorem State.reset_inData : State.reset.inData = [] := rfl
@[simp] theorem State.reset_inPos : State.reset.inPos = 0 := rfl
@[simp] theorem State.reset_outLog : State.reset.outLog = [] := rfl
@[simp] theorem State.reset_agenda : State.reset.agenda = [] := rfl
@[simp] theorem State.reset_reads : State.reset.reads = [] := rfl
@[simp] theorem State.reset_draws : State.reset.draws = 0 := rfl

end Sys2Proof.Machine
end

