-- ==== Sys2Proof/Laws/Ops.lean ====
section
/-! SUPPORT. One lemma per shared operation that says what it can do: the channels, the bit reader, the bit writer, the
command start, the move to the next phase, the acceptance of a CMD word. Later proofs cite these instead of
unfolding the operations. -/

namespace Sys2Proof.Machine

/-! ### The bit reader -/

/-- `ReadBit` that finds no data changes nothing, and finds none only with RBUF used up and the input at its end. -/
theorem State.readBit_none {s t : State} (h : s.readBit = (none, t)) :
    t = s ∧ s.rcnt = 0 ∧ s.inData[s.inPos]? = none := by
  unfold State.readBit State.takeByte State.inRead at h
  split at h
  · rename_i h0
    cases hd : s.inData[s.inPos]? <;> simp [hd] at h
    exact ⟨h.symm, h0, rfl⟩
  · simp at h

/-- `ReadBit` that finds a bit takes it from RBUF, or takes the next IN byte and gives its bit 7. -/
theorem State.readBit_some {s t : State} {b : Bool} (h : s.readBit = (some b, t)) :
    (s.rcnt ≠ 0 ∧ b = s.rbuf.getLsbD (s.rcnt - 1).toNat ∧ t = { s with rcnt := s.rcnt - 1 }) ∨
    (s.rcnt = 0 ∧ ∃ x, s.inData[s.inPos]? = some x ∧ b = x.getLsbD 7 ∧
      t = { s with inPos := s.inPos + 1, inBytes := s.inBytes + 1, rbuf := x, rcnt := 7 }) := by
  unfold State.readBit State.takeByte State.inRead at h
  split at h
  · rename_i h0
    cases hd : s.inData[s.inPos]? with
    | none => simp [hd] at h
    | some x =>
      simp [hd, State.popBit] at h
      exact .inr ⟨h0, x, rfl, h.1.symm, h.2.symm⟩
  · rename_i h0
    simp [State.popBit] at h
    exact .inl ⟨h0, h.1.symm, h.2.symm⟩

/-- The frame of `ReadBit`: the reader's registers, IN_POS and IN_BYTES alone; RCNT and IN_POS stay in range. -/
theorem State.readBit_frame (s : State) :
    ∃ p n r c, s.readBit.2 = { s with inPos := p, inBytes := n, rbuf := r, rcnt := c } ∧
      (s.inPos ≤ s.inData.length → p ≤ s.inData.length) ∧ (s.rcnt.toNat ≤ 8 → c.toNat ≤ 8) := by
  rcases h : s.readBit with ⟨o, t⟩
  cases o with
  | none =>
    obtain ⟨rfl, -, -⟩ := State.readBit_none h
    exact ⟨t.inPos, t.inBytes, t.rbuf, t.rcnt, rfl, id, id⟩
  | some b =>
    rcases State.readBit_some h with ⟨h0, -, rfl⟩ | ⟨-, x, hx, -, rfl⟩
    · refine ⟨s.inPos, s.inBytes, s.rbuf, s.rcnt - 1, rfl, id, fun hc => ?_⟩
      have : s.rcnt.toNat ≠ 0 := fun h => h0 (BitVec.eq_of_toNat_eq h)
      rw [BitVec.toNat_sub]; simp; omega
    · refine ⟨s.inPos + 1, s.inBytes + 1, x, 7, rfl, fun _ => ?_, fun _ => by decide⟩
      have := (List.getElem?_eq_some_iff.mp hx).1
      omega

/-- The frame of the loop of `ReadBits`. -/
theorem readBitsFrom_frame (n k : Nat) (v : Word) (s : State) :
    ∃ p m r c, (readBitsFrom n k v s).2 = { s with inPos := p, inBytes := m, rbuf := r, rcnt := c } ∧
      (s.inPos ≤ s.inData.length → p ≤ s.inData.length) ∧ (s.rcnt.toNat ≤ 8 → c.toNat ≤ 8) := by
  induction n generalizing k v s with
  | zero => exact ⟨s.inPos, s.inBytes, s.rbuf, s.rcnt, rfl, id, id⟩
  | succ n ih =>
    obtain ⟨p, m, r, c, he, hp, hc⟩ := s.readBit_frame
    rcases h : s.readBit with ⟨o, t⟩
    rw [h] at he
    cases o with
    | none => exact ⟨p, m, r, c, by simpa [readBitsFrom, h] using he, hp, hc⟩
    | some b =>
      obtain ⟨p', m', r', c', he', hp', hc'⟩ := ih (k + 1) (v.shiftConcat b) t
      simp only at he
      subst he
      refine ⟨p', m', r', c', by simpa [readBitsFrom, h] using he', fun hh => hp' (hp hh), fun hh => hc' (hc hh)⟩

/-- The frame of `ReadBits`. -/
theorem State.readBits_frame (s : State) (n : Nat) :
    ∃ p m r c, (s.readBits n).2 = { s with inPos := p, inBytes := m, rbuf := r, rcnt := c } ∧
      (s.inPos ≤ s.inData.length → p ≤ s.inData.length) ∧ (s.rcnt.toNat ≤ 8 → c.toNat ≤ 8) :=
  readBitsFrom_frame n 0 0 s

/-! ### The bit writer -/

/-- `WriteBit` either sends the byte it completes or keeps the bit. -/
theorem State.writeBit_cases (s : State) (b : Bool) :
    (s.wcnt = 7 ∧ s.writeBit b = { s with
      outLog := s.outLog ++ [.byte (s.wbuf.shiftConcat b)], outBytes := s.outBytes + 1, wbuf := 0, wcnt := 0 }) ∨
    (s.wcnt ≠ 7 ∧ s.writeBit b = { s with wbuf := s.wbuf.shiftConcat b, wcnt := s.wcnt + 1 }) := by
  unfold State.writeBit
  split
  · exact .inl ⟨‹_›, rfl⟩
  · exact .inr ⟨‹_›, rfl⟩

/-- The frame of `WriteBit`: OUT_LOG, OUT_BYTES and the writer's registers alone; WBUF stays right-aligned. -/
theorem State.writeBit_frame (s : State) (b : Bool) :
    ∃ l n w c, s.writeBit b = { s with outLog := s.outLog ++ l, outBytes := n, wbuf := w, wcnt := c } ∧
      (l = [] ∨ ∃ x, l = [.byte x]) ∧ (s.wbuf.toNat < 2 ^ s.wcnt.toNat → w.toNat < 2 ^ c.toNat) := by
  rcases s.writeBit_cases b with ⟨-, h⟩ | ⟨h7, h⟩
  · exact ⟨[.byte (s.wbuf.shiftConcat b)], _, _, _, h, .inr ⟨_, rfl⟩, fun _ => by decide⟩
  · refine ⟨[], s.outBytes, s.wbuf.shiftConcat b, s.wcnt + 1, by simpa using h, .inl rfl, fun hw => ?_⟩
    have hc : s.wcnt.toNat < 7 := by
      have := s.wcnt.isLt
      have : s.wcnt.toNat ≠ 7 := fun h => h7 (BitVec.eq_of_toNat_eq h)
      omega
    have h1 : (s.wcnt + 1).toNat = s.wcnt.toNat + 1 := by rw [BitVec.toNat_add]; simp; omega
    rw [h1, BitVec.toNat_shiftConcat_eq_of_lt (k := 7)]
    · have : b.toNat ≤ 1 := by cases b <;> decide
      rw [Nat.pow_succ]; omega
    · decide
    · exact lt_of_lt_of_le hw (Nat.pow_le_pow_right (by decide) (by omega))

/-- The frame of writing a list of bits. -/
theorem State.writeList_frame (bits : List Bool) (s : State) :
    ∃ l n w c, s.writeList bits = { s with outLog := s.outLog ++ l, outBytes := n, wbuf := w, wcnt := c } ∧
      (∀ x ∈ l, x ≠ .close) ∧ (s.wbuf.toNat < 2 ^ s.wcnt.toNat → w.toNat < 2 ^ c.toNat) := by
  induction bits generalizing s with
  | nil => exact ⟨[], s.outBytes, s.wbuf, s.wcnt, by simp [State.writeList], by simp, id⟩
  | cons b bits ih =>
    obtain ⟨l, n, w, c, he, hl, hw⟩ := s.writeBit_frame b
    obtain ⟨l', n', w', c', he', hl', hw'⟩ := ih (s.writeBit b)
    refine ⟨l ++ l', n', w', c', ?_, ?_, ?_⟩
    · have : s.writeList (b :: bits) = (s.writeBit b).writeList bits := rfl
      rw [this, he', he]; simp
    · intro x hx
      rcases List.mem_append.mp hx with h | h
      · rcases hl with rfl | ⟨y, rfl⟩
        · simp at h
        · simp at h; simp [h]
      · exact hl' x h
    · intro h
      have h2 := hw h
      rw [he] at hw'
      exact hw' h2

/-! ### The life of a command -/

/-- A command's start, field by field (47_control.md rules R251, R252). -/
theorem State.commandStart_eq (s : State) (op : BitVec 4) :
    s.commandStart op = { s with
      done := false, err := false, errCode := 0, errInfo := 0, inBytes := 0, outBytes := 0
      rbuf := if clearsReader op then 0 else s.rbuf
      rcnt := if clearsReader op then 0 else s.rcnt
      wbuf := if clearsWriter op then 0 else s.wbuf
      wcnt := if clearsWriter op then 0 else s.wcnt
      cur := 0, pq := [], phase := (phaseRow op).headD .idle, seq := .start } := by
  unfold State.commandStart
  cases clearsReader op <;> cases clearsWriter op <;> rfl

/-- The move to the next phase: the next of the row, or the completion. -/
theorem State.nextPhase_cases (s : State) :
    (∃ p, phaseAfter s.phase (phaseRow (cmdOp s.lastCmd)) = some p ∧ s.nextPhase = { s with phase := p, seq := .start }) ∨
    (phaseAfter s.phase (phaseRow (cmdOp s.lastCmd)) = none ∧ s.nextPhase = s.complete) := by
  unfold State.nextPhase
  cases phaseAfter s.phase (phaseRow (cmdOp s.lastCmd)) with
  | none => exact .inr ⟨rfl, rfl⟩
  | some p => exact .inl ⟨p, rfl, rfl⟩

/-- A CMD write while BUSY = 1 (47_control.md rule R256). -/
theorem State.cmdWrite_busy {s : State} (h : s.busy = true) (v : Word) (f : State → State) :
    s.cmdWrite v f = { s with overrun := true } := by simp [State.cmdWrite, h]

/-- A CMD write while BUSY = 0 (47_control.md rule R250). -/
theorem State.cmdWrite_idle {s : State} (h : s.busy = false) (v : Word) (f : State → State) :
    s.cmdWrite v f = f { s with lastCmd := v } := by simp [State.cmdWrite, h]

/-- BUSY is 0 exactly in IDLE (10_state.md rule R22). -/
@[simp] theorem State.busy_eq_false {s : State} : s.busy = false ↔ s.phase = .idle := by
  simp [State.busy]

/-- BUSY is 1 exactly outside IDLE (10_state.md rule R22). -/
@[simp] theorem State.busy_eq_true {s : State} : s.busy = true ↔ s.phase ≠ .idle := by
  simp [State.busy]

/-- A complete header token: HeaderOverflow, or the new node with its link and the slots still to fill. -/
theorem State.headerNode_cases (s : State) (n : Node) (opens : NodeIdx → List Slot) :
    (s.nodes = 513#10 ∧ s.headerNode n opens = s.abort .headerOverflow 513#32) ∨
    (s.nodes ≠ 513#10 ∧ s.headerNode n opens =
      ((s.allocNode n).linkChild s.nodes s.pendingSlots.head?).afterToken
        (opens s.nodes ++ s.pendingSlots.tail)) := by
  unfold State.headerNode
  split
  · exact .inl ⟨‹_›, rfl⟩
  · exact .inr ⟨‹_›, rfl⟩

/-- Linking a child changes node memory alone. -/
theorem State.linkChild_frame (s : State) (i : NodeIdx) (o : Option Slot) :
    ∃ v, s.linkChild i o = { s with node := v } := by
  unfold State.linkChild
  split
  · exact ⟨s.node, rfl⟩
  · exact ⟨_, rfl⟩
  · exact ⟨_, rfl⟩

/-- The end of a token: the root is closed, or the next token is due. -/
theorem State.afterToken_cases (s : State) (slots : List Slot) :
    (slots = [] ∧ s.afterToken slots = { s with root := 0, seq := .phaseEnd }) ∨
    (slots ≠ [] ∧ s.afterToken slots = { s with seq := .token [] slots }) := by
  cases slots with
  | nil => exact .inl ⟨rfl, rfl⟩
  | cons a l => exact .inr ⟨by simp, rfl⟩

end Sys2Proof.Machine
end

