-- ==== Sys2Proof/Laws/PerInstr.lean ====
section
/-! SUPPORT. Per instruction: the pattern it encodes to matches its own row of spec/opcode_table.json, the row's mask and
match for a word, the row's first bit and length for a header token. -/

namespace Sys2Proof.Laws.TableRow

/-- The word has the row's fixed bits. -/
def fits (mask value w : Word) : Bool := w &&& mask == value

/-- Does a pattern lie in the instruction's row of the opcode table. -/
def inRow : Instr → Pattern → Bool
  | .nop, .cmdWord w => fits 0xFFFFFFFF 0x00000000 w
  | .compress, .cmdWord w => fits 0xFFFFFFFF 0x00000001 w
  | .decompress, .cmdWord w => fits 0xFFFFFFFF 0x00000002 w
  | .count, .cmdWord w => fits 0xFFFFFFFF 0x00000003 w
  | .buildTree, .cmdWord w => fits 0xFFFFFFFF 0x00000004 w
  | .buildCodes, .cmdWord w => fits 0xFFFFFFFF 0x00000005 w
  | .writeHeader, .cmdWord w => fits 0xFFFFFFFF 0x00000006 w
  | .encodeBody, .cmdWord w => fits 0xFFFFFFFF 0x00000007 w
  | .readHeader, .cmdWord w => fits 0xFFFFFFFF 0x00000008 w
  | .decodeBody, .cmdWord w => fits 0xFFFFFFFF 0x00000009 w
  | .illegalOpAB _, .cmdWord w => fits 0xFFFFFFFE 0x0000000A w
  | .illegalOpCF _, .cmdWord w => fits 0xFFFFFFFC 0x0000000C w
  | .illegalReservedBits _ _, .cmdWord w => !fits 0xFFFFFFF0 0 w
  | .softReset _, .ctrlWord w => fits 0x00000001 0x00000001 w
  | .hdrInternal, .headerBits bits => bits == [false]
  | .hdrLeaf _, .headerBits bits => bits.head? == some true && bits.length == 10
  | _, _ => false

/-- The instruction's pattern lies in its own row. -/
def Statement (i : Instr) : Prop := i.wellFormed = true → inRow i (encode i) = true

theorem nop : Statement .nop := fun _ => by decide
theorem compress : Statement .compress := fun _ => by decide
theorem decompress : Statement .decompress := fun _ => by decide
theorem count : Statement .count := fun _ => by decide
theorem buildTree : Statement .buildTree := fun _ => by decide
theorem buildCodes : Statement .buildCodes := fun _ => by decide
theorem writeHeader : Statement .writeHeader := fun _ => by decide
theorem encodeBody : Statement .encodeBody := fun _ => by decide
theorem readHeader : Statement .readHeader := fun _ => by decide
theorem decodeBody : Statement .decodeBody := fun _ => by decide
theorem illegalOpAB (low : BitVec 1) : Statement (.illegalOpAB low) := fun _ => by revert low; decide
theorem illegalOpCF (low : BitVec 2) : Statement (.illegalOpCF low) := fun _ => by revert low; decide
theorem illegalReservedBits (reserved : BitVec 28) (op : BitVec 4) : Statement (.illegalReservedBits reserved op) := by
  intro h
  have h0 : reserved ≠ 0#28 := by simpa [Instr.wellFormed] using h
  simp only [inRow, encode, fits, Bool.not_eq_true', beq_eq_false_iff_ne]
  intro hw
  apply h0
  apply BitVec.eq_of_getLsbD_eq
  intro k hk
  have mask : ∀ k : Nat, k < 28 → (0xFFFFFFF0 : Word).getLsbD (4 + k) = true := by decide
  have hx : ((reserved ++ op) &&& (0xFFFFFFF0 : Word)).getLsbD (4 + k) = false := by rw [hw]; exact BitVec.getLsbD_zero
  rw [BitVec.getLsbD_and, mask k hk, BitVec.getLsbD_append] at hx
  simpa using hx
theorem softReset (ignored : BitVec 31) : Statement (.softReset ignored) := by
  intro _
  simp only [inRow, encode, fits, beq_iff_eq]
  apply BitVec.eq_of_getLsbD_eq
  intro k hk
  rw [BitVec.getLsbD_and, BitVec.getLsbD_append]
  rcases k with _ | k
  · rfl
  · simp
theorem hdrInternal : Statement .hdrInternal := fun _ => rfl
theorem hdrLeaf (sym : Sym) : Statement (.hdrLeaf sym) := fun _ => rfl

end Sys2Proof.Laws.TableRow
end

