-- ==== Sys2Proof/Laws/Phases.lean ====
section
/-! SUPPORT. What each turn of a phase's loop can do, said once, and what a CSR access can do. -/

namespace Sys2Proof.Machine

/-! ### The tree builder -/

/-- Seeding the leaves changes NODE, NODES and PQ alone. -/
theorem seedFrom_frame (counts : List Word) (sym : Nat) (s : State) :
    ∃ v n q, seedFrom counts sym s = { s with node := v, nodes := n, pq := q } := by
  induction counts generalizing sym s with
  | nil => exact ⟨s.node, s.nodes, s.pq, rfl⟩
  | cons c rest ih =>
    unfold seedFrom
    split
    · exact ih _ _
    · obtain ⟨v, n, q, h⟩ := ih (sym + 1) (s.seedLeaf sym c)
      exact ⟨v, n, q, by rw [h]; rfl⟩

/-- The least of a list's entries is one of them. -/
theorem State.pqLeast_mem (s : State) (m : NodeIdx) (l : List NodeIdx) : s.pqLeast m l ∈ m :: l := by
  induction l generalizing m with
  | nil => simp [State.pqLeast]
  | cons i rest ih =>
    unfold State.pqLeast
    rcases List.mem_cons.mp (ih (if s.pqBefore i m then i else m)) with h | h
    · rw [h]; split <;> simp
    · simp [h]

/-- A turn of the merge loop: the root is closed, or the two least entries are merged. -/
theorem State.mergeStep_cases {s t : State} (h : s.mergeStep = .next t) :
    (∃ r, s.pq = [r] ∧ t = { s with root := r, pq := [], seq := .phaseEnd }) ∨
    (∃ i j rest a i' rest', s.pq = i :: j :: rest ∧ s.extractMin i (j :: rest) = (a, i' :: rest') ∧
      t = s.mergePair a (s.extractMin i' rest').1 (s.extractMin i' rest').2) := by
  unfold State.mergeStep at h
  split at h
  · cases h
  · cases h
    exact .inl ⟨_, ‹_›, rfl⟩
  · split at h
    · cases h
    · cases h
      exact .inr ⟨_, _, _, _, _, _, ‹_›, ‹_›, rfl⟩

/-! ### The code table and the header writer -/

/-- A visit: the leaf's code, or the two children next. -/
theorem State.visitNode_cases (s : State) (i : NodeIdx) (p : List Bool) (todo : List (NodeIdx × List Bool)) :
    ((s.nodeAt i).leaf = true ∧ s.visitNode i p todo = { s.setCode (s.nodeAt i).sym p.length p with seq := .visit todo }) ∨
    ((s.nodeAt i).leaf = false ∧ s.visitNode i p todo = { s with
      seq := .visit (((s.nodeAt i).left, p ++ [false]) :: ((s.nodeAt i).right, p ++ [true]) :: todo) }) := by
  unfold State.visitNode
  cases h : (s.nodeAt i).leaf
  · exact .inr ⟨rfl, by simp⟩
  · exact .inl ⟨rfl, by simp⟩

/-- A node's token: a leaf's ten bits, or one bit and the two children next. -/
theorem State.hdrNode_cases (s : State) (i : NodeIdx) (todo : List NodeIdx) :
    ((s.nodeAt i).leaf = true ∧
      s.hdrNode i todo = { s with seq := .hdrOut (true :: bitsOf 9 (s.nodeAt i).sym) todo }) ∨
    ((s.nodeAt i).leaf = false ∧
      s.hdrNode i todo = { s with seq := .hdrOut [false] ((s.nodeAt i).left :: (s.nodeAt i).right :: todo) }) := by
  unfold State.hdrNode
  cases h : (s.nodeAt i).leaf
  · exact .inr ⟨rfl, by simp [tokenBits]⟩
  · exact .inl ⟨rfl, by simp [tokenBits]⟩

/-! ### The readers -/

/-- A code is due: NoCode, or its bits are next. -/
theorem State.startCode_cases (s : State) (sym : Sym) (last : Bool) :
    (s.codeLenAt sym.toNat = 0 ∧ s.startCode sym last = s.abort .noCode (sym.setWidth 32)) ∨
    (s.codeLenAt sym.toNat ≠ 0 ∧ s.startCode sym last = { s with seq := .codeOut (s.codeOf sym.toNat) last }) := by
  unfold State.startCode
  split
  · exact .inl ⟨‹_›, rfl⟩
  · exact .inr ⟨‹_›, rfl⟩

/-- One bit of the magic: BadMagic at the end of input, more bits due, the magic found, or BadMagic. -/
theorem State.magicBit_cases (s : State) (k : Nat) (v : Word) :
    (∃ t, s.readBit = (none, t) ∧ s.magicBit k v = t.abort .badMagic v (BitVec.ofNat 6 k)) ∨
    (∃ b t, s.readBit = (some b, t) ∧
      ((k < 31 ∧ s.magicBit k v = { t with seq := .magicIn (k + 1) (v.shiftConcat b) }) ∨
        (31 ≤ k ∧ v.shiftConcat b = t.magic ∧ s.magicBit k v = { t with seq := .token [] [] }) ∨
        (31 ≤ k ∧ v.shiftConcat b ≠ t.magic ∧ s.magicBit k v = t.abort .badMagic (v.shiftConcat b) 32#6))) := by
  unfold State.magicBit
  rcases h : s.readBit with ⟨o, t⟩
  cases o with
  | none => exact .inl ⟨t, rfl, rfl⟩
  | some b =>
    refine .inr ⟨b, t, rfl, ?_⟩
    by_cases hk : k < 31
    · exact .inl ⟨hk, by simp [hk]⟩
    · by_cases hm : v.shiftConcat b = t.magic
      · exact .inr (.inl ⟨by omega, hm, by simp [hk, hm]⟩)
      · exact .inr (.inr ⟨by omega, hm, by simp [hk, hm]⟩)

/-- One bit of a token: TruncatedHeader, or one bit more. -/
theorem State.tokenBit_cases (s : State) (bits : List Bool) (slots : List Slot) :
    (∃ t, s.readBit = (none, t) ∧ s.tokenBit bits slots = t.abort .truncatedHeader (t.nodes.setWidth 32)) ∨
    (∃ b t, s.readBit = (some b, t) ∧ s.tokenBit bits slots = { t with seq := .token (bits ++ [b]) slots }) := by
  unfold State.tokenBit
  rcases h : s.readBit with ⟨o, t⟩
  cases o with
  | none => exact .inl ⟨t, rfl, rfl⟩
  | some b => exact .inr ⟨b, t, rfl, rfl⟩

/-- A turn of the counting loop: the end of the stream, InputTooLong, or a count. -/
theorem State.countByte_cases (s : State) :
    (∃ v k t, s.readBits 8 = (.noData v k, t) ∧ s.countByte = (t.setFreq 256 1).endPhase) ∨
    (∃ v t, s.readBits 8 = (.value v, t) ∧
      ((t.inBytes > Config.maxIn ∧ s.countByte = t.abort .inputTooLong t.inBytes) ∨
        (¬ t.inBytes > Config.maxIn ∧ s.countByte = t.setFreq v.toNat (t.freqAt v.toNat + 1)))) := by
  unfold State.countByte
  rcases h : s.readBits 8 with ⟨o, t⟩
  cases o with
  | noData v k => exact .inl ⟨v, k, t, rfl, rfl⟩
  | value v =>
    refine .inr ⟨v, t, rfl, ?_⟩
    by_cases hk : t.inBytes > Config.maxIn
    · exact .inl ⟨hk, by simp only [hk, if_true]⟩
    · exact .inr ⟨hk, by simp only [hk, if_false]⟩

/-! ### The CSR window -/

/-- The frame of a CSR read: the host's record and the draws alone. -/
theorem State.csrRead_frame (s : State) (off : Nat) (r : Csr) :
    ∃ x d, s.csrRead off r = { s with reads := s.reads ++ [(off, x)], draws := d } := by
  unfold State.csrRead
  split
  · exact ⟨_, _, rfl⟩
  · exact ⟨_, s.draws, rfl⟩

/-- A CMD word never decodes to a header token or a soft reset. -/
theorem decodeCmd_cases (w : Word) :
    decodeCmd w ≠ .hdrInternal ∧ (∀ sym, decodeCmd w ≠ .hdrLeaf sym) ∧ ∀ v, decodeCmd w ≠ .softReset v := by
  unfold decodeCmd decodeOp
  split
  · split <;> simp
  · simp

/-- What a CSR write can be: an instruction, or an update of the register. -/
theorem csrWrite_cases {r : Csr} {v : Word} {s t : State} (h : csrWrite r v s = .next t) :
    (r = .cmd ∧ exec (decodeCmd v) s = .next t) ∨
    (r = .ctrl ∧ v.getLsbD 0 = true ∧ t = s.resetBlock) ∨
    (r = .status ∧ t = s.clearStatus v) ∨
    (r = .irqEn ∧ t = { s with irqEn := v.extractLsb' 0 2 }) ∨
    (r = .freqIdx ∧ t = { s with freqIdx := v.extractLsb' 0 9 }) ∨
    (r = .codeIdx ∧ t = { s with codeIdx := v.extractLsb' 0 9 }) ∨
    (r = .nodeIdx ∧ t = { s with nodeIdx := v.extractLsb' 0 10 }) ∨
    (r = .freqData ∧ t = s.writeFreqData v) ∨ t = s := by
  unfold csrWrite at h
  split at h
  · exact .inl ⟨rfl, h⟩
  · unfold decodeCtrl at h
    split at h
    · rename_i i hi
      split at hi
      · cases hi
        cases h
        exact .inr (.inl ⟨rfl, ‹_›, rfl⟩)
      · cases hi
    · cases h
      simp
  all_goals cases h; simp

end Sys2Proof.Machine
end

