-- ==== Sys2Proof/Laws/Run.lean ====
section
/-! SUPPORT. What one step can be, said once, and how runs compose. -/

namespace Sys2Proof.Machine

/-- With no move of the host to come a step is a step of the block. -/
theorem step_alone {s : State} (h : s.agenda = []) : step s = blockStep s := by
  simp [step, moveNext, h]

/-- Out of reset a step of the block is the step of its phase. -/
theorem blockStep_running {s : State} (h : s.rstN = true) : blockStep s = phaseStep s := by
  simp [blockStep, h]

/-- Exactly the misaligned offsets and those beyond the window reach no register. -/
theorem csrAt_eq_none {off : Nat} : csrAt off = none ↔ off % 4 ≠ 0 ∨ 0xFC < off := by
  unfold csrAt
  split
  · simpa
  · split <;> simpa using by omega

/-- Out of reset a 32-bit read at a register's offset is the register's read. -/
theorem memRead_csr {s : State} {off : Nat} {r : Csr} (hr : s.rstN = true) (h : csrAt off = some r) :
    memRead off 4 s = .next (s.csrRead off r) := by
  simp [memRead, hr, h]

/-- Out of reset a 32-bit write at a register's offset is the register's write. -/
theorem memWrite_csr {s : State} {off : Nat} {r : Csr} (v : Word) (hr : s.rstN = true) (h : csrAt off = some r) :
    memWrite off 4 v s = csrWrite r v s := by
  simp [memWrite, hr, h]

/-- Every write of a register completes, busy or idle. -/
theorem csrWrite_completes (r : Csr) (v : Word) (s : State) : ∃ t, csrWrite r v s = .next t := by
  cases r with
  | cmd =>
    show ∃ t, exec (decodeCmd v) s = .next t
    cases decodeCmd v <;> exact ⟨_, rfl⟩
  | ctrl =>
    unfold csrWrite
    cases decodeCtrl v with
    | ok i => cases i <;> exact ⟨_, rfl⟩
    | error e => exact ⟨_, rfl⟩
  | _ => exact ⟨_, rfl⟩

/-- The platform address HUFF_BASE + off reaches the offset off, for the 256 offsets of the window. -/
theorem windowOffset_base {off : Nat} (h : off ≤ 0xFF) : Config.windowOffset (Config.huffBase + off) = some off := by
  simp [Config.windowOffset]
  omega

/-- What a turn of a poll can do, out of reset: it records a read of STATUS, and while BUSY = 1 the poll goes on after the
gap's block steps. -/
theorem pollStep_cases {s t : State} {gaps : List Nat} {rest : List Move} (h : pollStep gaps rest s = .next t) :
    s.rstN = true ∧ t.reads = s.reads ++ [(0x08, s.statusWord)] ∧
    ((s.busy = true ∧ t.agenda = List.replicate (gaps.headD 1) .block ++ .poll gaps.tail :: rest) ∨
      (s.busy = false ∧ t.agenda = rest)) ∧
    t = { s with reads := t.reads, agenda := t.agenda } := by
  unfold pollStep memRead at h
  cases hr : s.rstN
  · simp [hr] at h
  · cases hb : s.busy <;>
      · simp [hr, hb, csrAt, State.csrRead, Csr.freeWhenBusy, afterPoll] at h
        subst h
        exact ⟨rfl, rfl, by simp, rfl⟩

/-- A run of no step stays. -/
theorem Reaches.refl (s : State) : Reaches s s := ⟨0, rfl⟩

/-- A step and a run after it are a run. -/
theorem Reaches.head {s t u : State} (h : step s = .next t) (h' : Reaches t u) : Reaches s u := by
  obtain ⟨n, hn⟩ := h'
  refine ⟨n + 1, ?_⟩
  have h2 : Sys2Proof.core.step s = .next t := h
  simp only [Host.Core.run, h2]
  exact hn

/-- Runs compose. -/
theorem Reaches.trans {s t u : State} (h : Reaches s t) (h' : Reaches t u) : Reaches s u := by
  obtain ⟨n, hn⟩ := h
  induction n generalizing s with
  | zero => cases hn; exact h'
  | succ n ih =>
    simp only [Host.Core.run] at hn
    split at hn
    · exact Reaches.head ‹_› (ih hn)
    · cases hn
    · cases hn

/-- A step, a run of one. -/
theorem Reaches.single {s t : State} (h : step s = .next t) : Reaches s t := .head h (.refl t)

/-- What a step can be: nothing, a step of the block, a CSR read or write, a move of the host's other than those, or a
hardware reset. Each case gives the state the move acts on, `s` with the agenda `rest`. -/
theorem step_cases {s t : State} (h : step s = .next t) :
    (∃ rest, blockStep { s with agenda := rest } = .next t) ∨
    (∃ rest off r, s.rstN = true ∧ csrAt off = some r ∧ t = ({ s with agenda := rest } : State).csrRead off r) ∨
    (∃ rest off r v, s.rstN = true ∧ csrAt off = some r ∧ csrWrite r v { s with agenda := rest } = .next t) ∨
    (∃ rest bytes, s.busy = false ∧ t = { s with agenda := rest, inData := bytes, inPos := 0 }) ∨
    (∃ rest, t = { s with agenda := rest }) ∨
    (∃ rest r, t = { s.resetBlock with agenda := rest, rstN := r }) := by
  have read : ∀ off w rest, memRead off w { s with agenda := rest } = .next t →
      ∃ rest off r, s.rstN = true ∧ csrAt off = some r ∧ t = ({ s with agenda := rest } : State).csrRead off r := by
    intro off w rest hr
    unfold memRead at hr
    split at hr
    · cases hr
    · rename_i hrst
      split at hr
      · cases hr
      · split at hr
        · cases hr
        · rename_i r hc
          exact ⟨rest, off, r, by simpa using hrst, hc, by cases hr; rfl⟩
  have write : ∀ off w v rest, memWrite off w v { s with agenda := rest } = .next t →
      ∃ rest off r v, s.rstN = true ∧ csrAt off = some r ∧ csrWrite r v { s with agenda := rest } = .next t := by
    intro off w v rest hr
    unfold memWrite at hr
    split at hr
    · cases hr
    · rename_i hrst
      split at hr
      · cases hr
      · split at hr
        · cases hr
        · rename_i r hc
          exact ⟨rest, off, r, v, by simpa using hrst, hc, hr⟩
  unfold step moveNext at h
  split at h
  · rename_i ha
    exact .inl ⟨[], by rw [← ha]; exact h⟩
  · exact .inl ⟨_, h⟩
  · exact .inr (.inl (read _ _ _ h))
  · exact .inr (.inr (.inl (write _ _ _ _ h)))
  · split at h
    · cases h
    · exact .inr (.inl (read _ _ _ h))
  · split at h
    · cases h
    · exact .inr (.inr (.inl (write _ _ _ _ h)))
  · unfold loadInput at h
    split at h
    · cases h
    · rename_i hb
      cases h
      exact .inr (.inr (.inr (.inl ⟨_, _, by simpa [State.busy] using hb, rfl⟩)))
  · cases h
    exact .inr (.inr (.inr (.inr (.inl ⟨_, rfl⟩))))
  · exact .inr (.inl (read _ _ _ h))
  · unfold waitIrqStep at h
    split at h
    · cases h
      exact .inr (.inr (.inr (.inr (.inl ⟨_, rfl⟩))))
    · split at h
      · exact .inl ⟨s.agenda, h⟩
      · cases h
  · cases h
    exact .inr (.inr (.inr (.inr (.inr ⟨_, _, rfl⟩))))
  · cases h
    exact .inr (.inr (.inr (.inr (.inr ⟨_, _, rfl⟩))))

end Sys2Proof.Machine
end

