-- ==== Sys2Proof/Laws/Trees.lean ====
section
/-! SUPPORT. What node memory in pre-order gives: the tree it represents, and where its nodes lie. -/

namespace Sys2Proof.Machine

/-- A tree has at least one node. -/
theorem CodeTree.nodeCount_pos (T : CodeTree) : 0 < T.nodeCount := by
  cases T <;> simp [CodeTree.nodeCount]

/-- A tree in pre-order whose indices are all valid is the tree its first node represents. -/
theorem State.PreOrder.represents {s : State} {T : CodeTree} {i : Nat} (h : s.PreOrder i T)
    (hn : i + T.nodeCount ≤ s.nodes.toNat) : s.Represents (BitVec.ofNat 10 i) T := by
  have valid : ∀ j, j < s.nodes.toNat → BitVec.ofNat 10 j < s.nodes := by
    intro j hj
    have := s.nodes.isLt
    rw [BitVec.lt_def, BitVec.toNat_ofNat, Nat.mod_eq_of_lt (by omega)]
    exact hj
  induction T generalizing i with
  | leaf sym =>
    simp only [CodeTree.nodeCount] at hn
    exact ⟨valid i (by omega), h⟩
  | node l r ihl ihr =>
    simp only [CodeTree.nodeCount] at hn
    obtain ⟨hf, hl, hr, h1, h2⟩ := h
    refine ⟨valid i (by omega), hf, ?_, ?_⟩
    · rw [hl]; exact ihl h1 (by omega)
    · rw [hr]; exact ihr h2 (by omega)

/-- Only NODE is read: two states with the same node memory hold the same trees in pre-order. -/
theorem State.preOrder_congr {s t : State} (h : t.node = s.node) {T : CodeTree} {i : Nat} :
    t.PreOrder i T ↔ s.PreOrder i T := by
  have hn : ∀ j, t.nodeAt j = s.nodeAt j := fun j => by rw [State.nodeAt, State.nodeAt, h]
  induction T generalizing i with
  | leaf sym => simp only [State.PreOrder, hn]
  | node l r ihl ihr => simp only [State.PreOrder, hn, ihl, ihr]

end Sys2Proof.Machine
end

