-- ==== Sys2Proof/Machine/Script.lean ====
section
/-! DEFINITION. The host-program statements of 30_encoding.md rules R114 and R115, as moves of the agenda. -/

namespace Sys2Proof.Machine

/-- `wr OFF, V` (30_encoding.md rule R114). -/
def wr (off : Nat) (v : Word) : List Move := [.write off 4 v]

/-- `rd OFF` (30_encoding.md rule R114). -/
def rd (off : Nat) : List Move := [.read off 4]

/-- `load_in [b0, b1, ...]` (30_encoding.md rule R114). -/
def loadInStmt (bytes : List Byte) : List Move := [.loadIn bytes]

/-- `cmd NAME`, given by NAME's OP (30_encoding.md rules R101, R115). -/
def cmdStmt (op : BitVec 4) : List Move := wr 0x04 (opWord op)

/-- `poll`: repeat `rd 0x08` until bit 0 of the value is 0 (30_encoding.md rule R115), with `gaps` block steps between the
reads (log entry 6). -/
def pollStmt (gaps : List Nat) : List Move := [.poll gaps]

/-- `clr`: clears DONE, ERR and OVERRUN (30_encoding.md rule R115). -/
def clr : List Move := wr 0x08 0x0000000E#32

/-- `sreset` (30_encoding.md rule R115). -/
def sreset : List Move := wr 0x18 0x00000001#32

/-- `setf S, V` (30_encoding.md rule R115). -/
def setf (sym v : Word) : List Move := wr 0x30 sym ++ wr 0x34 v

/-- `getf S` (30_encoding.md rule R115). -/
def getf (sym : Word) : List Move := wr 0x30 sym ++ rd 0x34

/-- `getcode S` (30_encoding.md rule R115). -/
def getcode (sym : Word) : List Move :=
  wr 0x38 sym ++ rd 0x3C ++ ((List.range 8).map fun w => rd (0x40 + 4 * w)).flatten

/-- `getnode I` (30_encoding.md rule R115). -/
def getnode (i : Word) : List Move := wr 0x60 i ++ rd 0x64 ++ rd 0x68 ++ rd 0x6C

end Sys2Proof.Machine
end

