-- ==== Sys2Proof/Tests/Slice0.lean ====
section
/-! SUPPORT. Tests: decoding of words written out from the encoding tables, single steps with expected results from the
spec's worked examples, and for each statement with hypotheses a witness that meets them. -/

namespace Sys2Proof.Tests

open Sys2Proof.Machine

/-- Does an answer give a next state with a property. -/
def nextWith (a : Answer) (p : State → Bool) : Bool :=
  match a with
  | .next t => p t
  | .fault _ => false
  | .refused _ => false

/-- The instance of the worked examples (00_scope.md rule R8). -/
def idle : State := { State.reset with magic := 0xFACE8201 }

/-- A COUNT under way. -/
def counting : State := { idle with phase := .count, seq := .byteLoop, lastCmd := 3, inData := [65] }

/-- Reading a header, all 32 bits of the magic read, nothing of the tree. -/
def reading : State := { idle with phase := .hdrRead, seq := .token [] [], lastCmd := 8 }

/-- A tree of one leaf, the sentinel's. -/
def oneLeaf : State := { idle with nodes := 1, node := idle.node.set 0 (Node.mkLeaf 256 1) }

/-- A tree of two leaves: node 0 = internal(1, 2), node 1 = leaf 66, node 2 = leaf 256. -/
def twoLeaves : State :=
  { idle with
    nodes := 3
    node := ((idle.node.set 0 (Node.mkInternal 1 2 2)).set 1 (Node.mkLeaf 66 1)).set 2 (Node.mkLeaf 256 1) }

/-! ### Well-formedness -/

theorem test_illformed_reserved : (Instr.illegalReservedBits 0 3).wellFormed = false := by decide
theorem test_wellformed_reserved : (Instr.illegalReservedBits 1 3).wellFormed = true := by decide

/-! ### Decoding: words bit by bit (30_encoding.md rules R100 to R107) -/

theorem test_decode_nop : decodeCmd 0b00000000000000000000000000000000#32 = .nop := by decide
theorem test_decode_compress : decodeCmd 0b00000000000000000000000000000001#32 = .compress := by decide
theorem test_decode_decompress : decodeCmd 0b00000000000000000000000000000010#32 = .decompress := by decide
theorem test_decode_count : decodeCmd 0b00000000000000000000000000000011#32 = .count := by decide
theorem test_decode_buildTree : decodeCmd 0b00000000000000000000000000000100#32 = .buildTree := by decide
theorem test_decode_buildCodes : decodeCmd 0b00000000000000000000000000000101#32 = .buildCodes := by decide
theorem test_decode_writeHeader : decodeCmd 0b00000000000000000000000000000110#32 = .writeHeader := by decide
theorem test_decode_encodeBody : decodeCmd 0b00000000000000000000000000000111#32 = .encodeBody := by decide
theorem test_decode_readHeader : decodeCmd 0b00000000000000000000000000001000#32 = .readHeader := by decide
theorem test_decode_decodeBody : decodeCmd 0b00000000000000000000000000001001#32 = .decodeBody := by decide
theorem test_decode_opA : decodeCmd 0b00000000000000000000000000001010#32 = .illegalOpAB 0 := by decide
theorem test_decode_opB : decodeCmd 0b00000000000000000000000000001011#32 = .illegalOpAB 1 := by decide
theorem test_decode_opC : decodeCmd 0b00000000000000000000000000001100#32 = .illegalOpCF 0 := by decide
theorem test_decode_opF : decodeCmd 0b00000000000000000000000000001111#32 = .illegalOpCF 3 := by decide
theorem test_decode_reserved_low : decodeCmd 0b00000000000000000000000000010000#32 = .illegalReservedBits 1 0 := by decide
theorem test_decode_reserved_high : decodeCmd 0b10000000000000000000000000000011#32 =
    .illegalReservedBits 0b1000000000000000000000000000#28 3 := by decide
theorem test_decode_softReset : decodeCtrl 0b10000000000000000000000000000001#32 =
    .ok (.softReset 0b1000000000000000000000000000000#31) := by decide
theorem test_decode_ctrl_nothing : decodeCtrl 0b11111111111111111111111111111110#32 = .error .ctrlNoOperation := by decide
theorem test_decode_hdrInternal : decodeToken [false] = .ok (.hdrInternal, []) := by decide
theorem test_decode_hdrLeaf :
    decodeToken [true, false, false, true, false, false, false, false, true, false] = .ok (.hdrLeaf 66, []) := by decide

/-! ### The host's numbering of a table row -/

theorem test_table_count : decodeTableWord 32 3 = some .count := by decide
theorem test_table_softReset : decodeTableWord 8 1 = some (.softReset 0) := by decide
theorem test_table_hdrInternal : decodeTableWord 8 0 = some .hdrInternal := by decide
theorem test_table_hdrLeaf : decodeTableWord 16 0b1100000000 = some (.hdrLeaf 256) := by decide

/-! ### One step (expected values from the worked examples of the rules named) -/

/-- 47_control.md rule R253: a NOP after a COUNT that ended with DONE keeps STATUS = 0x00000002. -/
theorem test_nop : nextWith (exec .nop { idle with done := true, lastCmd := 3 })
    (fun t => t.statusWord == 0x2 && t.lastCmd == 0) = true := by decide
/-- 47_control.md rule R256: a NOP while BUSY = 1 sets OVERRUN and leaves LAST_CMD. -/
theorem test_nop_busy : nextWith (exec .nop counting)
    (fun t => t.overrun && t.lastCmd == 3 && t.phase == .count) = true := by decide
/-- 47_control.md rule R252: COMPRESS clears the reader and the writer. -/
theorem test_compress : nextWith (exec .compress { idle with rcnt := 3, wcnt := 5, err := true, errCode := 6 })
    (fun t => t.statusWord == 0x101 && t.rcnt == 0 && t.wcnt == 0 && t.errCode == 0) = true := by decide
theorem test_decompress : nextWith (exec .decompress { idle with rcnt := 3, wcnt := 5 })
    (fun t => t.statusWord == 0x701 && t.rcnt == 0 && t.wcnt == 0) = true := by decide
/-- 47_control.md rule R252: COUNT clears the reader and keeps the writer. -/
theorem test_count : nextWith (exec .count { idle with rcnt := 3, wcnt := 5, inBytes := 9 })
    (fun t => t.statusWord == 0x101 && t.rcnt == 0 && t.wcnt == 5 && t.inBytes == 0 && t.lastCmd == 3) = true := by decide
theorem test_buildTree : nextWith (exec .buildTree { idle with rcnt := 3, wcnt := 5 })
    (fun t => t.statusWord == 0x201 && t.rcnt == 3 && t.wcnt == 5) = true := by decide
theorem test_buildCodes : nextWith (exec .buildCodes { idle with rcnt := 3, wcnt := 5, outBytes := 7 })
    (fun t => t.statusWord == 0x301 && t.rcnt == 3 && t.wcnt == 5 && t.outBytes == 0) = true := by decide
theorem test_writeHeader : nextWith (exec .writeHeader { idle with rcnt := 3, wcnt := 5 })
    (fun t => t.statusWord == 0x401 && t.rcnt == 3 && t.wcnt == 0) = true := by decide
theorem test_encodeBody : nextWith (exec .encodeBody { idle with rcnt := 3, wcnt := 5 })
    (fun t => t.statusWord == 0x501 && t.rcnt == 3 && t.wcnt == 5) = true := by decide
theorem test_readHeader : nextWith (exec .readHeader { idle with rcnt := 3, wcnt := 5 })
    (fun t => t.statusWord == 0x701 && t.rcnt == 0 && t.wcnt == 5) = true := by decide
theorem test_decodeBody : nextWith (exec .decodeBody { idle with rcnt := 3, wcnt := 5 })
    (fun t => t.statusWord == 0x801 && t.rcnt == 3 && t.wcnt == 0) = true := by decide
/-- 47_control.md rule R254: `wr 0x04, 0x0000000C` gives STATUS = 4, ERR_CODE = 5, ERR_INFO = 0xC, CMD reads 0xC. -/
theorem test_illegalOpCF : nextWith (exec (.illegalOpCF 0) { idle with done := true, wcnt := 5 })
    (fun t => t.statusWord == 0x4 && t.errCode == 5 && t.errInfo == 0xC && t.lastCmd == 0xC && t.wcnt == 0) = true := by
  decide
theorem test_illegalOpAB : nextWith (exec (.illegalOpAB 1) idle)
    (fun t => t.statusWord == 0x4 && t.errCode == 5 && t.errInfo == 0xB) = true := by decide
/-- 47_control.md rule R254: 0x00000010 is illegal even though its OP is 0. -/
theorem test_illegalReservedBits : nextWith (exec (.illegalReservedBits 1 0) idle)
    (fun t => t.statusWord == 0x4 && t.errInfo == 0x10) = true := by decide
/-- 47_control.md rule R258: after `sreset` STATUS = 0 and CMD = 0, OVERRUN included, IN_POS kept. -/
theorem test_softReset : nextWith (exec (.softReset 0) { counting with overrun := true, inPos := 1 })
    (fun t => t.statusWord == 0 && t.lastCmd == 0 && t.nodes == 0 && t.inPos == 1) = true := by decide
/-- 44_header_codec.md rule R196: the root's token makes node 0; its left subtree is due. -/
theorem test_hdrInternal : nextWith (exec .hdrInternal reading)
    (fun t => t.nodes == 1 && t.seq == .token [] [⟨0, .left⟩, ⟨0, .right⟩] && !(t.nodeAt 0).leaf) = true := by decide +kernel
/-- 44_header_codec.md rule R196: a leaf that fills the left slot of node 0. -/
theorem test_hdrLeaf : nextWith
    (exec (.hdrLeaf 66) { reading with
      nodes := 1, node := idle.node.set 0 (Node.mkInternal 0 0 0), seq := .token [] [⟨0, .left⟩, ⟨0, .right⟩] })
    (fun t => (t.nodeAt 1).sym == 66 && (t.nodeAt 0).left == 1 && t.seq == .token [] [⟨0, .right⟩]) = true := by
  decide +kernel
/-- 44_header_codec.md rule R198: the 514th token. -/
theorem test_hdrLeaf_overflow : nextWith (exec (.hdrLeaf 66) { reading with nodes := 513 })
    (fun t => t.statusWord == 0x4 && t.errCode == 7 && t.errInfo == 513 && t.nodes == 0) = true := by decide

/-- 30_encoding.md rule R115: a poll that finds BUSY = 1 has read STATUS (BUSY = 1, PHASE COUNT) and reads it again. -/
theorem test_poll_busy : nextWith (step { counting with agenda := [.poll [2], .drainOut] })
    (fun t => t.reads == [(0x08, 0x101)] && t.agenda == [.block, .block, .poll [], .drainOut]) = true := by decide
/-- 30_encoding.md rule R115: the read that finds BUSY = 0 is the poll's last. -/
theorem test_poll_done : nextWith (step { idle with done := true, agenda := [.poll [2], .drainOut] })
    (fun t => t.reads == [(0x08, 0x2)] && t.agenda == [.drainOut]) = true := by decide

/-! ### Primitives (40_bitio.md rule R140) -/

theorem test_writeBits_sentinel : ((idle.writeBits 9 (256 : Word)).outLog, (idle.writeBits 9 (256 : Word)).wcnt) =
    ([.byte 0x80], 1) := by decide
theorem test_readBits_short : (({ idle with inData := [0xFA, 0xCE] } : State).readBits 32).1 = .noData 0xFACE 16 := by
  decide
/-- 40_bitio.md rule R138: WCNT = 7, WBUF[6:0] = 1110001. -/
theorem test_flush_pad : nextWith (flushStep { idle with phase := .flush, lastCmd := 7, wcnt := 7, wbuf := 0b1110001 })
    (fun t => t.outLog == [.byte 0xE2] && t.wcnt == 0 && t.outBytes == 1) = true := by decide
/-- 60_exceptions.md rule R271: the end of input at the first bit. -/
theorem test_badMagic_empty : nextWith (hdrReadStep { reading with seq := .magicIn 0 0 })
    (fun t => t.statusWord == 0x4 && t.errCode == 1 && t.errInfo == 0) = true := by decide
/-- 10_state.md rule R41: code bit 0 is bit 31 of CODE_BITS0. -/
theorem test_codeWord : ({ idle with codeIdx := 7, codeLen := idle.codeLen.set 7 1
                                     codeBits := idle.codeBits.set 7 1 } : State).codeWord 0 = 0x80000000 := by
  decide +kernel
/-- 42_tree_builder.md rule R160: of weights 1, 1 and 3 the two of 1 are merged, the lower index left. -/
theorem test_merge : nextWith (treeStep { idle with
      phase := .tree, seq := .merge, lastCmd := 4, nodes := 3, pq := [0, 1, 2]
      node := ((idle.node.set 0 (Node.mkLeaf 65 3)).set 1 (Node.mkLeaf 66 1)).set 2 (Node.mkLeaf 256 1) })
    (fun t => t.nodeAt 3 == Node.mkInternal 1 2 2 && t.pq == [0, 3] && t.nodes == 4) = true := by decide +kernel

/-! ### Witnesses: states and operands that meet each statement's hypotheses -/

theorem idle_quiet : idle.Quiet := ⟨rfl, rfl, rfl⟩

/-- With whatever input, tree and tables. -/
theorem quiet_of {s : State} (h : s.rstN = true ∧ s.phase = .idle ∧ s.agenda = []) : s.Quiet := ⟨h.1, h.2.1, h.2.2⟩

theorem idle_inv : idle.Inv := by
  constructor <;> first | decide | simp [idle, State.reset]

theorem counting_inv : counting.Inv := by
  constructor <;> first | decide | simp [counting, idle, State.reset]

theorem idle_treeInv : idle.TreeInv := by
  constructor <;> simp [idle, State.reset]

theorem counting_treeInv : counting.TreeInv := by
  constructor <;> simp [counting, idle, State.reset]

theorem lt_one : ∀ p : NodeIdx, p < 1 → p = 0 := by decide +kernel

theorem lt_three : ∀ p : NodeIdx, p < 3 → p = 0 ∨ p = 1 ∨ p = 2 := by decide +kernel

theorem oneLeaf_isTree : oneLeaf.IsTree := by
  have none : ∀ p, ¬ oneLeaf.isInternal p := by
    rintro p ⟨hp, hl⟩
    rw [lt_one p hp] at hl
    revert hl
    decide +kernel
  exact ⟨by decide, fun p _ h => absurd h (none p), fun j hj h0 => absurd (lt_one j hj) h0,
    fun p _ h => absurd h (none p), ⟨fun _ => 0, fun p _ h => absurd h (none p)⟩⟩

theorem twoLeaves_internal : ∀ p, twoLeaves.isInternal p → p = 0 := by
  rintro p ⟨hp, hl⟩
  rcases lt_three p hp with rfl | rfl | rfl
  · rfl
  · revert hl; decide +kernel
  · revert hl; decide +kernel

theorem twoLeaves_left : (twoLeaves.nodeAt 0).left = 1 := by decide +kernel
theorem twoLeaves_right : (twoLeaves.nodeAt 0).right = 2 := by decide +kernel
theorem twoLeaves_root : twoLeaves.isInternal 0 := ⟨by decide, by decide +kernel⟩

theorem twoLeaves_isTree : twoLeaves.IsTree := by
  refine ⟨by decide, ?_, ?_, ?_, ⟨fun p => if p = 0 then 1 else 0, ?_⟩⟩
  · intro p side h
    rw [twoLeaves_internal p h]
    cases side
    · rw [State.childOf, twoLeaves_left]; decide
    · rw [State.childOf, twoLeaves_right]; decide
  · intro j hj h0
    rcases lt_three j hj with rfl | rfl | rfl
    · exact absurd rfl h0
    · refine ⟨(0, .left), ⟨twoLeaves_root, twoLeaves_left⟩, ?_⟩
      rintro ⟨p, side⟩ ⟨hi, hc⟩
      have h0 := twoLeaves_internal p hi
      subst h0
      cases side
      · rfl
      · exact absurd (twoLeaves_right.symm.trans hc) (by decide)
    · refine ⟨(0, .right), ⟨twoLeaves_root, twoLeaves_right⟩, ?_⟩
      rintro ⟨p, side⟩ ⟨hi, hc⟩
      have h0 := twoLeaves_internal p hi
      subst h0
      cases side
      · exact absurd (twoLeaves_left.symm.trans hc) (by decide)
      · rfl
  · intro p side h
    rw [twoLeaves_internal p h]
    cases side
    · rw [State.childOf, twoLeaves_left]; decide
    · rw [State.childOf, twoLeaves_right]; decide
  · intro p side h
    rw [twoLeaves_internal p h]
    cases side
    · rw [State.childOf, twoLeaves_left]; decide
    · rw [State.childOf, twoLeaves_right]; decide

theorem oneLeaf_represents : oneLeaf.Represents oneLeaf.root (.leaf 256) :=
  ⟨by decide, by decide +kernel, by decide +kernel⟩

theorem twoLeaves_represents : twoLeaves.Represents twoLeaves.root (.node (.leaf 66) (.leaf 256)) := by
  refine ⟨by decide, by decide +kernel, ?_, ?_⟩
  · show twoLeaves.Represents (twoLeaves.nodeAt 0).left _
    rw [twoLeaves_left]
    exact ⟨by decide, by decide +kernel, by decide +kernel⟩
  · show twoLeaves.Represents (twoLeaves.nodeAt 0).right _
    rw [twoLeaves_right]
    exact ⟨by decide, by decide +kernel, by decide +kernel⟩

theorem witness_DecodeEncode : (Instr.hdrLeaf 511).wellFormed = true ∧
    (Instr.illegalReservedBits 0xFFFFFFF 15).wellFormed = true := by decide
theorem witness_EncodeDecode : decodeCtrl 1 = .ok (.softReset 0) ∧ decodeCtrl 0 = .error .ctrlNoOperation ∧
    decodeToken [false] = .ok (.hdrInternal, []) := by decide
theorem witness_CommandWord_busy : counting.phase ≠ .idle := by decide
theorem witness_CommandWord_idle : idle.phase = .idle ∧ decodeCmd 0xA = .illegalOpAB 0 ∧ decodeCmd 0x9 = .decodeBody ∧
    decodeCmd 0x10 = .illegalReservedBits 1 0 ∧ decodeCmd 0 = .nop := by decide
theorem witness_CommandStart : idle.phase = .idle := rfl
theorem witness_NopCommand : idle.phase = .idle ∧ counting.phase ≠ .idle := by decide
theorem witness_IllegalCommand : idle.phase = .idle ∧ 0xB#32 = 0x5#31 ++ 1#1 ∧ 0xF#32 = 0x3#30 ++ 3#2 ∧
    (0x8000000#28 ≠ 0 ∧ 0x8000000F#32 = 0x8000000#28 ++ 0xF#4) := by decide
theorem witness_BusyWrites : counting.phase ≠ .idle ∧ (1 : Word).getLsbD 0 = true ∧ (2 : Word).getLsbD 0 = false := by decide
theorem witness_SoftReset : (0xFFFFFFFE : Word).getLsbD 0 = false := by decide
theorem witness_HardwareReset : ({ idle with rstN := false } : State).rstN = false := rfl
theorem witness_InvKept : counting.Inv ∧ ∃ t, step counting = .next t := ⟨counting_inv, _, rfl⟩
theorem witness_TreeInvKept : counting.Inv ∧ counting.TreeInv ∧ ∃ t, step counting = .next t :=
  ⟨counting_inv, counting_treeInv, _, rfl⟩
theorem witness_TreeOfNodes_one : oneLeaf.nodes.toNat ≤ 513 ∧ oneLeaf.IsTree := ⟨by decide, oneLeaf_isTree⟩
theorem witness_TreeOfNodes_two : twoLeaves.nodes.toNat ≤ 513 ∧ twoLeaves.IsTree := ⟨by decide, twoLeaves_isTree⟩
theorem witness_StepRunsInstruction_ctrl : idle.rstN = true ∧ decodeCtrl 1 = .ok (.softReset 0) := by decide
theorem witness_StepRunsInstruction_token : reading.rstN = true ∧ reading.phase = .hdrRead ∧ reading.agenda = [] ∧
    ({ reading with seq := .token [false] [] } : State).seq = .token [false] [] ∧
    decodeToken [false] = .ok (.hdrInternal, []) := by decide
theorem witness_StepRunsInstruction_block :
    ({ reading with agenda := [.block], seq := .token [false] [] } : State).agenda = .block :: [] := rfl
theorem witness_StepRunsInstruction_placed : (Instr.hdrLeaf 3).wellFormed = true ∧
    encode .count = .cmdWord 3 ∧ encode (.softReset 0) = .ctrlWord 1 ∧ encode .hdrInternal = .headerBits [false] := by
  decide
theorem witness_HdrInternalToken_root : reading.nodes.toNat ≤ 512 ∧ ∀ slot ∈ reading.pendingSlots, slot.parent < reading.nodes := by
  decide
theorem witness_HdrInternalToken_full : let s : State := { reading with nodes := 512, seq := .token [] [⟨511, .right⟩] }
    s.nodes.toNat ≤ 512 ∧ ∀ slot ∈ s.pendingSlots, slot.parent < s.nodes := by decide
theorem witness_HdrLeafToken_last : let s : State := { reading with nodes := 512, seq := .token [] [⟨511, .right⟩] }
    s.nodes.toNat ≤ 512 ∧ (∀ slot ∈ s.pendingSlots, slot.parent < s.nodes) ∧ s.pendingSlots.tail = [] := by decide
theorem witness_HdrLeafToken_more : let s : State := { reading with nodes := 1, seq := .token [] [⟨0, .left⟩, ⟨0, .right⟩] }
    s.nodes.toNat ≤ 512 ∧ (∀ slot ∈ s.pendingSlots, slot.parent < s.nodes) ∧ s.pendingSlots.tail ≠ [] := by decide
theorem witness_TokenOverflow : ({ reading with nodes := 513 } : State).nodes = 513 := rfl
theorem witness_ReadBit_end : idle.rcnt.toNat ≤ 8 ∧ idle.inBits = [] := by decide
theorem witness_ReadBit_rbuf : ({ idle with rcnt := 1, rbuf := 1 } : State).inBits = true :: [] := by decide
theorem witness_ReadBit_byte : ({ idle with inData := [0x80] } : State).inBits = true :: List.replicate 7 false := by decide
theorem witness_ReadBits_whole : let s : State := { idle with inData := [1, 2, 3, 4] }
    s.rcnt.toNat ≤ 8 ∧ 32 ≤ s.inBits.length := by decide
theorem witness_ReadBits_short : let s : State := { idle with inData := [1, 2, 3] }
    s.rcnt.toNat ≤ 8 ∧ ¬ 32 ≤ s.inBits.length := by decide
theorem witness_WriteBits : 1 ≤ 32 ∧ 32 ≤ 32 := by decide
theorem witness_FlushPhase : let s : State := { idle with phase := .flush, lastCmd := 7 }
    s.rstN = true ∧ s.agenda = [] ∧ s.phase = .flush ∧ s.seq = .start ∧ s.wcnt = 0 := by decide
theorem witness_FlushPhase_pad : ({ idle with phase := .flush, wcnt := 7 } : State).wcnt ≠ 0 := by decide
theorem witness_CountCommand : idle.Quiet ∧ idle.inLeft.length ≤ 0xFFFFFFFE := ⟨idle_quiet, by decide⟩
theorem inLeft_whole (s : State) (h : s.inPos = 0) : s.inLeft = s.inData := by rw [State.inLeft, h, List.drop_zero]
theorem witness_CountTooLong : let s : State := { idle with inData := List.replicate 0xFFFFFFFF 0 }
    (Instr.compress, 1#4) ∈ ([(.count, 3), (.compress, 1)] : List (Instr × BitVec 4)) ∧
      s.Quiet ∧ 0xFFFFFFFE < s.inLeft.length := by
  refine ⟨by decide, ⟨rfl, rfl, rfl⟩, ?_⟩
  rw [inLeft_whole _ rfl]
  show 0xFFFFFFFE < (List.replicate 0xFFFFFFFF (0 : Byte)).length
  rw [List.length_replicate]
  decide
theorem witness_positives : ({ idle with freq := idle.freq.set 256 1 } : State).positives ≠ [] := by decide +kernel
theorem witness_TreeLeaves : let s : State := { idle with phase := .tree, freq := idle.freq.set 256 1 }
    s.phase = .tree ∧ s.seq = .start ∧ s.positives ≠ [] := ⟨rfl, rfl, witness_positives⟩
theorem witness_MergeLeast : let s : State := { twoLeaves with phase := .tree, seq := .merge, pq := [1, 2], nodes := 512 }
    s.phase = .tree ∧ s.seq = .merge ∧ 2 ≤ s.pq.length ∧ s.pq.Nodup ∧ s.nodes.toNat ≤ 512 := by decide
theorem witness_BuildTree : let s : State := { idle with freq := idle.freq.set 256 1 }
    s.Quiet ∧ s.positives ≠ [] := ⟨quiet_of ⟨rfl, rfl, rfl⟩, witness_positives⟩
theorem witness_EmptyFrequencySet : idle.Quiet ∧ idle.positives = [] := ⟨idle_quiet, by decide +kernel⟩
theorem witness_TreeReproducible : let s : State := { idle with freq := idle.freq.set 256 1 }
    let u : State := { twoLeaves with freq := idle.freq.set 256 1 }
    s.Quiet ∧ u.Quiet ∧ s.freq = u.freq ∧ s.positives ≠ [] :=
  ⟨quiet_of ⟨rfl, rfl, rfl⟩, quiet_of ⟨rfl, rfl, rfl⟩, rfl, witness_positives⟩
theorem witness_BuildCodes_one : oneLeaf.Quiet ∧ oneLeaf.nodes.toNat ≤ 513 ∧ oneLeaf.IsTree ∧
    oneLeaf.Represents oneLeaf.root (.leaf 256) :=
  ⟨quiet_of ⟨rfl, rfl, rfl⟩, by decide, oneLeaf_isTree, oneLeaf_represents⟩
theorem witness_BuildCodes_two : twoLeaves.Quiet ∧ twoLeaves.nodes.toNat ≤ 513 ∧ twoLeaves.IsTree ∧
    twoLeaves.Represents twoLeaves.root (.node (.leaf 66) (.leaf 256)) :=
  ⟨quiet_of ⟨rfl, rfl, rfl⟩, by decide, twoLeaves_isTree, twoLeaves_represents⟩
theorem witness_PrefixFree : twoLeaves.Quiet ∧ twoLeaves.nodes.toNat ≤ 513 ∧ twoLeaves.IsTree :=
  ⟨quiet_of ⟨rfl, rfl, rfl⟩, by decide, twoLeaves_isTree⟩
theorem witness_NoTree : idle.Quiet ∧ idle.nodes = 0 := ⟨idle_quiet, rfl⟩
theorem witness_WriteHeader : twoLeaves.Quiet ∧ twoLeaves.Represents twoLeaves.root (.node (.leaf 66) (.leaf 256)) :=
  ⟨quiet_of ⟨rfl, rfl, rfl⟩, twoLeaves_represents⟩

/-- The compressed empty input (45_compressor.md rule R210). -/
def emptyStream : State := { idle with inData := [0xFA, 0xCE, 0x82, 0x01, 0xC0, 0x00] }

theorem witness_ReadHeader : emptyStream.Quiet ∧ (CodeTree.leaf 256).nodeCount ≤ 513 ∧
    byteBits emptyStream.inLeft = bitsOf 32 emptyStream.magic ++ (CodeTree.leaf 256).header ++ List.replicate 6 false :=
  ⟨quiet_of ⟨rfl, rfl, rfl⟩, by decide, by decide +kernel⟩
/-- Five entries: node 0, with children 1 and `right`, node 1, with children 2 and `right'`, and the three leaves. -/
def fiveNodes (right right' : NodeIdx) (n3 n4 : Sym) : State :=
  { idle with
    nodes := 5
    node := ((((idle.node.set 0 (Node.mkInternal 1 right 0)).set 1 (Node.mkInternal 2 right' 0)).set 2
      (Node.mkLeaf 97 0)).set 3 (Node.mkLeaf n3 0)).set 4 (Node.mkLeaf n4 0) }
/-- 44_header_codec.md rule R197: the pre-order numbering of node(node(a, b), c). -/
theorem test_preOrder : (fiveNodes 4 3 98 99).PreOrder 0 (.node (.node (.leaf 97) (.leaf 98)) (.leaf 99)) := by
  refine ⟨by decide +kernel, by decide +kernel, by decide +kernel, ⟨by decide +kernel, by decide +kernel, by decide +kernel,
    ⟨by decide +kernel, by decide +kernel⟩, by decide +kernel, by decide +kernel⟩, by decide +kernel, by decide +kernel⟩
/-- The same tree numbered otherwise, children above their parents, is not in pre-order. -/
theorem test_preOrder_refused :
    ¬ (fiveNodes 3 4 99 98).PreOrder 0 (.node (.node (.leaf 97) (.leaf 98)) (.leaf 99)) :=
  fun h => absurd h.2.2.1 (by decide +kernel)
theorem witness_BadMagic_whole : let s : State := { idle with inData := [0, 1, 2, 3] }
    s.Quiet ∧ (byteBits s.inLeft).take 32 ≠ bitsOf 32 s.magic := ⟨quiet_of ⟨rfl, rfl, rfl⟩, by decide +kernel⟩
theorem witness_BadMagic_short : let s : State := { idle with inData := [0xFA, 0xCE] }
    s.Quiet ∧ (byteBits s.inLeft).take 32 ≠ bitsOf 32 s.magic := ⟨quiet_of ⟨rfl, rfl, rfl⟩, by decide +kernel⟩

/-- A header that opens `n` internal nodes before its first leaf. -/
def leftSpine : Nat → CodeTree
  | 0 => .leaf 5
  | n + 1 => .node (leftSpine n) (.leaf 3)

theorem leftSpine_header : ∀ n, (leftSpine n).header =
    List.replicate n false ++ ((true :: bitsOf 9 (5 : Sym)) ++ (List.replicate n (true :: bitsOf 9 (3 : Sym))).flatten)
  | 0 => by simp [leftSpine, CodeTree.header]
  | n + 1 => by
    rw [leftSpine, CodeTree.header, leftSpine_header n, List.replicate_succ, List.replicate_succ' (n := n), List.flatten_append]
    simp [CodeTree.header]

theorem witness_TruncatedHeader_none : let s : State := { idle with inData := [0xFA, 0xCE, 0x82, 0x01] }
    s.Quiet ∧ (CodeTree.leaf 256).header = [] ++ (CodeTree.leaf 256).header ∧ (CodeTree.leaf 256).header ≠ [] ∧
      tokensIn 0 [] ≤ 513 ∧ byteBits s.inLeft = bitsOf 32 s.magic ++ [] :=
  ⟨quiet_of ⟨rfl, rfl, rfl⟩, rfl, by decide, by decide, by decide +kernel⟩
theorem witness_TruncatedHeader_long : let s : State := { idle with inData := [0xFA, 0xCE, 0x82, 0x01] ++ List.replicate 64 0 }
    s.Quiet ∧ (∃ q, (leftSpine 512).header = List.replicate 512 false ++ q ∧ q ≠ []) ∧
      tokensIn 0 (List.replicate 512 false) = 512 ∧
      byteBits s.inLeft = bitsOf 32 s.magic ++ List.replicate 512 false :=
  ⟨quiet_of ⟨rfl, rfl, rfl⟩, ⟨_, leftSpine_header 512, List.cons_ne_nil _ _⟩, by decide +kernel, by decide +kernel⟩
theorem witness_HeaderOverflow : let s : State := { idle with inData := [0xFA, 0xCE, 0x82, 0x01] ++ List.replicate 65 0 }
    s.Quiet ∧ (∃ q, (leftSpine 514).header = List.replicate 514 false ++ q) ∧
      tokensIn 0 (List.replicate 514 false) = 514 ∧
      byteBits s.inLeft = bitsOf 32 s.magic ++ List.replicate 514 false ++ List.replicate 6 false :=
  ⟨quiet_of ⟨rfl, rfl, rfl⟩, ⟨_, leftSpine_header 514⟩, by decide +kernel, by decide +kernel⟩
theorem witness_EncodeBody : let s : State := { idle with inData := [1], codeLen := (idle.codeLen.set 1 1).set 256 1 }
    s.Quiet ∧ (∀ b ∈ s.inData, s.codeLenAt b.toNat ≠ 0) ∧ s.codeLenAt 256 ≠ 0 :=
  ⟨quiet_of ⟨rfl, rfl, rfl⟩, by decide +kernel, by decide +kernel⟩
theorem witness_NoCode_byte : let s : State := { idle with inData := [1, 2], codeLen := idle.codeLen.set 1 1 }
    s.Quiet ∧ s.inData = [1] ++ [2] ∧ (∀ b ∈ ([1] : List Byte), s.codeLenAt b.toNat ≠ 0) ∧
      ((([2] : List Byte).head?.map BitVec.toNat).getD 256 = 2) ∧ s.codeLenAt 2 = 0 :=
  ⟨quiet_of ⟨rfl, rfl, rfl⟩, rfl, by decide +kernel, by decide, by decide +kernel⟩
theorem witness_NoCode_sentinel : idle.Quiet ∧ idle.inData = [] ++ [] ∧ (∀ b ∈ ([] : List Byte), idle.codeLenAt b.toNat ≠ 0) ∧
    ((([] : List Byte).head?.map BitVec.toNat).getD 256 = 256) ∧ idle.codeLenAt 256 = 0 :=
  ⟨idle_quiet, rfl, by simp, by decide, by decide +kernel⟩
theorem spells_66 : (CodeTree.node (.leaf 66) (.leaf 256)).Spells [false, true] [66] [] :=
  .emit rfl (by decide) (.stop rfl)
theorem witness_DecodeBody_two : let s : State := { twoLeaves with rcnt := 2, rbuf := 1 }
    s.Quiet ∧ s.rcnt.toNat ≤ 8 ∧ s.Represents s.root (.node (.leaf 66) (.leaf 256)) ∧
      (CodeTree.node (.leaf 66) (.leaf 256)).Spells s.inBits [66] [] :=
  ⟨quiet_of ⟨rfl, rfl, rfl⟩, by decide, twoLeaves_represents, spells_66⟩
theorem witness_DecodeBody_one : let s : State := { oneLeaf with rcnt := 1, rbuf := 1 }
    s.Quiet ∧ s.rcnt.toNat ≤ 8 ∧ s.Represents s.root (.leaf 256) ∧ (CodeTree.leaf 256).Spells s.inBits [] [] :=
  ⟨quiet_of ⟨rfl, rfl, rfl⟩, by decide, oneLeaf_represents, .stop rfl⟩
theorem witness_TruncatedBody : let s : State := { twoLeaves with rcnt := 1, rbuf := 0 }
    s.Quiet ∧ s.rcnt.toNat ≤ 8 ∧ s.Represents s.root (.node (.leaf 66) (.leaf 256)) ∧
      (CodeTree.node (.leaf 66) (.leaf 256)).Starves s.inBits [66] :=
  ⟨quiet_of ⟨rfl, rfl, rfl⟩, by decide, twoLeaves_represents, .emit rfl (by decide) (.dry rfl)⟩
theorem witness_Compress : let s : State := { idle with inData := [65, 65, 65, 66] }
    s.Quiet ∧ s.inPos = 0 ∧ s.inData.length ≤ 0xFFFFFFFE := ⟨quiet_of ⟨rfl, rfl, rfl⟩, rfl, by decide⟩
theorem witness_CompressedLength : idle.Quiet ∧ idle.inPos = 0 ∧ idle.inData.length ≤ 0xFFFFFFFE :=
  ⟨idle_quiet, rfl, by decide⟩
theorem witness_Decompress : emptyStream.Quiet ∧ (CodeTree.leaf 256).nodeCount ≤ 513 ∧
    byteBits emptyStream.inLeft = bitsOf 32 emptyStream.magic ++ (CodeTree.leaf 256).header ++ List.replicate 6 false ∧
    (CodeTree.leaf 256).Spells (List.replicate 6 false) [] (List.replicate 5 false) :=
  ⟨quiet_of ⟨rfl, rfl, rfl⟩, by decide, by decide +kernel, .stop rfl⟩
theorem witness_RoundTrip : idle.Quiet ∧ idle.inPos = 0 ∧ idle.inData.length ≤ 0xFFFFFFFE ∧
    emptyStream.Quiet ∧ emptyStream.magic = idle.magic ∧ emptyStream.inPos = 0 :=
  ⟨idle_quiet, rfl, by decide, quiet_of ⟨rfl, rfl, rfl⟩, rfl, rfl⟩
theorem witness_SplitDecompress : emptyStream.Quiet := quiet_of ⟨rfl, rfl, rfl⟩
theorem witness_CommandOutcome : idle.Quiet ∧ idle.Inv ∧ idle.TreeInv := ⟨idle_quiet, idle_inv, idle_treeInv⟩
theorem witness_PhaseTransitions_next : let s : State := { counting with lastCmd := 1, seq := .phaseEnd }
    s.rstN = true ∧ s.phase ≠ .idle ∧ (phaseRow (s.lastCmd.extractLsb' 0 4))[0 + 1]? = some .tree ∧ s.Inv := by
  refine ⟨rfl, by decide, by decide, ?_⟩
  constructor <;> first | decide | simp
theorem witness_PhaseTransitions_last : let s : State := { counting with seq := .phaseEnd }
    s.rstN = true ∧ s.phase ≠ .idle ∧ (phaseRow (s.lastCmd.extractLsb' 0 4))[0 + 1]? = none ∧ s.Inv := by
  refine ⟨rfl, by decide, by decide, ?_⟩
  constructor <;> first | decide | simp
theorem witness_PhaseTransitions : counting.Inv ∧ counting.phase ≠ .idle ∧ ∃ t, blockStep counting = .next t :=
  ⟨counting_inv, by decide, _, rfl⟩
theorem witness_BlockFrame : (∃ t, blockStep counting = .next t) ∧ counting.phase ≠ .codes ∧ counting.phase ≠ .tree ∧
    counting.phase ≠ .hdrRead ∧ counting.phase ∉ ([.hdrWrite, .encode, .flush, .decode] : List Phase) :=
  ⟨⟨_, rfl⟩, by decide, by decide, by decide, by decide⟩
theorem witness_BlockFrame_idle : (∃ t, blockStep idle = .next t) ∧ idle.phase ≠ .count ∧
    idle.phase ∉ ([.count, .encode, .hdrRead, .decode] : List Phase) := ⟨⟨_, rfl⟩, by decide, by decide⟩
theorem witness_HostWriteFrame : (∃ t, csrWrite .irqEn 3 idle = .next t) ∧ Csr.irqEn ≠ .freqData ∧ Csr.irqEn ≠ .ctrl ∧
    Csr.irqEn ≠ .cmd := ⟨⟨_, rfl⟩, by decide, by decide, by decide⟩
theorem witness_OutLogGrows : ∃ t, step { idle with phase := .flush, lastCmd := 7 } = .next t ∧ .close ∈ t.outLog :=
  ⟨_, rfl, by decide⟩
theorem witness_HostCannotDisturb : counting.Inv ∧ counting.phase ≠ .idle ∧ Csr.cmd ≠ .ctrl ∧
    (∃ t, csrWrite .cmd 3 counting = .next t) ∧ ∃ t, blockStep counting = .next t :=
  ⟨counting_inv, by decide, by decide, ⟨_, rfl⟩, ⟨_, rfl⟩⟩
theorem witness_StatusRegister : counting.rstN = true ∧ idle.rstN = true ∧ counting.statusWord.getLsbD 0 = true ∧
    idle.statusWord.getLsbD 0 = false := by decide
theorem witness_TableWindows_code : idle.rstN = true ∧ idle.phase = .idle ∧
    ({ idle with codeIdx := 256 } : State).codeIdx.toNat ≤ 256 ∧ 256 < ({ idle with codeIdx := 257 } : State).codeIdx.toNat := by
  decide
theorem witness_TableWindows_node : ({ twoLeaves with nodeIdx := 2 } : State).nodeIdx < twoLeaves.nodes ∧
    twoLeaves.nodes ≤ ({ twoLeaves with nodeIdx := 3 } : State).nodeIdx := by decide
theorem witness_FreqWindow : idle.rstN = true ∧ idle.phase = .idle ∧ counting.phase ≠ .idle ∧
    ({ idle with freqIdx := 256 } : State).freqIdx.toNat ≤ 256 ∧ 256 < ({ idle with freqIdx := 257 } : State).freqIdx.toNat := by
  decide
theorem witness_AnyValueReads : counting.rstN = true ∧ counting.phase ≠ .idle ∧ 0x6C % 4 = 0 ∧ 0x6C ≤ 0xFC ∧ 0x70 % 4 = 0 := by
  decide
theorem witness_CsrAccess : idle.rstN = true ∧ (2 ≠ 4 ∨ 0 % 4 ≠ 0 ∨ 0xFC < 0) ∧ (4 ≠ 4 ∨ 0x100 % 4 ≠ 0 ∨ 0xFC < 0x100) ∧
    (0xFC % 4 = 0 ∧ 0xFC ≤ 0xFC) ∧ idle.phase = .idle := by decide
theorem witness_CsrAccess_platform : 0xFF ≤ 0xFF ∧ Config.huffBase + 0xFF < Config.huffBase + 0x100 := ⟨by decide, by omega⟩
theorem witness_Interrupt : ∃ t, csrWrite .irqEn 0 { idle with done := true, irqEn := 1 } = .next t := ⟨_, rfl⟩
theorem witness_LoadInput : idle.phase = .idle ∧ counting.phase ≠ .idle := by decide

end Sys2Proof.Tests
end

section
/-! SUPPORT. One inversion lemma for the block's step: the phase moves on, or a turn of the phase's rule writes the
state of that phase alone, or that turn ends in an abort. -/

namespace Sys2Proof.Machine

/-! ### What a phase writes -/

/-- `s` with what the rule of phase `p` may write taken from `u`: a turn of the rule writes nothing else. -/
def State.phaseWrites (s : State) (p : Phase) (u : State) : State :=
  match p with
  | .idle => s
  | .count =>
    { s with freq := u.freq, inPos := u.inPos, inBytes := u.inBytes, rbuf := u.rbuf, rcnt := u.rcnt, seq := u.seq }
  | .tree => { s with node := u.node, nodes := u.nodes, root := u.root, pq := u.pq, seq := u.seq }
  | .codes => { s with codeLen := u.codeLen, codeBits := u.codeBits, seq := u.seq }
  | .hdrWrite | .flush =>
    { s with outLog := u.outLog, outBytes := u.outBytes, wbuf := u.wbuf, wcnt := u.wcnt, seq := u.seq }
  | .encode =>
    { s with inPos := u.inPos, inBytes := u.inBytes, rbuf := u.rbuf, rcnt := u.rcnt, outLog := u.outLog
             outBytes := u.outBytes, wbuf := u.wbuf, wcnt := u.wcnt, seq := u.seq }
  | .hdrRead =>
    { s with inPos := u.inPos, inBytes := u.inBytes, rbuf := u.rbuf, rcnt := u.rcnt, node := u.node, nodes := u.nodes
             root := u.root, seq := u.seq }
  | .decode =>
    { s with inPos := u.inPos, inBytes := u.inBytes, rbuf := u.rbuf, rcnt := u.rcnt, outLog := u.outLog
             outBytes := u.outBytes, wbuf := u.wbuf, wcnt := u.wcnt, cur := u.cur, seq := u.seq }

section
variable (s u : State) (p : Phase)

@[simp] theorem State.phaseWrites_phase : (s.phaseWrites p u).phase = s.phase := by cases p <;> rfl
@[simp] theorem State.phaseWrites_lastCmd : (s.phaseWrites p u).lastCmd = s.lastCmd := by cases p <;> rfl
@[simp] theorem State.phaseWrites_done : (s.phaseWrites p u).done = s.done := by cases p <;> rfl
@[simp] theorem State.phaseWrites_err : (s.phaseWrites p u).err = s.err := by cases p <;> rfl
@[simp] theorem State.phaseWrites_overrun : (s.phaseWrites p u).overrun = s.overrun := by cases p <;> rfl
@[simp] theorem State.phaseWrites_errCode : (s.phaseWrites p u).errCode = s.errCode := by cases p <;> rfl
@[simp] theorem State.phaseWrites_errInfo : (s.phaseWrites p u).errInfo = s.errInfo := by cases p <;> rfl
@[simp] theorem State.phaseWrites_irqEn : (s.phaseWrites p u).irqEn = s.irqEn := by cases p <;> rfl
@[simp] theorem State.phaseWrites_magic : (s.phaseWrites p u).magic = s.magic := by cases p <;> rfl
@[simp] theorem State.phaseWrites_freqIdx : (s.phaseWrites p u).freqIdx = s.freqIdx := by cases p <;> rfl
@[simp] theorem State.phaseWrites_codeIdx : (s.phaseWrites p u).codeIdx = s.codeIdx := by cases p <;> rfl
@[simp] theorem State.phaseWrites_nodeIdx : (s.phaseWrites p u).nodeIdx = s.nodeIdx := by cases p <;> rfl
@[simp] theorem State.phaseWrites_rstN : (s.phaseWrites p u).rstN = s.rstN := by cases p <;> rfl
@[simp] theorem State.phaseWrites_inData : (s.phaseWrites p u).inData = s.inData := by cases p <;> rfl
@[simp] theorem State.phaseWrites_agenda : (s.phaseWrites p u).agenda = s.agenda := by cases p <;> rfl
@[simp] theorem State.phaseWrites_reads : (s.phaseWrites p u).reads = s.reads := by cases p <;> rfl
@[simp] theorem State.phaseWrites_draws : (s.phaseWrites p u).draws = s.draws := by cases p <;> rfl

end

/-- The phases that build a tree, and whose aborts leave none (60_exceptions.md rule R281). -/
def Phase.buildsTree : Phase → Bool
  | .tree | .hdrRead => true
  | .idle | .count | .codes | .hdrWrite | .encode | .flush | .decode => false

theorem Phase.buildsTree_eq_true {p : Phase} : p.buildsTree = true ↔ p = .tree ∨ p = .hdrRead := by
  cases p <;> simp [Phase.buildsTree]

theorem Phase.buildsTree_eq_false {p : Phase} : p.buildsTree = false ↔ p ≠ .tree ∧ p ≠ .hdrRead := by
  cases p <;> simp [Phase.buildsTree]

/-! ### Turns and moves -/

/-- The clauses of the invariant about what the phases write (`State.Inv` has the same ones). -/
structure State.Bounds (s : State) : Prop where
  nodes : s.nodes.toNat ≤ 513
  reader : s.rcnt.toNat ≤ 8
  writer : s.wbuf.toNat < 2 ^ s.wcnt.toNat
  inPos : s.inPos ≤ s.inData.length
  aligned : (s.phase = .decode ∨ (s.phase = .hdrRead ∧ cmdOp s.lastCmd = 2)) → s.wcnt = 0
  room : s.phase = .tree → s.seq = .merge → s.pq ≠ [] ∧ s.nodes.toNat + s.pq.length ≤ 514
  magic : ∀ k v, s.seq = .magicIn k v → k < 32

theorem State.Inv.bounds {s : State} (h : s.Inv) : s.Bounds :=
  ⟨h.nodesBound, h.readerBound, h.writerBound, h.inPosBound, h.decodeAligned, h.mergeRoom, h.magicRoom⟩

/-- A turn of the rule of phase `p`, from `s` to `u`. -/
structure State.Turn (s : State) (p : Phase) (u : State) : Prop where
  writes : u = s.phaseWrites p u
  fits : seqFits p u.seq = true
  bounds : s.phase = p → s.Bounds → u.Bounds

/-- Where a step of the block in phase `p` leads. -/
inductive State.BlockMove (s : State) (p : Phase) (t : State) : Prop
  /-- The phase's rule has finished: PHASE moves. -/
  | next (ended : s.seq = .phaseEnd) (eq : t = s.nextPhase)
  /-- The rule goes on. -/
  | turn (turn : s.Turn p t)
  /-- The rule ends in an abort of the given kind. -/
  | abort (u : State) (e : Error) (info : Word) (nbits : BitVec 6) (turn : s.Turn p u)
      (kind : e.emptiesTree = p.buildsTree)
      (range : s.Bounds → nbits ≤ 32 ∧ (e ≠ .badMagic → nbits = 0)) (eq : t = u.abort e info nbits)

end Sys2Proof.Machine
end

section
/-! SUPPORT. The shared operations within a turn, and the moves of the phases that build no tree. -/

namespace Sys2Proof.Machine

/-! ### The shared operations within a turn -/

/-- `ReadBit` writes the reader's state alone, and stays within bounds. -/
theorem State.readBit_turn {s t : State} {o : Option Bool} (h : s.readBit = (o, t)) :
    (∃ p n r c, t = { s with inPos := p, inBytes := n, rbuf := r, rcnt := c }) ∧ (s.Bounds → t.Bounds) := by
  obtain ⟨p, n, r, c, he, hp, hc⟩ := s.readBit_frame
  rw [h] at he
  subst he
  exact ⟨⟨p, n, r, c, rfl⟩, fun b => { b with inPos := hp b.inPos, reader := hc b.reader }⟩

/-- `ReadBits` writes the reader's state alone, and stays within bounds. -/
theorem State.readBits_turn {s t : State} {n : Nat} {o : BitsRead} (h : s.readBits n = (o, t)) :
    (∃ p m r c, t = { s with inPos := p, inBytes := m, rbuf := r, rcnt := c }) ∧ (s.Bounds → t.Bounds) := by
  obtain ⟨p, m, r, c, he, hp, hc⟩ := s.readBits_frame n
  rw [h] at he
  subst he
  exact ⟨⟨p, m, r, c, rfl⟩, fun b => { b with inPos := hp b.inPos, reader := hc b.reader }⟩

/-- `bitsOf n v` has `n` bits. -/
@[simp] theorem bitsOf_length {w : Nat} (n : Nat) (v : BitVec w) : (bitsOf n v).length = n := by
  induction n with
  | zero => rfl
  | succ n ih => simp [bitsOf, ih]

/-- Writing bits moves WCNT on by their number, modulo 8. -/
theorem State.writeList_wcnt (bits : List Bool) (s : State) :
    (s.writeList bits).wcnt = s.wcnt + BitVec.ofNat 3 bits.length := by
  induction bits generalizing s with
  | nil => simp [State.writeList]
  | cons b bits ih =>
    have hb : (s.writeBit b).wcnt = s.wcnt + 1 := by
      rcases s.writeBit_cases b with ⟨h7, h⟩ | ⟨-, h⟩
      · rw [h, h7]; rfl
      · rw [h]
    calc (s.writeList (b :: bits)).wcnt = (s.writeBit b).wcnt + BitVec.ofNat 3 bits.length := ih _
      _ = s.wcnt + BitVec.ofNat 3 (bits.length + 1) := by rw [hb, BitVec.ofNat_add]; ac_rfl

/-- Writing bits writes the writer's state alone, and stays within bounds, by whole bytes where the writer must be
aligned. -/
theorem State.writeList_turn {s t : State} {bits : List Bool} (h : s.writeList bits = t) :
    (∃ l n w c, t = { s with outLog := l, outBytes := n, wbuf := w, wcnt := c }) ∧
    (((s.phase = .decode ∨ (s.phase = .hdrRead ∧ cmdOp s.lastCmd = 2)) → BitVec.ofNat 3 bits.length = 0) →
      s.Bounds → t.Bounds) := by
  have hw := s.writeList_wcnt bits
  obtain ⟨l, n, w, c, he, -, hb⟩ := s.writeList_frame bits
  rw [← h]
  rw [he] at hw ⊢
  refine ⟨⟨_, _, _, _, rfl⟩, fun h b => { b with writer := hb b.writer, aligned := fun hp => ?_ }⟩
  rw [show c = _ from hw, b.aligned hp, h hp]; rfl

/-! ### The move of each phase -/

/-- The COUNT phase. -/
theorem countStep_move {s t : State} (h : countStep s = .next t) : s.BlockMove .count t := by
  unfold countStep at h
  split at h <;> cases h
  · exact .turn ⟨rfl, rfl, fun _ b => { b with room := nofun, magic := nofun }⟩
  · have hf : seqFits .count s.seq = true := by rw [‹s.seq = _›]; rfl
    rcases s.countByte_cases with ⟨v, k, u, hr, h⟩ | ⟨v, u, hr, ⟨-, h⟩ | ⟨-, h⟩⟩ <;> rw [h] <;>
      obtain ⟨⟨p, n, r, c, rfl⟩, hb⟩ := State.readBits_turn hr
    · exact .turn ⟨rfl, rfl, fun _ b => { hb b with room := nofun, magic := nofun }⟩
    · exact .abort { s with inPos := p, inBytes := n, rbuf := r, rcnt := c } .inputTooLong _ 0
        ⟨rfl, hf, fun _ => hb⟩ rfl (fun _ => by decide) rfl
    · exact .turn ⟨rfl, hf, fun _ b => { hb b with }⟩
  · exact .next ‹_› rfl

/-- The CODES phase. -/
theorem codesStep_move {s t : State} (h : codesStep s = .next t) : s.BlockMove .codes t := by
  unfold codesStep at h
  split at h <;> cases h
  · have hf : seqFits .codes s.seq = true := by rw [‹s.seq = _›]; rfl
    obtain ⟨l, c, hc⟩ : ∃ l c, s.clearCodes = { s with codeLen := l, codeBits := c } := ⟨_, _, rfl⟩
    unfold State.codesStart
    rw [hc]
    split
    · exact .abort { s with codeLen := l, codeBits := c } .noTree 0 0 ⟨rfl, hf, fun _ b => { b with }⟩ rfl
        (fun _ => by decide) rfl
    · split <;> exact .turn ⟨rfl, rfl, fun _ b => { b with room := nofun, magic := nofun }⟩
  · exact .turn ⟨rfl, rfl, fun _ b => { b with room := nofun, magic := nofun }⟩
  · rename_i i p todo _
    rcases s.visitNode_cases i p todo with ⟨-, h⟩ | ⟨-, h⟩ <;> rw [h] <;>
      exact .turn ⟨rfl, rfl, fun _ b => { b with room := nofun, magic := nofun }⟩
  · exact .next ‹_› rfl

/-- The HDR_WRITE phase. -/
theorem hdrWriteStep_move {s t : State} (h : hdrWriteStep s = .next t) : s.BlockMove .hdrWrite t := by
  unfold hdrWriteStep at h
  split at h <;> cases h
  · have hf : seqFits .hdrWrite s.seq = true := by rw [‹s.seq = _›]; rfl
    unfold State.hdrWriteStart
    split
    · exact .abort s .noTree 0 0 ⟨rfl, hf, fun _ b => b⟩ rfl (fun _ => by decide) rfl
    · exact .turn ⟨rfl, rfl, fun _ b => { b with room := nofun, magic := nofun }⟩
  · rename_i b bits todo _
    generalize h : s.writeBit b = u
    obtain ⟨⟨l, n, w, c, rfl⟩, hb⟩ := State.writeList_turn (bits := [b]) h
    exact .turn ⟨rfl, rfl, fun hp b => { hb (fun h => by simp [hp] at h) b with room := nofun, magic := nofun }⟩
  · rename_i i todo _
    rcases s.hdrNode_cases i todo with ⟨-, h⟩ | ⟨-, h⟩ <;> rw [h] <;>
      exact .turn ⟨rfl, rfl, fun _ b => { b with room := nofun, magic := nofun }⟩
  · exact .turn ⟨rfl, rfl, fun _ b => { b with room := nofun, magic := nofun }⟩
  · exact .next ‹_› rfl

/-- A code that is due after a read of the input: NoCode, or its bits are next. -/
theorem startCode_move {s u : State} (hf : seqFits .encode s.seq = true)
    (hu : ∃ p n r c, u = { s with inPos := p, inBytes := n, rbuf := r, rcnt := c }) (hb : s.Bounds → u.Bounds)
    (sym : Sym) (last : Bool) : s.BlockMove .encode (u.startCode sym last) := by
  obtain ⟨p, n, r, c, rfl⟩ := hu
  rcases State.startCode_cases { s with inPos := p, inBytes := n, rbuf := r, rcnt := c } sym last with
    ⟨-, h⟩ | ⟨-, h⟩ <;> rw [h]
  · exact .abort { s with inPos := p, inBytes := n, rbuf := r, rcnt := c } .noCode _ 0
      ⟨rfl, hf, fun _ => hb⟩ rfl (fun _ => by decide) rfl
  · exact .turn ⟨rfl, rfl, fun _ b => { hb b with room := nofun, magic := nofun }⟩

/-- The ENCODE phase. -/
theorem encodeStep_move {s t : State} (h : encodeStep s = .next t) : s.BlockMove .encode t := by
  unfold encodeStep at h
  split at h <;> cases h
  · exact .turn ⟨rfl, rfl, fun _ b =>
      { b with inPos := Nat.zero_le _, reader := Nat.zero_le _, room := nofun, magic := nofun }⟩
  · have hf : seqFits .encode s.seq = true := by rw [‹s.seq = _›]; rfl
    unfold State.encodeByte
    split <;> exact startCode_move hf (State.readBits_turn ‹_›).1 (State.readBits_turn ‹_›).2 _ _
  · rename_i b bits last _
    generalize h : s.writeBit b = u
    obtain ⟨⟨l, n, w, c, rfl⟩, hb⟩ := State.writeList_turn (bits := [b]) h
    exact .turn ⟨rfl, rfl, fun hp b => { hb (fun h => by simp [hp] at h) b with room := nofun, magic := nofun }⟩
  · split <;> exact .turn ⟨rfl, rfl, fun _ b => { b with room := nofun, magic := nofun }⟩
  · exact .next ‹_› rfl

/-- The FLUSH phase. -/
theorem flushStep_move {s t : State} (h : flushStep s = .next t) : s.BlockMove .flush t := by
  unfold flushStep at h
  split at h <;> cases h
  · have hf : seqFits .flush s.seq = true := by rw [‹s.seq = _›]; rfl
    split
    · exact .turn ⟨rfl, rfl, fun _ b => { b with room := nofun, magic := nofun }⟩
    · generalize h : s.writeBit false = u
      obtain ⟨⟨l, n, w, c, rfl⟩, hb⟩ := State.writeList_turn (bits := [false]) h
      exact .turn ⟨rfl, hf, fun hp b => hb (fun h => by simp [hp] at h) b⟩
  · exact .next ‹_› rfl

/-- The DECODE phase. -/
theorem decodeStep_move {s t : State} (h : decodeStep s = .next t) : s.BlockMove .decode t := by
  unfold decodeStep at h
  split at h <;> cases h
  · have hf : seqFits .decode s.seq = true := by rw [‹s.seq = _›]; rfl
    split
    · exact .abort s .noTree 0 0 ⟨rfl, hf, fun _ b => b⟩ rfl (fun _ => by decide) rfl
    · exact .turn ⟨rfl, rfl, fun _ b => { b with room := nofun, magic := nofun }⟩
  · have hf : seqFits .decode s.seq = true := by rw [‹s.seq = _›]; rfl
    unfold State.decodeSymbol
    dsimp only
    split
    · split <;> rename_i hr <;> obtain ⟨⟨p, n, r, c, rfl⟩, hb⟩ := State.readBit_turn hr
      · exact .abort { s with cur := s.root, inPos := p, inBytes := n, rbuf := r, rcnt := c } .truncatedBody _ 0
          ⟨rfl, hf, fun _ b => hb { b with }⟩ rfl (fun _ => by decide) rfl
      · exact .turn ⟨rfl, rfl, fun _ b => { hb { b with } with room := nofun, magic := nofun }⟩
    · exact .turn ⟨rfl, rfl, fun _ b => { b with room := nofun, magic := nofun }⟩
  · have hf : seqFits .decode s.seq = true := by rw [‹s.seq = _›]; rfl
    unfold State.decodeDescend
    split
    · split
      · exact .turn ⟨rfl, rfl, fun _ b => { b with room := nofun, magic := nofun }⟩
      · generalize h : s.writeBits 8 (s.nodeAt s.cur).sym = u
        obtain ⟨⟨l, n, w, c, rfl⟩, hb⟩ := State.writeList_turn h
        exact .turn ⟨rfl, rfl, fun hp b => { hb (fun _ => by simp) b with room := nofun, magic := nofun }⟩
    · split <;> rename_i hr <;> obtain ⟨⟨p, n, r, c, rfl⟩, hb⟩ := State.readBit_turn hr
      · exact .abort { s with inPos := p, inBytes := n, rbuf := r, rcnt := c } .truncatedBody _ 0
          ⟨rfl, hf, fun _ => hb⟩ rfl (fun _ => by decide) rfl
      · exact .turn ⟨rfl, hf, fun _ b => { hb b with }⟩
  · exact .next ‹_› rfl

end Sys2Proof.Machine
end

section
/-! SUPPORT. Node memory, the leaves and the merges of the TREE phase, the header tokens; the moves of the two phases
that build a tree, and the move of a step of the block. -/

namespace Sys2Proof.Machine

/-! ### Node memory -/

/-- What a read of node memory finds after a write within it. -/
theorem State.nodeAt_setNode {s : State} {i : NodeIdx} (hi : i.toNat < 513) (n : Node) (j : NodeIdx) :
    (s.setNode i n).nodeAt j = if j = i then n else s.nodeAt j := by
  unfold State.nodeAt
  rw [State.setNode_node, Vector.getElem?_setIfInBounds]
  by_cases h : j = i
  · subst h; simp [hi]
  · have : i.toNat ≠ j.toNat := fun e => h (BitVec.eq_of_toNat_eq e.symm)
    simp [h, this]

/-- What a read of node memory finds after the next free entry is taken. -/
theorem State.nodeAt_allocNode {s : State} (hn : s.nodes.toNat < 513) (n : Node) (j : NodeIdx) :
    (s.allocNode n).nodeAt j = if j = s.nodes then n else s.nodeAt j :=
  State.nodeAt_setNode hn n j

/-- The next index, within node memory. -/
theorem NodeIdx.toNat_succ {i : NodeIdx} (h : i.toNat < 513) : (i + 1).toNat = i.toNat + 1 := by
  rw [BitVec.toNat_add]; simp; omega

/-- Below the next index lie an index and those below it. -/
theorem NodeIdx.lt_succ {i j : NodeIdx} (h : i.toNat < 513) : j < i + 1 ↔ j = i ∨ j < i := by
  rw [BitVec.lt_def, BitVec.lt_def, NodeIdx.toNat_succ h, ← BitVec.toNat_inj]; omega

/-! ### The leaves of a forest -/

/-- The leaves of the TREE phase as they are made: PQ holds the entries 0 to NODES-1, and all are leaves
(42_tree_builder.md rule R160). -/
structure State.Seeded (s : State) : Prop where
  queue : s.pq = (List.range s.nodes.toNat).map (BitVec.ofNat 10)
  leaves : ∀ p, p < s.nodes → (s.nodeAt p).leaf = true

/-- Another leaf. -/
theorem State.Seeded.seedLeaf {s : State} (h : s.Seeded) (hn : s.nodes.toNat < 513) (sym : Nat) (count : Word) :
    (s.seedLeaf sym count).Seeded := by
  constructor
  · show s.pq ++ [s.nodes] = (List.range (s.nodes + 1).toNat).map (BitVec.ofNat 10)
    rw [NodeIdx.toNat_succ hn, List.range_succ, h.queue]; simp
  · intro p hp
    show ((s.allocNode (Node.mkLeaf (BitVec.ofNat 9 sym) (count.setWidth 41))).nodeAt p).leaf = true
    rw [State.nodeAt_allocNode hn]
    split
    · rfl
    · exact h.leaves p (((NodeIdx.lt_succ hn).mp hp).resolve_left ‹_›)

/-- The leaves from a symbol on, while node memory has room for one a symbol. -/
theorem seedFrom_seeded {counts : List Word} {sym : Nat} {s : State} (h : s.Seeded)
    (hn : s.nodes.toNat + counts.length ≤ 513) :
    (seedFrom counts sym s).Seeded ∧ (seedFrom counts sym s).nodes.toNat ≤ s.nodes.toNat + counts.length := by
  induction counts generalizing sym s with
  | nil => exact ⟨h, Nat.le_refl _⟩
  | cons c rest ih =>
    rw [List.length_cons] at hn ⊢
    unfold seedFrom
    split
    · obtain ⟨h1, h2⟩ := ih (sym := sym + 1) h (by omega)
      exact ⟨h1, by omega⟩
    · have hN : (s.seedLeaf sym c).nodes.toNat = s.nodes.toNat + 1 := NodeIdx.toNat_succ (by omega)
      obtain ⟨h1, h2⟩ := ih (sym := sym + 1) (h.seedLeaf (by omega) sym c) (by omega)
      exact ⟨h1, by omega⟩

/-- What the TREE phase starts with: the leaves, at most one a symbol (42_tree_builder.md rule R160). -/
theorem State.seedLeaves_seeded (s : State) :
    s.seedLeaves.Seeded ∧ ∃ v n q, s.seedLeaves = { s with node := v, nodes := n, root := 0, pq := q } ∧
      n.toNat ≤ 257 ∧ q.length = n.toNat := by
  have h0 : State.Seeded { s with nodes := 0, root := 0, pq := [] } :=
    ⟨rfl, fun p hp => absurd (BitVec.lt_def.mp hp) (Nat.not_lt_zero _)⟩
  have hlen : s.freq.toList.length = 257 := by simp
  obtain ⟨hs, hn⟩ := seedFrom_seeded (counts := s.freq.toList) (sym := 0) h0 (by simp)
  obtain ⟨v, n, q, he⟩ := seedFrom_frame s.freq.toList 0 { s with nodes := 0, root := 0, pq := [] }
  have hq := congrArg List.length hs.queue
  rw [he] at hn hq
  refine ⟨hs, v, n, q, he, le_of_le_of_eq hn (by rw [hlen]; rfl), by simpa using hq⟩

/-- The two nodes a merge takes out of PQ, and what is left. -/
theorem State.extractMin_perm (s : State) (i : NodeIdx) (rest : List NodeIdx) :
    (i :: rest).Perm ((s.extractMin i rest).1 :: (s.extractMin i rest).2) :=
  List.perm_cons_erase (s.pqLeast_mem i rest)

/-- A turn of the merge loop takes the last entry of PQ as the root, or merges two of its entries. -/
theorem State.mergeStep_perm {s t : State} (h : s.mergeStep = .next t) :
    (∃ r, s.pq = [r] ∧ t = { s with root := r, pq := [], seq := .phaseEnd }) ∨
    ∃ a b rest, s.pq.Perm (a :: b :: rest) ∧ t = s.mergePair a b rest := by
  rcases State.mergeStep_cases h with h | ⟨i, j, rest, a, i', rest', hq, he, ht⟩
  · exact .inl h
  · refine .inr ⟨a, _, _, ?_, ht⟩
    have h1 := s.extractMin_perm i (j :: rest)
    rw [he, ← hq] at h1
    exact h1.trans ((s.extractMin_perm i' rest').cons a)

/-! ### The moves of the phases that build a tree -/

/-- The TREE phase. -/
theorem treeStep_move {s t : State} (h : treeStep s = .next t) : s.BlockMove .tree t := by
  unfold treeStep at h
  split at h
  · rename_i hs
    cases h
    have hf : seqFits .tree s.seq = true := by rw [hs]; rfl
    obtain ⟨-, v, n, q, he, hn, hq⟩ := s.seedLeaves_seeded
    rw [he]
    have hn' : n.toNat ≤ 513 := by omega
    split
    · exact .abort { s with node := v, nodes := n, root := 0, pq := q } .emptyFrequencySet 0 0
        ⟨rfl, hf, fun _ b => { b with nodes := hn', room := fun _ h => nomatch hs.symm.trans h }⟩ rfl
        (fun _ => by decide) rfl
    · have hne : q ≠ [] := fun h => ‹¬ _› (List.isEmpty_iff.mpr h)
      have hroom : n.toNat + q.length ≤ 514 := by omega
      exact .turn ⟨rfl, rfl, fun _ b => { b with nodes := hn', room := fun _ _ => ⟨hne, hroom⟩, magic := nofun }⟩
  · have hf : seqFits .tree s.seq = true := by rw [‹s.seq = _›]; rfl
    rcases State.mergeStep_perm h with ⟨r, hr, rfl⟩ | ⟨a, b, rest, hp, rfl⟩
    · exact .turn ⟨rfl, rfl, fun _ b => { b with room := nofun, magic := nofun }⟩
    · have hl : s.pq.length = rest.length + 2 := hp.length_eq
      refine .turn ⟨rfl, hf, fun ht bd => ?_⟩
      obtain ⟨-, hr⟩ := bd.room ht ‹_›
      have hn : (s.nodes + 1).toNat = s.nodes.toNat + 1 := NodeIdx.toNat_succ (by omega)
      exact { bd with
        nodes := by show (s.nodes + 1).toNat ≤ 513; omega
        room := fun _ _ => ⟨by simp [State.mergePair], by
          show (s.nodes + 1).toNat + (rest ++ [s.nodes]).length ≤ 514
          rw [hn, List.length_append, List.length_singleton]; omega⟩ }
  · cases h; exact .next ‹_› rfl
  · cases h

/-- A complete header token is one of the two. -/
theorem exec_token {bits rest : List Bool} {i : Instr} {s t : State} (h : decodeToken bits = .ok (i, rest))
    (he : exec i s = .next t) :
    (t = s.headerNode (Node.mkInternal 0 0 0) fun i => [⟨i, .left⟩, ⟨i, .right⟩]) ∨
    ∃ sym, t = s.headerNode (Node.mkLeaf sym 0) fun _ => [] := by
  unfold decodeToken at h
  split at h
  · cases h; cases he; exact .inl rfl
  · cases h; cases he; exact .inr ⟨_, rfl⟩
  · cases h

/-- A complete header token: HeaderOverflow, or a node more. -/
theorem State.headerNode_move {s : State} (hf : seqFits .hdrRead s.seq = true) (n : Node)
    (opens : NodeIdx → List Slot) : s.BlockMove .hdrRead (s.headerNode n opens) := by
  rcases s.headerNode_cases n opens with ⟨-, h⟩ | ⟨hn, h⟩ <;> rw [h]
  · exact .abort s .headerOverflow _ 0 ⟨rfl, hf, fun _ b => b⟩ rfl (fun _ => by decide) rfl
  · obtain ⟨v, hv⟩ := (s.allocNode n).linkChild_frame s.nodes s.pendingSlots.head?
    have bound : s.Bounds → (s.nodes + 1).toNat ≤ 513 := fun b => by
      have : s.nodes.toNat ≠ 513 := fun e => hn (BitVec.eq_of_toNat_eq e)
      have := b.nodes
      rw [BitVec.toNat_add]; simp; omega
    rw [hv]
    rcases State.afterToken_cases { s.allocNode n with node := v } (opens s.nodes ++ s.pendingSlots.tail) with
      ⟨-, h⟩ | ⟨-, h⟩ <;> rw [h]
    · exact .turn ⟨rfl, rfl, fun _ b => { b with nodes := bound b, room := nofun, magic := nofun }⟩
    · exact .turn ⟨rfl, rfl, fun _ b => { b with nodes := bound b, room := nofun, magic := nofun }⟩

/-- The HDR_READ phase. -/
theorem hdrReadStep_move {s t : State} (h : hdrReadStep s = .next t) : s.BlockMove .hdrRead t := by
  unfold hdrReadStep at h
  split at h
  · cases h
    exact .turn ⟨rfl, rfl, fun _ b => { b with
      nodes := Nat.zero_le _, room := nofun, magic := fun k v h => by cases h; decide }⟩
  · rename_i k v hq
    have hf : seqFits .hdrRead s.seq = true := by rw [hq]; rfl
    cases h
    rcases s.magicBit_cases k v with ⟨u, hr, h⟩ | ⟨x, u, hr, ⟨hk, h⟩ | ⟨-, -, h⟩ | ⟨-, -, h⟩⟩ <;> rw [h] <;>
      obtain ⟨⟨p, n, r, c, rfl⟩, hb⟩ := State.readBit_turn hr
    · refine .abort { s with inPos := p, inBytes := n, rbuf := r, rcnt := c } .badMagic _ _
        ⟨rfl, hf, fun _ => hb⟩ rfl (fun b => ⟨?_, fun h => absurd rfl h⟩) rfl
      have := b.magic k v hq
      rw [BitVec.le_def, BitVec.toNat_ofNat]; simp; omega
    · exact .turn ⟨rfl, rfl, fun _ b => { hb b with
        room := nofun, magic := fun k' v' h => by cases h; omega }⟩
    · exact .turn ⟨rfl, rfl, fun _ b => { hb b with room := nofun, magic := nofun }⟩
    · exact .abort { s with inPos := p, inBytes := n, rbuf := r, rcnt := c } .badMagic _ _
        ⟨rfl, hf, fun _ => hb⟩ rfl (fun _ => by decide) rfl
  · rename_i bits slots hq
    have hf : seqFits .hdrRead s.seq = true := by rw [hq]; rfl
    split at h
    · rcases exec_token ‹_› h with rfl | ⟨sym, rfl⟩ <;> exact State.headerNode_move hf _ _
    · cases h
      rcases s.tokenBit_cases bits slots with ⟨u, hr, h⟩ | ⟨x, u, hr, h⟩ <;> rw [h] <;>
        obtain ⟨⟨p, n, r, c, rfl⟩, hb⟩ := State.readBit_turn hr
      · exact .abort { s with inPos := p, inBytes := n, rbuf := r, rcnt := c } .truncatedHeader _ 0
          ⟨rfl, hf, fun _ => hb⟩ rfl (fun _ => by decide) rfl
      · exact .turn ⟨rfl, rfl, fun _ b => { hb b with room := nofun, magic := nofun }⟩
  · cases h; exact .next ‹_› rfl
  · cases h

/-- What a step of the block can be while a command runs. -/
theorem phaseStep_move {s t : State} (hp : s.phase ≠ .idle) (h : phaseStep s = .next t) : s.BlockMove s.phase t := by
  unfold phaseStep at h
  split at h <;> rename_i he <;> rw [he]
  · exact absurd he hp
  · exact countStep_move h
  · exact treeStep_move h
  · exact codesStep_move h
  · exact hdrWriteStep_move h
  · exact encodeStep_move h
  · exact flushStep_move h
  · exact hdrReadStep_move h
  · exact decodeStep_move h

/-- A step of the block: nothing, in reset or while IDLE, or the step of the running phase. -/
theorem blockStep_cases {s t : State} (h : blockStep s = .next t) :
    t = s ∨ (s.rstN = true ∧ s.phase ≠ .idle ∧ phaseStep s = .next t) := by
  unfold blockStep at h
  split at h
  · by_cases hp : s.phase = .idle
    · simp only [phaseStep, hp] at h
      cases h
      exact .inl rfl
    · exact .inr ⟨‹_›, hp, h⟩
  · cases h
    exact .inl rfl

end Sys2Proof.Machine
end

section
/-! SUPPORT. The invariant of every run: the rows of phases, the invariant after each operation, after a move of the
block and after a move of the host; and O13. -/

namespace Sys2Proof.Machine

/-! ### Rows of phases -/

/-- The phase after one of a row is the row's next, if it has one (10_state.md rule R23). -/
theorem phaseAfter_eq_getElem? {p : Phase} {row : List Phase} (h : p ∈ row) :
    ∃ k, row[k]? = some p ∧ phaseAfter p row = row[k + 1]? := by
  induction row with
  | nil => cases h
  | cons q row ih =>
    by_cases hq : q = p
    · refine ⟨0, by simp [hq], ?_⟩
      cases row <;> simp [phaseAfter, hq]
    · obtain ⟨k, hk, ha⟩ := ih ((List.mem_cons.mp h).resolve_left fun e => hq e.symm)
      refine ⟨k + 1, by simpa using hk, ?_⟩
      cases row with
      | nil => simp at hk
      | cons r rest => simpa [phaseAfter, hq] using ha

/-- No row holds IDLE (10_state.md rule R23). -/
theorem idle_notMem_phaseRow : ∀ op : BitVec 4, Phase.idle ∉ phaseRow op := by decide

/-- A command that has a row starts in its first phase. -/
theorem head_mem_phaseRow : ∀ op : BitVec 4, (phaseRow op).headD .idle ≠ .idle →
    (phaseRow op).headD .idle ∈ phaseRow op := by decide

/-- The commands that start in DECODE or lead there from HDR_READ clear the writer (47_control.md rule R252). -/
theorem clearsWriter_of_decode : ∀ op : BitVec 4, (phaseRow op).headD .idle = .decode ∨
    ((phaseRow op).headD .idle = .hdrRead ∧ op = 2) → clearsWriter op = true := by decide

/-- DECODE follows HDR_READ alone, in DECOMPRESS (10_state.md rule R23). -/
theorem phaseAfter_decode {p : Phase} {op : BitVec 4} (h : phaseAfter p (phaseRow op) = some .decode) :
    p = .hdrRead ∧ op = 2 := by
  revert op
  cases p <;> decide

/-- HDR_READ follows no phase (10_state.md rule R23). -/
theorem phaseAfter_ne_hdrRead {p : Phase} {op : BitVec 4} : phaseAfter p (phaseRow op) ≠ some .hdrRead := by
  revert op
  cases p <;> decide

/-- The OP of a command word. -/
@[simp] theorem cmdOp_opWord : ∀ op : BitVec 4, cmdOp (opWord op) = op := by decide

/-! ### The invariant after an operation -/

/-- An empty ERR_CODE has its reserved bits 0 (10_state.md rule R28). -/
theorem errReserved_zero : (0 : Word).extractLsb' 14 18 = 0 ∧ (0 : Word).extractLsb' 4 4 = 0 := by decide

/-- An empty ERR_CODE is in range (60_exceptions.md rule R270). -/
theorem errRange_zero : errKind 0 ≤ 9 ∧ errBits 0 ≤ 32 ∧ (errKind 0 ≠ 1 → errBits 0 = 0) := by decide

/-- A command's start keeps the invariant (47_control.md rules R251, R252). -/
theorem State.Inv.commandStart {s : State} (hi : s.Inv) (hr : s.rstN = true) (op : BitVec 4) :
    (({ s with lastCmd := opWord op } : State).commandStart op).Inv := by
  rw [State.commandStart_eq]
  exact {
    nodesBound := hi.nodesBound
    readerBound := by
      dsimp only
      split
      · decide
      · exact hi.readerBound
    writerBound := by
      dsimp only
      split
      · decide
      · exact hi.writerBound
    inPosBound := hi.inPosBound
    oneOutcome := nofun
    busyClear := fun _ => ⟨rfl, rfl, rfl, rfl⟩
    doneClear := nofun
    errNamed := nofun
    idleRest := fun _ => ⟨rfl, rfl, rfl⟩
    errReserved := errReserved_zero
    errRange := errRange_zero
    seqFits := by cases (phaseRow op).headD .idle <;> rfl
    rowFits := fun h => by
      rw [cmdOp_opWord]
      exact head_mem_phaseRow op (State.busy_eq_true.mp h)
    decodeAligned := fun h => by
      rw [cmdOp_opWord] at h
      exact if_pos (clearsWriter_of_decode op h)
    mergeRoom := nofun
    magicRoom := nofun
    resetHeld := fun h => nomatch hr.symm.trans h }

/-- The ERR_CODE word of an abort, field by field (60_exceptions.md rule R280). -/
theorem errWord_fields (e : Error) (nbits : BitVec 6) :
    errKind (errWord e nbits) = e.code ∧ errBits (errWord e nbits) = nbits ∧
      (errWord e nbits).extractLsb' 14 18 = 0 ∧ (errWord e nbits).extractLsb' 4 4 = 0 := by
  revert nbits
  cases e <;> decide

/-- An abort out of reset keeps the invariant (60_exceptions.md rules R280, R281). -/
theorem State.abort_inv {u : State} (hr : u.rstN = true) (hn : u.nodes.toNat ≤ 513) (hp : u.inPos ≤ u.inData.length)
    {e : Error} {info : Word} {nbits : BitVec 6} (hk : nbits ≤ 32 ∧ (e ≠ .badMagic → nbits = 0)) :
    (u.abort e info nbits).Inv := by
  obtain ⟨h1, h2, h3, h4⟩ := errWord_fields e nbits
  exact {
    nodesBound := by
      rw [State.abort_nodes]
      split
      · decide
      · exact hn
    readerBound := Nat.zero_le 8
    writerBound := Nat.one_pos
    inPosBound := hp
    oneOutcome := nofun
    busyClear := nofun
    doneClear := nofun
    errNamed := fun _ => by rw [State.abort_errCode, h1]; cases e <;> decide
    idleRest := fun _ => ⟨rfl, rfl, rfl⟩
    errReserved := ⟨h3, h4⟩
    errRange := by
      rw [State.abort_errCode, h1, h2]
      exact ⟨by cases e <;> decide, hk.1, fun h => hk.2 fun he => h (he ▸ rfl)⟩
    seqFits := rfl
    rowFits := nofun
    decodeAligned := nofun
    mergeRoom := nofun
    magicRoom := nofun
    resetHeld := fun h => nomatch hr.symm.trans h }

/-- The move to the next phase keeps the invariant (10_state.md rule R23, 60_exceptions.md rule R283). -/
theorem State.Inv.nextPhase {s : State} (hi : s.Inv) (hr : s.rstN = true) (hp : s.phase ≠ .idle) :
    s.nextPhase.Inv := by
  obtain ⟨hd, he, hc, hf⟩ := hi.busyClear (State.busy_eq_true.mpr hp)
  rcases s.nextPhase_cases with ⟨p, ha, h⟩ | ⟨-, h⟩ <;> rw [h]
  · have hmem : p ∈ phaseRow (cmdOp s.lastCmd) := by
      obtain ⟨k, -, hk⟩ := phaseAfter_eq_getElem? (hi.rowFits (State.busy_eq_true.mpr hp))
      exact List.mem_of_getElem? (hk.symm.trans ha)
    have hidle : p ≠ .idle := fun h => idle_notMem_phaseRow _ (h ▸ hmem)
    exact { hi with
      busyClear := fun _ => ⟨hd, he, hc, hf⟩
      idleRest := fun h => absurd (State.busy_eq_false.mp h) hidle
      seqFits := by cases p <;> rfl
      rowFits := fun _ => hmem
      decodeAligned := fun h => by
        rcases h with h | ⟨h, -⟩ <;> subst h
        · exact hi.decodeAligned (.inr (phaseAfter_decode ha))
        · exact absurd ha phaseAfter_ne_hdrRead
      mergeRoom := nofun
      magicRoom := nofun
      resetHeld := fun h => nomatch hr.symm.trans h }
  · exact { hi with
      oneOutcome := fun h => by simp [he] at h
      busyClear := nofun
      doneClear := fun _ => hc
      idleRest := fun _ => ⟨rfl, rfl, rfl⟩
      seqFits := rfl
      rowFits := nofun
      decodeAligned := nofun
      mergeRoom := nofun
      magicRoom := nofun
      resetHeld := fun h => nomatch hr.symm.trans h }

/-- A turn of the running phase's rule keeps the invariant. -/
theorem State.Inv.turn {s u : State} (hi : s.Inv) (hr : s.rstN = true) (hp : s.phase ≠ .idle)
    (ht : s.Turn s.phase u) : u.Inv := by
  have b := ht.bounds rfl hi.bounds
  have hq := ht.fits
  have hb := State.busy_eq_true.mpr hp
  obtain ⟨hd, he, hc, hf⟩ := hi.busyClear hb
  have hphase : u.phase = s.phase := by rw [ht.writes, State.phaseWrites_phase]
  have hcmd : u.lastCmd = s.lastCmd := by rw [ht.writes, State.phaseWrites_lastCmd]
  have hdone : u.done = false := by rw [ht.writes, State.phaseWrites_done, hd]
  have herr : u.err = false := by rw [ht.writes, State.phaseWrites_err, he]
  have hcode : u.errCode = 0 := by rw [ht.writes, State.phaseWrites_errCode, hc]
  have hinfo : u.errInfo = 0 := by rw [ht.writes, State.phaseWrites_errInfo, hf]
  have hrst : u.rstN = true := by rw [ht.writes, State.phaseWrites_rstN, hr]
  exact {
    nodesBound := b.nodes
    readerBound := b.reader
    writerBound := b.writer
    inPosBound := b.inPos
    oneOutcome := fun h => by simp [hdone] at h
    busyClear := fun _ => ⟨hdone, herr, hcode, hinfo⟩
    doneClear := fun _ => hcode
    errNamed := fun h => by simp [herr] at h
    idleRest := fun h => absurd (hphase ▸ State.busy_eq_false.mp h) hp
    errReserved := hcode ▸ errReserved_zero
    errRange := hcode ▸ errRange_zero
    seqFits := hphase ▸ hq
    rowFits := fun _ => by rw [hphase, hcmd]; exact hi.rowFits hb
    decodeAligned := b.aligned
    mergeRoom := b.room
    magicRoom := b.magic
    resetHeld := fun h => nomatch hrst.symm.trans h }

/-- A step of the block keeps the invariant. -/
theorem State.Inv.blockStep {s t : State} (hi : s.Inv) (h : blockStep s = .next t) : t.Inv := by
  rcases blockStep_cases h with rfl | ⟨hr, hp, h⟩
  · exact hi
  · rcases phaseStep_move hp h with ⟨-, rfl⟩ | ht | ⟨u, e, info, k, ht, -, hk, rfl⟩
    · exact hi.nextPhase hr hp
    · exact hi.turn hr hp ht
    · have hu := hi.turn hr hp ht
      exact State.abort_inv (by rw [ht.writes, State.phaseWrites_rstN, hr]) hu.nodesBound hu.inPosBound (hk hi.bounds)

/-! ### The invariant after a move of the host -/

/-- What a CMD word does: while BUSY it sets OVERRUN; while idle it is latched, and a command starts, or nothing more
happens, or it is refused as illegal (47_control.md rules R250 to R254). -/
theorem exec_decodeCmd {w : Word} {s t : State} (h : exec (decodeCmd w) s = .next t) :
    (s.phase ≠ .idle ∧ t = { s with overrun := true }) ∨
    (s.phase = .idle ∧
      ((∃ op, t = ({ s with lastCmd := opWord op } : State).commandStart op) ∨
        ∃ v, t = { s with lastCmd := v } ∨ t = ({ s with lastCmd := v } : State).illegalCommand v)) := by
  have key : ∃ v f, exec (decodeCmd w) s = .next (s.cmdWrite v f) ∧
      ((∃ op, v = opWord op ∧ f = fun t => t.commandStart op) ∨ f = id ∨ f = fun t => t.illegalCommand v) := by
    obtain ⟨h1, h2, h3⟩ := decodeCmd_cases w
    cases hd : decodeCmd w with
    | hdrInternal => exact absurd hd h1
    | hdrLeaf sym => exact absurd hd (h2 sym)
    | softReset v => exact absurd hd (h3 v)
    | nop => exact ⟨_, _, rfl, .inr (.inl rfl)⟩
    | illegalOpAB => exact ⟨_, _, rfl, .inr (.inr rfl)⟩
    | illegalOpCF => exact ⟨_, _, rfl, .inr (.inr rfl)⟩
    | illegalReservedBits => exact ⟨_, _, rfl, .inr (.inr rfl)⟩
    | _ => exact ⟨_, _, rfl, .inl ⟨_, rfl, rfl⟩⟩
  obtain ⟨v, f, he, hf⟩ := key
  rw [he] at h
  cases h
  by_cases hp : s.phase = .idle
  · rw [State.cmdWrite_idle (State.busy_eq_false.mpr hp)]
    refine .inr ⟨hp, ?_⟩
    rcases hf with ⟨op, rfl, rfl⟩ | rfl | rfl
    · exact .inl ⟨op, rfl⟩
    · exact .inr ⟨v, .inl rfl⟩
    · exact .inr ⟨v, .inr rfl⟩
  · exact .inl ⟨hp, State.cmdWrite_busy (State.busy_eq_true.mpr hp) _ _⟩

/-- A block in its reset state meets the invariant, whatever the channels hold (10_state.md rule R69). -/
theorem State.resetBlock_inv {s : State} (hp : s.inPos ≤ s.inData.length) : s.resetBlock.Inv where
  nodesBound := Nat.zero_le 513
  readerBound := Nat.zero_le 8
  writerBound := Nat.one_pos
  inPosBound := hp
  oneOutcome := nofun
  busyClear := nofun
  doneClear := nofun
  errNamed := nofun
  idleRest := fun _ => ⟨rfl, rfl, rfl⟩
  errReserved := errReserved_zero
  errRange := errRange_zero
  seqFits := rfl
  rowFits := nofun
  decodeAligned := nofun
  mergeRoom := nofun
  magicRoom := nofun
  resetHeld := fun _ => rfl

/-- A write of STATUS keeps the invariant: it clears flags, and a command's are clear (10_state.md rule R27). -/
theorem State.Inv.clearStatus {s : State} (hi : s.Inv) (hr : s.rstN = true) (v : Word) : (s.clearStatus v).Inv :=
  { hi with
    oneOutcome := fun ⟨hd, he⟩ => hi.oneOutcome ⟨Bool.and_elim_left hd, Bool.and_elim_left he⟩
    busyClear := fun h => by
      obtain ⟨hd, he, hc⟩ := hi.busyClear h
      exact ⟨by simp [hd], by simp [he], hc⟩
    doneClear := fun hd => hi.doneClear (Bool.and_elim_left hd)
    errNamed := fun he => hi.errNamed (Bool.and_elim_left he)
    resetHeld := fun h => nomatch hr.symm.trans h }

/-- A write of a register keeps the invariant. -/
theorem State.Inv.csrWrite {s t : State} (hi : s.Inv) (hr : s.rstN = true) {r : Csr} {v : Word}
    (h : csrWrite r v s = .next t) : t.Inv := by
  have hheld : ∀ {p : Prop}, s.rstN = false → p := fun h => nomatch hr.symm.trans h
  rcases csrWrite_cases h with ⟨-, h⟩ | ⟨-, -, rfl⟩ | ⟨-, rfl⟩ | ⟨-, rfl⟩ | ⟨-, rfl⟩ | ⟨-, rfl⟩ | ⟨-, rfl⟩ |
    ⟨-, rfl⟩ | rfl
  · rcases exec_decodeCmd h with ⟨-, rfl⟩ | ⟨hp, ⟨op, rfl⟩ | ⟨w, rfl | rfl⟩⟩
    · exact { hi with resetHeld := hheld }
    · exact hi.commandStart hr op
    · exact { hi with
        rowFits := fun h => absurd hp (State.busy_eq_true.mp h)
        decodeAligned := fun h => by simp [hp] at h
        resetHeld := hheld }
    · exact State.abort_inv (u := ({ s with lastCmd := w } : State).clearRecord) (nbits := 0) hr hi.nodesBound
        hi.inPosBound ⟨by decide, fun _ => rfl⟩
  · exact State.resetBlock_inv hi.inPosBound
  · exact hi.clearStatus hr v
  · exact { hi with resetHeld := hheld }
  · exact { hi with resetHeld := hheld }
  · exact { hi with resetHeld := hheld }
  · exact { hi with resetHeld := hheld }
  · unfold State.writeFreqData
    split
    · exact { hi with resetHeld := hheld }
    · exact { hi with resetHeld := hheld }
  · exact hi

/-- Taking a move off the agenda keeps the invariant. -/
theorem State.Inv.withAgenda {s : State} (hi : s.Inv) (rest : List Move) : ({ s with agenda := rest } : State).Inv :=
  { hi with resetHeld := fun h => congrArg (fun x : State => { x with agenda := rest }) (hi.resetHeld h) }

/-- Every step keeps the invariant. -/
theorem State.Inv.step {s t : State} (hi : s.Inv) (h : step s = .next t) : t.Inv := by
  rcases step_cases h with ⟨rest, h⟩ | ⟨rest, off, r, hr, -, rfl⟩ | ⟨rest, off, r, v, hr, -, h⟩ |
    ⟨rest, bytes, -, rfl⟩ | ⟨rest, rfl⟩ | ⟨rest, r, rfl⟩
  · exact (hi.withAgenda rest).blockStep h
  · obtain ⟨x, d, h⟩ := State.csrRead_frame { s with agenda := rest } off r
    rw [h]
    exact { hi with resetHeld := fun h => nomatch hr.symm.trans h }
  · exact (hi.withAgenda rest).csrWrite hr h
  · exact { hi with
      inPosBound := Nat.zero_le _
      resetHeld := fun h => congrArg (fun x : State => { x with agenda := rest, inData := bytes, inPos := 0 })
        (hi.resetHeld h) }
  · exact hi.withAgenda rest
  · exact State.resetBlock_inv (s := { s with agenda := rest, rstN := r }) hi.inPosBound

/-- Settles O13: every clause is about the control registers, which only the named operations write, or about what the
running phase writes, which its turns keep within bounds. -/
theorem invKept : Obligations.InvKept := fun _ _ hi h => hi.step h

end Sys2Proof.Machine
end

section
/-! SUPPORT. The tree invariant: the operations that leave the tree alone, the leaves and merges of the TREE phase, the
header tokens of HDR_READ; and O14. -/

namespace Sys2Proof.Machine

/-! ### What the tree predicates read -/

theorem State.childOf_congr {s t : State} (hnode : t.node = s.node) : t.childOf = s.childOf := by
  funext p side
  cases side <;> simp [State.childOf, State.nodeAt, hnode]

theorem State.isInternal_congr {s t : State} (hnode : t.node = s.node) (hnodes : t.nodes = s.nodes) :
    t.isInternal = s.isInternal := by
  funext p
  simp [State.isInternal, State.nodeAt, hnode, hnodes]

/-- A tree stands on NODE, NODES and ROOT alone. -/
theorem State.IsTree.congr {s t : State} (h : s.IsTree) (hnode : t.node = s.node) (hnodes : t.nodes = s.nodes)
    (hroot : t.root = s.root) : t.IsTree := by
  obtain ⟨h1, h2, h3, h4, h5⟩ := h
  constructor <;> simpa only [State.childOf_congr hnode, State.isInternal_congr hnode hnodes, hnodes, hroot]

/-- A forest stands on NODE, NODES and PQ alone. -/
theorem State.IsForest.congr {s t : State} (h : s.IsForest) (hnode : t.node = s.node) (hnodes : t.nodes = s.nodes)
    (hpq : t.pq = s.pq) : t.IsForest := by
  obtain ⟨h1, h2, h3, h4, h5⟩ := h
  constructor <;> simpa only [State.childOf_congr hnode, State.isInternal_congr hnode hnodes, hnodes, hpq]

/-- A partial tree stands on NODE and NODES alone. -/
theorem State.IsPartial.congr {s t : State} {slots : List Slot} (h : s.IsPartial slots) (hnode : t.node = s.node)
    (hnodes : t.nodes = s.nodes) : t.IsPartial slots := by
  obtain ⟨h1, h2, h3, h4, h5⟩ := h
  constructor <;> simpa only [State.childOf_congr hnode, State.isInternal_congr hnode hnodes, hnodes]

/-- The tree invariant stands on the tree, PQ and the sequencer's position alone. -/
theorem State.TreeInv.congr {s t : State} (h : s.TreeInv) (hnode : t.node = s.node) (hnodes : t.nodes = s.nodes)
    (hroot : t.root = s.root) (hpq : t.pq = s.pq) (hphase : t.phase = s.phase) (hseq : t.seq = s.seq) : t.TreeInv where
  settled := by
    rw [hphase, hnodes]
    exact fun h1 h2 h3 => (h.settled h1 h2 h3).congr hnode hnodes hroot
  built := by
    rw [hphase, hseq, hnodes]
    exact fun h1 h2 h3 => (h.built h1 h2 h3).congr hnode hnodes hroot
  merging := by
    rw [hphase, hseq]
    exact fun h1 h2 => (h.merging h1 h2).congr hnode hnodes hpq
  readingMagic := by
    rw [hphase, hseq, hnodes]
    exact h.readingMagic
  parsing := by
    rw [hphase, hseq]
    exact fun h1 bits slots h2 => (h.parsing h1 bits slots h2).congr hnode hnodes

/-! ### Where a tree stands -/

/-- Outside the phases that build a tree, and at their end, a tree stands whenever NODES is not 0. -/
theorem State.TreeInv.standing {s : State} (h : s.TreeInv) (hq : s.phase.buildsTree = true → s.seq = .phaseEnd)
    (hn : s.nodes ≠ 0) : s.IsTree := by
  by_cases hp : s.phase = .tree ∨ s.phase = .hdrRead
  · exact h.built hp (hq (Phase.buildsTree_eq_true.mpr hp)) hn
  · rw [not_or] at hp
    exact h.settled hp.1 hp.2 hn

/-- Where the sequencer's position claims nothing more, a tree that stands is all the tree invariant asks. -/
theorem State.treeInv_of_standing {t : State} (h : t.nodes ≠ 0 → t.IsTree)
    (hq : t.phase.buildsTree = true → t.seq = .start ∨ t.seq = .phaseEnd) : t.TreeInv where
  settled := fun _ _ => h
  built := fun _ _ => h
  merging := fun hp hs => by rcases hq (by rw [hp]; rfl) with h | h <;> rw [h] at hs <;> cases hs
  readingMagic := fun hp ⟨_, _, hs⟩ => by rcases hq (by rw [hp]; rfl) with h | h <;> rw [h] at hs <;> cases hs
  parsing := fun hp _ _ hs => by rcases hq (by rw [hp]; rfl) with h | h <;> rw [h] at hs <;> cases hs

/-- In the merge loop the forest is all the tree invariant asks. -/
theorem State.IsForest.treeInv {t : State} (h : t.IsForest) (hp : t.phase = .tree) (hs : t.seq = .merge) :
    t.TreeInv where
  settled := fun h => absurd hp h
  built := fun _ h => by rw [hs] at h; cases h
  merging := fun _ _ => h
  readingMagic := fun h => by rw [hp] at h; cases h
  parsing := fun h => by rw [hp] at h; cases h

/-- Between header tokens the partial tree is all the tree invariant asks. -/
theorem State.IsPartial.treeInv {t : State} {bits : List Bool} {slots : List Slot} (h : t.IsPartial slots)
    (hp : t.phase = .hdrRead) (hs : t.seq = .token bits slots) : t.TreeInv where
  settled := fun _ h => absurd hp h
  built := fun _ h => by rw [hs] at h; cases h
  merging := fun h => by rw [hp] at h; cases h
  readingMagic := fun _ ⟨_, _, h⟩ => by rw [hs] at h; cases h
  parsing := fun _ _ _ h' => by rw [hs] at h'; cases h'; exact h

/-- While the magic is read there is no tree, and that is all the tree invariant asks. -/
theorem State.treeInv_of_magic {t : State} {k : Nat} {v : Word} (hn : t.nodes = 0) (hp : t.phase = .hdrRead)
    (hs : t.seq = .magicIn k v) : t.TreeInv where
  settled := fun _ h => absurd hp h
  built := fun _ h => by rw [hs] at h; cases h
  merging := fun h => by rw [hp] at h; cases h
  readingMagic := fun _ _ => hn
  parsing := fun _ _ _ h => by rw [hs] at h; cases h

/-! ### A new entry of node memory -/

/-- The child of an entry on a side. -/
def Node.child (n : Node) : Side → NodeIdx
  | .left => n.left
  | .right => n.right

theorem State.childOf_eq (s : State) (p : NodeIdx) (side : Side) : s.childOf p side = (s.nodeAt p).child side := by
  cases side <;> rfl

section
variable {s : State} (hn : s.nodes.toNat < 513) (n : Node)
include hn

theorem State.isInternal_allocNode (p : NodeIdx) :
    (s.allocNode n).isInternal p ↔ (p = s.nodes ∧ n.leaf = false) ∨ s.isInternal p := by
  unfold State.isInternal
  rw [State.allocNode_nodes, NodeIdx.lt_succ hn, State.nodeAt_allocNode hn]
  by_cases h : p = s.nodes
  · subst h; simp
  · simp [h]

theorem State.childOf_allocNode {p : NodeIdx} (hp : p ≠ s.nodes) (side : Side) :
    (s.allocNode n).childOf p side = s.childOf p side := by
  rw [State.childOf_eq, State.childOf_eq, State.nodeAt_allocNode hn, if_neg hp]

theorem State.childOf_allocNode_self (side : Side) : (s.allocNode n).childOf s.nodes side = n.child side := by
  rw [State.childOf_eq, State.nodeAt_allocNode hn, if_pos rfl]

end

theorem State.isInternal.lt {s : State} {p : NodeIdx} (h : s.isInternal p) : p < s.nodes := h.1

theorem State.isInternal.ne_nodes {s : State} {p : NodeIdx} (h : s.isInternal p) : p ≠ s.nodes :=
  BitVec.ne_of_lt h.1

/-! ### The TREE phase -/

/-- The leaves are a forest of themselves. -/
theorem State.Seeded.isForest {s : State} (h : s.Seeded) : s.IsForest := by
  have none : ∀ p, ¬ s.isInternal p := fun p ⟨hp, hl⟩ => by simp [h.leaves p hp] at hl
  have hmem : ∀ i, i ∈ s.pq ↔ i < s.nodes := by
    intro i
    rw [h.queue, BitVec.lt_def]
    simp only [List.mem_map, List.mem_range]
    constructor
    · rintro ⟨k, hk, rfl⟩
      have := s.nodes.isLt
      rw [BitVec.toNat_ofNat, Nat.mod_eq_of_lt (by omega)]
      exact hk
    · exact fun hi => ⟨i.toNat, hi, by simp⟩
  refine ⟨?_, fun i => (hmem i).mp, fun p _ hp => absurd hp (none p), fun p _ hp => absurd hp (none p),
    fun j hj hq => absurd ((hmem j).mpr hj) hq⟩
  rw [h.queue]
  refine List.Nodup.map_on (fun a ha b hb hab => ?_) List.nodup_range
  have := s.nodes.isLt
  rw [List.mem_range] at ha hb
  have := congrArg BitVec.toNat hab
  rwa [BitVec.toNat_ofNat, BitVec.toNat_ofNat, Nat.mod_eq_of_lt (by omega), Nat.mod_eq_of_lt (by omega)] at this

/-- The two children of a merge are told apart by their sides. -/
theorem Node.child_mkInternal_injective {a b : NodeIdx} (hab : a ≠ b) (w : Weight) :
    Function.Injective (Node.mkInternal a b w).child := by
  intro side side' he
  cases side <;> cases side'
  · rfl
  · exact absurd he hab
  · exact absurd he.symm hab
  · rfl

/-- What a merge leaves of node memory: one internal entry more, with the two merged entries as children. -/
theorem State.nodeAt_mergePair {s : State} (hn : s.nodes.toNat < 513) (a b : NodeIdx) (rest : List NodeIdx) :
    (∀ p, (s.mergePair a b rest).isInternal p ↔ p = s.nodes ∨ s.isInternal p) ∧
      (∀ p side, s.isInternal p → (s.mergePair a b rest).childOf p side = s.childOf p side) ∧
      ∀ side, (s.mergePair a b rest).childOf s.nodes side = (Node.mkInternal a b 0).child side := by
  refine ⟨fun p => ?_, fun p side hp => State.childOf_allocNode hn _ hp.ne_nodes side, fun side => ?_⟩
  · exact (State.isInternal_allocNode hn _ p).trans (by simp [Node.mkInternal])
  · refine (State.childOf_allocNode_self hn _ side).trans ?_
    cases side <;> rfl

/-- A merge of two roots leaves a forest (42_tree_builder.md rules R160, R162). -/
theorem State.IsForest.mergePair {s : State} {a b : NodeIdx} {rest : List NodeIdx} (h : s.IsForest)
    (hn : s.nodes.toNat < 513) (hq : s.pq.Perm (a :: b :: rest)) : (s.mergePair a b rest).IsForest := by
  have hmem : ∀ i, i ∈ s.pq ↔ i = a ∨ i = b ∨ i ∈ rest := fun i => by simp [hq.mem_iff]
  have hnd : (a :: b :: rest).Nodup := hq.nodup_iff.mp h.pqNodup
  simp only [List.nodup_cons, List.mem_cons, not_or] at hnd
  obtain ⟨⟨hab, har⟩, hbr, hr⟩ := hnd
  have hlt : ∀ i ∈ s.pq, i < s.nodes := h.pqValid
  have hrlt : ∀ i ∈ rest, i < s.nodes := fun i hi => hlt i ((hmem i).mpr (.inr (.inr hi)))
  have hnr : s.nodes ∉ rest := fun hi => BitVec.lt_irrefl _ (hrlt _ hi)
  obtain ⟨hI, hC, hnew⟩ := State.nodeAt_mergePair hn a b rest
  have hnewmem : ∀ side, (s.mergePair a b rest).childOf s.nodes side ∈ s.pq ∧
      (s.mergePair a b rest).childOf s.nodes side ∉ rest := by
    intro side
    rw [hnew, hmem]
    cases side <;> simp [Node.child, Node.mkInternal, har, hbr]
  have hpq : ∀ i, i ∈ (s.mergePair a b rest).pq ↔ i ∈ rest ∨ i = s.nodes := fun i => by simp [State.mergePair]
  constructor
  case pqNodup =>
    show (rest ++ [s.nodes]).Nodup
    rw [List.nodup_append_comm]
    exact List.nodup_cons.mpr ⟨hnr, hr⟩
  case pqValid =>
    intro i hi
    refine (NodeIdx.lt_succ hn).mpr ?_
    rcases (hpq i).mp hi with hi | hi
    · exact .inr (hrlt i hi)
    · exact .inl hi
  case childLower =>
    intro p side hp
    rcases (hI p).mp hp with rfl | hp
    · exact hlt _ (hnewmem side).1
    · rw [hC p side hp]; exact h.childLower p side hp
  case rootsFree =>
    intro p side hp hc
    rcases (hpq _).mp hc with hc | hc <;> rcases (hI p).mp hp with rfl | hp
    · exact (hnewmem side).2 hc
    · rw [hC p side hp] at hc
      exact h.rootsFree p side hp ((hmem _).mpr (.inr (.inr hc)))
    · exact BitVec.ne_of_lt (hlt _ (hnewmem side).1) hc
    · rw [hC p side hp] at hc
      exact BitVec.lt_asymm (h.childLower p side hp) (hc ▸ hp.lt)
  case oneParent =>
    intro j hj hjq
    rw [hpq, not_or] at hjq
    obtain ⟨hjr, hjn⟩ := hjq
    have hj : j < s.nodes := ((NodeIdx.lt_succ hn).mp hj).resolve_left hjn
    by_cases hjp : j ∈ s.pq
    · obtain ⟨side, hside⟩ : ∃ side, (s.mergePair a b rest).childOf s.nodes side = j := by
        rcases (hmem j).mp hjp with rfl | rfl | h
        · exact ⟨.left, hnew .left⟩
        · exact ⟨.right, hnew .right⟩
        · exact absurd h hjr
      refine ⟨(s.nodes, side), ⟨(hI _).mpr (.inl rfl), hside⟩, ?_⟩
      rintro ⟨p, side'⟩ ⟨hp, hc⟩
      rcases (hI p).mp hp with rfl | hp
      · have hc : (Node.mkInternal a b 0).child side' = (Node.mkInternal a b 0).child side := by
          rw [← hnew, ← hnew, hside]; exact hc
        rw [Node.child_mkInternal_injective hab 0 hc]
      · rw [hC p side' hp] at hc
        exact absurd (hc ▸ hjp) (h.rootsFree p side' hp)
    · obtain ⟨⟨p, side⟩, ⟨hp, hc⟩, huniq⟩ := h.oneParent j hj hjp
      refine ⟨(p, side), ⟨(hI p).mpr (.inr hp), (hC p side hp).trans hc⟩, ?_⟩
      rintro ⟨p', side'⟩ ⟨hp', hc'⟩
      rcases (hI p').mp hp' with h' | hp'
      · subst h'
        exact absurd (hc' ▸ (hnewmem side').1) hjp
      · exact huniq (p', side') ⟨hp', (hC p' side' hp').symm.trans hc'⟩

/-- A forest of one tree is that tree, its root the entry PQ holds (42_tree_builder.md rule R162). -/
theorem State.IsForest.isTree {s : State} {r : NodeIdx} (h : s.IsForest) (hq : s.pq = [r]) (hr : s.root = r) :
    s.IsTree := by
  subst hr
  have hmem : ∀ i, i ∈ s.pq ↔ i = s.root := fun i => by simp [hq]
  exact {
    rootValid := h.pqValid _ ((hmem _).mpr rfl)
    childValid := fun p side hp => BitVec.lt_trans (h.childLower p side hp) hp.lt
    oneParent := fun j hj hne => h.oneParent j hj fun hm => hne ((hmem j).mp hm)
    rootFree := fun p side hp he => h.rootsFree p side hp ((hmem _).mpr he)
    acyclic := ⟨BitVec.toNat, fun p side hp => BitVec.lt_def.mp (h.childLower p side hp)⟩ }

/-! ### The HDR_READ phase -/

/-- Linking a child writes one child field of one entry. -/
theorem State.nodeAt_linkChild {s : State} {slot : Slot} (hp : slot.parent.toNat < 513) (i q : NodeIdx) :
    ((s.linkChild i (some slot)).nodeAt q).leaf = (s.nodeAt q).leaf ∧
      ∀ side, (s.linkChild i (some slot)).childOf q side = if ⟨q, side⟩ = slot then i else s.childOf q side := by
  obtain ⟨p, side'⟩ := slot
  cases side' <;> simp only [State.linkChild, State.childOf_eq, State.nodeAt_setNode hp] <;>
    by_cases h : q = p <;> simp [h, Node.child]
  all_goals rintro (_ | _) <;> simp

/-- The tree a header has given so far, whether or not its root is closed: the clauses of `State.IsPartial` but for
`begun`. -/
structure State.Grown (s : State) (slots : List Slot) : Prop where
  slotsNodup : slots.Nodup
  slotsInternal : ∀ slot ∈ slots, s.isInternal slot.parent
  childHigher : ∀ p side, s.isInternal p → ⟨p, side⟩ ∉ slots → p < s.childOf p side ∧ s.childOf p side < s.nodes
  oneParent : ∀ j, j < s.nodes → j ≠ 0 →
    ∃! slot : NodeIdx × Side, s.isInternal slot.1 ∧ ⟨slot.1, slot.2⟩ ∉ slots ∧ s.childOf slot.1 slot.2 = j

theorem State.IsPartial.grown {s : State} {slots : List Slot} (h : s.IsPartial slots) : s.Grown slots :=
  ⟨h.slotsNodup, h.slotsInternal, h.childHigher, h.oneParent⟩

/-- A grown tree with no slot left is a tree with root 0 (44_header_codec.md rule R196). -/
theorem State.Grown.isTree {s : State} (h : s.Grown []) (hn : s.nodes ≠ 0) (hr : s.root = 0) : s.IsTree where
  rootValid := by
    rw [hr, BitVec.lt_def]
    exact Nat.pos_of_ne_zero fun h0 => hn (BitVec.eq_of_toNat_eq h0)
  childValid := fun p side hp => (h.childHigher p side hp (by simp)).2
  oneParent := fun j hj hne => by simpa using h.oneParent j hj (hr ▸ hne)
  rootFree := fun p side hp he => by
    have := (h.childHigher p side hp (by simp)).1
    rw [he, hr] at this
    exact Nat.not_lt_zero _ (BitVec.lt_def.mp this)
  acyclic := ⟨fun p => 1024 - p.toNat, fun p side hp => by
    have := BitVec.lt_def.mp (h.childHigher p side hp (by simp)).1
    have := (s.childOf p side).isLt
    dsimp only
    omega⟩

/-- Nothing of the tree has been read. -/
theorem State.isPartial_nil {s : State} (hn : s.nodes = 0) : s.IsPartial [] := by
  have none : ∀ p, ¬ p < s.nodes := fun p hp => Nat.not_lt_zero p.toNat (by simpa [hn] using BitVec.lt_def.mp hp)
  exact ⟨List.nodup_nil, by simp, fun p _ hp => absurd hp.lt (none p), fun j hj => absurd hj (none j), by simp [hn]⟩

/-- What a token's new node and the link to it leave: one entry more, the child of the slot that was due. -/
theorem State.Grown.nodeAt_headerNode {s : State} {slots : List Slot} (h : s.Grown slots) (hn : s.nodes.toNat < 513)
    (n : Node) : let u := (s.allocNode n).linkChild s.nodes slots.head?
    u.nodes = s.nodes + 1 ∧ (∀ p, u.isInternal p ↔ (p = s.nodes ∧ n.leaf = false) ∨ s.isInternal p) ∧
      ∀ p side, s.isInternal p →
        u.childOf p side = if slots.head? = some ⟨p, side⟩ then s.nodes else s.childOf p side := by
  intro u
  have hN : u.nodes = s.nodes + 1 := by
    obtain ⟨v, hv⟩ := (s.allocNode n).linkChild_frame s.nodes slots.head?
    exact congrArg State.nodes hv
  refine ⟨hN, fun p => ?_, fun p side hp => ?_⟩
  · rw [← State.isInternal_allocNode hn]
    unfold State.isInternal
    rw [hN, State.allocNode_nodes]
    cases slots with
    | nil => rfl
    | cons slot rest =>
      have hs := BitVec.lt_def.mp (h.slotsInternal slot (by simp)).lt
      rw [show (u.nodeAt p).leaf = _ from (State.nodeAt_linkChild (by omega) s.nodes p).1]
  · rw [← State.childOf_allocNode hn n hp.ne_nodes]
    cases slots with
    | nil => rfl
    | cons slot rest =>
      have hs := BitVec.lt_def.mp (h.slotsInternal slot (by simp)).lt
      rw [show u.childOf p side = _ from (State.nodeAt_linkChild (by omega) s.nodes p).2 side]
      simp [eq_comm]

/-- A token's node keeps the tree grown: it fills the next slot, and its own children, if it has any, are due next
(44_header_codec.md rules R196, R197). -/
theorem State.Grown.headerNode {s : State} {slots opens : List Slot} {n : Node} (h : s.Grown slots)
    (hn : s.nodes.toNat < 513) (hbegun : slots = [] ↔ s.nodes = 0) (hnd : opens.Nodup)
    (hopens : ∀ slot, slot ∈ opens ↔ slot.parent = s.nodes ∧ n.leaf = false) :
    ((s.allocNode n).linkChild s.nodes slots.head?).Grown (opens ++ slots.tail) := by
  obtain ⟨hN, hI, hC⟩ := h.nodeAt_headerNode hn n
  generalize (s.allocNode n).linkChild s.nodes slots.head? = u at hN hI hC
  have hslots : ∀ slot, slot ∈ slots ↔ slots.head? = some slot ∨ slot ∈ slots.tail := fun slot => by
    cases slots <;> simp [eq_comm]
  have hlt : ∀ slot ∈ slots, slot.parent ≠ s.nodes := fun slot hs => (h.slotsInternal slot hs).ne_nodes
  have hnotOpen : ∀ {p side}, s.isInternal p → (⟨p, side⟩ : Slot) ∉ opens := fun hp ho =>
    hp.ne_nodes ((hopens _).mp ho).1
  have hold : ∀ {p side}, u.isInternal p → (⟨p, side⟩ : Slot) ∉ opens ++ slots.tail → s.isInternal p ∧
      (slots.head? = some ⟨p, side⟩ ∨ (⟨p, side⟩ : Slot) ∉ slots ∧ u.childOf p side = s.childOf p side) := by
    intro p side hp hns
    rw [List.mem_append, not_or] at hns
    rcases (hI p).mp hp with hp | hp
    · exact absurd ((hopens _).mpr hp) hns.1
    · refine ⟨hp, or_iff_not_imp_left.mpr fun hh => ⟨?_, (hC p side hp).trans (if_neg hh)⟩⟩
      rw [hslots, not_or]
      exact ⟨hh, hns.2⟩
  constructor
  case slotsNodup =>
    rw [List.nodup_append]
    refine ⟨hnd, h.slotsNodup.tail, fun x hx y hy hxy => ?_⟩
    exact hlt y (List.mem_of_mem_tail hy) (hxy ▸ ((hopens x).mp hx).1)
  case slotsInternal =>
    intro slot hs
    rw [hI]
    rcases List.mem_append.mp hs with hs | hs
    · exact .inl ((hopens slot).mp hs)
    · exact .inr (h.slotsInternal slot (List.mem_of_mem_tail hs))
  case childHigher =>
    intro p side hp hns
    obtain ⟨hp, hh | ⟨hs, hc⟩⟩ := hold hp hns
    · rw [hC p side hp, if_pos hh, hN]
      exact ⟨hp.lt, (NodeIdx.lt_succ hn).mpr (.inl rfl)⟩
    · obtain ⟨h1, h2⟩ := h.childHigher p side hp hs
      rw [hc, hN]
      exact ⟨h1, (NodeIdx.lt_succ hn).mpr (.inr h2)⟩
  case oneParent =>
    intro j hj hj0
    rcases (NodeIdx.lt_succ hn).mp (hN ▸ hj) with rfl | hj
    · obtain ⟨⟨p, side⟩, hh⟩ : ∃ slot, slots.head? = some slot := by
        cases slots with
        | nil => exact absurd (hbegun.mp rfl) hj0
        | cons slot rest => exact ⟨slot, rfl⟩
      have hp : s.isInternal p := h.slotsInternal _ ((hslots _).mpr (.inl hh))
      have hnt : (⟨p, side⟩ : Slot) ∉ slots.tail := by
        obtain ⟨rest, rfl⟩ := List.head?_eq_some_iff.mp hh
        exact (List.nodup_cons.mp h.slotsNodup).1
      refine ⟨(p, side), ⟨(hI p).mpr (.inr hp), ?_, (hC p side hp).trans (if_pos hh)⟩, ?_⟩
      · rw [List.mem_append, not_or]
        exact ⟨hnotOpen hp, hnt⟩
      · rintro ⟨p', side'⟩ ⟨hp', hns, hc⟩
        obtain ⟨hp', hh' | ⟨hs, hc'⟩⟩ := hold hp' hns
        · rw [hh] at hh'
          cases hh'
          rfl
        · have := (h.childHigher p' side' hp' hs).2
          rw [← hc', hc] at this
          exact absurd this (BitVec.lt_irrefl _)
    · obtain ⟨⟨p, side⟩, ⟨hp, hs, hc⟩, huniq⟩ := h.oneParent j hj hj0
      have hh : ¬ slots.head? = some ⟨p, side⟩ := fun hh => hs ((hslots _).mpr (.inl hh))
      refine ⟨(p, side), ⟨(hI p).mpr (.inr hp), ?_, ((hC p side hp).trans (if_neg hh)).trans hc⟩, ?_⟩
      · rw [List.mem_append, not_or]
        exact ⟨hnotOpen hp, fun ht => hs (List.mem_of_mem_tail ht)⟩
      · rintro ⟨p', side'⟩ ⟨hp', hns, hc'⟩
        obtain ⟨hp', hh' | ⟨hs', hc''⟩⟩ := hold hp' hns
        · rw [hC p' side' hp', if_pos hh'] at hc'
          exact absurd hc'.symm (BitVec.ne_of_lt hj)
        · exact huniq (p', side') ⟨hp', hs', hc''.symm.trans hc'⟩

/-- A complete header token keeps the tree invariant: HeaderOverflow leaves no tree, and otherwise the tree grows by the
token's node, until no slot is left. -/
theorem State.IsPartial.headerNode_treeInv {s : State} {bits : List Bool} {slots : List Slot} {n : Node}
    {opens : NodeIdx → List Slot} (h : s.IsPartial slots) (hp : s.phase = .hdrRead) (hs : s.seq = .token bits slots)
    (hb : s.nodes.toNat ≤ 513) (hnd : (opens s.nodes).Nodup)
    (hopens : ∀ slot, slot ∈ opens s.nodes ↔ slot.parent = s.nodes ∧ n.leaf = false) :
    (s.headerNode n opens).TreeInv := by
  rcases s.headerNode_cases n opens with ⟨-, he⟩ | ⟨hn, he⟩ <;> rw [he]
  · exact State.treeInv_of_standing (fun h => absurd rfl h) nofun
  · have hlt : s.nodes.toNat < 513 := Nat.lt_of_le_of_ne hb fun e => hn (BitVec.eq_of_toNat_eq e)
    have hslots : s.pendingSlots = slots := by rw [State.pendingSlots, hs]
    rw [hslots]
    have hg := h.grown.headerNode hlt h.begun hnd hopens
    obtain ⟨hN, -, -⟩ := h.grown.nodeAt_headerNode hlt n
    obtain ⟨v, hv⟩ := (s.allocNode n).linkChild_frame s.nodes slots.head?
    rw [hv] at hg ⊢
    have hn0 : s.nodes + 1 ≠ 0 := fun e => by
      have := congrArg BitVec.toNat e
      rw [NodeIdx.toNat_succ hlt] at this
      exact Nat.succ_ne_zero _ this
    rcases State.afterToken_cases { s.allocNode n with node := v } (opens s.nodes ++ slots.tail) with
      ⟨hnil, h⟩ | ⟨hne, h⟩ <;> rw [h]
    · rw [hnil] at hg
      exact State.treeInv_of_standing (fun _ => State.Grown.isTree ⟨hg.1, hg.2, hg.3, hg.4⟩ hn0 rfl) fun _ => .inr rfl
    · exact State.IsPartial.treeInv (slots := opens s.nodes ++ slots.tail)
        ⟨hg.1, hg.2, hg.3, hg.4, fun h => absurd h hne, fun h => absurd h hn0⟩ hp rfl

/-! ### The tree invariant after a step -/

/-- The move to the next phase keeps the tree invariant. -/
theorem State.TreeInv.nextPhase {s : State} (h : s.TreeInv) (hs : s.seq = .phaseEnd) : s.nextPhase.TreeInv := by
  rcases s.nextPhase_cases with ⟨p, -, he⟩ | ⟨-, he⟩ <;> rw [he]
  · exact State.treeInv_of_standing (fun hn => (h.standing (fun _ => hs) hn).congr rfl rfl rfl) fun _ => .inl rfl
  · exact State.treeInv_of_standing (fun hn => (h.standing (fun _ => hs) hn).congr rfl rfl rfl) nofun

/-- A step of the TREE phase keeps the tree invariant. -/
theorem State.TreeInv.treeStep {s t : State} (h : s.TreeInv) (hi : s.Inv) (hp : s.phase = .tree)
    (he : treeStep s = .next t) : t.TreeInv := by
  unfold Sys2Proof.Machine.treeStep at he
  split at he
  · cases he
    split
    · exact State.treeInv_of_standing (fun h => absurd rfl h) nofun
    · obtain ⟨hs, v, n, q, hu, -, -⟩ := s.seedLeaves_seeded
      have hf := hs.isForest
      rw [hu] at hf ⊢
      exact State.IsForest.treeInv (hf.congr rfl rfl rfl) hp rfl
  · have hf := h.merging hp ‹_›
    obtain ⟨-, hroom⟩ := hi.mergeRoom hp ‹_›
    rcases State.mergeStep_perm he with ⟨r, hr, rfl⟩ | ⟨a, b, rest, hq, rfl⟩
    · exact State.treeInv_of_standing (fun _ =>
        (State.IsForest.isTree (s := { s with root := r }) (hf.congr rfl rfl rfl) hr rfl).congr rfl rfl rfl)
        fun _ => .inr rfl
    · have hl : s.pq.length = rest.length + 2 := hq.length_eq
      exact (hf.mergePair (by omega) hq).treeInv hp ‹_›
  · cases he
    exact h.nextPhase ‹_›
  · cases he

/-- A step of the HDR_READ phase keeps the tree invariant. -/
theorem State.TreeInv.hdrReadStep {s t : State} (h : s.TreeInv) (hi : s.Inv) (hp : s.phase = .hdrRead)
    (he : hdrReadStep s = .next t) : t.TreeInv := by
  unfold Sys2Proof.Machine.hdrReadStep at he
  split at he
  · cases he
    exact State.treeInv_of_magic rfl hp rfl
  · rename_i k v hs
    cases he
    have hn : s.nodes = 0 := h.readingMagic hp ⟨k, v, hs⟩
    rcases s.magicBit_cases k v with ⟨u, hr, he⟩ | ⟨x, u, hr, ⟨hk, he⟩ | ⟨-, -, he⟩ | ⟨-, -, he⟩⟩ <;> rw [he] <;>
      obtain ⟨⟨p, n, r, c, rfl⟩, -⟩ := State.readBit_turn hr
    · exact State.treeInv_of_standing (fun h => absurd rfl h) nofun
    · exact State.treeInv_of_magic hn hp rfl
    · exact State.IsPartial.treeInv (State.isPartial_nil hn) hp rfl
    · exact State.treeInv_of_standing (fun h => absurd rfl h) nofun
  · rename_i bits slots hs
    have hpart := h.parsing hp bits slots hs
    split at he
    · rcases exec_token ‹_› he with rfl | ⟨sym, rfl⟩
      · refine hpart.headerNode_treeInv hp hs hi.nodesBound (by simp) fun slot => ?_
        obtain ⟨p, side⟩ := slot
        cases side <;> simp [Node.mkInternal]
      · exact hpart.headerNode_treeInv hp hs hi.nodesBound List.nodup_nil fun slot => by simp [Node.mkLeaf]
    · cases he
      rcases s.tokenBit_cases bits slots with ⟨u, hr, he⟩ | ⟨x, u, hr, he⟩ <;> rw [he] <;>
        obtain ⟨⟨p, n, r, c, rfl⟩, -⟩ := State.readBit_turn hr
      · exact State.treeInv_of_standing (fun h => absurd rfl h) nofun
      · exact State.IsPartial.treeInv (hpart.congr rfl rfl) hp rfl
  · cases he
    exact h.nextPhase ‹_›
  · cases he

/-- A turn outside the building phases leaves the tree. -/
theorem State.Turn.tree {s u : State} {p : Phase} (h : s.Turn p u) (hp : p.buildsTree = false) :
    u.node = s.node ∧ u.nodes = s.nodes ∧ u.root = s.root := by
  rw [h.writes]
  cases p with
  | tree | hdrRead => cases hp
  | _ => exact ⟨rfl, rfl, rfl⟩

/-- A step of the block keeps the tree invariant. -/
theorem State.TreeInv.blockStep {s t : State} (h : s.TreeInv) (hi : s.Inv) (he : blockStep s = .next t) :
    t.TreeInv := by
  rcases blockStep_cases he with rfl | ⟨-, hidle, he⟩
  · exact h
  by_cases htree : s.phase = .tree
  · simp only [phaseStep, htree] at he
    exact h.treeStep hi htree he
  by_cases hread : s.phase = .hdrRead
  · simp only [phaseStep, hread] at he
    exact h.hdrReadStep hi hread he
  have hb : s.phase.buildsTree = false := Phase.buildsTree_eq_false.mpr ⟨htree, hread⟩
  rcases phaseStep_move hidle he with ⟨hs, rfl⟩ | ht | ⟨u, e, info, k, ht, hk, -, rfl⟩
  · exact h.nextPhase hs
  · obtain ⟨h1, h2, h3⟩ := ht.tree hb
    have hphase : t.phase = s.phase := by rw [ht.writes, State.phaseWrites_phase]
    refine State.treeInv_of_standing (fun hn => (h.settled htree hread (h2 ▸ hn)).congr h1 h2 h3) fun h => ?_
    rw [hphase, hb] at h
    cases h
  · obtain ⟨h1, h2, h3⟩ := ht.tree hb
    rw [hb] at hk
    refine State.treeInv_of_standing (fun hn => ?_) nofun
    simp only [State.abort_nodes, hk, h2] at hn
    exact (h.settled htree hread hn).congr (by simp [h1]) (by simp [hk, h2]) (by simp [hk, h3])

/-- A write of a register keeps the tree invariant. -/
theorem State.TreeInv.csrWrite {s t : State} (h : s.TreeInv) {r : Csr} {v : Word} (he : csrWrite r v s = .next t) :
    t.TreeInv := by
  rcases csrWrite_cases he with ⟨-, he⟩ | ⟨-, -, rfl⟩ | ⟨-, rfl⟩ | ⟨-, rfl⟩ | ⟨-, rfl⟩ | ⟨-, rfl⟩ | ⟨-, rfl⟩ |
    ⟨-, rfl⟩ | rfl
  · rcases exec_decodeCmd he with ⟨-, rfl⟩ | ⟨hp, ⟨op, rfl⟩ | ⟨w, rfl | rfl⟩⟩
    · exact h.congr rfl rfl rfl rfl rfl rfl
    · rw [State.commandStart_eq]
      refine State.treeInv_of_standing (fun hn => (h.standing ?_ hn).congr rfl rfl rfl) fun _ => .inl rfl
      simp [hp, Phase.buildsTree]
    · exact h.congr rfl rfl rfl rfl rfl rfl
    · refine State.treeInv_of_standing (fun hn => (h.standing ?_ hn).congr rfl rfl rfl) nofun
      simp [hp, Phase.buildsTree]
  · exact State.treeInv_of_standing (fun h => absurd rfl h) nofun
  · exact h.congr rfl rfl rfl rfl rfl rfl
  · exact h.congr rfl rfl rfl rfl rfl rfl
  · exact h.congr rfl rfl rfl rfl rfl rfl
  · exact h.congr rfl rfl rfl rfl rfl rfl
  · exact h.congr rfl rfl rfl rfl rfl rfl
  · unfold State.writeFreqData
    split <;> exact h.congr rfl rfl rfl rfl rfl rfl
  · exact h

/-- Settles O14: the operations outside TREE and HDR_READ leave the tree alone or empty it, a merge keeps the forest,
and a header token's node keeps the partial tree. -/
theorem treeInvKept : Obligations.TreeInvKept := by
  intro s t hi h he
  rcases step_cases he with ⟨rest, he⟩ | ⟨rest, off, r, -, -, rfl⟩ | ⟨rest, off, r, v, -, -, he⟩ |
    ⟨rest, bytes, -, rfl⟩ | ⟨rest, rfl⟩ | ⟨rest, r, rfl⟩
  · exact (State.TreeInv.congr (t := { s with agenda := rest }) h rfl rfl rfl rfl rfl rfl).blockStep
      (hi.withAgenda rest) he
  · obtain ⟨x, d, he⟩ := State.csrRead_frame { s with agenda := rest } off r
    rw [he]
    exact h.congr rfl rfl rfl rfl rfl rfl
  · exact (State.TreeInv.congr (t := { s with agenda := rest }) h rfl rfl rfl rfl rfl rfl).csrWrite he
  · exact h.congr rfl rfl rfl rfl rfl rfl
  · exact h.congr rfl rfl rfl rfl rfl rfl
  · exact State.treeInv_of_standing (fun h => absurd rfl h) nofun

end Sys2Proof.Machine
end

section
/-! SUPPORT. From the clauses of the tree invariant to a tree: the nodes of a represented tree in pre-order, each once
and every valid entry among them; and O15. -/

namespace Sys2Proof.Machine

/-! ### The size and the depth of a tree -/

/-- A strictly binary tree has two nodes a level below its root (43_code_table.md rule R182). -/
theorem CodeTree.depth_lt_nodeCount (T : CodeTree) : 2 * T.depth + 1 ≤ T.nodeCount := by
  induction T with
  | leaf sym => simp [CodeTree.depth, CodeTree.nodeCount]
  | node l r ihl ihr =>
    have := l.nodeCount_pos
    have := r.nodeCount_pos
    simp only [CodeTree.depth, CodeTree.nodeCount]
    omega

/-! ### The entries of a represented tree -/

/-- The entries of the tree `T` whose root is entry `i`, in pre-order. -/
def State.entriesOf (s : State) : NodeIdx → CodeTree → List NodeIdx
  | i, .leaf _ => [i]
  | i, .node l r => i :: (s.entriesOf (s.nodeAt i).left l ++ s.entriesOf (s.nodeAt i).right r)

/-- A tree has as many entries as nodes. -/
theorem State.entriesOf_length (s : State) (i : NodeIdx) (T : CodeTree) : (s.entriesOf i T).length = T.nodeCount := by
  induction T generalizing i with
  | leaf sym => rfl
  | node l r ihl ihr =>
    rw [State.entriesOf, List.length_cons, List.length_append, ihl, ihr, CodeTree.nodeCount]
    omega

/-- `p` is the parent of `j`. -/
def State.parentOf (s : State) (j p : NodeIdx) : Prop := ∃ side, s.isInternal p ∧ s.childOf p side = j

/-- Below an entry lie the entries of its tree. -/
theorem State.Represents.reach {s : State} {T : CodeTree} {i j : NodeIdx} (h : s.Represents i T)
    (hj : j ∈ s.entriesOf i T) : Relation.ReflTransGen s.parentOf j i := by
  induction T generalizing i with
  | leaf sym => rw [List.mem_singleton.mp hj]
  | node l r ihl ihr =>
    obtain ⟨hi, hf, hl, hr⟩ := h
    rw [State.entriesOf, List.mem_cons, List.mem_append] at hj
    rcases hj with rfl | hj | hj
    · exact .refl
    · exact (ihl hl hj).tail ⟨.left, ⟨hi, hf⟩, rfl⟩
    · exact (ihr hr hj).tail ⟨.right, ⟨hi, hf⟩, rfl⟩

/-- The root of a represented tree is one of its entries. -/
theorem State.mem_entriesOf_self (s : State) (i : NodeIdx) (T : CodeTree) : i ∈ s.entriesOf i T := by
  cases T <;> simp [State.entriesOf]

/-- A represented tree holds the children of its entries. -/
theorem State.Represents.child_mem {s : State} {T : CodeTree} {i p : NodeIdx} (h : s.Represents i T)
    (hp : p ∈ s.entriesOf i T) (hint : s.isInternal p) (side : Side) : s.childOf p side ∈ s.entriesOf i T := by
  induction T generalizing i with
  | leaf sym =>
    obtain ⟨-, hl, -⟩ := h
    rw [List.mem_singleton.mp hp] at hint
    simp [hint.2] at hl
  | node l r ihl ihr =>
    obtain ⟨-, -, hl, hr⟩ := h
    rw [State.entriesOf, List.mem_cons, List.mem_append] at hp ⊢
    rcases hp with rfl | hp | hp
    · cases side
      · exact .inr (.inl (s.mem_entriesOf_self _ l))
      · exact .inr (.inr (s.mem_entriesOf_self _ r))
    · exact .inr (.inl (ihl hl hp))
    · exact .inr (.inr (ihr hr hp))

/-! ### The tree of the clauses -/

section
variable {s : State} (h : s.IsTree)
include h

/-- No entry has two parents. -/
theorem State.IsTree.parentOf_rightUnique : Relator.RightUnique s.parentOf := by
  rintro j p q ⟨side, hp, hc⟩ ⟨side', hq, hc'⟩
  have hj : j ≠ s.root := fun e => h.rootFree p side hp (hc.trans e)
  have := (h.oneParent j (hc ▸ h.childValid p side hp) hj).unique (y₁ := (p, side)) (y₂ := (q, side'))
    ⟨hp, hc⟩ ⟨hq, hc'⟩
  exact congrArg Prod.fst this

/-- Every valid entry is the root of a tree. -/
theorem State.IsTree.represents {i : NodeIdx} (hi : i < s.nodes) : ∃ T, s.Represents i T := by
  obtain ⟨rank, hrank⟩ := h.acyclic
  induction hk : rank i using Nat.strong_induction_on generalizing i with
  | _ k ih =>
    subst hk
    cases hl : (s.nodeAt i).leaf with
    | true => exact ⟨.leaf _, hi, hl, rfl⟩
    | false =>
      obtain ⟨l, hl'⟩ := ih _ (hrank i .left ⟨hi, hl⟩) (h.childValid i .left ⟨hi, hl⟩) rfl
      obtain ⟨r, hr'⟩ := ih _ (hrank i .right ⟨hi, hl⟩) (h.childValid i .right ⟨hi, hl⟩) rfl
      exact ⟨.node l r, hi, hl, hl', hr'⟩

/-- A represented tree holds each of its entries once: an entry under both children of a node would put one child under
the other, and its parent below itself. -/
theorem State.IsTree.entriesOf_nodup {i : NodeIdx} {T : CodeTree} (hT : s.Represents i T) :
    (s.entriesOf i T).Nodup := by
  obtain ⟨rank, hrank⟩ := h.acyclic
  have up : ∀ {j p}, Relation.ReflTransGen s.parentOf j p → rank j ≤ rank p := by
    intro j p hjp
    induction hjp with
    | refl => exact Nat.le_refl _
    | tail _ hp ih =>
      obtain ⟨side, hp, rfl⟩ := hp
      exact ih.trans (hrank _ side hp).le
  have apart : ∀ {p side side'}, s.isInternal p → side ≠ side' →
      ¬ Relation.ReflTransGen s.parentOf (s.childOf p side) (s.childOf p side') := by
    intro p side side' hp hne hr
    have hroot : s.childOf p side ≠ s.root := h.rootFree p side hp
    rcases Relation.ReflTransGen.cases_head hr with he | ⟨q, hq, hr⟩
    · have := (h.oneParent _ (h.childValid p side hp) hroot).unique (y₁ := (p, side)) (y₂ := (p, side'))
        ⟨hp, rfl⟩ ⟨hp, he.symm⟩
      exact hne (congrArg Prod.snd this)
    · rw [h.parentOf_rightUnique hq ⟨side, hp, rfl⟩] at hr
      exact absurd (up hr) (Nat.not_le.mpr (hrank p side' hp))
  induction T generalizing i with
  | leaf sym => exact List.nodup_singleton i
  | node l r ihl ihr =>
    obtain ⟨hi, hf, hl, hr⟩ := hT
    have hp : s.isInternal i := ⟨hi, hf⟩
    refine List.nodup_cons.mpr ⟨fun hm => ?_, List.nodup_append.mpr ⟨ihl hl, ihr hr, fun x hx y hy hxy => ?_⟩⟩
    · rcases List.mem_append.mp hm with hm | hm
      · exact absurd (up (hl.reach hm)) (Nat.not_le.mpr (hrank i .left hp))
      · exact absurd (up (hr.reach hm)) (Nat.not_le.mpr (hrank i .right hp))
    · subst hxy
      rcases Relation.ReflTransGen.total_of_right_unique h.parentOf_rightUnique (hl.reach hx) (hr.reach hy) with h1 | h1
      · exact apart (side := .left) (side' := .right) hp (by simp) h1
      · exact apart (side := .right) (side' := .left) hp (by simp) h1

/-- The tree at ROOT holds every valid entry: going up from one, ranks rise, and only ROOT has no parent. -/
theorem State.IsTree.mem_entriesOf_root {T : CodeTree} (hT : s.Represents s.root T) {j : NodeIdx} (hj : j < s.nodes) :
    j ∈ s.entriesOf s.root T := by
  obtain ⟨rank, hrank⟩ := h.acyclic
  obtain ⟨M, hM⟩ := (Set.finite_range rank).bddAbove
  induction hk : M - rank j using Nat.strong_induction_on generalizing j with
  | _ k ih =>
    by_cases hroot : j = s.root
    · exact hroot ▸ s.mem_entriesOf_self s.root T
    · obtain ⟨⟨p, side⟩, ⟨hp, hc⟩, -⟩ := h.oneParent j hj hroot
      have h1 := hrank p side hp
      have h2 : rank p ≤ M := hM ⟨p, rfl⟩
      rw [hc] at h1
      exact hc ▸ hT.child_mem (ih (M - rank p) (by omega) hp.lt rfl) hp side

end

/-- NODES valid entries, listed once each, are as many as NODES says. -/
theorem State.length_of_mem_iff_lt {s : State} {l : List NodeIdx} (hl : l.Nodup) (hm : ∀ j, j ∈ l ↔ j < s.nodes) :
    l.length = s.nodes.toNat := by
  have hp : (l.map BitVec.toNat).Perm (List.range s.nodes.toNat) := by
    rw [List.perm_ext_iff_of_nodup (hl.map fun _ _ => BitVec.eq_of_toNat_eq) List.nodup_range]
    intro k
    simp only [List.mem_map, List.mem_range, hm]
    constructor
    · rintro ⟨j, hj, rfl⟩
      exact BitVec.lt_def.mp hj
    · intro hk
      have := s.nodes.isLt
      have hk' : (BitVec.ofNat 10 k).toNat = k := by rw [BitVec.toNat_ofNat, Nat.mod_eq_of_lt (by omega)]
      exact ⟨BitVec.ofNat 10 k, BitVec.lt_def.mpr (by omega), hk'⟩
  simpa using hp.length_eq

/-- A represented tree holds valid entries alone. -/
theorem State.Represents.lt_nodes {s : State} {T : CodeTree} {i j : NodeIdx} (h : s.Represents i T)
    (hj : j ∈ s.entriesOf i T) : j < s.nodes := by
  induction T generalizing i with
  | leaf sym => exact List.mem_singleton.mp hj ▸ h.1
  | node l r ihl ihr =>
    obtain ⟨hi, -, hl, hr⟩ := h
    rw [State.entriesOf, List.mem_cons, List.mem_append] at hj
    rcases hj with rfl | hj | hj
    · exact hi
    · exact ihl hl hj
    · exact ihr hr hj

/-- Settles O15: the tree at ROOT lists every valid entry once, so it has NODES nodes, at most 513, and two a level. -/
theorem treeOfNodes : Obligations.TreeOfNodes := by
  intro s hn h
  obtain ⟨T, hT⟩ := h.represents h.rootValid
  have hcount : T.nodeCount = s.nodes.toNat := by
    rw [← s.entriesOf_length s.root T]
    exact State.length_of_mem_iff_lt (h.entriesOf_nodup hT) fun j => ⟨hT.lt_nodes, h.mem_entriesOf_root hT⟩
  have := T.depth_lt_nodeCount
  exact ⟨T, hT, hcount, by omega⟩

end Sys2Proof.Machine
end

section
/-! SUPPORT. The block's step from its moves: what it leaves unchanged (O50) and the transitions of PHASE (O49). -/

namespace Sys2Proof.Machine

/-! ### The frame of a step of the block -/

/-- What a step of the block in phase `p` leaves unchanged. -/
structure State.Framed (s : State) (p : Phase) (t : State) : Prop where
  freq : p ≠ .count → t.freq = s.freq
  codes : p ≠ .codes → t.codeLen = s.codeLen ∧ t.codeBits = s.codeBits
  tree : p ≠ .tree → p ≠ .hdrRead → t.node = s.node ∧ t.nodes = s.nodes ∧ t.root = s.root
  output : p ∉ ([.hdrWrite, .encode, .flush, .decode] : List Phase) →
    t.outLog = s.outLog ∧ t.outBytes = s.outBytes
  input : p ∉ ([.count, .encode, .hdrRead, .decode] : List Phase) → t.inPos = s.inPos ∧ t.inBytes = s.inBytes
  control : t.lastCmd = s.lastCmd ∧ t.overrun = s.overrun ∧ t.irqEn = s.irqEn ∧ t.magic = s.magic ∧
    t.freqIdx = s.freqIdx ∧ t.codeIdx = s.codeIdx ∧ t.nodeIdx = s.nodeIdx ∧ t.rstN = s.rstN ∧
    t.inData = s.inData ∧ t.agenda = s.agenda ∧ t.reads = s.reads ∧ t.draws = s.draws

/-- Nothing changes. -/
theorem State.Framed.refl (s : State) (p : Phase) : s.Framed p s :=
  ⟨fun _ => rfl, fun _ => ⟨rfl, rfl⟩, fun _ _ => ⟨rfl, rfl, rfl⟩, fun _ => ⟨rfl, rfl⟩, fun _ => ⟨rfl, rfl⟩, by simp⟩

/-- A turn writes what its phase may write. -/
theorem State.Turn.framed {s u : State} {p : Phase} (h : s.Turn p u) : s.Framed p u := by
  rw [h.writes]
  constructor
  case control => simp
  all_goals cases p <;> simp [State.phaseWrites]

/-- An abort of the kind its phase raises touches the tree in the building phases alone. -/
theorem State.Framed.abort {s u : State} {p : Phase} (h : s.Framed p u) {e : Error} (hk : e.emptiesTree = p.buildsTree)
    (info : Word) (nbits : BitVec 6) : s.Framed p (u.abort e info nbits) :=
  { h with
    tree := fun h1 h2 => by
      have hb : e.emptiesTree = false := hk.trans (Phase.buildsTree_eq_false.mpr ⟨h1, h2⟩)
      simpa [hb] using h.tree h1 h2 }

/-- The move to the next phase writes PHASE, the sequencer's position, DONE, CUR and PQ alone. -/
theorem State.nextPhase_framed (s : State) (p : Phase) : s.Framed p s.nextPhase := by
  rcases s.nextPhase_cases with ⟨q, -, h⟩ | ⟨-, h⟩ <;> rw [h]
  · exact { State.Framed.refl s p with }
  · exact { State.Framed.refl s p with }

/-- Settles O50: the phase moves on, or a turn writes what its phase may write, and an abort may follow it. -/
theorem blockFrame : Obligations.BlockFrame := by
  intro s t h
  have hf : s.Framed s.phase t := by
    rcases blockStep_cases h with rfl | ⟨-, hp, h⟩
    · exact .refl _ _
    · rcases phaseStep_move hp h with ⟨-, rfl⟩ | ht | ⟨u, e, info, k, ht, hk, -, rfl⟩
      · exact s.nextPhase_framed _
      · exact ht.framed
      · exact ht.framed.abort hk info k
  exact ⟨hf.freq, hf.codes, hf.tree, hf.output, hf.input, hf.control⟩

/-! ### The transitions of PHASE -/

/-- When a phase's rule has finished, the next step of the block moves PHASE. -/
theorem phaseStep_phaseEnd {s : State} (hp : s.phase ≠ .idle) (hs : s.seq = .phaseEnd) :
    phaseStep s = .next s.nextPhase := by
  unfold phaseStep
  split
  · exact absurd ‹_› hp
  · simp [countStep, hs]
  · simp [treeStep, hs]
  · simp [codesStep, hs]
  · simp [hdrWriteStep, hs]
  · simp [encodeStep, hs]
  · simp [flushStep, hs]
  · simp [hdrReadStep, hs]
  · simp [decodeStep, hs]

/-- The nine commands have a first phase. -/
theorem phaseRow_head? : ∀ op : BitVec 4, 1 ≤ op.toNat → op.toNat ≤ 9 →
    (phaseRow op).head? = some ((phaseRow op).headD .idle) := by decide

/-- The OPs 10 to 15 have no phases. -/
theorem phaseRow_illegal : ∀ op : BitVec 4, 10 ≤ op.toNat → phaseRow op = [] := by decide

/-- The move to the next phase by the position of PHASE in its row. -/
theorem State.nextPhase_getElem? {s : State} (hm : s.phase ∈ phaseRow (cmdOp s.lastCmd)) :
    ∃ k, (phaseRow (cmdOp s.lastCmd))[k]? = some s.phase ∧
      ((∃ p, (phaseRow (cmdOp s.lastCmd))[k + 1]? = some p ∧ s.nextPhase = { s with phase := p, seq := .start }) ∨
        (phaseRow (cmdOp s.lastCmd))[k + 1]? = none ∧ s.nextPhase = s.complete) := by
  obtain ⟨k, hk, ha⟩ := phaseAfter_eq_getElem? hm
  exact ⟨k, hk, ha ▸ s.nextPhase_cases⟩

/-- Where a step of the block takes PHASE while a command runs. -/
theorem phase_of_blockStep {s t : State} (hi : s.Inv) (hp : s.phase ≠ .idle) (h : blockStep s = .next t) :
    t.phase = s.phase ∨
    (∃ k, (phaseRow (cmdOp s.lastCmd))[k]? = some s.phase ∧ (phaseRow (cmdOp s.lastCmd))[k + 1]? = some t.phase) ∨
    ((phaseRow (cmdOp s.lastCmd)).getLast? = some s.phase ∧ t.phase = .idle ∧ t.done = true ∧ t.err = false) ∨
    (t.phase = .idle ∧ t.done = false ∧ t.err = true) := by
  have hbusy := State.busy_eq_true.mpr hp
  rcases blockStep_cases h with rfl | ⟨-, -, h⟩
  · exact .inl rfl
  · rcases phaseStep_move hp h with ⟨-, rfl⟩ | ht | ⟨u, e, info, n, -, -, -, rfl⟩
    · obtain ⟨-, herr, -⟩ := hi.busyClear hbusy
      obtain ⟨k, hk, ⟨p, hk', hn⟩ | ⟨hk', hn⟩⟩ := State.nextPhase_getElem? (hi.rowFits hbusy) <;> rw [hn]
      · exact .inr (.inl ⟨k, hk, hk'⟩)
      · refine .inr (.inr (.inl ⟨?_, rfl, rfl, herr⟩))
        have h1 := (List.getElem?_eq_some_iff.mp hk).1
        have h2 := List.getElem?_eq_none_iff.mp hk'
        rw [List.getLast?_eq_getElem?, show (phaseRow (cmdOp s.lastCmd)).length - 1 = k by omega, hk]
    · exact .inl (by rw [ht.writes, State.phaseWrites_phase])
    · exact .inr (.inr (.inr ⟨rfl, rfl, rfl⟩))

/-- Settles O49: the rows are the table's, PHASE moves along the row of LAST_CMD, and a turn keeps PHASE. -/
theorem phaseTransitions : Obligations.PhaseTransitions := by
  refine ⟨⟨rfl, rfl, rfl, rfl, rfl, rfl, rfl, rfl, rfl, rfl, phaseRow_illegal⟩, fun op s h1 h9 => ?_,
    fun s hi hr hp hs => ?_, fun _ _ _ _ => rfl, fun s t hi hp h => phase_of_blockStep hi hp h⟩
  · rw [State.commandStart_eq]
    exact phaseRow_head? op h1 h9
  · obtain ⟨k, hk, ⟨p, hk', hn⟩ | ⟨hk', hn⟩⟩ := State.nextPhase_getElem? (hi.rowFits (State.busy_eq_true.mpr hp))
    · exact ⟨k, hk, by rw [blockStep_running hr, phaseStep_phaseEnd hp hs, hn, ← cmdOp, hk']⟩
    · exact ⟨k, hk, by rw [blockStep_running hr, phaseStep_phaseEnd hp hs, hn, ← cmdOp, hk']; rfl⟩

end Sys2Proof.Machine
end

section
/-! SUPPORT. The registers: what a read answers, STATUS bit by bit, the table windows, which accesses are refused (O54,
O55, O56, O58); and the reset state (O11, O12). -/

namespace Sys2Proof.Machine

/-! ### Reads and writes of a register -/

/-- What a read of a register answers (20_memory.md rule R74). -/
def State.readValue (s : State) (r : Csr) : Word :=
  if s.busy && r.freeWhenBusy then Config.freeRead s.draws else s.csrValue r

/-- A read of a register records its answer, and may draw a free value. -/
theorem State.csrRead_readValue (s : State) (off : Nat) (r : Csr) :
    s.csrRead off r =
      { s with reads := s.reads ++ [(off, s.readValue r)], draws := (s.csrRead off r).draws } := by
  unfold State.csrRead State.readValue
  split <;> rfl

/-- A register that is never free reads its value. -/
theorem State.csrRead_exact (s : State) (off : Nat) {r : Csr} (h : r.freeWhenBusy = false) :
    s.csrRead off r = { s with reads := s.reads ++ [(off, s.csrValue r)] } := by
  simp [State.csrRead, h]

/-- While BUSY = 0 every register reads its value. -/
theorem State.csrRead_idle {s : State} (h : s.phase = .idle) (off : Nat) (r : Csr) :
    s.csrRead off r = { s with reads := s.reads ++ [(off, s.csrValue r)] } := by
  simp [State.csrRead, State.busy, h]

/-- While BUSY = 0 a 32-bit read at a register's offset records the register's value. -/
theorem memRead_idle {s : State} {off : Nat} {r : Csr} (hr : s.rstN = true) (hp : s.phase = .idle)
    (h : csrAt off = some r) : memRead off 4 s = .next { s with reads := s.reads ++ [(off, s.csrValue r)] } := by
  rw [memRead_csr hr h, State.csrRead_idle hp]

/-! ### STATUS -/

/-- The fields of the word STATUS reads (10_state.md rule R27). -/
theorem State.statusWord_fields (s : State) :
    s.statusWord.getLsbD 0 = s.busy ∧ s.statusWord.getLsbD 1 = s.done ∧ s.statusWord.getLsbD 2 = s.err ∧
      s.statusWord.getLsbD 3 = s.overrun ∧ s.statusWord.extractLsb' 4 4 = 0 ∧
      s.statusWord.extractLsb' 8 4 = s.phase.code ∧ s.statusWord.extractLsb' 12 20 = 0 := by
  unfold State.statusWord
  generalize s.busy = b, s.done = d, s.err = e, s.overrun = o, s.phase.code = c
  revert b d e o c
  decide

/-- A 32-bit read of STATUS out of reset, busy or idle. -/
theorem memRead_status {s : State} (hr : s.rstN = true) :
    memRead 0x08 4 s = .next { s with reads := s.reads ++ [(0x08, s.statusWord)] } := by
  rw [memRead_csr hr (r := .status) rfl, State.csrRead_exact s _ rfl]
  rfl

/-- Settles O54: a read of STATUS records the status word, and a poll's turn is such a read. -/
theorem statusRegister : Obligations.StatusRegister := by
  intro s hr
  obtain ⟨h0, h1, h2, h3, h4, h8, h12⟩ := s.statusWord_fields
  refine ⟨⟨s.statusWord, memRead_status hr, ?_, h1, h2, h3, h4, h12, ?_⟩, fun v => ?_,
    fun gaps rest => ⟨s.statusWord, ?_, memRead_status hr⟩⟩
  · rw [h0, State.busy]
    cases s.phase <;> rfl
  · rw [h8]
    cases s.phase <;> decide
  · rw [memWrite_csr v hr (r := .status) rfl]
    rfl
  · rw [h0]
    exact memRead_status (s := { s with agenda := afterPoll s.busy gaps rest }) hr

/-! ### The table windows -/

theorem State.codeLenAt_beyond (s : State) {i : Nat} (h : 256 < i) : s.codeLenAt i = 0 := by
  simp [State.codeLenAt, Vector.getElem?_eq_none (show 257 ≤ i from h)]

theorem State.freqAt_beyond (s : State) {i : Nat} (h : 256 < i) : s.freqAt i = 0 := by
  simp [State.freqAt, Vector.getElem?_eq_none (show 257 ≤ i from h)]

/-- FREQ after a write of an entry. -/
theorem State.freqAt_setFreq (s : State) {i : Nat} (h : i ≤ 256) (v : Word) (j : Nat) :
    (s.setFreq i v).freqAt j = if j = i then v else s.freqAt j := by
  unfold State.freqAt
  rw [State.setFreq_freq, Vector.getElem?_setIfInBounds]
  by_cases hj : i = j
  · subst hj; simp [show i < 257 by omega]
  · simp [hj, Ne.symm hj]

/-- The bits of a bit sequence's value: the last one is bit 0. -/
theorem ofBits_getLsbD {w : Nat} {bits : List Bool} (h : bits.length ≤ w) (i : Nat) :
    (ofBits w bits).getLsbD i = bits.reverse.getD i false := by
  induction bits using List.reverseRecOn generalizing i with
  | nil => simp [ofBits]
  | append_singleton l b ih =>
    rw [List.length_append, List.length_singleton] at h
    have hs : ofBits w (l ++ [b]) = (ofBits w l).shiftConcat b := by simp [ofBits]
    rw [hs, BitVec.getLsbD_shiftConcat, List.reverse_append]
    cases i with
    | zero => simp; omega
    | succ i =>
      have hlt : l.reverse.getD i false = true → i + 1 < w := fun hb => by
        by_contra hn
        rw [List.getD_eq_default _ _ (by rw [List.length_reverse]; omega)] at hb
        cases hb
      simpa [ih (by omega)] using hlt

/-- CODE_BITSw bit by bit (10_state.md rule R41). -/
theorem State.codeWord_getLsbD (s : State) (w : Nat) {j : Nat} (hj : j < 32) :
    (s.codeWord w).getLsbD (31 - j) = (decide (32 * w + j < (s.codeLenAt s.codeIdx.toNat).toNat) &&
      (s.codeBitsAt s.codeIdx.toNat).getLsbD (32 * w + j)) := by
  unfold State.codeWord
  rw [ofBits_getLsbD (by simp), List.getD_eq_getElem?_getD, List.getElem?_reverse (by simp; omega)]
  simp [show 32 - 1 - (31 - j) = j by omega, hj]

/-- No code, no code bits. -/
theorem State.codeWord_eq_zero {s : State} (h : s.codeLenAt s.codeIdx.toNat = 0) (w : Nat) : s.codeWord w = 0 := by
  apply BitVec.eq_of_getLsbD_eq
  intro i hi
  have := s.codeWord_getLsbD w (j := 31 - i) (by omega)
  rw [show 31 - (31 - i) = i by omega] at this
  rw [this, h]
  simp

section
variable {a b c k n : Nat} (x : BitVec a) (y : BitVec b) (z : BitVec c)

/-- A field within the lowest part of a word of three. -/
theorem extractLsb'_append_low (h : k + n ≤ c) : (x ++ y ++ z).extractLsb' k n = z.extractLsb' k n :=
  BitVec.extractLsb'_append_eq_of_add_le h

/-- The middle part of a word of three. -/
theorem extractLsb'_append_middle : (x ++ y ++ z).extractLsb' c b = y := by
  rw [BitVec.extractLsb'_append_eq_of_le (Nat.le_refl c), Nat.sub_self,
    BitVec.extractLsb'_append_eq_of_add_le (by omega), BitVec.extractLsb'_eq_self]

/-- A field within the highest part of a word of three. -/
theorem extractLsb'_append_high (h : b + c ≤ k) :
    (x ++ y ++ z).extractLsb' k n = x.extractLsb' (k - c - b) n := by
  rw [BitVec.extractLsb'_append_eq_of_le (by omega), BitVec.extractLsb'_append_eq_of_le (by omega)]

end

/-- The fields of NODE_INFO (10_state.md rule R43). -/
theorem Node.infoWord_fields (n : Node) :
    n.infoWord.extractLsb' 0 10 = (if n.leaf then 0 else n.left) ∧
      n.infoWord.extractLsb' 10 10 = (if n.leaf then 0 else n.right) ∧
      n.infoWord.extractLsb' 20 9 = (if n.leaf then n.sym else 0) ∧
      n.infoWord.extractLsb' 29 2 = 0 ∧ n.infoWord.getLsbD 31 = n.leaf := by
  unfold Node.infoWord
  cases n.leaf with
  | false =>
    exact ⟨(extractLsb'_append_low (0#12) n.right n.left (by decide)).trans BitVec.extractLsb'_eq_self,
      extractLsb'_append_middle (0#12) n.right n.left,
      (extractLsb'_append_high (0#12) n.right n.left (by decide)).trans (by simp),
      (extractLsb'_append_high (0#12) n.right n.left (by decide)).trans (by decide), by grind⟩
  | true =>
    exact ⟨(extractLsb'_append_low (0b100#3) n.sym (0#20) (by decide)).trans (by simp),
      (extractLsb'_append_low (0b100#3) n.sym (0#20) (by decide)).trans (by simp),
      extractLsb'_append_middle (0b100#3) n.sym (0#20),
      (extractLsb'_append_high (0b100#3) n.sym (0#20) (by decide)).trans (by decide), by grind⟩

/-- NODE_WLO and NODE_WHI together (10_state.md rule R44). -/
theorem weight_halves (w : Weight) :
    (w.extractLsb' 0 32).toNat + 2 ^ 32 * ((w.extractLsb' 32 9).setWidth 32).toNat = w.toNat := by
  have := w.isLt
  simp only [BitVec.toNat_setWidth, BitVec.extractLsb'_toNat]
  simp
  omega

/-- CODE_BITSw's offset. -/
theorem csrAt_codeBits : ∀ w : Fin 8, csrAt (0x40 + 4 * w) = some (.codeBits w) := by decide

/-- What NODE_INFO, NODE_WLO and NODE_WHI read for an entry at or above NODES (10_state.md rules R43, R44). -/
theorem State.nodeWindows_beyond {s : State} (h : s.nodes ≤ s.nodeIdx) :
    s.csrValue .nodeInfo = 0 ∧ s.csrValue .nodeWlo = 0 ∧ s.csrValue .nodeWhi = 0 := by
  have : s.shownNode = none := if_neg (BitVec.not_lt.mpr h)
  simp [State.csrValue, this]

/-- What NODE_INFO, NODE_WLO and NODE_WHI read for a valid entry (10_state.md rules R43, R44). -/
theorem State.nodeWindows_valid {s : State} (h : s.nodeIdx < s.nodes) :
    s.csrValue .nodeInfo = (s.nodeAt s.nodeIdx).infoWord ∧
      s.csrValue .nodeWlo = (s.nodeAt s.nodeIdx).weight.extractLsb' 0 32 ∧
      s.csrValue .nodeWhi = ((s.nodeAt s.nodeIdx).weight.extractLsb' 32 9).setWidth 32 := by
  have : s.shownNode = some (s.nodeAt s.nodeIdx) := if_pos h
  simp [State.csrValue, this]

/-- Settles O55: while idle the windows read the registers' values, bit by bit as the tables hold them. -/
theorem tableWindows : Obligations.TableWindows := by
  intro s hr hp
  refine ⟨?_, fun w hw => ⟨s.codeWord w, ?_, fun _ j hj => s.codeWord_getLsbD w hj, fun h => ?_⟩,
    s.csrValue .nodeInfo, s.csrValue .nodeWlo, s.csrValue .nodeWhi, memRead_idle hr hp rfl, memRead_idle hr hp rfl,
    memRead_idle hr hp rfl, State.nodeWindows_beyond, fun h => ?_⟩
  · rw [memRead_idle hr hp (r := .codeLen) rfl]
    split
    · rfl
    · simp [State.csrValue, s.codeLenAt_beyond (Nat.not_le.mp ‹_›)]
  · exact memRead_idle hr hp (csrAt_codeBits ⟨w, hw⟩)
  · exact State.codeWord_eq_zero (s.codeLenAt_beyond h) w
  · obtain ⟨hinfo, hlo, hhi⟩ := State.nodeWindows_valid h
    rw [hinfo, hlo, hhi]
    obtain ⟨h1, h2, h3, h4, h5⟩ := (s.nodeAt s.nodeIdx).infoWord_fields
    exact ⟨h1, h2, h3, h4, h5, weight_halves _⟩

/-- Settles O56: a write of FREQ_DATA while idle is a write of the entry in FREQ_IDX, if there is one. -/
theorem freqWindow : Obligations.FreqWindow := by
  intro s v hr
  have hw : memWrite 0x34 4 v s = .next (s.writeFreqData v) := memWrite_csr (r := .freqData) v hr rfl
  have idle : s.phase = .idle → s.writeFreqData v = s.setFreq s.freqIdx.toNat v := fun hp =>
    if_neg (by simp [hp])
  refine ⟨fun hp hi => ⟨s.setFreq s.freqIdx.toNat v, ?_, rfl, s.freqAt_setFreq hi v, ?_⟩, fun hp hi => ⟨?_, ?_⟩,
    fun hp => ?_⟩
  · rw [hw, idle hp]
  · rw [memRead_idle (s := s.setFreq s.freqIdx.toNat v) (r := .freqData) hr hp rfl]
    simp [State.csrValue, s.freqAt_setFreq hi v]
  · have hsame : s.freq.setIfInBounds s.freqIdx.toNat v = s.freq :=
      Vector.setIfInBounds_eq_of_size_le hi
    rw [hw, idle hp, State.setFreq, hsame]
  · rw [memRead_idle (r := .freqData) hr hp rfl, State.csrValue, s.freqAt_beyond hi]
  · rw [hw, State.writeFreqData, if_pos (State.busy_eq_true.mpr hp)]

/-! ### Accesses by offset -/

/-- The registers a write changes nothing of (10_state.md rules R24 to R45). -/
def Csr.readOnly : Csr → Bool
  | .id | .errCode | .errInfo | .magic | .inBytes | .outBytes | .root | .nodes | .codeLen | .codeBits _ => true
  | .nodeInfo | .nodeWlo | .nodeWhi | .reserved => true
  | .cmd | .status | .irqEn | .ctrl | .freqIdx | .freqData | .codeIdx | .nodeIdx => false

theorem csrWrite_readOnly {r : Csr} (h : r.readOnly = true) (v : Word) (s : State) : csrWrite r v s = .next s := by
  cases r with
  | cmd | status | irqEn | ctrl | freqIdx | freqData | codeIdx | nodeIdx => cases h
  | _ => rfl

/-- The offsets of the read-only registers. -/
theorem csrAt_readOnly : ∀ off ∈ ([0x00, 0x0C, 0x10, 0x1C, 0x20, 0x24, 0x28, 0x2C, 0x3C, 0x40, 0x44, 0x48, 0x4C, 0x50,
    0x54, 0x58, 0x5C, 0x64, 0x68, 0x6C] : List Nat), (csrAt off).map Csr.readOnly = some true := by decide

/-- From 0x70 on every register is reserved. -/
theorem csrAt_reserved {off : Nat} (h4 : off % 4 = 0) (h : 0x70 ≤ off) (hc : off ≤ 0xFC) :
    csrAt off = some .reserved := by
  obtain ⟨k, hk⟩ : ∃ k, off / 4 = k + 28 := ⟨off / 4 - 28, by omega⟩
  unfold csrAt
  rw [if_neg (by omega), hk]
  rfl

/-- Every aligned offset of the window reaches a register. -/
theorem csrAt_isSome {off : Nat} (h4 : off % 4 = 0) (hc : off ≤ 0xFC) : ∃ r, csrAt off = some r :=
  Option.ne_none_iff_exists'.mp fun h => by have := csrAt_eq_none.mp h; omega

/-- Out of reset exactly the accesses of another width, misaligned or beyond the window are refused. -/
theorem access_refused {s : State} {off width : Nat} (v : Word) (hr : s.rstN = true)
    (h : width ≠ 4 ∨ off % 4 ≠ 0 ∨ 0xFC < off) :
    memRead off width s = .refused .csrAccess ∧ memWrite off width v s = .refused .csrAccess := by
  unfold memRead memWrite
  by_cases hw : width = 4
  · have hn : csrAt off = none := csrAt_eq_none.mpr (h.resolve_left (not_not.mpr hw))
    simp [hr, hw, hn]
  · simp [hr, hw]

/-- A platform address outside the window reaches no offset (20_memory.md rule R71). -/
theorem windowOffset_outside {addr : Nat} (h : addr < Config.huffBase ∨ Config.huffBase + 0xFF < addr) :
    Config.windowOffset addr = none := if_neg (by omega)

/-- A register whose offset is known. -/
theorem csr_eq {off : Nat} {r r' : Csr} (h : csrAt off = some r) (h' : csrAt off = some r') : r = r' :=
  Option.some.inj (h.symm.trans h')

/-- Settles O58: every other access reaches a register, and its read or write is the register's. -/
theorem csrAccess : Obligations.CsrAccess := by
  refine ⟨fun s off width v hr => ⟨access_refused v hr, ?_⟩,
    fun s addr off width v rest => ⟨rfl, rfl, fun h => ?_, fun h => ?_⟩⟩
  · rintro rfl h4 hc
    obtain ⟨r, hcsr⟩ := csrAt_isSome h4 hc
    have hw : memWrite off 4 v s = csrWrite r v s := memWrite_csr v hr hcsr
    have exact' : ∀ {r'}, csrAt off = some r' → r'.freeWhenBusy = false → s.readValue r = s.csrValue r' := by
      intro r' h hf
      rw [csr_eq hcsr h, State.readValue, hf, Bool.and_false]
      rfl
    have quiet : s.phase = .idle → ∀ {r'}, csrAt off = some r' → s.readValue r = s.csrValue r' := by
      intro hp r' h
      rw [csr_eq hcsr h, State.readValue, State.busy_eq_false.mpr hp]
      rfl
    refine ⟨⟨_, s.readValue r, memRead_csr hr hcsr, s.csrRead_readValue off r, ?_, ?_, ?_, ?_, ?_, ?_, ?_, ?_, ?_, ?_,
      ?_, fun hp => ⟨?_, ?_, ?_, ?_⟩⟩, hw ▸ csrWrite_completes r v s, ?_, ?_, ?_, ?_, ?_⟩
    · rintro rfl; exact exact' (r' := .id) rfl rfl
    · rintro rfl; exact exact' (r' := .cmd) rfl rfl
    · rintro rfl; exact exact' (r' := .errCode) rfl rfl
    · rintro rfl; exact exact' (r' := .errInfo) rfl rfl
    · rintro rfl; exact exact' (r' := .irqEn) rfl rfl
    · rintro rfl; exact exact' (r' := .ctrl) rfl rfl
    · rintro rfl; exact exact' (r' := .magic) rfl rfl
    · rintro rfl; exact exact' (r' := .freqIdx) rfl rfl
    · rintro rfl; exact exact' (r' := .codeIdx) rfl rfl
    · rintro rfl; exact exact' (r' := .nodeIdx) rfl rfl
    · exact fun h => exact' (csrAt_reserved h4 h hc) rfl
    · rintro rfl; exact quiet hp (r' := .inBytes) rfl
    · rintro rfl; exact quiet hp (r' := .outBytes) rfl
    · rintro rfl; exact quiet hp (r' := .root) rfl
    · rintro rfl; exact quiet hp (r' := .nodes) rfl
    · rintro rfl; exact memWrite_csr v hr (r := .irqEn) rfl
    · rintro rfl; exact memWrite_csr v hr (r := .freqIdx) rfl
    · rintro rfl; exact memWrite_csr v hr (r := .codeIdx) rfl
    · rintro rfl; exact memWrite_csr v hr (r := .nodeIdx) rfl
    · rintro (h | h) <;> rw [hw]
      · have := csrAt_readOnly off h
        rw [hcsr] at this
        exact csrWrite_readOnly (Option.some.inj this) v s
      · rw [csr_eq hcsr (csrAt_reserved h4 h hc)]
        rfl
  · simp [step, moveNext, windowOffset_base h]
  · simp [step, moveNext, windowOffset_outside h]

/-! ### The reset state -/

/-- Settles O12: the reset state is a block in its reset state, and holds no tree. -/
theorem invAtReset : Obligations.InvAtReset :=
  ⟨State.resetBlock_inv (s := State.reset) (Nat.le_refl 0), State.treeInv_of_standing (fun h => absurd rfl h) nofun⟩

/-- Settles O11: every register of the reset state is 0 but for ID and MAGIC, and the tables read 0 everywhere. -/
theorem resetState : Obligations.ResetState := by
  have hfreq : ∀ i, State.reset.freqAt i = 0 := fun i => by
    unfold State.freqAt State.reset
    rw [Vector.getElem?_replicate]
    split <;> rfl
  have hlen : ∀ i, State.reset.codeLenAt i = 0 := fun i => by
    unfold State.codeLenAt State.reset
    rw [Vector.getElem?_replicate]
    split <;> rfl
  have hbits : ∀ i, State.reset.codeBitsAt i = 0 := fun i => by
    unfold State.codeBitsAt State.reset
    rw [Vector.getElem?_replicate]
    split <;> rfl
  refine ⟨?_, ⟨rfl, rfl, rfl⟩, rfl, rfl, rfl, rfl, rfl⟩
  exact {
    idle := rfl
    registers := fun r => by
      cases r with
      | freqData => exact hfreq _
      | codeLen => exact congrArg (BitVec.setWidth 32) (hlen _)
      | codeBits w => exact State.codeWord_eq_zero (hlen _) w
      | _ => rfl
    irqEn := rfl
    indices := ⟨rfl, rfl, rfl⟩
    freq := hfreq
    tree := ⟨rfl, rfl⟩
    codes := fun i => ⟨hlen i, hbits i⟩
    reader := ⟨rfl, rfl⟩
    writer := ⟨rfl, rfl⟩
    walker := rfl
    queue := rfl
    lastCmd := rfl
    irq := rfl }

end Sys2Proof.Machine
end

section
/-! SUPPORT. The decoder after the encoder, row by row, and the step that runs an instruction (O16). -/

namespace Sys2Proof.Machine

/-! ### The decoder of an encoded instruction -/

/-- A bit sequence read backwards: from bit 0 up. -/
theorem bitsOf_reverse {w : Nat} (n : Nat) (v : BitVec w) : (bitsOf n v).reverse = (List.range n).map v.getLsbD := by
  induction n with
  | zero => rfl
  | succ n ih => rw [bitsOf, List.reverse_cons, ih, List.range_succ, List.map_append]; rfl

/-- A value is that of all its bits. -/
@[simp] theorem ofBits_bitsOf {w : Nat} (v : BitVec w) : ofBits w (bitsOf w v) = v := by
  apply BitVec.eq_of_getLsbD_eq
  intro i hi
  rw [ofBits_getLsbD (bitsOf_length w v).le, bitsOf_reverse]
  simp [hi]

/-- A leaf's ten bits are its token, whatever follows them (30_encoding.md rule R106). -/
theorem decodeToken_leaf (sym : Sym) (rest : List Bool) :
    decodeToken (tokenBits (some sym) ++ rest) = .ok (.hdrLeaf sym, rest) := by
  have h : decodeToken (tokenBits (some sym) ++ rest) = .ok (.hdrLeaf (ofBits 9 (bitsOf 9 sym)), rest) := rfl
  rw [h, ofBits_bitsOf]

/-- A CMD word with a reserved bit set decodes to its two fields (30_encoding.md rule R103). -/
theorem decodeCmd_reserved {reserved : BitVec 28} (h : reserved ≠ 0#28) (op : BitVec 4) :
    decodeCmd (reserved ++ op) = .illegalReservedBits reserved op := by
  have hres : (reserved ++ op).extractLsb' 4 28 = reserved := by
    rw [BitVec.extractLsb'_append_eq_of_le (Nat.le_refl 4), Nat.sub_self, BitVec.extractLsb'_eq_self]
  have hop : (reserved ++ op).extractLsb' 0 4 = op := by
    rw [BitVec.extractLsb'_append_eq_of_add_le (Nat.le_refl 4), BitVec.extractLsb'_eq_self]
  unfold decodeCmd
  rw [hres, hop, if_neg h]

/-- A CTRL word with bit 0 set decodes to the soft reset with its other bits (30_encoding.md rule R104). -/
theorem decodeCtrl_softReset (ignored : BitVec 31) : decodeCtrl (ignored ++ 1#1) = .ok (.softReset ignored) := by
  have h0 : (ignored ++ 1#1).getLsbD 0 = true := by rw [BitVec.getLsbD_append]; rfl
  have hrest : (ignored ++ 1#1).extractLsb' 1 31 = ignored := by
    rw [BitVec.extractLsb'_append_eq_of_le (Nat.le_refl 1), Nat.sub_self, BitVec.extractLsb'_eq_self]
  unfold decodeCtrl
  rw [if_pos h0, hrest]

/-- The pattern of a well-formed instruction decodes to it (30_encoding.md rules R100 to R107). -/
theorem decode_encode {i : Instr} (h : i.wellFormed = true) : decode (encode i) = .ok i := by
  cases i with
  | illegalOpAB low => revert low; decide
  | illegalOpCF low => revert low; decide
  | illegalReservedBits reserved op =>
    have hr : reserved ≠ 0#28 := by simpa [Instr.wellFormed] using h
    exact congrArg Except.ok (decodeCmd_reserved hr op)
  | softReset ignored => exact decodeCtrl_softReset ignored
  | hdrLeaf sym => exact congrArg (Except.map Prod.fst) (decodeToken_leaf sym [])
  | _ => rfl

/-- Header bits that decode hold a complete token (30_encoding.md rule R109). -/
theorem decodeToken_of_decode {bits : List Bool} {i : Instr} (h : decode (.headerBits bits) = .ok i) :
    ∃ more, decodeToken bits = .ok (i, more) := by
  have h : (decodeToken bits).map Prod.fst = .ok i := h
  cases hd : decodeToken bits with
  | error e => rw [hd] at h; cases h
  | ok token => rw [hd] at h; cases h; exact ⟨token.2, rfl⟩

/-! ### The step that runs an instruction -/

/-- A CTRL write that decodes is the instruction's meaning. -/
theorem csrWrite_ctrl {w : Word} {i : Instr} (h : decodeCtrl w = .ok i) (s : State) :
    csrWrite .ctrl w s = exec i s := by
  simp [csrWrite, h]

/-- The step of HDR_READ at a complete token is the token's meaning (44_header_codec.md rule R196). -/
theorem blockStep_token {s : State} {bits more : List Bool} {slots : List Slot} {i : Instr} (hr : s.rstN = true)
    (hp : s.phase = .hdrRead) (hs : s.seq = .token bits slots) (h : decodeToken bits = .ok (i, more)) :
    blockStep s = exec i s := by
  rw [blockStep_running hr]
  simp [phaseStep, hp, hdrReadStep, hs, h]

/-- The next move a CMD write, the step is the decoded word's meaning (47_control.md rule R250). -/
theorem step_writeCmd {s : State} (hr : s.rstN = true) (w : Word) (rest : List Move) :
    step { s with agenda := .write 0x04 4 w :: rest } = exec (decodeCmd w) { s with agenda := rest } :=
  memWrite_csr (s := { s with agenda := rest }) (off := 0x04) (r := .cmd) w hr rfl

/-- The next move a CTRL write that decodes, the step is the decoded word's meaning (47_control.md rule R258). -/
theorem step_writeCtrl {s : State} (hr : s.rstN = true) {w : Word} {i : Instr} (h : decodeCtrl w = .ok i)
    (rest : List Move) : step { s with agenda := .write 0x18 4 w :: rest } = exec i { s with agenda := rest } :=
  (memWrite_csr (s := { s with agenda := rest }) (off := 0x18) (r := .ctrl) w hr rfl).trans (csrWrite_ctrl h _)

/-- Settles O16: a write reaches its register and HDR_READ its complete token, and the decoder gives back what was
encoded. -/
theorem stepRunsInstruction : Obligations.StepRunsInstruction := by
  refine ⟨fun s w rest hr => step_writeCmd hr w rest, fun s w rest i hr h => step_writeCtrl hr h rest,
    fun s bits more slots i hr hp hs h => ⟨fun ha => ?_, fun rest ha => ?_⟩, fun s i hi => ?_⟩
  · rw [step_alone ha, blockStep_token hr hp hs h]
  · have hstep : step s = blockStep { s with agenda := rest } := by simp [step, moveNext, ha]
    rw [hstep, blockStep_token (s := { s with agenda := rest }) hr hp hs h]
  · have hd := decode_encode hi
    refine ⟨fun w he => ?_, fun bits he => ?_⟩
    · rcases he with he | he <;> rw [he] at hd ⊢
      · cases hd
        exact step_writeCmd (s := { s with rstN := true }) rfl w s.agenda
      · exact step_writeCtrl (s := { s with rstN := true }) rfl hd s.agenda
    · rw [he] at hd ⊢
      obtain ⟨more, hm⟩ := decodeToken_of_decode hd
      exact blockStep_token (s := { s with rstN := true, phase := .hdrRead, seq := .token bits s.pendingSlots })
        rfl rfl rfl hm

end Sys2Proof.Machine
end

section
/-! SUPPORT. What a CSR write leaves unchanged (O51), which registers read free values (O57), and the load (O60). -/

namespace Sys2Proof.Machine

/-! ### The frame of a CSR write -/

/-- What a write of register `r` leaves unchanged. -/
structure State.WriteFramed (s : State) (r : Csr) (t : State) : Prop where
  freq : r ≠ .freqData → r ≠ .ctrl → t.freq = s.freq
  tables : r ≠ .ctrl → t.node = s.node ∧ t.nodes = s.nodes ∧ t.root = s.root ∧ t.codeLen = s.codeLen ∧
    t.codeBits = s.codeBits
  control : r ≠ .ctrl → r ≠ .cmd → t.phase = s.phase ∧ t.lastCmd = s.lastCmd ∧ t.errCode = s.errCode ∧
    t.errInfo = s.errInfo ∧ t.inBytes = s.inBytes ∧ t.outBytes = s.outBytes ∧ t.rbuf = s.rbuf ∧ t.rcnt = s.rcnt ∧
    t.wbuf = s.wbuf ∧ t.wcnt = s.wcnt ∧ t.cur = s.cur ∧ t.pq = s.pq ∧ t.seq = s.seq
  host : t.magic = s.magic ∧ t.rstN = s.rstN ∧ t.inData = s.inData ∧ t.inPos = s.inPos ∧ t.outLog = s.outLog ∧
    t.agenda = s.agenda ∧ t.reads = s.reads ∧ t.draws = s.draws

/-- Nothing changes. -/
theorem State.WriteFramed.refl (s : State) (r : Csr) : s.WriteFramed r s := by
  constructor <;> simp

/-- What a CMD word leaves unchanged: the tables and the host's side. -/
theorem exec_decodeCmd_framed {w : Word} {s t : State} (h : exec (decodeCmd w) s = .next t) :
    s.WriteFramed .cmd t := by
  rcases exec_decodeCmd h with ⟨-, rfl⟩ | ⟨-, ⟨op, rfl⟩ | ⟨v, rfl | rfl⟩⟩
  · exact { State.WriteFramed.refl s .cmd with }
  · rw [State.commandStart_eq]
    exact { State.WriteFramed.refl s .cmd with control := fun _ h => absurd rfl h }
  · exact { State.WriteFramed.refl s .cmd with control := fun _ h => absurd rfl h }
  · exact { State.WriteFramed.refl s .cmd with control := fun _ h => absurd rfl h }

/-- A soft reset keeps the host's side. -/
theorem State.resetBlock_framed (s : State) : s.WriteFramed .ctrl s.resetBlock :=
  { State.WriteFramed.refl s .ctrl with
    freq := fun _ h => absurd rfl h
    tables := fun h => absurd rfl h
    control := fun h => absurd rfl h }

/-- A write of FREQ_DATA touches FREQ or OVERRUN alone. -/
theorem State.writeFreqData_framed (s : State) (v : Word) : s.WriteFramed .freqData (s.writeFreqData v) := by
  unfold State.writeFreqData
  split
  · exact { State.WriteFramed.refl s .freqData with }
  · exact { State.WriteFramed.refl s .freqData with freq := fun h => absurd rfl h }

/-- Settles O51: the write is a CMD word, a soft reset, a write of FREQ_DATA, or one of STATUS, IRQ_EN or an index
register, which writes its own field alone. -/
theorem hostWriteFrame : Obligations.HostWriteFrame := by
  intro r v s t h
  have hf : s.WriteFramed r t := by
    rcases csrWrite_cases h with ⟨rfl, h⟩ | ⟨rfl, -, rfl⟩ | ⟨rfl, rfl⟩ | ⟨rfl, rfl⟩ | ⟨rfl, rfl⟩ | ⟨rfl, rfl⟩ |
      ⟨rfl, rfl⟩ | ⟨rfl, rfl⟩ | rfl
    · exact exec_decodeCmd_framed h
    · exact s.resetBlock_framed
    · exact { State.WriteFramed.refl s .status with }
    · exact { State.WriteFramed.refl s .irqEn with }
    · exact { State.WriteFramed.refl s .freqIdx with }
    · exact { State.WriteFramed.refl s .codeIdx with }
    · exact { State.WriteFramed.refl s .nodeIdx with }
    · exact s.writeFreqData_framed v
    · exact .refl t r
  exact ⟨hf.freq, hf.tables, hf.control, hf.host⟩

/-! ### The free reads -/

/-- The offsets of the registers that read a free value while BUSY = 1 (20_memory.md rule R74). -/
def freeOffsets : List Nat :=
  [0x20, 0x24, 0x28, 0x2C, 0x34, 0x3C, 0x40, 0x44, 0x48, 0x4C, 0x50, 0x54, 0x58, 0x5C, 0x64, 0x68, 0x6C]

/-- The register at an aligned offset of the window is free while BUSY = 1 exactly at those offsets. -/
theorem csrAt_freeWhenBusy : ∀ k < 64,
    (csrAt (4 * k)).map Csr.freeWhenBusy = some (decide (4 * k ∈ freeOffsets)) := by decide

/-- A free register draws a value while BUSY = 1. -/
theorem State.csrRead_free {s : State} (hp : s.phase ≠ .idle) (off : Nat) {r : Csr} (h : r.freeWhenBusy = true) :
    s.csrRead off r =
      { s with reads := s.reads ++ [(off, Config.freeRead s.draws)], draws := s.draws + 1 } := by
  rw [State.csrRead, State.busy_eq_true.mpr hp, h]
  rfl

/-- Settles O57: an aligned offset reaches a register, and the offset says whether it is one of the free ones. -/
theorem anyValueReads : Obligations.AnyValueReads := by
  intro s off hr h4 hc hp
  obtain ⟨r, hcsr⟩ := csrAt_isSome h4 hc
  have hfree : r.freeWhenBusy = decide (off ∈ freeOffsets) := by
    have h := csrAt_freeWhenBusy (off / 4) (by omega)
    rw [Nat.mul_div_cancel' (Nat.dvd_of_mod_eq_zero h4), hcsr] at h
    exact Option.some.inj h
  rw [memRead_csr hr hcsr]
  split
  · rw [State.csrRead_free hp off (hfree.trans (decide_eq_true ‹off ∈ freeOffsets›))]
  · exact ⟨r, hcsr, by rw [State.csrRead_exact s off (hfree.trans (decide_eq_false ‹off ∉ freeOffsets›))]⟩

/-! ### The load -/

/-- Settles O60: the load is the host's next move, and asks for BUSY = 0. -/
theorem loadInput_spec : Obligations.LoadInput := by
  intro s bytes rest
  have hstep : step { s with agenda := .loadIn bytes :: rest } = loadInput bytes { s with agenda := rest } := rfl
  rw [hstep, loadInput]
  exact ⟨fun hp => if_neg (by simp [hp]), fun hp => if_pos (State.busy_eq_true.mpr hp)⟩

end Sys2Proof.Machine
end

section
/-! SUPPORT. The tokens a step sends: at most one, and `End` in FLUSH alone (O52). -/

namespace Sys2Proof.Machine

/-! ### The tokens the bit writer sends -/

/-- Writing a bit sends a byte for every eight bits gathered. -/
theorem State.writeBit_sent (s : State) (b : Bool) :
    ∃ l, (s.writeBit b).outLog = s.outLog ++ l ∧ .close ∉ l ∧
      8 * l.length + (s.writeBit b).wcnt.toNat = s.wcnt.toNat + 1 := by
  rcases s.writeBit_cases b with ⟨h7, h⟩ | ⟨h7, h⟩ <;> rw [h]
  · exact ⟨[.byte (s.wbuf.shiftConcat b)], rfl, by simp, by rw [h7]; rfl⟩
  · have : s.wcnt.toNat ≠ 7 := fun h => h7 (BitVec.eq_of_toNat_eq h)
    refine ⟨[], by simp, by simp, ?_⟩
    simp only [BitVec.toNat_add]
    simp
    omega

/-- Writing bits sends a byte for every eight bits gathered. -/
theorem State.writeList_sent (bits : List Bool) (s : State) :
    ∃ l, (s.writeList bits).outLog = s.outLog ++ l ∧ .close ∉ l ∧
      8 * l.length + (s.writeList bits).wcnt.toNat = s.wcnt.toNat + bits.length := by
  induction bits generalizing s with
  | nil => exact ⟨[], (List.append_nil _).symm, List.not_mem_nil, by simp [State.writeList]⟩
  | cons b bits ih =>
    obtain ⟨l, hl, hc, hn⟩ := s.writeBit_sent b
    obtain ⟨l', hl', hc', hn'⟩ := ih (s.writeBit b)
    have hw : s.writeList (b :: bits) = (s.writeBit b).writeList bits := rfl
    refine ⟨l ++ l', by rw [hw, hl', hl, List.append_assoc], by simp [hc, hc'], ?_⟩
    rw [hw, List.length_append, List.length_cons]
    omega

/-! ### The tokens a step sends -/

/-- From `s` to `t` at most one token is sent, and it is no `End`. -/
def State.SendsByte (s t : State) : Prop := ∃ l, t.outLog = s.outLog ++ l ∧ l.length ≤ 1 ∧ .close ∉ l

/-- Nothing is sent. -/
theorem State.sendsByte_of_eq {s t : State} (h : t.outLog = s.outLog) : s.SendsByte t :=
  ⟨[], by rw [h, List.append_nil], Nat.zero_le 1, List.not_mem_nil⟩

/-- What is sent is what OUT_LOG holds. -/
theorem State.SendsByte.congr {s t u : State} (h : s.SendsByte u) (ht : t.outLog = u.outLog) : s.SendsByte t := by
  rw [State.SendsByte, ht]
  exact h

/-- At most eight bits complete at most one byte. -/
theorem State.writeList_sendsByte (s : State) {bits : List Bool} (h : bits.length ≤ 8) :
    s.SendsByte (s.writeList bits) := by
  obtain ⟨l, hl, hc, hn⟩ := s.writeList_sent bits
  exact ⟨l, hl, by have := s.wcnt.isLt; omega, hc⟩

theorem State.writeBits_sendsByte {w n : Nat} (s : State) (h : n ≤ 8) (v : BitVec w) :
    s.SendsByte (s.writeBits n v) :=
  s.writeList_sendsByte ((bitsOf_length n v).trans_le h)

/-- One bit completes at most one byte. -/
theorem State.writeBit_sendsByte (s : State) (b : Bool) : s.SendsByte (s.writeBit b) :=
  s.writeList_sendsByte (bits := [b]) (by simp)

/-- The move to the next phase sends nothing. -/
theorem State.nextPhase_outLog (s : State) : s.nextPhase.outLog = s.outLog :=
  ((s.nextPhase_framed .idle).output (by decide)).1

/-- A read of a bit sends nothing. -/
theorem State.readBit_outLog {s t : State} {o : Option Bool} (h : s.readBit = (o, t)) : t.outLog = s.outLog := by
  obtain ⟨⟨p, n, r, c, rfl⟩, -⟩ := State.readBit_turn h
  rfl

/-- A read of bits sends nothing. -/
theorem State.readBits_outLog {s t : State} {n : Nat} {o : BitsRead} (h : s.readBits n = (o, t)) :
    t.outLog = s.outLog := by
  obtain ⟨⟨p, m, r, c, rfl⟩, -⟩ := State.readBits_turn h
  rfl

/-- A code that is due sends nothing yet. -/
theorem State.startCode_outLog (s : State) (sym : Sym) (last : Bool) : (s.startCode sym last).outLog = s.outLog := by
  rcases s.startCode_cases sym last with ⟨-, h⟩ | ⟨-, h⟩ <;> rw [h]
  rfl

/-- The HDR_WRITE phase sends bytes, one a step at most. -/
theorem hdrWriteStep_sendsByte {s t : State} (h : hdrWriteStep s = .next t) : s.SendsByte t := by
  unfold hdrWriteStep at h
  split at h <;> cases h
  · unfold State.hdrWriteStart
    split <;> exact State.sendsByte_of_eq rfl
  · exact (s.writeBit_sendsByte _).congr rfl
  · rename_i i todo _
    rcases s.hdrNode_cases i todo with ⟨-, h⟩ | ⟨-, h⟩ <;> rw [h] <;> exact State.sendsByte_of_eq rfl
  · exact State.sendsByte_of_eq rfl
  · exact State.sendsByte_of_eq s.nextPhase_outLog

/-- The ENCODE phase sends bytes, one a step at most. -/
theorem encodeStep_sendsByte {s t : State} (h : encodeStep s = .next t) : s.SendsByte t := by
  unfold encodeStep at h
  split at h <;> cases h
  · exact State.sendsByte_of_eq rfl
  · unfold State.encodeByte
    split <;> exact State.sendsByte_of_eq ((State.startCode_outLog _ _ _).trans (State.readBits_outLog ‹_›))
  · exact (s.writeBit_sendsByte _).congr rfl
  · split <;> exact State.sendsByte_of_eq rfl
  · exact State.sendsByte_of_eq s.nextPhase_outLog

/-- The DECODE phase sends bytes, one a step at most: a symbol is written as eight bits. -/
theorem decodeStep_sendsByte {s t : State} (h : decodeStep s = .next t) : s.SendsByte t := by
  unfold decodeStep at h
  split at h <;> cases h
  · split <;> exact State.sendsByte_of_eq rfl
  · unfold State.decodeSymbol
    dsimp only
    split
    · split <;> rename_i hr <;> have hout := State.readBit_outLog hr <;> exact State.sendsByte_of_eq hout
    · exact State.sendsByte_of_eq rfl
  · unfold State.decodeDescend
    split
    · split
      · exact State.sendsByte_of_eq rfl
      · have hsend := s.writeBits_sendsByte (Nat.le_refl 8) (s.nodeAt s.cur).sym
        generalize s.writeBits 8 (s.nodeAt s.cur).sym = u at hsend ⊢
        exact hsend.congr rfl
    · split <;> rename_i hr <;> have hout := State.readBit_outLog hr <;> exact State.sendsByte_of_eq hout
  · exact State.sendsByte_of_eq s.nextPhase_outLog

/-- The FLUSH phase sends one token a step at most: `End`, or the byte a pad bit completes. -/
theorem flushStep_sends {s t : State} (h : flushStep s = .next t) :
    s.SendsByte t ∨ t.outLog = s.outLog ++ [.close] := by
  unfold flushStep at h
  split at h <;> cases h
  · split
    · exact .inr rfl
    · exact .inl (s.writeBit_sendsByte false)
  · exact .inl (State.sendsByte_of_eq s.nextPhase_outLog)

/-- A step of the block sends a byte at most, or `End`, in FLUSH. -/
theorem blockStep_sends {s t : State} (h : blockStep s = .next t) :
    s.SendsByte t ∨ (s.phase = .flush ∧ t.outLog = s.outLog ++ [.close]) := by
  have quiet (hp : s.phase ∉ ([.hdrWrite, .encode, .flush, .decode] : List Phase)) : s.SendsByte t := by
    obtain ⟨-, -, -, hout, -⟩ := blockFrame s t h
    exact State.sendsByte_of_eq (hout hp).1
  rcases blockStep_cases h with rfl | ⟨-, -, hstep⟩
  · exact .inl (State.sendsByte_of_eq rfl)
  · cases hp : s.phase with
    | hdrWrite => exact .inl (hdrWriteStep_sendsByte (by rwa [phaseStep, hp] at hstep))
    | encode => exact .inl (encodeStep_sendsByte (by rwa [phaseStep, hp] at hstep))
    | flush => exact (flushStep_sends (by rwa [phaseStep, hp] at hstep)).imp_right fun h => ⟨rfl, h⟩
    | decode => exact .inl (decodeStep_sendsByte (by rwa [phaseStep, hp] at hstep))
    | _ => exact .inl (quiet (by simp [hp]))

/-- Settles O52: only a step of the block sends, and the moves of the host leave OUT_LOG as it was. -/
theorem outLogGrows : Obligations.OutLogGrows := by
  intro s t h
  have hsend : s.SendsByte t ∨ (s.phase = .flush ∧ t.outLog = s.outLog ++ [.close]) := by
    rcases step_cases h with ⟨rest, h⟩ | ⟨rest, off, r, -, -, rfl⟩ | ⟨rest, off, r, v, -, -, h⟩ |
      ⟨rest, bytes, -, rfl⟩ | ⟨rest, rfl⟩ | ⟨rest, r, rfl⟩
    · exact blockStep_sends (s := { s with agenda := rest }) h
    · obtain ⟨x, d, h⟩ := State.csrRead_frame { s with agenda := rest } off r
      rw [h]
      exact .inl (State.sendsByte_of_eq rfl)
    · obtain ⟨-, -, -, -, -, -, -, hout, -⟩ := hostWriteFrame r v _ t h
      exact .inl (State.sendsByte_of_eq hout)
    all_goals exact .inl (State.sendsByte_of_eq rfl)
  rcases hsend with ⟨l, hl, hn, hc⟩ | ⟨hp, hl⟩
  · exact ⟨l, hl, hn, fun h => absurd h hc⟩
  · exact ⟨[.close], hl, Nat.le_refl 1, fun _ => hp⟩

end Sys2Proof.Machine
end

section
/-! SUPPORT. The encoding family: the encoder after the decoder (O3), the words of the tables (O1, O2), and what a complete
header token leaves (O17, O18). -/

namespace Sys2Proof.Machine

/-! ### The encoder after the decoder -/

/-- A bit sequence is its value's bits. -/
theorem bitsOf_ofBits {w : Nat} {bits : List Bool} (h : bits.length = w) : bitsOf w (ofBits w bits) = bits := by
  rw [← List.reverse_inj, bitsOf_reverse]
  refine List.ext_getElem (by simp [h]) fun i hi _ => ?_
  have hi : i < bits.length := by simpa [h] using hi
  simp [ofBits_getLsbD h.le, hi]

/-- A CMD word is its reserved bits over its OP (30_encoding.md rule R100). -/
theorem cmdWord_fields (w : Word) : w.extractLsb' 4 28 ++ w.extractLsb' 0 4 = w := by
  apply BitVec.eq_of_getLsbD_eq
  intro i hi
  rw [BitVec.getLsbD_append, BitVec.getLsbD_extractLsb', BitVec.getLsbD_extractLsb']
  by_cases h : i < 4
  · simp [h]
  · simp [h, show i - 4 < 28 by omega, show 4 + (i - 4) = i by omega]

/-- Every CMD word is the word of the row it decodes to (30_encoding.md rules R100, R101, R103). -/
theorem encode_decodeCmd (w : Word) : (decodeCmd w).wellFormed = true ∧ encode (decodeCmd w) = .cmdWord w := by
  by_cases h : w.extractLsb' 4 28 = 0#28
  · have hop : ∀ op : BitVec 4,
        (decodeCmd (opWord op)).wellFormed = true ∧ encode (decodeCmd (opWord op)) = .cmdWord (opWord op) := by decide
    have hw : w = opWord (w.extractLsb' 0 4) := by rw [opWord, ← h, cmdWord_fields]
    rw [hw]
    exact hop _
  · have hd : decodeCmd w = .illegalReservedBits (w.extractLsb' 4 28) (w.extractLsb' 0 4) := by
      rw [decodeCmd, if_neg h]
    rw [hd, encode, cmdWord_fields]
    exact ⟨by simpa [Instr.wellFormed] using h, rfl⟩

/-- A CTRL word with bit 0 set is its other bits over that bit (30_encoding.md rule R104). -/
theorem ctrlWord_fields {w : Word} (h : w.getLsbD 0 = true) : w.extractLsb' 1 31 ++ 1#1 = w := by
  apply BitVec.eq_of_getLsbD_eq
  intro i hi
  rw [BitVec.getLsbD_append, BitVec.getLsbD_extractLsb']
  cases i with
  | zero => simp [h]
  | succ i => simp [show i < 31 by omega, Nat.add_comm 1 i]

/-- A CTRL word decodes to an instruction exactly when it is that instruction's word (30_encoding.md rule R104). -/
theorem decodeCtrl_eq_ok {w : Word} {i : Instr} : decodeCtrl w = .ok i ↔ encode i = .ctrlWord w := by
  constructor
  · intro h
    unfold decodeCtrl at h
    split at h <;> cases h
    rw [encode, ctrlWord_fields ‹_›]
  · intro h
    cases i <;> cases h
    exact decodeCtrl_softReset _

/-- A bit sequence decodes to a token exactly when it begins with the token's bits (30_encoding.md rules R106, R109). -/
theorem decodeToken_eq_ok {bits rest : List Bool} {i : Instr} :
    decodeToken bits = .ok (i, rest) ↔ ∃ token, encode i = .headerBits token ∧ bits = token ++ rest := by
  constructor
  · intro h
    unfold decodeToken at h
    split at h <;> cases h
    · exact ⟨[false], rfl, rfl⟩
    · refine ⟨_, rfl, ?_⟩
      rw [tokenBits, bitsOf_ofBits (w := 9)] <;> rfl
  · rintro ⟨token, h, rfl⟩
    cases i <;> cases h
    · rfl
    · exact decodeToken_leaf _ rest

/-- Settles O3: the two fields of a CMD word, a CTRL word's bit 0, and a token's bits give the pattern back. -/
theorem encodeDecode : Obligations.EncodeDecode := by
  refine ⟨encode_decodeCmd, fun w i => decodeCtrl_eq_ok, fun w => ?_, fun bits i rest => decodeToken_eq_ok⟩
  unfold decodeCtrl
  cases w.getLsbD 0 <;> simp

/-- Settles O2: row by row, the decoder takes the encoder's fields apart again. -/
theorem decodeEncode : Obligations.DecodeEncode := fun _ => decode_encode

/-- Settles O1: each word evaluated by the decoders. -/
theorem decodeWords : Obligations.DecodeWords := by
  unfold Obligations.DecodeWords
  decide

/-! ### A complete header token -/

/-- Linking a child writes the field of the slot it fills, in the entry of the slot's parent. -/
theorem State.nodeAt_linkChild_eq {s : State} {o : Option Slot} (ho : ∀ slot ∈ o, slot.parent.toNat < 513)
    (i p : NodeIdx) : (s.linkChild i o).nodeAt p =
      (if o = some ⟨p, .left⟩ then { s.nodeAt p with left := i }
       else if o = some ⟨p, .right⟩ then { s.nodeAt p with right := i }
       else s.nodeAt p) := by
  rcases o with _ | ⟨q, side⟩
  · simp [State.linkChild]
  · have hq : q.toNat < 513 := ho _ rfl
    by_cases h : p = q
    · subst h
      cases side <;> simp [State.linkChild, State.nodeAt_setNode hq]
    · have h' : ¬q = p := fun e => h e.symm
      cases side <;> simp [State.linkChild, State.nodeAt_setNode hq, h, h']

/-- Node memory after a token's node and its link: the new entry, the field of the slot that was due, and every other entry
as it was (44_header_codec.md rules R196, R197). -/
theorem State.nodeAt_tokenNode {s : State} (hn : s.nodes.toNat ≤ 512)
    (hslots : ∀ slot ∈ s.pendingSlots, slot.parent < s.nodes) (n : Node) :
    let u := (s.allocNode n).linkChild s.nodes s.pendingSlots.head?
    u.nodeAt s.nodes = n ∧ ∀ p, p ≠ s.nodes → u.nodeAt p =
      (if s.pendingSlots.head? = some ⟨p, .left⟩ then { s.nodeAt p with left := s.nodes }
       else if s.pendingSlots.head? = some ⟨p, .right⟩ then { s.nodeAt p with right := s.nodes }
       else s.nodeAt p) := by
  intro u
  have hlt : ∀ slot ∈ s.pendingSlots.head?, slot.parent < s.nodes :=
    fun slot h => hslots slot (List.mem_of_mem_head? h)
  have hne : ∀ side, s.pendingSlots.head? ≠ some ⟨s.nodes, side⟩ :=
    fun side h => BitVec.lt_irrefl _ (hlt _ h)
  have hu : ∀ p, u.nodeAt p = _ := State.nodeAt_linkChild_eq (s := s.allocNode n)
    (fun slot h => lt_of_lt_of_le (BitVec.lt_def.mp (hlt slot h)) (by omega)) s.nodes
  refine ⟨?_, fun p hp => ?_⟩
  · rw [hu, if_neg (hne _), if_neg (hne _), State.nodeAt_allocNode (by omega), if_pos rfl]
  · rw [hu, State.nodeAt_allocNode (by omega), if_neg hp]

/-- With at most 512 nodes a token makes its node and links it (44_header_codec.md rule R196). -/
theorem State.headerNode_room {s : State} (hn : s.nodes.toNat ≤ 512) (n : Node) (opens : NodeIdx → List Slot) :
    ∃ v, (s.allocNode n).linkChild s.nodes s.pendingSlots.head? = { s with nodes := s.nodes + 1, node := v } ∧
      s.headerNode n opens =
        ({ s with nodes := s.nodes + 1, node := v } : State).afterToken (opens s.nodes ++ s.pendingSlots.tail) := by
  obtain ⟨v, hv⟩ := (s.allocNode n).linkChild_frame s.nodes s.pendingSlots.head?
  rcases s.headerNode_cases n opens with ⟨hfull, -⟩ | ⟨-, he⟩
  · rw [hfull] at hn
    exact absurd hn (by decide)
  · exact ⟨v, hv, by rw [he, hv]; rfl⟩

/-- Settles O17: the entry at NODES, its link, and its two slots, which leave the header unfinished. -/
theorem hdrInternalToken : Obligations.HdrInternalToken := by
  intro s hn hslots
  obtain ⟨v, hv, he⟩ := State.headerNode_room hn (Node.mkInternal 0 0 0) fun i => [⟨i, .left⟩, ⟨i, .right⟩]
  obtain ⟨hnew, hold⟩ := State.nodeAt_tokenNode hn hslots (Node.mkInternal 0 0 0)
  rw [hv] at hnew hold
  refine ⟨_, congrArg Host.Outcome.next he, rfl, ?_, ?_, ?_, ?_, hold⟩
  all_goals exact (congrArg _ hnew).trans rfl

/-- Settles O18: the entry at NODES and its link; the header ends when no slot is left. -/
theorem hdrLeafToken : Obligations.HdrLeafToken := by
  intro s sym hn hslots
  obtain ⟨v, hv, he⟩ := State.headerNode_room hn (Node.mkLeaf sym 0) fun _ => []
  obtain ⟨hnew, hold⟩ := State.nodeAt_tokenNode hn hslots (Node.mkLeaf sym 0)
  rw [hv] at hnew hold
  rw [List.nil_append] at he
  rcases State.afterToken_cases { s with nodes := s.nodes + 1, node := v } s.pendingSlots.tail with
    ⟨hnil, h⟩ | ⟨hne, h⟩ <;> rw [h] at he
  · refine ⟨_, congrArg Host.Outcome.next he, by simp [hnil], ?_, ?_, ?_, hold⟩
    all_goals exact (congrArg _ hnew).trans rfl
  · refine ⟨_, congrArg Host.Outcome.next he, by simp [hne], ?_, ?_, ?_, hold⟩
    all_goals exact (congrArg _ hnew).trans rfl

end Sys2Proof.Machine
end

section
/-! SUPPORT. Runs of a phase, the bit writer as a stream of bits (40_bitio.md rules R135, R136), the packing of bits into
bytes, and the FLUSH phase. -/

namespace Sys2Proof.Machine

/-! ### Runs of a phase -/

/-- A command runs in phase `p`, with no move of the host to come (70_reset_and_hazards.md rule R313). -/
structure State.Runs (s : State) (p : Phase) : Prop where
  outOfReset : s.rstN = true
  alone : s.agenda = []
  phase : s.phase = p

/-- A step of the running phase, and a run after it. -/
theorem State.Runs.head {s t u : State} {p : Phase} (h : s.Runs p) (hs : phaseStep s = .next t) (ht : Reaches t u) :
    Reaches s u :=
  .head ((step_alone h.alone).trans ((blockStep_running h.outOfReset).trans hs)) ht

/-- `s` with the command of OP `op` accepted and started (47_control.md rules R250, R251). -/
def State.accepted (s : State) (op : BitVec 4) : State := ({ s with lastCmd := opWord op } : State).commandStart op

/-- A command word accepted in a quiet state is the command's start (47_control.md rules R250, R251). -/
theorem State.Quiet.accepts {s : State} (h : s.Quiet) (op : BitVec 4) :
    s.cmdWrite (opWord op) (fun t => t.commandStart op) = s.accepted op :=
  State.cmdWrite_idle (State.busy_eq_false.mpr h.idle) _ _

/-- After a command's start the row's first phase runs (47_control.md rule R251). -/
theorem State.Quiet.runs {s : State} (h : s.Quiet) (op : BitVec 4) : (s.accepted op).Runs ((phaseRow op).headD .idle) := by
  rw [State.accepted, State.commandStart_eq]
  exact ⟨h.outOfReset, h.alone, rfl⟩

/-! ### The sequencer's position and the reader as updates -/

/-- `s` with the sequencer at `q`. -/
def State.atSeq (s : State) (q : Seq) : State := { s with seq := q }

/-- `s` at the start of phase `p`. -/
def State.enter (s : State) (p : Phase) : State := { s with phase := p, seq := .start }

/-- `s` with the IN channel at `p`, IN_BYTES `n`, and RBUF and RCNT as given. -/
def State.withReader (s : State) (p : Nat) (n : Word) (r : BitVec 8) (c : BitVec 4) : State :=
  { s with inPos := p, inBytes := n, rbuf := r, rcnt := c }

section
variable (s : State) (p p' : Nat) (n n' : Word) (r r' : BitVec 8) (c c' : BitVec 4) (q q' : Seq) (ph ph' : Phase)

@[simp] theorem State.atSeq_seq : (s.atSeq q).seq = q := rfl
@[simp] theorem State.atSeq_inPos : (s.atSeq q).inPos = s.inPos := rfl
@[simp] theorem State.atSeq_inBytes : (s.atSeq q).inBytes = s.inBytes := rfl
@[simp] theorem State.atSeq_rbuf : (s.atSeq q).rbuf = s.rbuf := rfl
@[simp] theorem State.withReader_inPos : (s.withReader p n r c).inPos = p := rfl
@[simp] theorem State.withReader_inBytes : (s.withReader p n r c).inBytes = n := rfl
@[simp] theorem State.withReader_seq : (s.withReader p n r c).seq = s.seq := rfl
@[simp] theorem State.withReader_rbuf : (s.withReader p n r c).rbuf = r := rfl
@[simp] theorem State.atSeq_codeOf : (s.atSeq q).codeOf = s.codeOf := rfl
@[simp] theorem State.atSeq_codeLenAt : (s.atSeq q).codeLenAt = s.codeLenAt := rfl
@[simp] theorem State.withReader_codeOf : (s.withReader p n r c).codeOf = s.codeOf := rfl
@[simp] theorem State.withReader_codeLenAt : (s.withReader p n r c).codeLenAt = s.codeLenAt := rfl
@[simp] theorem State.atSeq_inLeft : (s.atSeq q).inLeft = s.inLeft := rfl
@[simp] theorem State.withReader_inLeft : (s.withReader p n r c).inLeft = s.inData.drop p := rfl
@[simp] theorem State.atSeq_inData : (s.atSeq q).inData = s.inData := rfl
@[simp] theorem State.withReader_inData : (s.withReader p n r c).inData = s.inData := rfl
@[simp] theorem State.atSeq_lastCmd : (s.atSeq q).lastCmd = s.lastCmd := rfl
@[simp] theorem State.withReader_lastCmd : (s.withReader p n r c).lastCmd = s.lastCmd := rfl
@[simp] theorem State.atSeq_wcnt : (s.atSeq q).wcnt = s.wcnt := rfl
@[simp] theorem State.withReader_wcnt : (s.withReader p n r c).wcnt = s.wcnt := rfl
@[simp] theorem State.enter_lastCmd : (s.enter ph).lastCmd = s.lastCmd := rfl
@[simp] theorem State.enter_inData : (s.enter ph).inData = s.inData := rfl
@[simp] theorem State.enter_wcnt : (s.enter ph).wcnt = s.wcnt := rfl
@[simp] theorem State.enter_codeOf : (s.enter ph).codeOf = s.codeOf := rfl
@[simp] theorem State.enter_codeLenAt : (s.enter ph).codeLenAt = s.codeLenAt := rfl
@[simp] theorem State.enter_seq : (s.enter ph).seq = .start := rfl
@[simp] theorem State.atSeq_atSeq : (s.atSeq q).atSeq q' = s.atSeq q' := rfl
@[simp] theorem State.enter_atSeq : (s.atSeq q).enter ph = s.enter ph := rfl
@[simp] theorem State.enter_enter : (s.enter ph).enter ph' = s.enter ph' := rfl
@[simp] theorem State.withReader_withReader : (s.withReader p n r c).withReader p' n' r' c' = s.withReader p' n' r' c' := rfl
@[simp] theorem State.withReader_atSeq : (s.atSeq q).withReader p n r c = (s.withReader p n r c).atSeq q := rfl
@[simp] theorem State.withReader_enter : (s.enter ph).withReader p n r c = (s.withReader p n r c).enter ph := rfl

end

section
variable {s : State} {p q : Phase} (h : s.Runs p)
include h

theorem State.Runs.atSeq (q : Seq) : (s.atSeq q).Runs p := ⟨h.outOfReset, h.alone, h.phase⟩

theorem State.Runs.withReader (i : Nat) (n : Word) (r : BitVec 8) (c : BitVec 4) : (s.withReader i n r c).Runs p :=
  ⟨h.outOfReset, h.alone, h.phase⟩

theorem State.Runs.enter (q : Phase) : (s.enter q).Runs q := ⟨h.outOfReset, h.alone, rfl⟩

/-- The phase's rule has finished: PHASE takes the row's next phase (10_state.md rule R23). -/
theorem State.Runs.next (hp : p ≠ .idle) (hs : s.seq = .phaseEnd)
    (hrow : phaseAfter p (phaseRow (cmdOp s.lastCmd)) = some q) : Reaches s (s.enter q) := by
  refine h.head (phaseStep_phaseEnd (h.phase ▸ hp) hs) ?_
  rw [State.nextPhase, h.phase, hrow]
  exact .refl _

/-- The row's last phase has finished: the command completes (10_state.md rule R23). -/
theorem State.Runs.complete (hp : p ≠ .idle) (hs : s.seq = .phaseEnd)
    (hrow : phaseAfter p (phaseRow (cmdOp s.lastCmd)) = none) : Reaches s s.complete := by
  refine h.head (phaseStep_phaseEnd (h.phase ▸ hp) hs) ?_
  rw [State.nextPhase, h.phase, hrow]
  exact .refl _

end

/-! ### The bit writer -/

/-- A bit shifted in is the last of the bits sent. -/
theorem bitsOf_shiftConcat {w n : Nat} (h : n < w) (v : BitVec w) (b : Bool) :
    bitsOf (n + 1) (v.shiftConcat b) = bitsOf n v ++ [b] := by
  induction n with
  | zero => simp [bitsOf, h]
  | succ n ih =>
    rw [bitsOf, ih (by omega), bitsOf, BitVec.getLsbD_shiftConcat]
    simp [h]

/-- One bit more of the output stream (40_bitio.md rule R135). -/
theorem State.writeBit_eq (s : State) (b : Bool) : ∃ (bytes : List Byte) (w : BitVec 8) (c : BitVec 3),
    s.writeBit b = { s with
      outLog := s.outLog ++ bytes.map .byte, outBytes := s.outBytes + BitVec.ofNat 32 bytes.length
      wbuf := w, wcnt := c } ∧
    byteBits bytes ++ bitsOf c.toNat w = bitsOf s.wcnt.toNat s.wbuf ++ [b] ∧ (c = 0 → w = 0) := by
  rcases s.writeBit_cases b with ⟨h7, h⟩ | ⟨h7, h⟩
  · refine ⟨[s.wbuf.shiftConcat b], 0, 0, h, ?_, fun _ => rfl⟩
    rw [h7]
    simp [byteBits, bitsOf]
  · have hlt : s.wcnt.toNat < 7 := by
      have := s.wcnt.isLt
      have : s.wcnt.toNat ≠ 7 := fun h => h7 (BitVec.eq_of_toNat_eq h)
      omega
    have hc : (s.wcnt + 1).toNat = s.wcnt.toNat + 1 := by rw [BitVec.toNat_add]; simp; omega
    refine ⟨[], s.wbuf.shiftConcat b, s.wcnt + 1, by simpa using h, ?_, fun h0 => ?_⟩
    · rw [hc, bitsOf_shiftConcat (by omega)]
      rfl
    · rw [h0] at hc
      exact absurd hc (by simp)

@[simp] theorem State.writeList_append (s : State) (bits more : List Bool) :
    s.writeList (bits ++ more) = (s.writeList bits).writeList more :=
  List.foldl_append

/-- Bits more of the output stream: whole bytes leave, and are counted (40_bitio.md rules R135, R136). -/
theorem State.writeList_eq (s : State) (bits : List Bool) : ∃ (bytes : List Byte) (w : BitVec 8) (c : BitVec 3),
    s.writeList bits = { s with
      outLog := s.outLog ++ bytes.map .byte, outBytes := s.outBytes + BitVec.ofNat 32 bytes.length
      wbuf := w, wcnt := c } ∧
    byteBits bytes ++ bitsOf c.toNat w = bitsOf s.wcnt.toNat s.wbuf ++ bits ∧ (bits ≠ [] → c = 0 → w = 0) := by
  induction bits using List.reverseRecOn with
  | nil => exact ⟨[], s.wbuf, s.wcnt, by simp [State.writeList], by simp [byteBits], fun h => absurd rfl h⟩
  | append_singleton bits b ih =>
    obtain ⟨bytes, w, c, he, hb, -⟩ := ih
    obtain ⟨bytes', w', c', he', hb', h0⟩ := (s.writeList bits).writeBit_eq b
    have hw : s.writeList (bits ++ [b]) = (s.writeList bits).writeBit b := s.writeList_append bits [b]
    rw [he] at he' hb'
    refine ⟨bytes ++ bytes', w', c', by rw [hw, he, he']; simp [BitVec.ofNat_add, BitVec.add_assoc], ?_, fun _ => h0⟩
    have hsplit : byteBits (bytes ++ bytes') = byteBits bytes ++ byteBits bytes' := List.flatMap_append
    rw [hsplit, List.append_assoc, hb', ← List.append_assoc, hb, List.append_assoc]

section
variable (s : State) (bits : List Bool)

/-- An update that commutes with every bit commutes with the bits. -/
theorem State.writeList_comm {f : State → State} (hf : ∀ s b, (f s).writeBit b = f (s.writeBit b)) :
    (f s).writeList bits = f (s.writeList bits) :=
  List.foldl_hom f hf

@[simp] theorem State.writeList_atSeq (q : Seq) : (s.atSeq q).writeList bits = (s.writeList bits).atSeq q :=
  s.writeList_comm bits (f := (·.atSeq q)) fun s b => by
    unfold State.writeBit State.atSeq; dsimp only; split <;> rfl

@[simp] theorem State.writeList_enter (p : Phase) : (s.enter p).writeList bits = (s.writeList bits).enter p :=
  s.writeList_comm bits (f := (·.enter p)) fun s b => by
    unfold State.writeBit State.enter; dsimp only; split <;> rfl

@[simp] theorem State.writeList_withReader (p : Nat) (n : Word) (r : BitVec 8) (c : BitVec 4) :
    (s.withReader p n r c).writeList bits = (s.writeList bits).withReader p n r c :=
  s.writeList_comm bits (f := (·.withReader p n r c)) fun s b => by
    unfold State.writeBit State.withReader; dsimp only; split <;> rfl

end

/-- The bit writer leaves a running phase running. -/
theorem State.Runs.writeList {s : State} {p : Phase} (h : s.Runs p) (bits : List Bool) : (s.writeList bits).Runs p := by
  obtain ⟨bytes, w, c, he, -⟩ := s.writeList_eq bits
  rw [he]
  exact ⟨h.outOfReset, h.alone, h.phase⟩

/-! ### What the bit writer leaves -/

section
variable (s : State) (bits : List Bool)

@[simp] theorem State.writeList_lastCmd : (s.writeList bits).lastCmd = s.lastCmd := by
  obtain ⟨_, _, _, h, -⟩ := s.writeList_eq bits; rw [h]
@[simp] theorem State.writeList_nodes : (s.writeList bits).nodes = s.nodes := by
  obtain ⟨_, _, _, h, -⟩ := s.writeList_eq bits; rw [h]
@[simp] theorem State.writeList_node : (s.writeList bits).node = s.node := by
  obtain ⟨_, _, _, h, -⟩ := s.writeList_eq bits; rw [h]
@[simp] theorem State.writeList_codeLen : (s.writeList bits).codeLen = s.codeLen := by
  obtain ⟨_, _, _, h, -⟩ := s.writeList_eq bits; rw [h]
@[simp] theorem State.writeList_codeBits : (s.writeList bits).codeBits = s.codeBits := by
  obtain ⟨_, _, _, h, -⟩ := s.writeList_eq bits; rw [h]
@[simp] theorem State.writeList_inData : (s.writeList bits).inData = s.inData := by
  obtain ⟨_, _, _, h, -⟩ := s.writeList_eq bits; rw [h]

end

/-! ### Bits as bytes -/

/-- The zero bits that fill `n` bits up to a byte boundary (40_bitio.md rule R138). -/
def padding (n : Nat) : List Bool := List.replicate ((8 - n % 8) % 8) false

@[simp] theorem padding_mod (n : Nat) : padding (n % 8) = padding n := by simp [padding]

theorem byteBits_cons (b : Byte) (bytes : List Byte) : byteBits (b :: bytes) = bitsOf 8 b ++ byteBits bytes := rfl

@[simp] theorem byteBits_length (bytes : List Byte) : (byteBits bytes).length = 8 * bytes.length := by
  induction bytes with
  | nil => rfl
  | cons b bytes ih => rw [byteBits_cons, List.length_append, ih, bitsOf_length, List.length_cons]; omega

/-- A bit sequence that does not begin with eight bits has fewer. -/
theorem length_lt_eight : ∀ {bits : List Bool},
    (∀ b7 b6 b5 b4 b3 b2 b1 b0 rest, bits ≠ b7 :: b6 :: b5 :: b4 :: b3 :: b2 :: b1 :: b0 :: rest) → bits.length < 8
  | _ :: _ :: _ :: _ :: _ :: _ :: _ :: _ :: _, h => absurd rfl (h _ _ _ _ _ _ _ _ _)
  | [], _ | [_], _ | [_, _], _ | [_, _, _], _ | [_, _, _, _], _ | [_, _, _, _, _], _ | [_, _, _, _, _, _], _
  | [_, _, _, _, _, _, _], _ => by simp

/-- The packed bytes hold the bit sequence and its padding (30_encoding.md rule R111). -/
theorem byteBits_packBits (bits : List Bool) : byteBits (packBits bits) = bits ++ padding bits.length := by
  induction bits using packBits.induct with
  | case1 b7 b6 b5 b4 b3 b2 b1 b0 rest ih =>
    have hpad : padding (rest.length + 8) = padding rest.length := by simp [padding]
    rw [packBits, byteBits_cons, bitsOf_ofBits (w := 8), ih, ← hpad] <;> rfl
  | case2 => rfl
  | case3 bits hlong hne =>
    have hlt := length_lt_eight fun _ _ _ _ _ _ _ _ _ => hlong _ _ _ _ _ _ _ _ _
    have hpos : 0 < bits.length := List.length_pos_iff.mpr hne
    have hpad : (8 - bits.length % 8) % 8 = 8 - bits.length := by omega
    have hp : packBits bits = [ofBits 8 (bits ++ padding bits.length)] := by
      rw [padding, hpad]
      exact packBits.eq_3 bits hlong hne
    rw [hp, byteBits_cons, bitsOf_ofBits (by simp [padding, hpad]; omega)]
    exact List.append_nil _

/-- How many bytes a bit sequence packs into (30_encoding.md rule R112). -/
theorem packBits_length (bits : List Bool) : (packBits bits).length = (bits.length + 7) / 8 := by
  have h := congrArg List.length (byteBits_packBits bits)
  rw [byteBits_length, List.length_append, padding, List.length_replicate] at h
  omega

theorem byteBits_injective : Function.Injective byteBits := by
  intro bytes
  induction bytes with
  | nil =>
    rintro (_ | ⟨b, more⟩) h
    · rfl
    · cases h
  | cons a bytes ih =>
    rintro (_ | ⟨b, more⟩) h
    · cases h
    · obtain ⟨hb, hmore⟩ := List.append_inj h (by simp)
      rw [← ofBits_bitsOf a, hb, ofBits_bitsOf, ih hmore]

/-- Bytes that hold a bit sequence and its padding are the sequence packed. -/
theorem packBits_eq {bits : List Bool} {bytes : List Byte} (h : byteBits bytes = bits ++ padding bits.length) :
    packBits bits = bytes :=
  byteBits_injective ((byteBits_packBits bits).trans h.symm)

/-- Bits and their padding through the writer: the packed bytes leave, and the writer is empty
(40_bitio.md rules R135, R138). -/
theorem State.writeList_padded (s : State) {bits : List Bool} (hne : bits ≠ []) :
    s.writeList (bits ++ padding (s.wcnt.toNat + bits.length)) = { s with
      outLog := s.outLog ++ (packBits (bitsOf s.wcnt.toNat s.wbuf ++ bits)).map .byte
      outBytes := s.outBytes + BitVec.ofNat 32 (packBits (bitsOf s.wcnt.toNat s.wbuf ++ bits)).length
      wbuf := 0, wcnt := 0 } := by
  obtain ⟨bytes, w, c, he, hb, h0⟩ := s.writeList_eq (bits ++ padding (s.wcnt.toNat + bits.length))
  have hc : c = 0 := by
    have hlen := congrArg List.length hb
    simp only [List.length_append, byteBits_length, bitsOf_length, padding, List.length_replicate] at hlen
    apply BitVec.eq_of_toNat_eq
    have := c.isLt
    show c.toNat = 0
    omega
  subst hc
  have hw : w = 0 := h0 (by simp [hne]) rfl
  have hp : packBits (bitsOf s.wcnt.toNat s.wbuf ++ bits) = bytes := by
    apply packBits_eq
    simpa [bitsOf] using hb
  rw [he, hp, hw]

/-! ### The FLUSH phase -/

/-- A step at the head of FLUSH: `End` at a byte boundary, or a pad bit (40_bitio.md rule R138). -/
theorem State.Runs.flushStep {s : State} (h : s.Runs .flush) (hs : s.seq = .start) :
    phaseStep s = .next (if s.wcnt = 0 then s.outEnd.endPhase else s.writeBit false) := by
  rw [phaseStep, h.phase]
  simp [Sys2Proof.Machine.flushStep, hs]

/-- The FLUSH phase: the padding, then `End` (40_bitio.md rule R138). -/
theorem State.Runs.flush {s : State} (h : s.Runs .flush) (hs : s.seq = .start) :
    Reaches s ((s.writeList (padding s.wcnt.toNat)).outEnd.atSeq .phaseEnd) := by
  have hstep := h.flushStep hs
  unfold padding
  induction hk : (8 - s.wcnt.toNat % 8) % 8 generalizing s with
  | zero =>
    have h0 : s.wcnt = 0 := by
      have := s.wcnt.isLt
      exact BitVec.eq_of_toNat_eq (show s.wcnt.toNat = 0 by omega)
    rw [if_pos h0] at hstep
    exact h.head hstep (.refl _)
  | succ k ih =>
    have h0 : s.wcnt ≠ 0 := fun h0 => by simp [h0] at hk
    rw [if_neg h0] at hstep
    have hruns : (s.writeBit false).Runs .flush := h.writeList [false]
    have hwcnt : (s.writeBit false).wcnt.toNat = (s.wcnt.toNat + 1) % 8 :=
      (congrArg BitVec.toNat (s.writeList_wcnt [false])).trans (by simp [BitVec.toNat_add])
    have hseq : (s.writeBit false).seq = .start := by
      obtain ⟨bytes, w, c, he, -⟩ := s.writeBit_eq false
      rw [he]
      exact hs
    exact h.head hstep (ih hruns hseq (hruns.flushStep hseq) (by omega))

/-- FLUSH as the last phase of a command, after the phase that has finished: the padding, `End`, and the completion. -/
theorem State.Runs.flushLast {s : State} {p : Phase} (h : s.Runs p) (hp : p ≠ .idle) (hs : s.seq = .phaseEnd)
    (hflush : phaseAfter p (phaseRow (cmdOp s.lastCmd)) = some .flush)
    (hlast : phaseAfter .flush (phaseRow (cmdOp s.lastCmd)) = none) :
    Reaches s (s.writeList (padding s.wcnt.toNat)).outEnd.complete := by
  have hruns := h.enter .flush
  have hflushed := (hruns.flush rfl).trans (State.Runs.complete (p := .flush) ?_ nofun rfl ?_)
  · rw [State.writeList_enter] at hflushed
    exact (h.next hp hs hflush).trans hflushed
  · obtain ⟨hr, ha, hp⟩ := hruns.writeList (padding (s.enter .flush).wcnt.toNat)
    exact ⟨hr, ha, hp⟩
  · simpa using hlast

end Sys2Proof.Machine
end

section
/-! SUPPORT. The bytes the reader takes, the ENCODE phase with the FLUSH after it, and ENCODE_BODY (O39). -/

namespace Sys2Proof.Machine

/-! ### The code table -/

/-- The code table alone gives the codes. -/
theorem State.codeOf_congr {s t : State} (hl : t.codeLen = s.codeLen) (hb : t.codeBits = s.codeBits) :
    t.codeOf = s.codeOf := by
  funext i
  simp only [State.codeOf, State.codeLenAt, State.codeBitsAt, hl, hb]

/-- The code table alone gives the code lengths. -/
theorem State.codeLenAt_congr {s t : State} (hl : t.codeLen = s.codeLen) : t.codeLenAt = s.codeLenAt := by
  funext i
  simp only [State.codeLenAt, hl]

@[simp] theorem State.writeList_codeOf (s : State) (bits : List Bool) : (s.writeList bits).codeOf = s.codeOf :=
  State.codeOf_congr (s.writeList_codeLen bits) (s.writeList_codeBits bits)

@[simp] theorem State.writeList_codeLenAt (s : State) (bits : List Bool) :
    (s.writeList bits).codeLenAt = s.codeLenAt :=
  State.codeLenAt_congr (s.writeList_codeLen bits)

/-- A code has as many bits as its length says (10_state.md rule R65). -/
@[simp] theorem State.codeOf_length (s : State) (i : Nat) : (s.codeOf i).length = (s.codeLenAt i).toNat := by
  simp [State.codeOf]

/-- Exactly the symbols of length 0 have no code (10_state.md rule R65). -/
theorem State.codeOf_eq_nil {s : State} {i : Nat} : s.codeOf i = [] ↔ s.codeLenAt i = 0 := by
  rw [← List.length_eq_zero_iff, State.codeOf_length, ← BitVec.toNat_inj]
  rfl

/-! ### A byte through the bit reader -/

/-- The value of a vector's bits in a wider vector. -/
theorem ofBits_bitsOf_setWidth {n w : Nat} (h : n ≤ w) (v : BitVec n) : ofBits w (bitsOf n v) = v.setWidth w := by
  apply BitVec.eq_of_getLsbD_eq
  intro i hi
  rw [ofBits_getLsbD ((bitsOf_length n v).trans_le h), bitsOf_reverse]
  by_cases hn : i < n
  · simp [hi, hn]
  · simp [hi, hn, BitVec.getLsbD_of_ge v i (by omega)]

/-- A bit that stands in RBUF (40_bitio.md rule R131). -/
theorem State.readBit_buffered (s : State) {n : Nat} (h : n < 8) :
    ({ s with rcnt := BitVec.ofNat 4 (n + 1) } : State).readBit =
      (some (s.rbuf.getLsbD n), { s with rcnt := BitVec.ofNat 4 n }) := by
  have h0 : BitVec.ofNat 4 (n + 1) ≠ 0 := by
    intro h0
    have := congrArg BitVec.toNat h0
    simp at this
    omega
  have hsub : BitVec.ofNat 4 (n + 1) - 1 = BitVec.ofNat 4 n := by simp [BitVec.ofNat_add]
  rw [State.readBit, if_neg h0, State.popBit, hsub]
  simp [Nat.mod_eq_of_lt (show n < 16 by omega)]

/-- Bits that stand in RBUF (40_bitio.md rule R132). -/
theorem readBitsFrom_buffered (s : State) {n : Nat} (h : n ≤ 8) (k : Nat) (v : Word) :
    readBitsFrom n k v { s with rcnt := BitVec.ofNat 4 n } =
      (.value ((bitsOf n s.rbuf).foldl BitVec.shiftConcat v), { s with rcnt := 0 }) := by
  induction n generalizing k v with
  | zero => rfl
  | succ n ih =>
    rw [readBitsFrom, s.readBit_buffered h]
    exact ih (by omega) (k + 1) (v.shiftConcat (s.rbuf.getLsbD n))

/-- The loop of `ReadBits` goes by what `ReadBit` answers. -/
theorem readBitsFrom_congr {s t : State} (h : s.readBit = t.readBit) (n k : Nat) (v : Word) :
    readBitsFrom (n + 1) k v s = readBitsFrom (n + 1) k v t := by
  rw [readBitsFrom, readBitsFrom, h]

/-- The next IN byte as an 8-bit chunk (20_memory.md rule R79, 40_bitio.md rules R130, R132). -/
theorem State.readBits_byte {s : State} {x : Byte} (hr : s.rcnt = 0) (hx : s.inData[s.inPos]? = some x) :
    s.readBits 8 =
      (.value (x.setWidth 32), s.withReader (s.inPos + 1) (s.inBytes + 1) x 0) := by
  have htake : s.readBit = ({ s with
      inPos := s.inPos + 1, inBytes := s.inBytes + 1, rbuf := x, rcnt := BitVec.ofNat 4 8 } : State).readBit := by
    rw [State.readBit, if_pos hr, State.takeByte, State.inRead, hx]
    rfl
  rw [← ofBits_bitsOf_setWidth (by decide)]
  exact (readBitsFrom_congr htake 7 0 0).trans (readBitsFrom_buffered
    { s with inPos := s.inPos + 1, inBytes := s.inBytes + 1, rbuf := x } (Nat.le_refl 8) 0 0)

/-- No byte left: no chunk (40_bitio.md rule R132). -/
theorem State.readBits_end {s : State} (hr : s.rcnt = 0) (hx : s.inData[s.inPos]? = none) :
    s.readBits 8 = (.noData 0 0, s) := by
  have h : s.readBit = (none, s) := by rw [State.readBit, if_pos hr, State.takeByte, State.inRead, hx]
  rw [State.readBits, readBitsFrom, h]

/-- A counter after a byte and `n` more. -/
theorem BitVec.add_one_add_ofNat (v : Word) (n : Nat) : v + 1 + BitVec.ofNat 32 n = v + BitVec.ofNat 32 (n + 1) := by
  rw [Nat.add_comm n 1, BitVec.ofNat_add, ← BitVec.add_assoc]
  rfl

/-- The bytes still to come: the next one, and those after it. -/
theorem State.inLeft_cons {s : State} {x : Byte} {rest : List Byte} (h : s.inLeft = x :: rest) :
    s.inData[s.inPos]? = some x ∧ s.inData.drop (s.inPos + 1) = rest := by
  constructor
  · simpa [State.inLeft] using congrArg List.head? h
  · simpa [State.inLeft] using congrArg List.tail h

/-- No byte is still to come. -/
theorem State.inLeft_nil {s : State} (h : s.inLeft = []) : s.inData[s.inPos]? = none := by
  simpa [State.inLeft] using congrArg List.head? h

/-! ### The ENCODE phase -/

/-- A code goes out bit by bit (40_bitio.md rule R137). -/
theorem State.Runs.codeOut {s : State} {bits : List Bool} {last : Bool} (h : s.Runs .encode)
    (hs : s.seq = .codeOut bits last) : Reaches s ((s.writeList bits).atSeq (.codeOut [] last)) := by
  induction bits generalizing s with
  | nil => rw [← hs]; exact .refl s
  | cons b bits ih =>
    have hstep : phaseStep s = .next ((s.writeBit b).atSeq (.codeOut bits last)) := by
      rw [phaseStep, h.phase]; simp [encodeStep, hs, State.atSeq]
    have hrest := ih ((h.writeList [b]).atSeq (.codeOut bits last)) rfl
    rw [State.writeList_atSeq] at hrest
    exact h.head hstep hrest

/-- A symbol that has a code goes out, from the turn of the loop that makes it due to the next position
(45_compressor.md rule R212). -/
theorem State.Runs.symbolOut {s t : State} {sym : Sym} {last : Bool} (h : s.Runs .encode) (ht : t.Runs .encode)
    (hs : phaseStep s = .next (t.startCode sym last)) (hcode : t.codeLenAt sym.toNat ≠ 0) :
    Reaches s ((t.writeList (t.codeOf sym.toNat)).atSeq (if last then .phaseEnd else .byteLoop)) := by
  have hdue : t.startCode sym last = t.atSeq (.codeOut (t.codeOf sym.toNat) last) :=
    (t.startCode_cases sym last).elim (fun ⟨h0, _⟩ => absurd h0 hcode) fun ⟨_, he⟩ => he
  rw [hdue] at hs
  refine h.head hs (((ht.atSeq _).codeOut rfl).trans ?_)
  have hout := (ht.writeList (t.codeOf sym.toNat)).atSeq (.codeOut [] last)
  rw [State.writeList_atSeq, State.atSeq_atSeq]
  refine hout.head ?_ (.refl _)
  rw [phaseStep, hout.phase]
  cases last <;> rfl

/-- The loop of ENCODE: the codes of the bytes still to come and the sentinel's (45_compressor.md rule R212). -/
theorem State.Runs.encodeLoop {s : State} (h : s.Runs .encode) (hs : s.seq = .byteLoop) (hr : s.rcnt = 0)
    (hcode : ∀ b ∈ s.inLeft, s.codeLenAt b.toNat ≠ 0) (heof : s.codeLenAt 256 ≠ 0) :
    Reaches s (((s.writeList (s.inLeft.flatMap (fun b => s.codeOf b.toNat) ++ s.codeOf 256)).withReader
      (s.inPos + s.inLeft.length) (s.inBytes + BitVec.ofNat 32 s.inLeft.length) (s.inLeft.getLast?.getD s.rbuf) 0).atSeq
        .phaseEnd) := by
  have hturn : phaseStep s = .next s.encodeByte := by rw [phaseStep, h.phase]; simp [encodeStep, hs]
  induction hl : s.inLeft generalizing s with
  | nil =>
    have hbyte : s.encodeByte = s.startCode Config.pseudoEof true := by
      rw [State.encodeByte, State.readBits_end hr (State.inLeft_nil hl)]
    have hstay : (s.writeList (s.codeOf 256)).withReader s.inPos (s.inBytes + 0) s.rbuf 0 = s.writeList (s.codeOf 256) := by
      rw [show s.inBytes + 0 = s.inBytes from BitVec.add_zero _, ← State.writeList_withReader, ← hr]
      rfl
    refine Eq.mp (congrArg (fun u => Reaches s (u.atSeq .phaseEnd)) hstay.symm) ?_
    exact h.symbolOut (sym := Config.pseudoEof) h (hbyte ▸ hturn) heof
  | cons x rest ih =>
    obtain ⟨hx, hrest⟩ := State.inLeft_cons hl
    have hsym : (BitVec.setWidth 9 (x.setWidth 32)).toNat = x.toNat := by simp; omega
    have hread := h.withReader (s.inPos + 1) (s.inBytes + 1) x 0
    have hout := h.symbolOut (sym := (x.setWidth 32).setWidth 9) (last := false) hread
      (by rw [hturn, State.encodeByte, State.readBits_byte hr hx]) (by rw [hsym]; exact hcode x (by simp [hl]))
    have hnext := (hread.writeList (s.codeOf x.toNat)).atSeq .byteLoop
    rw [hsym, State.writeList_withReader] at hout
    rw [State.writeList_withReader] at hnext
    refine hout.trans ?_
    have hcode' : ∀ b ∈ rest, s.codeLenAt b.toNat ≠ 0 := fun b hb => hcode b (hl ▸ List.mem_cons_of_mem x hb)
    have hloop := ih hnext rfl rfl (by simpa [hrest] using hcode') (by simpa using heof)
      (by rw [phaseStep, hnext.phase]; rfl) (by simpa using hrest)
    refine Eq.mp (congrArg (Reaches _) ?_) hloop
    rw [List.length_cons, ← BitVec.add_one_add_ofNat, List.flatMap_cons, List.getLast?_cons]
    simp [Nat.add_assoc, Nat.add_comm 1]

section
variable {s : State} (h : s.Runs .encode) (hs : s.seq = .start) (hcode : ∀ b ∈ s.inData, s.codeLenAt b.toNat ≠ 0)
  (heof : s.codeLenAt 256 ≠ 0) {body : List Bool}
  (hbody : body = s.inData.flatMap (fun b => s.codeOf b.toNat) ++ s.codeOf 256)
include h hs hcode heof hbody

/-- The ENCODE phase: the input from its start, its codes and the sentinel's (45_compressor.md rule R212). -/
theorem State.Runs.encode : Reaches s (((s.writeList body).withReader s.inData.length
    (BitVec.ofNat 32 s.inData.length) (s.inData.getLast?.getD 0) 0).atSeq .phaseEnd) := by
  have hstart : phaseStep s = .next ((s.withReader 0 0 0 0).atSeq .byteLoop) := by
    rw [phaseStep, h.phase]; simp only [encodeStep, hs]; rfl
  have hloop := ((h.withReader 0 0 0 0).atSeq .byteLoop).encodeLoop rfl rfl (by simpa using hcode) heof
  refine h.head hstart (Eq.mp (congrArg (Reaches _) ?_) hloop)
  simp [hbody]

/-- ENCODE and FLUSH as the last two phases of a command: the codes padded through the writer, then `End`
(45_compressor.md rule R214, 40_bitio.md rule R138). -/
theorem State.Runs.encodeFlush (hflush : phaseAfter .encode (phaseRow (cmdOp s.lastCmd)) = some .flush)
    (hlast : phaseAfter .flush (phaseRow (cmdOp s.lastCmd)) = none) :
    Reaches s ((s.writeList (body ++ padding (s.wcnt.toNat + body.length))).withReader s.inData.length
      (BitVec.ofNat 32 s.inData.length) (s.inData.getLast?.getD 0) 0).outEnd.complete := by
  refine (h.encode hs hcode heof hbody).trans ?_
  have hruns := ((h.writeList body).withReader s.inData.length (BitVec.ofNat 32 s.inData.length)
    (s.inData.getLast?.getD 0) 0).atSeq .phaseEnd
  have hpad : padding (s.writeList body).wcnt.toNat = padding (s.wcnt.toNat + body.length) := by
    rw [State.writeList_wcnt, ← padding_mod (s.wcnt.toNat + body.length)]
    simp [BitVec.toNat_add]
  refine Eq.mp (congrArg (Reaches _) ?_) (hruns.flushLast nofun rfl (by simpa using hflush) (by simpa using hlast))
  simp only [State.atSeq_wcnt, State.withReader_wcnt, hpad, State.writeList_atSeq, State.writeList_withReader,
    State.writeList_append]
  rfl

end

/-! ### ENCODE_BODY -/

/-- Settles O39: the loop of ENCODE writes the codes in input order, FLUSH pads them, and the bytes sent are the bits
packed. -/
theorem encodeBody : Obligations.EncodeBody := by
  intro s hq hcode heof
  have hne : s.inData.flatMap (fun b => s.codeOf b.toNat) ++ s.codeOf 256 ≠ [] :=
    List.append_ne_nil_of_right_ne_nil _ (mt State.codeOf_eq_nil.mp heof)
  have hrun := (hq.runs 7).encodeFlush rfl hcode heof (body := s.inData.flatMap (fun b => s.codeOf b.toNat) ++ s.codeOf 256)
    rfl rfl rfl
  rw [State.writeList_padded _ hne] at hrun
  refine ⟨_, _, congrArg Host.Outcome.next (hq.accepts 7), congrArg packBits (List.append_assoc _ _ _).symm, ?_⟩
  rw [← BitVec.zero_add (BitVec.ofNat 32 (packBits _).length)]
  exact hrun

end Sys2Proof.Machine
end

section
/-! SUPPORT. The COUNT phase, from the bytes it takes to the counts it leaves (41_frequency_counter.md rules R150, R152). -/

namespace Sys2Proof.Machine

/-! ### Counts -/

/-- A count read out of a table of counts. -/
theorem countsOf_getElem? (bytes : List Byte) (c : Word) {i : Nat} (hi : i ≤ 256) :
    (countsOf bytes c)[i]? = some (if i = 256 then c else BitVec.ofNat 32 (bytes.count (BitVec.ofNat 8 i))) := by
  simp [countsOf, show i < 257 by omega]

/-- A byte more is one more of its count and no other (41_frequency_counter.md rule R150). -/
theorem countsOf_concat (bytes : List Byte) (c : Word) (x : Byte) :
    (countsOf bytes c).setIfInBounds x.toNat (BitVec.ofNat 32 (bytes.count x) + 1) = countsOf (bytes ++ [x]) c := by
  ext i hi
  have hx := x.isLt
  simp only [countsOf, Vector.getElem_setIfInBounds, Vector.getElem_ofFn, List.count_append]
  by_cases h : x.toNat = i
  · subst h
    simp [show x.toNat ≠ 256 by omega, BitVec.ofNat_add]
  · by_cases h6 : i = 256
    · subst h6
      simp [h]
    · have hne : x ≠ BitVec.ofNat 8 i := fun e => h (by rw [e, BitVec.toNat_ofNat]; omega)
      simp [h, h6, hne]

/-- The end of the stream sets the sentinel's count (41_frequency_counter.md rule R150). -/
theorem countsOf_setSentinel (bytes : List Byte) (c c' : Word) :
    (countsOf bytes c).setIfInBounds 256 c' = countsOf bytes c' := by
  ext i hi
  simp only [countsOf, Vector.getElem_setIfInBounds, Vector.getElem_ofFn]
  by_cases h : i = 256 <;> simp [h, eq_comm]

/-- Nothing counted yet. -/
theorem countsOf_nil : countsOf [] 0 = Vector.replicate 257 0 := by
  ext i hi
  simp [countsOf]

/-! ### The phase -/

/-- `s` with FREQ as given. -/
def State.withFreq (s : State) (f : Vector Word 257) : State := { s with freq := f }

section
variable (s : State) (f g : Vector Word 257) (p : Nat) (n : Word) (r : BitVec 8) (c : BitVec 4) (q : Seq)

@[simp] theorem State.withFreq_withFreq : (s.withFreq f).withFreq g = s.withFreq g := rfl
@[simp] theorem State.withFreq_atSeq : (s.atSeq q).withFreq f = (s.withFreq f).atSeq q := rfl
@[simp] theorem State.withFreq_withReader : (s.withReader p n r c).withFreq f = (s.withFreq f).withReader p n r c := rfl
@[simp] theorem State.withFreq_inPos : (s.withFreq f).inPos = s.inPos := rfl
@[simp] theorem State.withFreq_inBytes : (s.withFreq f).inBytes = s.inBytes := rfl
@[simp] theorem State.withFreq_inData : (s.withFreq f).inData = s.inData := rfl
@[simp] theorem State.withFreq_inLeft : (s.withFreq f).inLeft = s.inLeft := rfl
@[simp] theorem State.withFreq_seq : (s.withFreq f).seq = s.seq := rfl
@[simp] theorem State.withFreq_rbuf : (s.withFreq f).rbuf = s.rbuf := rfl

theorem State.Runs.withFreq {s : State} {ph : Phase} (h : s.Runs ph) (f : Vector Word 257) : (s.withFreq f).Runs ph :=
  ⟨h.outOfReset, h.alone, h.phase⟩

end

/-- A turn of the counting loop that finds a byte and is in bounds counts it (41_frequency_counter.md rule R150). -/
theorem State.countByte_byte {s : State} {pre : List Byte} {x : Byte} (hr : s.rcnt = 0) (hx : s.inData[s.inPos]? = some x)
    (hf : s.freq = countsOf pre 0) (hmax : ¬ s.inBytes + 1 > Config.maxIn) :
    s.countByte = (s.withFreq (countsOf (pre ++ [x]) 0)).withReader (s.inPos + 1) (s.inBytes + 1) x 0 := by
  have hat : (s.withReader (s.inPos + 1) (s.inBytes + 1) x 0).freqAt x.toNat = BitVec.ofNat 32 (pre.count x) := by
    have hlt := x.isLt
    show s.freq[x.toNat]?.getD 0 = _
    rw [hf, countsOf_getElem? pre 0 (by omega)]
    simp [show x.toNat ≠ 256 by omega]
  have hv : (x.setWidth 32).toNat = x.toNat := by simp; omega
  rcases s.countByte_cases with ⟨v, k, t, h, -⟩ | ⟨v, t, h, ⟨hgt, -⟩ | ⟨-, he⟩⟩ <;>
    rw [State.readBits_byte hr hx] at h <;> cases h
  · exact absurd hgt hmax
  · rw [he, hv, hat, ← countsOf_concat, ← hf]
    rfl

/-- The counting loop: a count for each byte still to come, then the sentinel's (41_frequency_counter.md rule R150). -/
theorem State.Runs.countLoop {s : State} {pre : List Byte} (h : s.Runs .count) (hs : s.seq = .byteLoop)
    (hr : s.rcnt = 0) (hf : s.freq = countsOf pre 0) (hmax : s.inBytes.toNat + s.inLeft.length ≤ 0xFFFFFFFE) :
    Reaches s (((s.withFreq (countsOf (pre ++ s.inLeft) 1)).withReader (s.inPos + s.inLeft.length)
      (s.inBytes + BitVec.ofNat 32 s.inLeft.length) (s.inLeft.getLast?.getD s.rbuf) 0).atSeq .phaseEnd) := by
  have hturn : phaseStep s = .next s.countByte := by rw [phaseStep, h.phase]; simp [countStep, hs]
  induction hl : s.inLeft generalizing s pre with
  | nil =>
    have hend : s.countByte = (s.setFreq 256 1).endPhase := by
      rw [State.countByte, State.readBits_end hr (State.inLeft_nil hl)]
    refine h.head (hend ▸ hturn) (Eq.mp (congrArg (Reaches _) ?_) (.refl _))
    rw [List.append_nil, ← countsOf_setSentinel pre 0, ← hf, ← hr]
    simp
    rfl
  | cons x rest ih =>
    obtain ⟨hx, hrest⟩ := State.inLeft_cons hl
    rw [hl, List.length_cons] at hmax
    have hn : (s.inBytes + 1).toNat = s.inBytes.toNat + 1 := by rw [BitVec.toNat_add]; simp; omega
    have hcount := State.countByte_byte hr hx hf (by rw [gt_iff_lt, BitVec.lt_def, hn]; simp [Config.maxIn]; omega)
    have hnext := (h.withFreq (countsOf (pre ++ [x]) 0)).withReader (s.inPos + 1) (s.inBytes + 1) x 0
    have hloop := ih (pre := pre ++ [x]) hnext (by simpa using hs) rfl rfl
      (by simp only [State.withReader_inBytes, State.withReader_inLeft, State.withFreq_inData, hn, hrest]
          omega)
      (by rw [phaseStep, hnext.phase]
          simp [countStep, hs]) (by simpa using hrest)
    refine h.head (hcount ▸ hturn) (Eq.mp (congrArg (Reaches _) ?_) hloop)
    rw [List.length_cons, ← BitVec.add_one_add_ofNat, List.getLast?_cons]
    simp [Nat.add_assoc, Nat.add_comm 1]

/-- The COUNT phase on at most 2^32 - 2 bytes (41_frequency_counter.md rules R150, R152). -/
theorem State.Runs.count {s : State} (h : s.Runs .count) (hs : s.seq = .start) (hr : s.rcnt = 0) (hb : s.inBytes = 0)
    (hmax : s.inLeft.length ≤ 0xFFFFFFFE) :
    Reaches s (((s.withFreq (countsOf s.inLeft 1)).withReader (s.inPos + s.inLeft.length)
      (BitVec.ofNat 32 s.inLeft.length) (s.inLeft.getLast?.getD s.rbuf) 0).atSeq .phaseEnd) := by
  have hstart : phaseStep s = .next ((s.withFreq (Vector.replicate 257 0)).atSeq .byteLoop) := by
    rw [phaseStep, h.phase]; simp only [countStep, hs]; rfl
  have hloop := ((h.withFreq (Vector.replicate 257 0)).atSeq .byteLoop).countLoop (pre := []) rfl hr countsOf_nil.symm
    (by simpa [hb] using hmax)
  refine h.head hstart (Eq.mp (congrArg (Reaches _) ?_) hloop)
  simp [hb]

end Sys2Proof.Machine
end

section
/-! SUPPORT. The TREE phase from its start to its end: the leaves in symbol order, the merges, and the tree they leave
(42_tree_builder.md rules R160 to R164). -/

namespace Sys2Proof.Machine

/-! ### The leaves of node memory -/

/-- The symbol of a leaf. -/
def Node.leafSym (n : Node) : Option Sym := if n.leaf then some n.sym else none

/-- The valid entries, in index order. -/
def State.indices (s : State) : List NodeIdx := (List.range s.nodes.toNat).map (BitVec.ofNat 10)

/-- The symbols of the valid leaves, in index order. -/
def State.leafSyms (s : State) : List Sym := s.indices.filterMap fun i => (s.nodeAt i).leafSym

theorem State.mem_indices {s : State} {i : NodeIdx} : i ∈ s.indices ↔ i < s.nodes := by
  have := s.nodes.isLt
  rw [State.indices, List.mem_map, BitVec.lt_def]
  constructor
  · rintro ⟨k, hk, rfl⟩
    rw [List.mem_range] at hk
    rw [BitVec.toNat_ofNat, Nat.mod_eq_of_lt (by omega)]
    exact hk
  · exact fun hi => ⟨i.toNat, List.mem_range.mpr hi, by simp⟩

theorem State.indices_nodup (s : State) : s.indices.Nodup := by
  refine List.Nodup.map_on (fun a ha b hb hab => ?_) List.nodup_range
  have := s.nodes.isLt
  rw [List.mem_range] at ha hb
  have := congrArg BitVec.toNat hab
  rwa [BitVec.toNat_ofNat, BitVec.toNat_ofNat, Nat.mod_eq_of_lt (by omega), Nat.mod_eq_of_lt (by omega)] at this

/-- The leaves stand on NODE and NODES alone. -/
theorem State.leafSyms_congr {s t : State} (hnode : t.node = s.node) (hnodes : t.nodes = s.nodes) :
    t.leafSyms = s.leafSyms := by
  simp only [State.leafSyms, State.indices, State.nodeAt, hnode, hnodes]

/-- A new entry is a leaf more, or none. -/
theorem State.leafSyms_allocNode {s : State} (hn : s.nodes.toNat < 513) (n : Node) :
    (s.allocNode n).leafSyms = s.leafSyms ++ n.leafSym.toList := by
  have hidx : (s.allocNode n).indices = s.indices ++ [s.nodes] := by
    rw [State.indices, State.allocNode_nodes, NodeIdx.toNat_succ hn, List.range_succ, List.map_append, State.indices]
    simp
  have hold : ∀ i ∈ s.indices, ((s.allocNode n).nodeAt i).leafSym = (s.nodeAt i).leafSym := fun i hi => by
    rw [State.nodeAt_allocNode hn, if_neg (BitVec.ne_of_lt (State.mem_indices.mp hi))]
  rw [State.leafSyms, hidx, List.filterMap_append, List.filterMap_congr hold, State.leafSyms]
  simp only [List.filterMap_cons, List.filterMap_nil, State.nodeAt_allocNode hn, if_pos]
  cases n.leafSym <;> rfl

/-- The leaves of a represented tree are those of its entries, in pre-order. -/
theorem State.Represents.leafSyms {s : State} {T : CodeTree} {i : NodeIdx} (h : s.Represents i T) :
    T.paths.map Prod.fst = (s.entriesOf i T).filterMap fun j => (s.nodeAt j).leafSym := by
  induction T generalizing i with
  | leaf sym =>
    obtain ⟨-, hl, hs⟩ := h
    simp [CodeTree.paths, State.entriesOf, Node.leafSym, hl, hs]
  | node l r ihl ihr =>
    obtain ⟨-, hf, hl, hr⟩ := h
    simp [CodeTree.paths, State.entriesOf, Node.leafSym, hf, ihl hl, ihr hr, Function.comp_def]

/-- The leaves of the tree at ROOT are the valid leaves. -/
theorem State.IsTree.paths_perm {s : State} {T : CodeTree} (h : s.IsTree) (hT : s.Represents s.root T) :
    (T.paths.map Prod.fst).Perm s.leafSyms := by
  rw [hT.leafSyms]
  refine List.Perm.filterMap _ ((List.perm_ext_iff_of_nodup (h.entriesOf_nodup hT) s.indices_nodup).mpr fun j => ?_)
  exact ⟨fun hj => State.mem_indices.mpr (hT.lt_nodes hj),
    fun hj => h.mem_entriesOf_root hT (State.mem_indices.mp hj)⟩

/-! ### The leaves in symbol order -/

/-- Seeding makes a leaf for each positive count, in symbol order (42_tree_builder.md rules R160, R161). -/
theorem seedFrom_leafSyms (f : Nat → Word) (a m : Nat) (s : State) (hn : s.nodes.toNat + m ≤ 513) :
    (seedFrom ((List.range' a m).map f) a s).leafSyms =
        s.leafSyms ++ ((List.range' a m).filter fun i => f i != 0).map (BitVec.ofNat 9) ∧
      (seedFrom ((List.range' a m).map f) a s).nodes.toNat =
        s.nodes.toNat + ((List.range' a m).filter fun i => f i != 0).length := by
  induction m generalizing a s with
  | zero => simp [seedFrom]
  | succ m ih =>
    rw [List.range'_succ, List.map_cons, seedFrom, List.filter_cons]
    by_cases h0 : f a = 0
    · simpa [h0] using ih (a + 1) s (by omega)
    · have hN : (s.seedLeaf a (f a)).nodes.toNat = s.nodes.toNat + 1 := NodeIdx.toNat_succ (by omega)
      have hL : (s.seedLeaf a (f a)).leafSyms = s.leafSyms ++ [BitVec.ofNat 9 a] :=
        State.leafSyms_allocNode (by omega) _
      obtain ⟨h1, h2⟩ := ih (a + 1) (s.seedLeaf a (f a)) (by omega)
      have hb : (f a != 0) = true := by simpa using h0
      rw [if_neg h0, if_pos hb, h1, h2, hN, hL]
      simp [Nat.add_assoc, Nat.add_comm 1]

/-- FREQ as a list of counts. -/
theorem State.freq_toList (s : State) : s.freq.toList = (List.range' 0 257).map s.freqAt := by
  refine List.ext_getElem (by simp) fun i h1 h2 => ?_
  have hi : i < 257 := by simpa using h1
  simp [State.freqAt, hi]

/-- The leaves the TREE phase starts with (42_tree_builder.md rules R160, R161). -/
theorem State.seedLeaves_leafSyms (s : State) :
    s.seedLeaves.leafSyms = s.positives.map (BitVec.ofNat 9) ∧ s.seedLeaves.nodes.toNat = s.positives.length := by
  have h := seedFrom_leafSyms s.freqAt 0 257 { s with nodes := 0, root := 0, pq := [] } (by simp)
  rw [← State.freq_toList, ← List.range_eq_range'] at h
  obtain ⟨h1, h2⟩ := h
  exact ⟨h1, h2.trans (Nat.zero_add _)⟩

/-! ### The merge loop -/

/-- `s` with NODE, NODES, ROOT and PQ as given. -/
def State.withTree (s : State) (v : Vector Node 513) (n r : NodeIdx) (q : List NodeIdx) : State :=
  { s with node := v, nodes := n, root := r, pq := q }

theorem State.Runs.withTree {s : State} {p : Phase} (h : s.Runs p) (v : Vector Node 513) (n r : NodeIdx)
    (q : List NodeIdx) : (s.withTree v n r q).Runs p :=
  ⟨h.outOfReset, h.alone, h.phase⟩

/-- With an entry in PQ a turn of the merge loop goes on (42_tree_builder.md rule R160). -/
theorem State.mergeStep_next {s : State} (h : s.pq ≠ []) : ∃ t, s.mergeStep = .next t := by
  unfold State.mergeStep
  split
  · exact absurd ‹_› h
  · exact ⟨_, rfl⟩
  · rename_i i j rest _
    have hlen := (s.extractMin_perm i (j :: rest)).length_eq
    split
    · rename_i a he
      simp [he] at hlen
    · exact ⟨_, rfl⟩

/-- The merge loop, for whatever its merges keep: it ends with one entry left in PQ, which is ROOT
(42_tree_builder.md rules R160, R162). -/
theorem State.Runs.mergeLoop {P : State → Prop} (hne : ∀ u, P u → u.pq ≠ [])
    (hmerge : ∀ u a b rest, P u → u.pq.Perm (a :: b :: rest) → P (u.mergePair a b rest)) {s : State}
    (h : s.Runs .tree) (hs : s.seq = .merge) (hP : P s) :
    ∃ u r, P u ∧ u.pq = [r] ∧ Reaches s ((u.withTree u.node u.nodes r []).atSeq .phaseEnd) := by
  have hturn : phaseStep s = s.mergeStep := by rw [phaseStep, h.phase]; simp [treeStep, hs]
  induction hk : s.pq.length using Nat.strong_induction_on generalizing s with
  | _ k ih =>
    subst hk
    obtain ⟨t, ht⟩ := State.mergeStep_next (hne s hP)
    have hstep := hturn.trans ht
    rcases State.mergeStep_perm ht with ⟨r, hr, rfl⟩ | ⟨a, b, rest, hq, rfl⟩
    · exact ⟨s, r, hP, hr, h.head hstep (.refl _)⟩
    · have hlen : (s.mergePair a b rest).pq.length < s.pq.length := by
        rw [hq.length_eq]
        simp [State.mergePair]
      have hruns : (s.mergePair a b rest).Runs .tree := ⟨h.outOfReset, h.alone, h.phase⟩
      obtain ⟨u, r, hu, hr, hreach⟩ := ih _ hlen hruns hs (hmerge s a b rest hP hq)
        (by rw [phaseStep, hruns.phase]; simp only [treeStep, State.mergePair_seq, hs]) rfl
      exact ⟨u, r, hu, hr, h.head hstep hreach⟩

/-- What the merge loop keeps, from the TREE phase's start in `s` with the leaves `syms`: the forest, its leaves, the count
of its trees, and everything the phase does not write. -/
structure State.Merging (s : State) (syms : List Sym) (u : State) : Prop where
  frame : u = (s.withTree u.node u.nodes 0 u.pq).atSeq .merge
  forest : u.IsForest
  leaves : u.leafSyms = syms
  trees : u.nodes.toNat + u.pq.length = 2 * syms.length
  nonempty : u.pq ≠ []

/-- A merge keeps what the merge loop keeps. -/
theorem State.Merging.mergePair {s u : State} {syms : List Sym} (h : s.Merging syms u) (hsyms : syms.length ≤ 257)
    {a b : NodeIdx} {rest : List NodeIdx} (hq : u.pq.Perm (a :: b :: rest)) :
    s.Merging syms (u.mergePair a b rest) := by
  have hlen : u.pq.length = rest.length + 2 := hq.length_eq
  have hn : u.nodes.toNat < 513 := by have := h.trees; omega
  have hN : (u.mergePair a b rest).nodes.toNat = u.nodes.toNat + 1 := NodeIdx.toNat_succ hn
  have hq' : (u.mergePair a b rest).pq = rest ++ [u.nodes] := rfl
  refine ⟨?_, h.forest.mergePair hn hq, ?_, ?_, by simp⟩
  · rw [h.frame]
    rfl
  · exact (State.leafSyms_allocNode hn _).trans ((List.append_nil _).trans h.leaves)
  · rw [hN, ← h.trees, hlen, hq', List.length_append, List.length_singleton]
    omega

/-- The leaves are where the merge loop starts (42_tree_builder.md rule R160). -/
theorem State.merging_seedLeaves {s : State} (hpos : s.positives ≠ []) :
    s.Merging (s.positives.map (BitVec.ofNat 9)) (s.seedLeaves.atSeq .merge) := by
  obtain ⟨hseeded, v, n, q, he, -, hq⟩ := s.seedLeaves_seeded
  obtain ⟨hsyms, hnodes⟩ := s.seedLeaves_leafSyms
  have hqlen : s.seedLeaves.pq.length = s.positives.length := by rw [← hnodes, he]; exact hq
  refine ⟨by rw [he]; rfl, hseeded.isForest.congr rfl rfl rfl, hsyms, ?_, fun e => hpos ?_⟩
  · show s.seedLeaves.nodes.toNat + s.seedLeaves.pq.length = _
    rw [hnodes, hqlen, List.length_map]
    omega
  · rw [← List.length_eq_zero_iff, ← hqlen]
    exact congrArg List.length e

/-- The TREE phase with a positive count: one tree, of the leaves in symbol order (42_tree_builder.md rules R160 to
R164). -/
theorem State.Runs.tree {s : State} (h : s.Runs .tree) (hs : s.seq = .start) (hpos : s.positives ≠ []) :
    ∃ v n r, Reaches s ((s.withTree v n r []).atSeq .phaseEnd) ∧ (s.withTree v n r []).IsTree ∧
      (s.withTree v n r []).leafSyms = s.positives.map (BitVec.ofNat 9) ∧ n.toNat = 2 * s.positives.length - 1 := by
  have hlen : (s.positives.map (BitVec.ofNat 9)).length ≤ 257 := by
    rw [List.length_map]
    exact (List.length_filter_le _ _).trans (by simp)
  have hmerging := State.merging_seedLeaves hpos
  have hstart : phaseStep s = .next (s.seedLeaves.atSeq .merge) := by
    have hne : s.seedLeaves.pq ≠ [] := hmerging.nonempty
    rw [phaseStep, h.phase]
    simp [treeStep, hs, hne, State.atSeq]
  have hruns : (s.seedLeaves.atSeq .merge).Runs .tree := by
    rw [hmerging.frame]
    exact (h.withTree _ _ _ _).atSeq _
  obtain ⟨u, r, hu, hr, hreach⟩ := hruns.mergeLoop (fun _ hu => hu.nonempty)
    (fun _ _ _ _ hu hq => hu.mergePair hlen hq) rfl hmerging
  have hframe : u.withTree u.node u.nodes r [] = (s.withTree u.node u.nodes r []).atSeq .merge := by
    conv_lhs => rw [hu.frame]
    rfl
  have hforest : (u.withTree u.node u.nodes r u.pq).IsForest := hu.forest.congr rfl rfl rfl
  have htree : (u.withTree u.node u.nodes r u.pq).IsTree := hforest.isTree hr rfl
  refine ⟨u.node, u.nodes, r, ?_, htree.congr rfl rfl rfl, (State.leafSyms_congr rfl rfl).trans hu.leaves, ?_⟩
  · rw [hframe] at hreach
    exact h.head hstart hreach
  · have htrees := hu.trees
    rw [hr, List.length_map, List.length_singleton] at htrees
    omega

end Sys2Proof.Machine
end

section
/-! SUPPORT. The CODES phase on a represented tree, the codes it leaves (43_code_table.md rules R180 to R184), and O32. -/

namespace Sys2Proof.Machine

/-! ### Represented trees and updates -/

/-- A represented tree stands on NODE and NODES alone. -/
theorem State.Represents.congr {s t : State} {T : CodeTree} {i : NodeIdx} (h : s.Represents i T)
    (hnode : t.node = s.node) (hnodes : t.nodes = s.nodes) : t.Represents i T := by
  have hn : ∀ j, t.nodeAt j = s.nodeAt j := fun j => by rw [State.nodeAt, State.nodeAt, hnode]
  induction T generalizing i with
  | leaf sym => simpa only [State.Represents, hn, hnodes] using h
  | node l r ihl ihr =>
    obtain ⟨hi, hf, hl, hr⟩ := h
    exact ⟨hnodes ▸ hi, hn i ▸ hf, hn i ▸ ihl hl, hn i ▸ ihr hr⟩

/-- The root of a represented tree is a valid entry. -/
theorem State.Represents.lt {s : State} {T : CodeTree} {i : NodeIdx} (h : s.Represents i T) : i < s.nodes := by
  cases T with
  | leaf sym => exact h.1
  | node l r => exact h.1

/-- Where a tree is represented there is one. -/
theorem State.Represents.nodes_ne_zero {s : State} {T : CodeTree} {i : NodeIdx} (h : s.Represents i T) :
    s.nodes ≠ 0 := fun h0 => by
  have := h.lt
  rw [h0] at this
  exact absurd (BitVec.lt_def.mp this) (Nat.not_lt_zero _)

/-! ### The code table as entries are set -/

/-- `SetCode` for each entry of a list, in order (43_code_table.md rule R180). -/
def State.setCodes (s : State) (es : List (Sym × List Bool)) : State :=
  es.foldl (fun s e => s.setCode e.1 e.2.length e.2) s

@[simp] theorem State.setCodes_append (s : State) (es fs : List (Sym × List Bool)) :
    s.setCodes (es ++ fs) = (s.setCodes es).setCodes fs :=
  List.foldl_append

/-- Setting codes writes the code table alone. -/
theorem State.setCodes_eq (s : State) (es : List (Sym × List Bool)) :
    ∃ l b, s.setCodes es = { s with codeLen := l, codeBits := b } := by
  induction es generalizing s with
  | nil => exact ⟨s.codeLen, s.codeBits, rfl⟩
  | cons e es ih =>
    obtain ⟨l, b, h⟩ := ih (s.setCode e.1 e.2.length e.2)
    exact ⟨l, b, h⟩

@[simp] theorem State.setCodes_lastCmd (s : State) (es : List (Sym × List Bool)) :
    (s.setCodes es).lastCmd = s.lastCmd := by
  obtain ⟨l, b, h⟩ := s.setCodes_eq es; rw [h]

@[simp] theorem State.setCodes_err (s : State) (es : List (Sym × List Bool)) : (s.setCodes es).err = s.err := by
  obtain ⟨l, b, h⟩ := s.setCodes_eq es; rw [h]

@[simp] theorem State.setCodes_node (s : State) (es : List (Sym × List Bool)) : (s.setCodes es).node = s.node := by
  obtain ⟨l, b, h⟩ := s.setCodes_eq es; rw [h]

@[simp] theorem State.setCodes_nodes (s : State) (es : List (Sym × List Bool)) : (s.setCodes es).nodes = s.nodes := by
  obtain ⟨l, b, h⟩ := s.setCodes_eq es; rw [h]

@[simp] theorem State.setCodes_root (s : State) (es : List (Sym × List Bool)) : (s.setCodes es).root = s.root := by
  obtain ⟨l, b, h⟩ := s.setCodes_eq es; rw [h]

@[simp] theorem State.setCodes_atSeq (s : State) (es : List (Sym × List Bool)) (q : Seq) :
    (s.atSeq q).setCodes es = (s.setCodes es).atSeq q := by
  induction es generalizing s with
  | nil => rfl
  | cons e es ih => exact ih (s.setCode e.1 e.2.length e.2)

@[simp] theorem State.setCodes_enter (s : State) (es : List (Sym × List Bool)) (p : Phase) :
    (s.enter p).setCodes es = (s.setCodes es).enter p := by
  induction es generalizing s with
  | nil => rfl
  | cons e es ih => exact ih (s.setCode e.1 e.2.length e.2)

theorem State.Runs.setCodes {s : State} {p : Phase} (h : s.Runs p) (es : List (Sym × List Bool)) :
    (s.setCodes es).Runs p := by
  obtain ⟨l, b, he⟩ := s.setCodes_eq es
  rw [he]
  exact ⟨h.outOfReset, h.alone, h.phase⟩

/-- A path's bits as CODEBITS holds them, with zeros past its end (10_state.md rule R65). -/
theorem pathBits_getLsbD {p : List Bool} (h : p.length ≤ 256) (j : Nat) : (pathBits p).getLsbD j = p.getD j false := by
  induction p generalizing j with
  | nil => simp [pathBits]
  | cons b p ih =>
    rw [List.length_cons] at h
    rw [pathBits, BitVec.getLsbD_shiftConcat]
    cases j with
    | zero => simp
    | succ j =>
      by_cases hj : j < p.length
      · simp [ih (by omega), show j + 1 < 256 by omega]
      · simp [ih (by omega), List.getElem?_eq_none (Nat.le_of_not_lt hj)]

section
variable (s : State) {i : Nat} (hi : i ≤ 256) (sym : Sym)
include hi

/-- A code length after `SetCode` (43_code_table.md rule R180). -/
theorem State.codeLenAt_setCode (n : Nat) (p : List Bool) : (s.setCode sym n p).codeLenAt i =
    if sym = BitVec.ofNat 9 i then BitVec.ofNat 9 n else s.codeLenAt i := by
  have hsym : sym.toNat = i ↔ sym = BitVec.ofNat 9 i := by
    rw [← BitVec.toNat_inj, BitVec.toNat_ofNat, Nat.mod_eq_of_lt (by omega)]
  simp only [State.codeLenAt, State.setCode_codeLen, Vector.getElem?_setIfInBounds, ← hsym]
  by_cases h : sym.toNat = i
  · simp [h, show i < 257 by omega]
  · simp [h]

/-- The code bits after `SetCode` (43_code_table.md rule R180). -/
theorem State.codeBitsAt_setCode (n : Nat) (p : List Bool) : (s.setCode sym n p).codeBitsAt i =
    if sym = BitVec.ofNat 9 i then pathBits p else s.codeBitsAt i := by
  have hsym : sym.toNat = i ↔ sym = BitVec.ofNat 9 i := by
    rw [← BitVec.toNat_inj, BitVec.toNat_ofNat, Nat.mod_eq_of_lt (by omega)]
  simp only [State.codeBitsAt, State.setCode_codeBits, Vector.getElem?_setIfInBounds, ← hsym]
  by_cases h : sym.toNat = i
  · simp [h, show i < 257 by omega]
  · simp [h]

/-- A code after `SetCode` (43_code_table.md rules R180, R182). -/
theorem State.codeOf_setCode {p : List Bool} (hp : p.length ≤ 256) : (s.setCode sym p.length p).codeOf i =
    if sym = BitVec.ofNat 9 i then p else s.codeOf i := by
  rw [State.codeOf, State.codeLenAt_setCode s hi, State.codeBitsAt_setCode s hi]
  split
  · rw [BitVec.toNat_ofNat, Nat.mod_eq_of_lt (by omega)]
    refine List.ext_getElem (by simp) fun j h1 h2 => ?_
    simp [pathBits_getLsbD hp, h2]
  · rfl

/-- A code after a list of entries is set: the last entry of its symbol wins (43_code_table.md rule R184). -/
theorem State.codeOf_setCodes {es : List (Sym × List Bool)} (hes : ∀ e ∈ es, e.2.length ≤ 256) :
    (s.setCodes es).codeOf i =
      ((es.reverse.find? fun e => e.1 == BitVec.ofNat 9 i).map Prod.snd).getD (s.codeOf i) := by
  induction es using List.reverseRecOn with
  | nil => rfl
  | append_singleton es e ih =>
    have he : (s.setCodes (es ++ [e])) = (s.setCodes es).setCode e.1 e.2.length e.2 := s.setCodes_append es [e]
    rw [he, State.codeOf_setCode _ hi _ (hes e (by simp)), List.reverse_append, List.reverse_singleton,
      List.singleton_append, List.find?_cons]
    by_cases h : e.1 = BitVec.ofNat 9 i
    · simp [h]
    · have hb : (e.1 == BitVec.ofNat 9 i) = false := by simp [h]
      rw [if_neg h, hb, ih fun f hf => hes f (by simp [hf])]

end

/-! ### The CODES phase -/

/-- The visit of a represented tree sets its paths, each after the path to its root (43_code_table.md rule R180). -/
theorem State.Runs.visit {s : State} {T : CodeTree} {i : NodeIdx} {p : List Bool} {todo : List (NodeIdx × List Bool)}
    (h : s.Runs .codes) (hs : s.seq = .visit ((i, p) :: todo)) (hT : s.Represents i T) :
    Reaches s ((s.setCodes (T.paths.map fun e => (e.1, p ++ e.2))).atSeq (.visit todo)) := by
  have hstep : phaseStep s = .next (s.visitNode i p todo) := by rw [phaseStep, h.phase]; simp [codesStep, hs]
  induction T generalizing s i p todo with
  | leaf sym =>
    obtain ⟨-, hl, rfl⟩ := hT
    rcases s.visitNode_cases i p todo with ⟨-, he⟩ | ⟨hf, -⟩
    · refine h.head (hstep.trans (congrArg _ he)) (Eq.mp (congrArg (Reaches _) ?_) (.refl _))
      simp [CodeTree.paths, State.setCodes, State.atSeq]
    · simp [hf] at hl
  | node l r ihl ihr =>
    obtain ⟨-, hf, hl, hr⟩ := hT
    rcases s.visitNode_cases i p todo with ⟨hl, -⟩ | ⟨-, he⟩
    · simp [hf] at hl
    · have hleft := h.atSeq (.visit (((s.nodeAt i).left, p ++ [false]) :: ((s.nodeAt i).right, p ++ [true]) :: todo))
      have hright := (h.setCodes (l.paths.map fun e => (e.1, (p ++ [false]) ++ e.2))).atSeq
        (.visit (((s.nodeAt i).right, p ++ [true]) :: todo))
      refine h.head (hstep.trans (congrArg _ he)) ((ihl hleft rfl (hl.congr rfl rfl) ?_).trans ?_)
      · rw [phaseStep, hleft.phase]; rfl
      · rw [State.setCodes_atSeq, State.atSeq_atSeq]
        refine Eq.mp (congrArg (Reaches _) ?_) (ihr hright rfl (hr.congr (by simp [State.atSeq]) (by simp [State.atSeq])) ?_)
        · simp [CodeTree.paths, Function.comp_def]
        · rw [phaseStep, hright.phase]; rfl

/-- With no node left to visit CODES has finished (43_code_table.md rule R180). -/
theorem State.Runs.visitEnd {s : State} (h : s.Runs .codes) (hs : s.seq = .visit []) :
    Reaches s (s.atSeq .phaseEnd) := by
  refine h.head ?_ (.refl _)
  rw [phaseStep, h.phase]
  simp [codesStep, hs, State.endPhase, State.atSeq]

/-- The CODES phase on the tree `T` sets `T`'s codes and no other (43_code_table.md rules R180, R181). -/
theorem State.Runs.codes {s : State} {T : CodeTree} (h : s.Runs .codes) (hs : s.seq = .start)
    (hT : s.Represents s.root T) : Reaches s ((s.clearCodes.setCodes T.codes).atSeq .phaseEnd) := by
  have hstep : phaseStep s = .next s.codesStart := by rw [phaseStep, h.phase]; simp [codesStep, hs]
  have hn := hT.nodes_ne_zero
  cases T with
  | leaf sym =>
    obtain ⟨-, hl, rfl⟩ := hT
    rw [State.codesStart, if_neg hn, if_pos hl] at hstep
    exact h.head hstep (.refl _)
  | node l r =>
    have hf : ¬ (s.nodeAt s.root).leaf = true := by
      obtain ⟨-, hf, -⟩ := hT
      simp [hf]
    rw [State.codesStart, if_neg hn, if_neg hf] at hstep
    have hruns : (s.clearCodes.atSeq (.visit [(s.root, [])])).Runs .codes := ⟨h.outOfReset, h.alone, h.phase⟩
    have hvisit : Reaches (s.clearCodes.atSeq (.visit [(s.root, [])]))
          ((s.clearCodes.setCodes (CodeTree.node l r).codes).atSeq (.visit [])) := by
      simpa [CodeTree.codes] using hruns.visit rfl (hT.congr rfl rfl)
    have hclear : s.clearCodes.Runs .codes := ⟨h.outOfReset, h.alone, h.phase⟩
    have hlast := (hclear.setCodes (CodeTree.node l r).codes).atSeq (.visit [])
    exact h.head hstep (hvisit.trans (hlast.visitEnd rfl))

/-! ### The codes of a tree -/

/-- A leaf lies no deeper than the tree. -/
theorem CodeTree.paths_length {T : CodeTree} {e : Sym × List Bool} (he : e ∈ T.paths) : e.2.length ≤ T.depth := by
  induction T generalizing e with
  | leaf sym => simp_all [CodeTree.paths, CodeTree.depth]
  | node l r ihl ihr =>
    rw [CodeTree.depth]
    rcases List.mem_append.mp he with h | h <;> obtain ⟨f, hf, rfl⟩ := List.mem_map.mp h
    · have := ihl hf
      simp only [List.length_cons]
      omega
    · have := ihr hf
      simp only [List.length_cons]
      omega

/-- A code has at most 256 bits (43_code_table.md rule R182). -/
theorem CodeTree.codes_length {T : CodeTree} (hT : T.depth ≤ 256) {e : Sym × List Bool} (he : e ∈ T.codes) :
    e.2.length ≤ 256 := by
  cases T with
  | leaf sym => simp_all [CodeTree.codes]
  | node l r => exact (CodeTree.paths_length he).trans hT

/-- No leaf's path begins another's (30_encoding.md rule R113). -/
theorem CodeTree.paths_prefix {T : CodeTree} {e f : Sym × List Bool} (he : e ∈ T.paths) (hf : f ∈ T.paths)
    (h : e.2 <+: f.2) : e = f := by
  induction T generalizing e f with
  | leaf sym => simp_all [CodeTree.paths]
  | node l r ihl ihr =>
    rcases List.mem_append.mp he with he | he <;> rcases List.mem_append.mp hf with hf | hf <;>
      obtain ⟨e', he', rfl⟩ := List.mem_map.mp he <;> obtain ⟨f', hf', rfl⟩ := List.mem_map.mp hf <;>
      obtain ⟨hbit, htail⟩ := List.cons_prefix_cons.mp h
    · rw [ihl he' hf' htail]
    · cases hbit
    · cases hbit
    · rw [ihr he' hf' htail]

/-- No leaf's code begins another's (30_encoding.md rule R113). -/
theorem CodeTree.codes_prefix {T : CodeTree} {e f : Sym × List Bool} (he : e ∈ T.codes) (hf : f ∈ T.codes)
    (h : e.2 <+: f.2) : e = f := by
  cases T with
  | leaf sym => simp_all [CodeTree.codes]
  | node l r => exact CodeTree.paths_prefix he hf h

/-- A code in a tree's table is the code of a leaf of that symbol. -/
theorem CodeTree.mem_codes_of_codeFor {T : CodeTree} {sym : Sym} (h : T.codeFor sym ≠ []) :
    (sym, T.codeFor sym) ∈ T.codes := by
  unfold CodeTree.codeFor at h ⊢
  cases hfind : T.codes.reverse.find? fun e => e.1 == sym with
  | none => simp [hfind] at h
  | some e =>
    have hsym : e.1 = sym := by simpa using List.find?_some hfind
    have hmem : e ∈ T.codes := by simpa using List.mem_of_find?_eq_some hfind
    rw [← hsym]
    exact hmem

/-- No symbol's code in a tree's table begins another's (30_encoding.md rule R113). -/
theorem CodeTree.codeFor_prefix {T : CodeTree} {a b : Sym} (ha : T.codeFor a ≠ []) (hb : T.codeFor b ≠ [])
    (h : T.codeFor a <+: T.codeFor b) : a = b :=
  congrArg Prod.fst (CodeTree.codes_prefix (CodeTree.mem_codes_of_codeFor ha) (CodeTree.mem_codes_of_codeFor hb) h)

/-- A cleared code table with a tree's codes set holds each symbol's code (43_code_table.md rules R180, R184). -/
theorem State.codeOf_clearCodes_setCodes (s : State) {T : CodeTree} (hT : T.depth ≤ 256) {i : Nat} (hi : i ≤ 256) :
    (s.clearCodes.setCodes T.codes).codeOf i = T.codeFor (BitVec.ofNat 9 i) := by
  have hclear : s.clearCodes.codeOf i = [] :=
    State.codeOf_eq_nil.mpr (by simp [State.codeLenAt, show i < 257 by omega])
  rw [State.codeOf_setCodes _ hi fun e he => CodeTree.codes_length hT he, hclear]
  rfl

/-! ### BUILD_CODES -/

/-- Settles O32: the code table holds the codes of the leaves of one tree, and no leaf's path begins another's. -/
theorem prefixFree : Obligations.PrefixFree := by
  intro s hq hn htree
  obtain ⟨T, hT, -, hdepth⟩ := treeOfNodes s hn htree
  have hclear : (s.accepted 5).clearCodes.Runs .codes := ⟨hq.outOfReset, hq.alone, rfl⟩
  have hdone := ((hclear.setCodes T.codes).atSeq .phaseEnd).complete nofun rfl (by simp; rfl)
  refine ⟨_, _, congrArg Host.Outcome.next (hq.accepts 5), ((hq.runs 5).codes rfl (hT.congr rfl rfl)).trans hdone,
    ⟨rfl, rfl, State.setCodes_err _ _⟩, ?_⟩
  intro a b ha hb hab hla hlb hpre
  have hcodeA := State.codeOf_clearCodes_setCodes (s.accepted 5) hdepth ha
  have hcodeB := State.codeOf_clearCodes_setCodes (s.accepted 5) hdepth hb
  have hsym := CodeTree.codeFor_prefix (hcodeA ▸ mt State.codeOf_eq_nil.mp hla) (hcodeB ▸ mt State.codeOf_eq_nil.mp hlb)
    (hcodeA ▸ hcodeB ▸ hpre)
  rw [← BitVec.toNat_inj, BitVec.toNat_ofNat, BitVec.toNat_ofNat] at hsym
  omega

end Sys2Proof.Machine
end

section
/-! SUPPORT. The HDR_WRITE phase: the magic and the pre-order tokens of a represented tree (44_header_codec.md rule R190). -/

namespace Sys2Proof.Machine

/-- The bits due go out one by one (44_header_codec.md rule R190). -/
theorem State.Runs.hdrBits {s : State} {bits : List Bool} {todo : List NodeIdx} (h : s.Runs .hdrWrite)
    (hs : s.seq = .hdrOut bits todo) : Reaches s ((s.writeList bits).atSeq (.hdrOut [] todo)) := by
  induction bits generalizing s with
  | nil => rw [← hs]; exact .refl s
  | cons b bits ih =>
    have hstep : phaseStep s = .next ((s.writeBit b).atSeq (.hdrOut bits todo)) := by
      rw [phaseStep, h.phase]; simp [hdrWriteStep, hs, State.atSeq]
    have hrest := ih ((h.writeList [b]).atSeq (.hdrOut bits todo)) rfl
    rw [State.writeList_atSeq] at hrest
    exact h.head hstep hrest

/-- The walk of a represented tree writes its pre-order tokens (44_header_codec.md rule R190, 30_encoding.md rule
R106). -/
theorem State.Runs.hdrTree {s : State} {T : CodeTree} {i : NodeIdx} {todo : List NodeIdx} (h : s.Runs .hdrWrite)
    (hs : s.seq = .hdrOut [] (i :: todo)) (hT : s.Represents i T) :
    Reaches s ((s.writeList T.header).atSeq (.hdrOut [] todo)) := by
  induction T generalizing s i todo with
  | leaf sym =>
    obtain ⟨-, hl, rfl⟩ := hT
    have hstep : phaseStep s = .next (s.hdrNode i todo) := by rw [phaseStep, h.phase]; simp [hdrWriteStep, hs]
    rcases s.hdrNode_cases i todo with ⟨-, he⟩ | ⟨hf, -⟩
    · have hout := (h.atSeq (.hdrOut (true :: bitsOf 9 (s.nodeAt i).sym) todo)).hdrBits rfl
      rw [State.writeList_atSeq, State.atSeq_atSeq] at hout
      rw [CodeTree.header]
      exact h.head (hstep.trans (congrArg _ he)) hout
    · simp [hf] at hl
  | node l r ihl ihr =>
    obtain ⟨-, hf, hl, hr⟩ := hT
    have hstep : phaseStep s = .next (s.hdrNode i todo) := by rw [phaseStep, h.phase]; simp [hdrWriteStep, hs]
    rcases s.hdrNode_cases i todo with ⟨hl, -⟩ | ⟨-, he⟩
    · simp [hf] at hl
    · have hbit := (h.atSeq (.hdrOut [false] ((s.nodeAt i).left :: (s.nodeAt i).right :: todo))).hdrBits rfl
      have hleft := ihl ((h.writeList [false]).atSeq (.hdrOut [] ((s.nodeAt i).left :: (s.nodeAt i).right :: todo))) rfl
        (hl.congr (s.writeList_node [false]) (s.writeList_nodes [false]))
      have hright := ihr ((h.writeList (false :: l.header)).atSeq (.hdrOut [] ((s.nodeAt i).right :: todo))) rfl
        (hr.congr (s.writeList_node (false :: l.header)) (s.writeList_nodes (false :: l.header)))
      rw [State.writeList_atSeq, State.atSeq_atSeq] at hbit hleft hright
      rw [← State.writeList_append, List.cons_append] at hright
      rw [CodeTree.header]
      exact h.head (hstep.trans (congrArg _ he)) ((hbit.trans hleft).trans hright)

/-- The bits due, then the walk of the tree, then nothing more: HDR_WRITE has finished (44_header_codec.md rule R190). -/
theorem State.Runs.hdrBitsTree {s : State} {T : CodeTree} {bits : List Bool} {i : NodeIdx} (h : s.Runs .hdrWrite)
    (hs : s.seq = .hdrOut bits [i]) (hT : s.Represents i T) :
    Reaches s ((s.writeList (bits ++ T.header)).atSeq .phaseEnd) := by
  have htree := ((h.writeList bits).atSeq (.hdrOut [] [i])).hdrTree rfl
    (hT.congr (s.writeList_node bits) (s.writeList_nodes bits))
  rw [State.writeList_atSeq, State.atSeq_atSeq, ← State.writeList_append] at htree
  have hend := (h.writeList (bits ++ T.header)).atSeq (.hdrOut [] [])
  refine ((h.hdrBits hs).trans htree).trans (hend.head ?_ (.refl _))
  rw [phaseStep, hend.phase]
  rfl

/-- The HDR_WRITE phase on the tree `T`: the magic, then `T`'s tokens (44_header_codec.md rules R190, R191). -/
theorem State.Runs.hdrWrite {s : State} {T : CodeTree} (h : s.Runs .hdrWrite) (hs : s.seq = .start)
    (hT : s.Represents s.root T) : Reaches s ((s.writeList (bitsOf 32 s.magic ++ T.header)).atSeq .phaseEnd) := by
  have hstart : phaseStep s = .next (s.atSeq (.hdrOut (bitsOf 32 s.magic) [s.root])) := by
    rw [phaseStep, h.phase]
    simp only [hdrWriteStep, hs, State.hdrWriteStart, if_neg hT.nodes_ne_zero]
    rfl
  have hbits := (h.atSeq (.hdrOut (bitsOf 32 s.magic) [s.root])).hdrBitsTree rfl (hT.congr rfl rfl)
  rw [State.writeList_atSeq, State.atSeq_atSeq] at hbits
  exact h.head hstart hbits

end Sys2Proof.Machine
end

section
/-! SUPPORT. The phases of COMPRESS in a row, and COMPRESS (O43, O44). -/

namespace Sys2Proof.Machine

/-! ### The tree of the counts and its codes -/

/-- A leaf's symbol has a code (43_code_table.md rules R180, R181). -/
theorem CodeTree.codeFor_ne_nil {T : CodeTree} {sym : Sym} (h : sym ∈ T.paths.map Prod.fst) : T.codeFor sym ≠ [] := by
  have hcode : ∀ e ∈ T.codes, e.2 ≠ [] := by
    cases T with
    | leaf sym => simp [CodeTree.codes]
    | node l r =>
      intro e he
      rcases List.mem_append.mp he with he | he <;> obtain ⟨f, -, rfl⟩ := List.mem_map.mp he <;> simp
  have hleaf : ∃ e ∈ T.codes, e.1 = sym := by
    cases T with
    | leaf sym => simpa [CodeTree.codes, CodeTree.paths, eq_comm] using h
    | node l r => exact List.mem_map.mp h
  obtain ⟨e, he, hsym⟩ := hleaf
  rw [CodeTree.codeFor]
  cases hfind : T.codes.reverse.find? fun e => e.1 == sym with
  | none => exact absurd (beq_iff_eq.mpr hsym) (List.find?_eq_none.mp hfind e (List.mem_reverse.mpr he))
  | some f => exact hcode f (List.mem_reverse.mp (List.mem_of_find?_eq_some hfind))

/-- `s` with the code table as given. -/
def State.withTable (s : State) (l : Vector (BitVec 9) 257) (b : Vector CodeBits 257) : State :=
  { s with codeLen := l, codeBits := b }

/-- `u` is `s` with a tree `T` of the symbols counted in node memory, and `T`'s codes in the code table. -/
structure State.Coded (s : State) (T : CodeTree) (u : State) : Prop where
  frame : u = (s.withTree u.node u.nodes u.root []).withTable u.codeLen u.codeBits
  represents : u.Represents u.root T
  nodeCount : T.nodeCount = u.nodes.toNat
  leaves : (T.paths.map Prod.fst).Perm (s.positives.map (BitVec.ofNat 9))
  codes : ∀ sym, sym ≤ 256 → u.codeOf sym = T.codeFor (BitVec.ofNat 9 sym)

/-- A symbol counted has a code (45_compressor.md rule R212). -/
theorem State.Coded.codeLenAt_ne_zero {s u : State} {T : CodeTree} (h : s.Coded T u) {i : Nat} (hi : i ∈ s.positives) :
    u.codeLenAt i ≠ 0 := by
  have hle : i ≤ 256 := by
    have := List.mem_range.mp (List.mem_of_mem_filter hi)
    omega
  rw [Ne, ← State.codeOf_eq_nil, h.codes i hle]
  exact CodeTree.codeFor_ne_nil (h.leaves.mem_iff.mpr (List.mem_map_of_mem hi))

/-- The body of a stream, from `T` and from the code table (30_encoding.md rule R110). -/
theorem State.Coded.body_eq {s u : State} {T : CodeTree} (h : s.Coded T u) (bytes : List Byte) :
    bytes.flatMap (fun b => T.codeFor (b.setWidth 9)) ++ T.codeFor 256 =
      bytes.flatMap (fun b => u.codeOf b.toNat) ++ u.codeOf 256 := by
  have hbyte : ∀ b : Byte, T.codeFor (b.setWidth 9) = u.codeOf b.toNat := fun b => by
    rw [h.codes b.toNat (by omega), BitVec.ofNat_toNat]
  have hend : T.codeFor 256 = u.codeOf 256 := (h.codes 256 (Nat.le_refl _)).symm
  simp only [hbyte, hend]

section
variable {s : State} (hcmd : cmdOp s.lastCmd = 1)
include hcmd

/-- TREE and CODES in COMPRESS: a tree of the symbols counted, and its codes (45_compressor.md rule R210). -/
theorem State.Runs.treeCodes (h : s.Runs .tree) (hs : s.seq = .start) (hpos : s.positives ≠ []) :
    ∃ T u, s.Coded T u ∧ Reaches s (u.enter .hdrWrite) := by
  obtain ⟨v, n, r, hreach, htree, hleaves, hn⟩ := h.tree hs hpos
  have hlen : s.positives.length ≤ 257 := (List.length_filter_le _ _).trans (by simp)
  obtain ⟨T, hT, hcount, hdepth⟩ := treeOfNodes (s.withTree v n r []) (show n.toNat ≤ 513 by omega) htree
  have hruns := h.withTree v n r []
  have hnext := (hruns.atSeq .phaseEnd).next (q := .codes) nofun rfl (by rw [State.atSeq_lastCmd]; exact hcmd ▸ rfl)
  have hcodes := (hruns.enter .codes).codes rfl (hT.congr rfl rfl)
  have hcoded : (s.withTree v n r []).clearCodes.Runs .tree := ⟨h.outOfReset, h.alone, h.phase⟩
  have hlast := (((hcoded.setCodes T.codes).enter .codes).atSeq .phaseEnd).next (q := .hdrWrite) nofun rfl
    (by rw [State.atSeq_lastCmd, State.enter_lastCmd, State.setCodes_lastCmd]; exact hcmd ▸ rfl)
  have hclear : ((s.withTree v n r []).enter .codes).clearCodes = (s.withTree v n r []).clearCodes.enter .codes := rfl
  rw [hclear, State.setCodes_enter] at hcodes
  rw [State.enter_atSeq, State.enter_enter] at hlast
  refine ⟨T, (s.withTree v n r []).clearCodes.setCodes T.codes, ⟨?_, ?_, ?_, ?_, ?_⟩,
    ((hreach.trans hnext).trans hcodes).trans hlast⟩
  · obtain ⟨l, b, he⟩ := (s.withTree v n r []).clearCodes.setCodes_eq T.codes
    rw [he]
    rfl
  · rw [State.setCodes_root]
    exact hT.congr (by simp) (by simp)
  · rw [hcount, State.setCodes_nodes]
    rfl
  · exact hleaves ▸ htree.paths_perm hT
  · exact fun i hi => State.codeOf_clearCodes_setCodes _ hdepth hi

/-- HDR_WRITE, ENCODE and FLUSH in COMPRESS, from an empty writer: the stream packed, then `End` (45_compressor.md rules
R210, R214; 30_encoding.md rules R105, R110, R111). -/
theorem State.Runs.writeStream {T : CodeTree} {body : List Bool} (h : s.Runs .hdrWrite) (hs : s.seq = .start)
    (hw : s.wcnt = 0) (hout : s.outBytes = 0) (hT : s.Represents s.root T)
    (hcode : ∀ b ∈ s.inData, s.codeLenAt b.toNat ≠ 0) (heof : s.codeLenAt 256 ≠ 0)
    (hbody : body = s.inData.flatMap (fun b => s.codeOf b.toNat) ++ s.codeOf 256) :
    Reaches s (({ s with
      outLog := s.outLog ++ (packBits (bitsOf 32 s.magic ++ T.header ++ body)).map .byte
      outBytes := BitVec.ofNat 32 (packBits (bitsOf 32 s.magic ++ T.header ++ body)).length
      wbuf := 0, wcnt := 0 } : State).withReader s.inData.length (BitVec.ofNat 32 s.inData.length)
        (s.inData.getLast?.getD 0) 0).outEnd.complete := by
  have hheader := h.hdrWrite hs hT
  generalize bitsOf 32 s.magic ++ T.header = header at hheader ⊢
  have hruns := h.writeList header
  have hnext := (hruns.atSeq .phaseEnd).next (q := .encode) nofun rfl
    (by rw [State.atSeq_lastCmd, State.writeList_lastCmd]; exact hcmd ▸ rfl)
  rw [State.enter_atSeq] at hnext
  have hrow : cmdOp ((s.writeList header).enter .encode).lastCmd = 1 := by
    rwa [State.enter_lastCmd, State.writeList_lastCmd]
  have hrest := (hruns.enter .encode).encodeFlush (body := body) rfl (by simpa using hcode) (by simpa using heof)
    (by simpa using hbody) (hrow ▸ rfl) (hrow ▸ rfl)
  rw [State.enter_inData, State.writeList_inData] at hrest
  refine (hheader.trans hnext).trans (Eq.mp (congrArg (Reaches _) ?_) hrest)
  have hcount : padding (((s.writeList header).enter .encode).wcnt.toNat + body.length) =
      padding (s.wcnt.toNat + (header ++ body).length) := by
    rw [State.enter_wcnt, State.writeList_wcnt, ← padding_mod, ← padding_mod (s.wcnt.toNat + _)]
    simp [BitVec.toNat_add, Nat.add_assoc]
  have hne : header ++ body ≠ [] := by
    rw [hbody]
    exact List.append_ne_nil_of_right_ne_nil _ (List.append_ne_nil_of_right_ne_nil _ (mt State.codeOf_eq_nil.mp heof))
  rw [hcount, State.writeList_enter, ← State.writeList_append, ← List.append_assoc, State.writeList_padded s hne, hw,
    hout, show (0 : Word) + _ = _ from BitVec.zero_add _]
  rfl

end

/-! ### COMPRESS -/

/-- The bytes counted and the sentinel are the symbols of positive count (41_frequency_counter.md rule R150). -/
theorem State.mem_positives_of_countsOf {s : State} {bytes : List Byte} (hf : s.freq = countsOf bytes 1)
    (hlen : bytes.length ≤ 0xFFFFFFFE) : (∀ b ∈ bytes, b.toNat ∈ s.positives) ∧ 256 ∈ s.positives := by
  have hmem : ∀ i, i ∈ s.positives ↔ i < 257 ∧ s.freqAt i ≠ 0 := fun i => by simp [State.positives]
  constructor
  · intro b hb
    have hlt := b.isLt
    have hpos : 0 < bytes.count b := List.count_pos_iff.mpr hb
    have hle : bytes.count b ≤ bytes.length := List.count_le_length
    rw [hmem, State.freqAt, hf, countsOf_getElem? _ _ (by omega), if_neg (by omega), BitVec.ofNat_toNat, BitVec.setWidth_eq]
    refine ⟨by omega, fun h0 => ?_⟩
    have h0 : bytes.count b % 2 ^ 32 = 0 := by simpa using congrArg BitVec.toNat h0
    omega
  · rw [hmem, State.freqAt, hf, countsOf_getElem? _ _ (by omega), if_pos rfl]
    exact ⟨by decide, by simp⟩

/-- COMPRESS accepted in `s`, at the start of TREE: the input is counted (45_compressor.md rule R210). -/
def State.compressCounted (s : State) : State :=
  (((s.accepted 1).withFreq (countsOf s.inData 1)).withReader s.inData.length (BitVec.ofNat 32 s.inData.length)
    (s.inData.getLast?.getD 0) 0).enter .tree

/-- COMPRESS up to the start of TREE. -/
theorem State.Quiet.compressCounts {s : State} (hq : s.Quiet) (hpos : s.inPos = 0)
    (hlen : s.inData.length ≤ 0xFFFFFFFE) : Reaches (s.accepted 1) s.compressCounted := by
  have hleft : (s.accepted 1).inLeft = s.inData := by
    show s.inData.drop s.inPos = s.inData
    rw [hpos, List.drop_zero]
  have hat : (s.accepted 1).inPos = 0 := hpos
  have hcount := (hq.runs 1).count rfl rfl rfl (by rwa [hleft])
  rw [hleft, hat, Nat.zero_add] at hcount
  exact hcount.trans (((((hq.runs 1).withFreq _).withReader _ _ _ _).atSeq .phaseEnd).next (q := .tree) nofun rfl rfl)

/-- Settles O43: COUNT, TREE, CODES, HDR_WRITE, ENCODE and FLUSH in a row. -/
theorem compress : Obligations.Compress := by
  intro s hq hpos hlen
  have hruns : s.compressCounted.Runs .tree := ⟨hq.outOfReset, hq.alone, rfl⟩
  obtain ⟨hbytes, heof⟩ := State.mem_positives_of_countsOf (s := s.compressCounted) rfl hlen
  obtain ⟨T, u, hu, hreach⟩ := hruns.treeCodes rfl rfl (List.ne_nil_of_mem heof)
  have hbody := hu.body_eq s.inData
  have hcode : ∀ b ∈ s.inData, u.codeLenAt b.toNat ≠ 0 := fun b hb => hu.codeLenAt_ne_zero (hbytes b hb)
  have hend := hu.codeLenAt_ne_zero heof
  obtain ⟨hframe, hT, hcount, hleaves, hcodes⟩ := hu
  obtain ⟨v, n, r, l, b, rfl⟩ : ∃ v n r l b, u = (s.compressCounted.withTree v n r []).withTable l b :=
    ⟨_, _, _, _, _, hframe⟩
  have hwrite : (((s.compressCounted.withTree v n r []).withTable l b).enter .hdrWrite).Runs .hdrWrite :=
    ⟨hq.outOfReset, hq.alone, rfl⟩
  have hrun := ((hq.compressCounts hpos hlen).trans hreach).trans
    (hwrite.writeStream rfl rfl rfl rfl (hT.congr rfl rfl) hcode hend hbody)
  refine ⟨_, _, T, _, congrArg Host.Outcome.next (hq.accepts 1), hrun,
    congrArg packBits (List.append_assoc _ _ _).symm, rfl, hT.congr rfl rfl, hcount, hleaves, hcodes⟩

end Sys2Proof.Machine
end

section
/-! SUPPORT. The length of a compressed stream (30_encoding.md rules R108, R112), and O44. -/

namespace Sys2Proof.Machine

/-- A tree of `L` leaves has a header of `11 L - 1` bits (30_encoding.md rule R108). -/
theorem CodeTree.header_length (T : CodeTree) : T.header.length + 1 = 11 * T.paths.length := by
  induction T with
  | leaf sym => simp [CodeTree.header, CodeTree.paths]
  | node l r ihl ihr =>
    simp only [CodeTree.header, CodeTree.paths, List.length_cons, List.length_append, List.length_map]
    omega

/-- Settles O44: the stream's bits counted part by part. -/
theorem compressedLength : Obligations.CompressedLength := by
  intro s hq hpos hlen
  obtain ⟨t₀, t, T, bytes, hexec, hreach, hbytes, ht, -, -, hleaves, hcodes⟩ := compress s hq hpos hlen
  have hcode : ∀ i, i ≤ 256 → (T.codeFor (BitVec.ofNat 9 i)).length = (t.codeLenAt i).toNat := fun i hi => by
    rw [← hcodes i hi, State.codeOf_length]
  have hbyte : ∀ b : Byte, (T.codeFor (b.setWidth 9)).length = (t.codeLenAt b.toNat).toNat := fun b => by
    rw [← hcode b.toNat (by omega), BitVec.ofNat_toNat]
  have hend : (T.codeFor 256).length = (t.codeLenAt 256).toNat := hcode 256 (Nat.le_refl _)
  have hheader := T.header_length
  have hpaths : T.paths.length = t.positives.length := by simpa using hleaves.length_eq
  refine ⟨t₀, t, bytes, hexec, hreach, ⟨by rw [ht]; rfl, by rw [ht]; rfl, by rw [ht]; rfl⟩, by rw [ht], ?_⟩
  rw [hbytes, packBits_length]
  simp only [List.length_append, List.length_flatMap, bitsOf_length, hbyte, hend]
  omega

end Sys2Proof.Machine
end

section
/-! SUPPORT. The bit reader and writer against the bit streams (40_bitio.md rules R130 to R138): O20, O21, O22, O23. -/

namespace Sys2Proof.Machine

/-! ### The bits still to read -/

/-- A bit that stands in RBUF is the next of the stream (40_bitio.md rule R131). -/
theorem State.inBits_buffered {s : State} (h : s.rcnt ≠ 0) :
    s.inBits = s.rbuf.getLsbD (s.rcnt - 1).toNat :: ({ s with rcnt := s.rcnt - 1 } : State).inBits := by
  have hne : s.rcnt.toNat ≠ 0 := fun h0 => h (BitVec.eq_of_toNat_eq h0)
  have hsucc : s.rcnt.toNat = (s.rcnt - 1).toNat + 1 := by bv_omega
  rw [State.inBits, hsucc]
  rfl

/-- With RBUF used up, the next bit is bit 7 of the next IN byte (40_bitio.md rules R130, R131). -/
theorem State.inBits_refilled {s : State} {x : Byte} (h : s.rcnt = 0) (hx : s.inData[s.inPos]? = some x) :
    s.inBits = x.getLsbD 7 :: (s.withReader (s.inPos + 1) (s.inBytes + 1) x 7).inBits := by
  obtain ⟨hlt, rfl⟩ := List.getElem?_eq_some_iff.mp hx
  rw [State.inBits, h, State.inLeft, List.drop_eq_getElem_cons hlt]
  rfl

/-- With RBUF used up and no byte left, no bit is left. -/
theorem State.inBits_end {s : State} (h : s.rcnt = 0) (hx : s.inData[s.inPos]? = none) : s.inBits = [] := by
  rw [State.inBits, h, State.inLeft, List.drop_eq_nil_iff.mpr (List.getElem?_eq_none_iff.mp hx)]
  rfl

/-- `ReadBit` finds no data at the end of the stream only. -/
theorem State.inBits_of_readBit_none {s t : State} (h : s.readBit = (none, t)) : s.inBits = [] := by
  obtain ⟨-, h0, hx⟩ := State.readBit_none h
  exact State.inBits_end h0 hx

/-- `ReadBit` takes the first bit of the stream. -/
theorem State.inBits_of_readBit_some {s t : State} {b : Bool} (h : s.readBit = (some b, t)) :
    s.inBits = b :: t.inBits := by
  rcases State.readBit_some h with ⟨h0, rfl, rfl⟩ | ⟨h0, x, hx, rfl, rfl⟩
  · exact State.inBits_buffered h0
  · exact State.inBits_refilled h0 hx

/-! ### The bytes the reader takes -/

/-- From `s` to `t` the reader has taken `m` bytes and counted each of them, and nothing else has changed. -/
def State.TakesBytes (s : State) (m : Nat) (t : State) : Prop :=
  ∃ r c, t = s.withReader (s.inPos + m) (s.inBytes + BitVec.ofNat 32 m) r c

/-- A reader that stands still takes nothing. -/
theorem State.takesBytes_refl (s : State) : s.TakesBytes 0 s :=
  ⟨s.rbuf, s.rcnt, by simp [State.withReader]⟩

theorem State.TakesBytes.trans {s t u : State} {m m' : Nat} (h : s.TakesBytes m t) (h' : t.TakesBytes m' u) :
    s.TakesBytes (m + m') u := by
  obtain ⟨r, c, rfl⟩ := h
  obtain ⟨r', c', rfl⟩ := h'
  exact ⟨r', c', by simp [Nat.add_assoc, BitVec.add_assoc, BitVec.ofNat_add]⟩

theorem State.TakesBytes.inPos {s t : State} {m : Nat} (h : s.TakesBytes m t) : t.inPos = s.inPos + m := by
  obtain ⟨r, c, rfl⟩ := h
  rfl

/-- What the reader changes: its own registers, IN_POS, and IN_BYTES by as much as IN_POS. -/
theorem State.TakesBytes.frame {s t : State} {m : Nat} (h : s.TakesBytes m t) :
    t = { s with rbuf := t.rbuf, rcnt := t.rcnt, inPos := t.inPos
                 inBytes := s.inBytes + BitVec.ofNat 32 (t.inPos - s.inPos) } := by
  rw [h.inPos, Nat.add_sub_cancel_left]
  obtain ⟨r, c, rfl⟩ := h
  rfl

/-- `ReadBit` takes a byte exactly when it finds RBUF used up (40_bitio.md rules R130, R131). -/
theorem State.takesBytes_of_readBit_some {s t : State} {b : Bool} (h : s.readBit = (some b, t)) :
    s.TakesBytes (if s.rcnt = 0 then 1 else 0) t := by
  rcases State.readBit_some h with ⟨h0, -, rfl⟩ | ⟨h0, x, -, -, rfl⟩
  · rw [if_neg h0]
    exact ⟨s.rbuf, s.rcnt - 1, by simp [State.withReader]⟩
  · rw [if_pos h0]
    exact ⟨x, 7, rfl⟩

/-- After `ReadBit` at most seven bits stand in RBUF. -/
theorem State.rcnt_le_of_readBit_some {s t : State} {b : Bool} (hr : s.rcnt.toNat ≤ 8) (h : s.readBit = (some b, t)) :
    t.rcnt.toNat ≤ 7 := by
  rcases State.readBit_some h with ⟨h0, -, rfl⟩ | ⟨-, x, -, -, rfl⟩
  · have hne : s.rcnt.toNat ≠ 0 := fun h => h0 (BitVec.eq_of_toNat_eq h)
    show (s.rcnt - 1).toNat ≤ 7
    bv_omega
  · show (7 : BitVec 4).toNat ≤ 7
    decide

/-- Settles O20: by what `ReadBit` answers. -/
theorem readBit : Obligations.ReadBit := by
  intro s hr
  rcases h : s.readBit with ⟨_ | b, t⟩
  · obtain ⟨rfl, -, -⟩ := State.readBit_none h
    exact ⟨fun _ => rfl, fun b bits hb => by simp [State.inBits_of_readBit_none h] at hb⟩
  · have hbits := State.inBits_of_readBit_some h
    have htake := State.takesBytes_of_readBit_some h
    refine ⟨fun hnil => by simp [hbits] at hnil, fun b' bits hb => ?_⟩
    obtain ⟨rfl, rfl⟩ := List.cons.inj (hbits.symm.trans hb)
    exact ⟨t, rfl, rfl, htake.frame, State.rcnt_le_of_readBit_some hr h, htake.inPos⟩

/-! ### The loop of ReadBits -/

/-- What the loop of `ReadBits` returns of the stream `bits`, with `n` bits to go and `k` read, of value `v`
(40_bitio.md rule R132). -/
def bitsReadOf (n k : Nat) (v : Word) (bits : List Bool) : BitsRead :=
  if n ≤ bits.length then .value ((bits.take n).foldl BitVec.shiftConcat v)
  else .noData (bits.foldl BitVec.shiftConcat v) (k + bits.length)

theorem bitsReadOf_cons (n k : Nat) (v : Word) (b : Bool) (bits : List Bool) :
    bitsReadOf (n + 1) k v (b :: bits) = bitsReadOf n (k + 1) (v.shiftConcat b) bits := by
  simp [bitsReadOf, Nat.add_assoc, Nat.add_comm 1]

/-- The loop of `ReadBits` over the stream: what it returns, what it leaves, and the bytes it takes
(40_bitio.md rule R132). -/
theorem readBitsFrom_eq (n k : Nat) (v : Word) (s : State) : ∃ t m,
    readBitsFrom n k v s = (bitsReadOf n k v s.inBits, t) ∧ t.inBits = s.inBits.drop n ∧ s.TakesBytes m t := by
  induction n generalizing k v s with
  | zero => exact ⟨s, 0, rfl, rfl, s.takesBytes_refl⟩
  | succ n ih =>
    rcases h : s.readBit with ⟨_ | b, t⟩
    · have hbits := State.inBits_of_readBit_none h
      obtain ⟨rfl, -, -⟩ := State.readBit_none h
      exact ⟨t, 0, by simp [readBitsFrom, h, hbits, bitsReadOf], by simp [hbits], t.takesBytes_refl⟩
    · obtain ⟨u, m, hread, hleft, htake⟩ := ih (k + 1) (v.shiftConcat b) t
      rw [State.inBits_of_readBit_some h, bitsReadOf_cons]
      exact ⟨u, _, by rw [readBitsFrom, h]; exact hread, hleft, (State.takesBytes_of_readBit_some h).trans htake⟩

/-- Settles O21: the loop from its start, with no bit read. -/
theorem readBits : Obligations.ReadBits := by
  intro s n _ _ _
  obtain ⟨t, m, hread, hleft, htake⟩ := readBitsFrom_eq n 0 0 s
  refine ⟨t, hread.trans ?_, hleft, htake.frame⟩
  rw [bitsReadOf, Nat.zero_add]
  rfl

/-! ### The bits written -/

/-- The bits of a value in the order `WriteBits` sends them: bit `n - 1` first, bit 0 last (40_bitio.md rule R136). -/
theorem bitsOf_eq_map {w : Nat} (n : Nat) (v : BitVec w) :
    bitsOf n v = (List.range n).map fun i => v.getLsbD (n - 1 - i) := by
  induction n with
  | zero => rfl
  | succ n ih =>
    rw [bitsOf, ih, List.range_succ_eq_map, List.map_cons, List.map_map]
    simp [Function.comp_def, Nat.sub_sub, Nat.add_comm 1]

/-- Settles O22: the stream `WriteBits` leaves, and its length. -/
theorem writeBits : Obligations.WriteBits := by
  intro s n v _ _
  obtain ⟨bytes, w, c, he, hbits, -⟩ := s.writeList_eq (bitsOf n v)
  have hlen : 8 * bytes.length + c.toNat = s.wcnt.toNat + n := by
    simpa only [List.length_append, byteBits_length, bitsOf_length] using congrArg List.length hbits
  have hc := c.isLt
  rw [State.writeBits, he, ← bitsOf_eq_map]
  exact ⟨bytes, _, rfl, rfl, by omega, show c.toNat = _ by omega, hbits⟩

/-! ### The padding of FLUSH -/

/-- Zero bits shifted in are the last of the bits sent. -/
theorem bitsOf_shiftLeft {w n k : Nat} (h : n + k ≤ w) (v : BitVec w) :
    bitsOf (n + k) (v <<< k) = bitsOf n v ++ List.replicate k false := by
  induction k with
  | zero => simp
  | succ k ih =>
    have hshift : v <<< (k + 1) = (v <<< k).shiftConcat false := by
      rw [BitVec.shiftLeft_add]
      refine BitVec.eq_of_getLsbD_eq fun i hi => ?_
      rw [BitVec.getLsbD_shiftConcat, BitVec.getLsbD_shiftLeft]
      rcases i with _ | i <;> simp [hi]
    rw [hshift, ← Nat.add_assoc, bitsOf_shiftConcat (by omega), ih (by omega), List.replicate_succ', List.append_assoc]

/-- The pending bits and their padding are one byte: WBUF shifted up to bit 7 (40_bitio.md rule R138). -/
theorem State.byteBits_padded {s : State} (h : s.wcnt ≠ 0) :
    byteBits [s.wbuf <<< (8 - s.wcnt.toNat)] = bitsOf s.wcnt.toNat s.wbuf ++ padding s.wcnt.toNat := by
  have hlt := s.wcnt.isLt
  have hne : s.wcnt.toNat ≠ 0 := fun h0 => h (BitVec.eq_of_toNat_eq h0)
  have hpad : (8 - s.wcnt.toNat % 8) % 8 = 8 - s.wcnt.toNat := by omega
  have hbits := bitsOf_shiftLeft (n := s.wcnt.toNat) (k := 8 - s.wcnt.toNat) (by omega) s.wbuf
  rw [Nat.add_sub_cancel' hlt.le] at hbits
  rw [padding, hpad, ← hbits]
  exact List.append_nil _

/-- The padding through the writer: the pending bits leave as one byte, and the writer is empty
(40_bitio.md rules R135, R138). -/
theorem State.writeList_padding {s : State} (h : s.wcnt ≠ 0) :
    s.writeList (padding s.wcnt.toNat) = { s with
      outLog := s.outLog ++ [.byte (s.wbuf <<< (8 - s.wcnt.toNat))], outBytes := s.outBytes + 1
      wbuf := 0, wcnt := 0 } := by
  obtain ⟨bytes, w, c, he, hbits, h0⟩ := s.writeList_eq (padding s.wcnt.toNat)
  rw [← State.byteBits_padded h] at hbits
  have hc : c = 0 := by
    have hlen := congrArg List.length hbits
    simp only [List.length_append, byteBits_length, bitsOf_length, List.length_singleton] at hlen
    have := c.isLt
    exact BitVec.eq_of_toNat_eq (show c.toNat = 0 by omega)
  have hne : padding s.wcnt.toNat ≠ [] := fun hnil => by
    have hlen := congrArg List.length (State.byteBits_padded h)
    have := s.wcnt.isLt
    simp [hnil] at hlen
    omega
  subst hc
  have hbytes : bytes = [s.wbuf <<< (8 - s.wcnt.toNat)] := byteBits_injective (by simpa [bitsOf] using hbits)
  rw [he, hbytes, h0 hne rfl]
  rfl

/-- Settles O23: the run of the phase, with what its padding writes. -/
theorem flushPhase : Obligations.FlushPhase := by
  intro s hrst halone hphase hstart
  have hrun := (State.Runs.mk hrst halone hphase).flush hstart
  by_cases h : s.wcnt = 0
  · have hnone : s.writeList (padding s.wcnt.toNat) = s := by rw [h]; rfl
    rw [hnone] at hrun
    simpa [h, State.outEnd, State.atSeq] using hrun
  · rw [State.writeList_padding h] at hrun
    simp only [if_neg h]
    exact hrun

end Sys2Proof.Machine
end

section
/-! SUPPORT. The COUNT command from its acceptance to its completion (41_frequency_counter.md rules R150 to R153), and
O24. -/

namespace Sys2Proof.Machine

/-- Settles O24: the start clears the reader and IN_BYTES, the COUNT phase counts every byte still to come, and, COUNT
being the row's only phase, the command completes. -/
theorem countCommand : Obligations.CountCommand := by
  intro s hq hmax
  have hcount := (hq.runs 3).count rfl rfl rfl hmax
  have hrun := hcount.trans
    (((((hq.runs 3).withFreq _).withReader _ _ _ _).atSeq .phaseEnd).complete nofun rfl rfl)
  exact ⟨_, congrArg Host.Outcome.next (hq.accepts 3), hrun⟩

end Sys2Proof.Machine
end

section
/-! SUPPORT. The valid entries of node memory as a list, the leaves the TREE phase makes (42_tree_builder.md rules R160,
R161), O26, and BUILD_TREE without a positive count, O29. -/

namespace Sys2Proof.Machine

/-! ### The valid entries as a list -/

/-- The valid entries of node memory, in index order. -/
def State.entries (s : State) : List Node := s.indices.map s.nodeAt

@[simp] theorem State.entries_length (s : State) : s.entries.length = s.nodes.toNat := by
  simp [State.entries, State.indices]

/-- A valid entry stands at its index. -/
theorem State.entries_getElem? {s : State} {i : NodeIdx} (h : i < s.nodes) :
    s.entries[i.toNat]? = some (s.nodeAt i) := by
  simp [State.entries, State.indices, BitVec.lt_def.mp h]

/-- States with the same entries have as many. -/
theorem State.nodes_eq_of_entries {s v : State} (h : s.entries = v.entries) : s.nodes = v.nodes :=
  BitVec.eq_of_toNat_eq (by simpa using congrArg List.length h)

/-- States with the same entries read the same at every valid index. -/
theorem State.nodeAt_eq_of_entries {s v : State} (h : s.entries = v.entries) {i : NodeIdx} (hi : i < s.nodes) :
    s.nodeAt i = v.nodeAt i := by
  have hn := State.nodes_eq_of_entries h
  rw [← Option.some_inj, ← State.entries_getElem? hi, ← State.entries_getElem? (hn ▸ hi), h]

/-- The valid indices after the next free entry is taken. -/
theorem State.indices_allocNode {s : State} (hn : s.nodes.toNat < 513) (n : Node) :
    (s.allocNode n).indices = s.indices ++ [s.nodes] := by
  rw [State.indices, State.allocNode_nodes, NodeIdx.toNat_succ hn, List.range_succ, List.map_append, State.indices]
  simp

/-- Valid entries stay when the next free one is taken. -/
theorem State.nodeAt_allocNode_valid {s : State} (hn : s.nodes.toNat < 513) (n : Node) {i : NodeIdx}
    (hi : i < s.nodes) : (s.allocNode n).nodeAt i = s.nodeAt i := by
  rw [State.nodeAt_allocNode hn, if_neg (BitVec.ne_of_lt hi)]

/-- The next free entry, taken, is the last of the valid ones. -/
theorem State.entries_allocNode {s : State} (hn : s.nodes.toNat < 513) (n : Node) :
    (s.allocNode n).entries = s.entries ++ [n] := by
  have hold : s.indices.map (s.allocNode n).nodeAt = s.indices.map s.nodeAt :=
    List.map_congr_left fun i hi => State.nodeAt_allocNode_valid hn n (State.mem_indices.mp hi)
  rw [State.entries, State.indices_allocNode hn, List.map_append, hold]
  simp [State.entries, State.nodeAt_allocNode hn]

/-! ### The leaves -/

/-- The leaf of a symbol: the count zero-extended is its weight (42_tree_builder.md rules R160, R163). -/
def State.leafOf (s : State) (i : Nat) : Node := Node.mkLeaf (BitVec.ofNat 9 i) ((s.freqAt i).setWidth 41)

/-- Seeding from a symbol on appends the leaves of the positive counts, in symbol order (42_tree_builder.md rule
R161). -/
theorem State.entries_seedFrom (u : State) (a m : Nat) {s : State} (hn : s.nodes.toNat + m ≤ 513) :
    (seedFrom ((List.range' a m).map u.freqAt) a s).entries =
      s.entries ++ ((List.range' a m).filter fun i => u.freqAt i != 0).map u.leafOf := by
  induction m generalizing a s with
  | zero => simp [seedFrom]
  | succ m ih =>
    rw [List.range'_succ, List.map_cons, seedFrom, List.filter_cons]
    by_cases h0 : u.freqAt a = 0
    · simpa [h0] using ih (a + 1) (s := s) (by omega)
    · have hN : (s.seedLeaf a (u.freqAt a)).nodes.toNat = s.nodes.toNat + 1 := NodeIdx.toNat_succ (by omega)
      have hE : (s.seedLeaf a (u.freqAt a)).entries = s.entries ++ [u.leafOf a] :=
        State.entries_allocNode (by omega) _
      rw [if_neg h0, if_pos (by simpa using h0), ih (a + 1) (by omega), hE]
      simp

/-- The leaves the TREE phase starts with: PQ is their indices (42_tree_builder.md rules R160, R161). -/
theorem State.seedLeaves_entries (s : State) :
    s.seedLeaves.entries = s.positives.map s.leafOf ∧ s.seedLeaves.pq = s.seedLeaves.indices := by
  have h := State.entries_seedFrom s 0 257 (s := { s with nodes := 0, root := 0, pq := [] }) (by simp)
  rw [← State.freq_toList, ← List.range_eq_range'] at h
  exact ⟨h, s.seedLeaves_seeded.1.queue⟩

/-- The first step of the TREE phase: the leaves are made (42_tree_builder.md rule R160). -/
theorem State.treeStart {s : State} (hp : s.phase = .tree) (hs : s.seq = .start) (hpos : s.positives ≠ []) :
    phaseStep s = .next (s.seedLeaves.atSeq .merge) := by
  have hne : s.seedLeaves.pq ≠ [] := (State.merging_seedLeaves hpos).nonempty
  rw [phaseStep, hp]
  simp [treeStep, hs, hne, State.atSeq]

/-- Seeding changes NODE, NODES, ROOT and PQ alone (42_tree_builder.md rule R160). -/
theorem State.seedLeaves_frame (s : State) :
    ∃ v n q, s.seedLeaves.atSeq .merge = (s.withTree v n 0 q).atSeq .merge := by
  obtain ⟨-, v, n, q, he, -, -⟩ := s.seedLeaves_seeded
  exact ⟨v, n, q, by rw [he]; rfl⟩

/-- After the leaves are made TREE still runs. -/
theorem State.Runs.seedLeaves {s : State} (h : s.Runs .tree) : (s.seedLeaves.atSeq .merge).Runs .tree := by
  obtain ⟨v, n, q, he⟩ := s.seedLeaves_frame
  rw [he]
  exact (h.withTree v n 0 q).atSeq .merge

/-- Settles O26: the leaves are the entries that seeding appends to an empty list. -/
theorem treeLeaves : Obligations.TreeLeaves := by
  intro s hp hs hpos
  obtain ⟨hentries, hpq⟩ := s.seedLeaves_entries
  obtain ⟨-, v, n, q, he, -, -⟩ := s.seedLeaves_seeded
  have hn : s.seedLeaves.nodes.toNat = s.positives.length := s.seedLeaves_leafSyms.2
  have hlen : s.positives.length ≤ 257 := (List.length_filter_le _ _).trans (by simp)
  have hleaf : ∀ (k : Nat) (h : k < s.positives.length),
      s.seedLeaves.nodeAt (BitVec.ofNat 10 k) = s.leafOf s.positives[k] := fun k h => by
    have hk : (BitVec.ofNat 10 k).toNat = k := by rw [BitVec.toNat_ofNat, Nat.mod_eq_of_lt (by omega)]
    have hat := State.entries_getElem? (s := s.seedLeaves) (i := BitVec.ofNat 10 k) (by rw [BitVec.lt_def]; omega)
    rw [hentries, hk] at hat
    simpa [h] using hat.symm
  refine ⟨_, State.treeStart hp hs hpos, ?_, fun k h => ?_⟩
  · rw [State.indices, hn] at hpq
    have hnodes : BitVec.ofNat 10 s.positives.length = s.seedLeaves.nodes := by simp [← hn]
    rw [hnodes, ← hpq, he]
    rfl
  · have hat : (s.seedLeaves.atSeq .merge).nodeAt (BitVec.ofNat 10 k) = s.leafOf s.positives[k] := hleaf k h
    rw [hat]
    exact ⟨rfl, rfl, rfl⟩

/-! ### No positive count -/

/-- With every count 0 seeding makes no leaf. -/
theorem seedFrom_zero {counts : List Word} (h : ∀ c ∈ counts, c = 0) (sym : Nat) (s : State) :
    seedFrom counts sym s = s := by
  induction counts generalizing sym with
  | nil => rfl
  | cons c rest ih =>
    rw [seedFrom, if_pos (h c List.mem_cons_self)]
    exact ih (fun c hc => h c (List.mem_cons_of_mem _ hc)) _

/-- Without a positive count no leaf is made (42_tree_builder.md rule R160). -/
theorem State.seedLeaves_none {s : State} (h : s.positives = []) :
    s.seedLeaves = { s with nodes := 0, root := 0, pq := [] } := by
  refine seedFrom_zero (fun c hc => ?_) _ _
  rw [State.freq_toList] at hc
  obtain ⟨i, hi, rfl⟩ := List.mem_map.mp hc
  rw [← List.range_eq_range'] at hi
  simpa using List.filter_eq_nil_iff.mp h i hi

/-- The first step of the TREE phase without a positive count: the abort, with node memory as it was (42_tree_builder.md
rule R160). -/
theorem State.treeStart_none {s : State} (hp : s.phase = .tree) (hs : s.seq = .start) (h : s.positives = []) :
    phaseStep s = .next (({ s with nodes := 0, root := 0, pq := [] } : State).abort .emptyFrequencySet 0) := by
  rw [phaseStep, hp]
  simp [treeStep, hs, State.seedLeaves_none h, State.abort, State.readerClear, State.writerClear]

/-- Settles O29: no leaf is made, and the phase's first step is the abort. -/
theorem emptyFrequencySet : Obligations.EmptyFrequencySet := by
  intro s hq hnone
  have hrun := (hq.runs 4).head (State.treeStart_none (hq.runs 4).phase rfl hnone) (.refl _)
  exact ⟨_, congrArg Host.Outcome.next (hq.accepts 4), hrun⟩

end Sys2Proof.Machine
end

section
/-! SUPPORT. The order of extraction (42_tree_builder.md rules R161, R165), what a turn of the merge loop does, and
O27. -/

namespace Sys2Proof.Machine

/-! ### The order of extraction -/

/-- The pair by which PQ is ordered: weight first, then index (42_tree_builder.md rule R161). -/
def State.pqKey (s : State) (i : NodeIdx) : ℕ ×ₗ ℕ := toLex ((s.nodeAt i).weight.toNat, i.toNat)

theorem State.pqKey_lt {s : State} {i j : NodeIdx} : s.pqKey i < s.pqKey j ↔
    (s.nodeAt i).weight < (s.nodeAt j).weight ∨ ((s.nodeAt i).weight = (s.nodeAt j).weight ∧ i < j) := by
  rw [State.pqKey, State.pqKey, Prod.Lex.toLex_lt_toLex, BitVec.toNat_inj, ← BitVec.lt_def, ← BitVec.lt_def]

theorem State.pqBefore_iff {s : State} {i j : NodeIdx} : s.pqBefore i j = true ↔ s.pqKey i < s.pqKey j := by
  simp [State.pqBefore, State.pqKey_lt]

/-- Indices are unique, so no two entries tie (42_tree_builder.md rule R161). -/
theorem State.pqKey_injective (s : State) : Function.Injective s.pqKey := fun _ _ h =>
  BitVec.eq_of_toNat_eq (Prod.ext_iff.mp (toLex_inj.mp h)).2

/-- `a` is the entry that ExtractMin takes out of the PQ `l` (42_tree_builder.md rule R161). -/
def State.LeastIn (s : State) (a : NodeIdx) (l : List NodeIdx) : Prop := a ∈ l ∧ ∀ j ∈ l, s.pqKey a ≤ s.pqKey j

theorem State.pqLeast_leastIn (s : State) (m : NodeIdx) (l : List NodeIdx) : s.LeastIn (s.pqLeast m l) (m :: l) := by
  refine ⟨s.pqLeast_mem m l, ?_⟩
  induction l generalizing m with
  | nil => simp [State.pqLeast]
  | cons i rest ih =>
    obtain ⟨hfirst, hrest⟩ := List.forall_mem_cons.mp (ih (if s.pqBefore i m then i else m))
    rw [State.pqLeast, List.forall_mem_cons, List.forall_mem_cons]
    have hmin : s.pqKey (if s.pqBefore i m then i else m) ≤ s.pqKey m ∧
        s.pqKey (if s.pqBefore i m then i else m) ≤ s.pqKey i := by
      split
      · exact ⟨(State.pqBefore_iff.mp ‹_›).le, le_rfl⟩
      · exact ⟨le_rfl, not_lt.mp (mt State.pqBefore_iff.mpr ‹_›)⟩
    exact ⟨hfirst.trans hmin.1, hfirst.trans hmin.2, hrest⟩

/-- The least entry comes before every other one. -/
theorem State.LeastIn.before {s : State} {a j : NodeIdx} {l : List NodeIdx} (h : s.LeastIn a l) (hj : j ∈ l)
    (hne : j ≠ a) : s.pqKey a < s.pqKey j :=
  lt_of_le_of_ne (h.2 j hj) fun he => hne (s.pqKey_injective he).symm

/-- ExtractMin is deterministic: where the weights agree, so do the least entries (42_tree_builder.md rule R161). -/
theorem State.LeastIn.unique {s v : State} {a b : NodeIdx} {l : List NodeIdx} (hs : s.LeastIn a l) (hv : v.LeastIn b l)
    (hagree : ∀ i ∈ l, s.nodeAt i = v.nodeAt i) : a = b := by
  have hkey : ∀ i ∈ l, s.pqKey i = v.pqKey i := fun i hi => by rw [State.pqKey, hagree i hi, State.pqKey]
  refine s.pqKey_injective (le_antisymm (hs.2 b hv.1) ?_)
  rw [hkey b hv.1, hkey a hs.1]
  exact hv.2 a hs.1

/-! ### A turn of the merge loop -/

/-- In the merge loop a step of the block is a turn of the loop. -/
theorem phaseStep_merge {s : State} (hp : s.phase = .tree) (hs : s.seq = .merge) : phaseStep s = s.mergeStep := by
  rw [phaseStep, hp]
  simp [treeStep, hs]

/-- With two entries or more in PQ a turn merges the least and the least of the others (42_tree_builder.md rules R160,
R161). -/
theorem State.mergeStep_least {s : State} (h2 : 2 ≤ s.pq.length) : ∃ a b,
    s.LeastIn a s.pq ∧ s.LeastIn b (s.pq.erase a) ∧ s.mergeStep = .next (s.mergePair a b ((s.pq.erase a).erase b)) := by
  obtain ⟨t, ht⟩ := State.mergeStep_next (s := s) (by rintro he; simp [he] at h2)
  rcases State.mergeStep_cases ht with ⟨r, hr, -⟩ | ⟨i, j, rest, a, i', rest', hq, hmin, rfl⟩
  · simp [hr] at h2
  · obtain ⟨ha, hrest⟩ := Prod.mk.inj hmin
    refine ⟨a, s.pqLeast i' rest', ?_, ?_, ?_⟩
    · rw [hq, ← ha]
      exact s.pqLeast_leastIn i (j :: rest)
    · rw [hq, ← ha, hrest]
      exact s.pqLeast_leastIn i' rest'
    · rw [ht, hq, ← ha, hrest]
      rfl

/-- What a merge makes: the entry at NODES, every other entry as it was (42_tree_builder.md rules R160, R163). -/
theorem State.nodeAt_mergePair_eq {s : State} (hn : s.nodes.toNat < 513) (a b : NodeIdx) (rest : List NodeIdx)
    (p : NodeIdx) : (s.mergePair a b rest).nodeAt p =
      if p = s.nodes then Node.mkInternal a b ((s.nodeAt a).weight + (s.nodeAt b).weight) else s.nodeAt p :=
  State.nodeAt_allocNode hn _ p

/-- Settles O27: the two entries extracted are the least by weight and index, and their parent is the entry at NODES. -/
theorem mergeLeast : Obligations.MergeLeast := by
  intro s hp hs h2 hnd hn
  obtain ⟨a, b, ha, hb, hstep⟩ := State.mergeStep_least h2
  obtain ⟨hba, hbq⟩ := hnd.mem_erase_iff.mp hb.1
  have hnode := State.nodeAt_mergePair_eq (s := s) (by omega) a b ((s.pq.erase a).erase b)
  have hnew := hnode s.nodes
  rw [if_pos rfl] at hnew
  refine ⟨a, ha.1, b, hbq, hba.symm, fun j hj hja => State.pqKey_lt.mp (ha.before hj hja),
    fun j hj hja hjb => State.pqKey_lt.mp (hb.before (hnd.mem_erase_iff.mpr ⟨hja, hj⟩) hjb),
    _, (phaseStep_merge hp hs).trans hstep, rfl, ?_, ?_, ?_, ?_, fun p hne => (hnode p).trans (if_neg hne)⟩
  all_goals rw [hnew]; rfl

end Sys2Proof.Machine
end

section
/-! SUPPORT. The exact weights of the tree (42_tree_builder.md rules R162, R163), the place of its root, and BUILD_TREE,
O28. -/

namespace Sys2Proof.Machine

/-! ### Weights -/

/-- The weight of an entry as a number. -/
def State.weightAt (s : State) (i : NodeIdx) : Nat := (s.nodeAt i).weight.toNat

/-- The sum of all counts. -/
def State.freqSum (s : State) : Nat := (s.freq.toList.map BitVec.toNat).sum

/-- No weight wraps: the sum of all counts is below 2^41 (42_tree_builder.md rule R163). -/
theorem State.freqSum_lt (s : State) : s.freqSum < 2 ^ 41 := by
  have hcount : ∀ x ∈ s.freq.toList.map BitVec.toNat, x ≤ 2 ^ 32 - 1 := fun x hx => by
    obtain ⟨c, -, rfl⟩ := List.mem_map.mp hx
    omega
  have hsum := List.sum_le_card_nsmul _ _ hcount
  simp only [List.length_map, Vector.length_toList, smul_eq_mul] at hsum
  rw [State.freqSum]
  omega

/-- Counts of 0 add nothing to a sum. -/
theorem sum_map_filter_ne_zero (f : Nat → Word) (l : List Nat) :
    ((l.filter fun i => f i != 0).map fun i => (f i).toNat).sum = (l.map fun i => (f i).toNat).sum := by
  induction l with
  | nil => rfl
  | cons a l ih =>
    by_cases h : f a = 0
    · rw [List.filter_cons_of_neg (by simpa using h), ih, List.map_cons, List.sum_cons, h]
      exact (Nat.zero_add _).symm
    · rw [List.filter_cons_of_pos (by simpa using h), List.map_cons, List.sum_cons, ih, List.map_cons, List.sum_cons]

/-- What the merge loop keeps of the weights, for the counts of `s`: the leaves weigh their counts, the internal entries
the sum of their children, and the trees in PQ together the sum of all counts (42_tree_builder.md rules R162, R163). -/
structure State.Weighed (s u : State) : Prop where
  counts : ∀ p, p < u.nodes → (u.nodeAt p).leaf = true → u.weightAt p = (s.freqAt (u.nodeAt p).sym.toNat).toNat
  sums : ∀ p, u.isInternal p → u.weightAt p = u.weightAt (u.nodeAt p).left + u.weightAt (u.nodeAt p).right
  total : (u.pq.map u.weightAt).sum = s.freqSum

theorem State.leafOf_weight (s : State) (i : Nat) : (s.leafOf i).weight.toNat = (s.freqAt i).toNat := by
  simp only [State.leafOf, Node.mkLeaf, BitVec.toNat_setWidth]
  omega

/-- The leaves weigh their counts (42_tree_builder.md rule R163). -/
theorem State.weighed_seedLeaves (s : State) : s.Weighed s.seedLeaves := by
  obtain ⟨hentries, hpq⟩ := s.seedLeaves_entries
  have hleaf := s.seedLeaves_seeded.1.leaves
  refine ⟨fun p hp _ => ?_, fun p ⟨hp, hl⟩ => ?_, ?_⟩
  · have hmem := List.mem_of_getElem? (State.entries_getElem? hp)
    rw [hentries] at hmem
    obtain ⟨i, hi, he⟩ := List.mem_map.mp hmem
    have hlt := List.mem_range.mp (List.mem_of_mem_filter hi)
    have hsym : (s.leafOf i).sym.toNat = i := by
      rw [State.leafOf, Node.mkLeaf, BitVec.toNat_ofNat, Nat.mod_eq_of_lt (by omega)]
    rw [State.weightAt, ← he, hsym, State.leafOf_weight]
  · simp [hleaf p hp] at hl
  · calc (s.seedLeaves.pq.map s.seedLeaves.weightAt).sum
        = (s.seedLeaves.entries.map fun n => n.weight.toNat).sum := by
          rw [hpq, State.entries, List.map_map]
          rfl
      _ = (s.positives.map fun i => (s.freqAt i).toNat).sum := by
          rw [hentries, List.map_map]
          exact congrArg List.sum (List.map_congr_left fun i _ => s.leafOf_weight i)
      _ = s.freqSum := by
          rw [State.positives, sum_map_filter_ne_zero, State.freqSum, State.freq_toList, List.map_map,
            List.range_eq_range']
          rfl

/-- A merge adds two weights exactly (42_tree_builder.md rule R163). -/
theorem State.Weighed.mergePair {s u : State} {a b : NodeIdx} {rest : List NodeIdx} (h : s.Weighed u)
    (hforest : u.IsForest) (hn : u.nodes.toNat < 513) (hq : u.pq.Perm (a :: b :: rest)) :
    s.Weighed (u.mergePair a b rest) := by
  have hlt : ∀ i ∈ a :: b :: rest, i < u.nodes := fun i hi => hforest.pqValid i (hq.mem_iff.mpr hi)
  rw [List.forall_mem_cons, List.forall_mem_cons] at hlt
  obtain ⟨ha, hb, hrest⟩ := hlt
  have hnode := State.nodeAt_mergePair_eq hn a b rest
  have hold : ∀ i, i < u.nodes → (u.mergePair a b rest).nodeAt i = u.nodeAt i :=
    fun i hi => (hnode i).trans (if_neg (BitVec.ne_of_lt hi))
  have hnew := (hnode u.nodes).trans (if_pos rfl)
  have hweight : ∀ i, i < u.nodes → (u.mergePair a b rest).weightAt i = u.weightAt i := fun i hi => by
    rw [State.weightAt, hold i hi, State.weightAt]
  have htotal : u.weightAt a + (u.weightAt b + (rest.map u.weightAt).sum) = s.freqSum := by
    rw [← h.total, (hq.map u.weightAt).sum_eq, List.map_cons, List.map_cons, List.sum_cons, List.sum_cons]
  have hsum : (u.mergePair a b rest).weightAt u.nodes = u.weightAt a + u.weightAt b := by
    have := s.freqSum_lt
    rw [State.weightAt, hnew, Node.mkInternal, BitVec.toNat_add]
    exact Nat.mod_eq_of_lt (by rw [State.weightAt, State.weightAt] at htotal; omega)
  refine ⟨fun p hp hl => ?_, fun p hp => ?_, ?_⟩
  · rcases (NodeIdx.lt_succ hn).mp hp with rfl | hp
    · rw [hnew] at hl
      cases hl
    · rw [hold p hp] at hl ⊢
      exact (hweight p hp).trans (h.counts p hp hl)
  · rcases ((State.nodeAt_mergePair hn a b rest).1 p).mp hp with rfl | hp
    · rw [hsum, hnew, Node.mkInternal, hweight a ha, hweight b hb]
    · have hleft : (u.nodeAt p).left < u.nodes := BitVec.lt_trans (hforest.childLower p .left hp) hp.lt
      have hright : (u.nodeAt p).right < u.nodes := BitVec.lt_trans (hforest.childLower p .right hp) hp.lt
      rw [hold p hp.lt, hweight p hp.lt, hweight _ hleft, hweight _ hright]
      exact h.sums p hp
  · have hkeep : rest.map (u.mergePair a b rest).weightAt = rest.map u.weightAt :=
      List.map_congr_left fun i hi => hweight i (hrest i hi)
    rw [State.mergePair_pq, List.map_append, hkeep, List.map_singleton, hsum, List.sum_append, List.sum_singleton]
    omega

/-! ### The tree of a run -/

/-- The last tree's root is the last entry: its index is not below a parent's (42_tree_builder.md rule R162). -/
theorem State.IsForest.root_succ {s : State} {r : NodeIdx} (h : s.IsForest) (hq : s.pq = [r]) :
    r.toNat + 1 = s.nodes.toNat := by
  have hr := BitVec.lt_def.mp (h.pqValid r (by simp [hq]))
  by_contra hne
  have hbound := s.nodes.isLt
  have hlast : (BitVec.ofNat 10 (s.nodes.toNat - 1)).toNat = s.nodes.toNat - 1 := by
    rw [BitVec.toNat_ofNat, Nat.mod_eq_of_lt (by omega)]
  have hfree : BitVec.ofNat 10 (s.nodes.toNat - 1) ∉ s.pq := fun hm => by
    rw [hq, List.mem_singleton] at hm
    rw [hm] at hlast
    omega
  obtain ⟨⟨p, side⟩, ⟨hp, hc⟩, -⟩ := h.oneParent _ (by rw [BitVec.lt_def]; omega) hfree
  have hlow := BitVec.lt_def.mp (h.childLower p side hp)
  rw [hc, hlast] at hlow
  have hvalid : p.toNat < s.nodes.toNat := BitVec.lt_def.mp hp.lt
  omega

/-- While two trees are left node memory has room for their parent (42_tree_builder.md rule R162). -/
theorem State.Merging.room {s u : State} {syms : List Sym} (h : s.Merging syms u) (hsyms : syms.length ≤ 257)
    {a b : NodeIdx} {rest : List NodeIdx} (hq : u.pq.Perm (a :: b :: rest)) : u.nodes.toNat < 513 := by
  have htrees := h.trees
  rw [hq.length_eq, List.length_cons, List.length_cons] at htrees
  omega

/-- The TREE phase with a positive count, from its start to its end: what the merge loop keeps, with one tree left
(42_tree_builder.md rules R160 to R164). -/
theorem State.Runs.weighedTree {s : State} (h : s.Runs .tree) (hs : s.seq = .start) (hpos : s.positives ≠ []) :
    ∃ u r, s.Merging (s.positives.map (BitVec.ofNat 9)) u ∧ s.Weighed u ∧ u.pq = [r] ∧
      Reaches s ((s.withTree u.node u.nodes r []).atSeq .phaseEnd) := by
  have hlen : (s.positives.map (BitVec.ofNat 9)).length ≤ 257 := by
    rw [List.length_map]
    exact (List.length_filter_le _ _).trans (by simp)
  have hstart := State.merging_seedLeaves hpos
  have hweighed : s.Weighed (s.seedLeaves.atSeq .merge) := { s.weighed_seedLeaves with }
  obtain ⟨u, r, ⟨hu, hw⟩, hr, hreach⟩ := h.seedLeaves.mergeLoop
    (P := fun u => s.Merging (s.positives.map (BitVec.ofNat 9)) u ∧ s.Weighed u) (fun _ hu => hu.1.nonempty)
    (fun _ _ _ _ ⟨hu, hw⟩ hq => ⟨hu.mergePair hlen hq, hw.mergePair hu.forest (hu.room hlen hq) hq⟩) rfl
    ⟨hstart, hweighed⟩
  have hframe : (u.withTree u.node u.nodes r []).atSeq .phaseEnd =
      (s.withTree u.node u.nodes r []).atSeq .phaseEnd := by
    conv_lhs => rw [hu.frame]
    rfl
  exact ⟨u, r, hu, hw, hr, h.head (State.treeStart h.phase hs hpos) (hframe ▸ hreach)⟩

/-- BUILD_TREE after its last merge: the command completes (42_tree_builder.md rule R167). -/
theorem State.Quiet.treeComplete {s : State} (hq : s.Quiet) (v : Vector Node 513) (n r : NodeIdx) :
    Reaches (((s.accepted 4).withTree v n r []).atSeq .phaseEnd) ((s.accepted 4).withTree v n r []).complete :=
  (((hq.runs 4).withTree v n r []).atSeq .phaseEnd).complete nofun rfl rfl

/-- Settles O28: the merge loop keeps a forest of the positive symbols with exact weights until one tree is left. -/
theorem buildTree : Obligations.BuildTree := by
  intro s hq hpos
  obtain ⟨u, r, hu, hw, hr, hreach⟩ := (hq.runs 4).weighedTree rfl hpos
  have hcount : u.nodes.toNat + 1 = 2 * s.positives.length := by
    have htrees := hu.trees
    rw [hr, List.length_map] at htrees
    exact htrees
  have hroot := hu.forest.root_succ hr
  have hlen : s.positives.length ≤ 257 := (List.length_filter_le _ _).trans (by simp)
  have hforest : (u.withTree u.node u.nodes r u.pq).IsForest := hu.forest.congr rfl rfl rfl
  have htree : (((s.accepted 4).withTree u.node u.nodes r []).complete).IsTree :=
    (hforest.isTree hr rfl).congr rfl rfl rfl
  obtain ⟨T, hT, -, -⟩ := treeOfNodes _ (by show u.nodes.toNat ≤ 513; omega) htree
  have hleaves : ((s.accepted 4).withTree u.node u.nodes r []).complete.leafSyms = s.positives.map (BitVec.ofNat 9) :=
    (State.leafSyms_congr rfl rfl).trans hu.leaves
  have htotal : u.weightAt r = s.freqSum := by
    have h := hw.total
    rw [hr] at h
    exact (Nat.add_zero _).symm.trans h
  refine ⟨_, _, T, congrArg Host.Outcome.next (hq.accepts 4), hreach.trans (hq.treeComplete _ _ _), rfl,
    show u.nodes.toNat = _ by omega, show r.toNat = _ by omega, htree, hT, hleaves ▸ htree.paths_perm hT,
    fun p hp => ⟨hu.forest.childLower p .left hp, hu.forest.childLower p .right hp, hw.sums p hp⟩, hw.counts, htotal⟩

end Sys2Proof.Machine
end

section
/-! SUPPORT. Two runs of the TREE phase in step (42_tree_builder.md rule R166), and O30. -/

namespace Sys2Proof.Machine

/-! ### Two forests alike -/

/-- Two states of the merge loop with the same PQ and the same valid entries, and room for the merges to come
(42_tree_builder.md rules R160, R166). -/
structure State.Alike (s v : State) : Prop where
  forest : s.IsForest
  room : s.nodes.toNat + s.pq.length ≤ 514
  nonempty : s.pq ≠ []
  queue : s.pq = v.pq
  entries : s.entries = v.entries

/-- The leaves are those of FREQ, whatever else the states hold (42_tree_builder.md rules R161, R166). -/
theorem State.alike_seedLeaves {s v : State} (hfreq : s.freq = v.freq) (hpos : s.positives ≠ []) :
    (s.seedLeaves.atSeq .merge).Alike (v.seedLeaves.atSeq .merge) := by
  have hmerging := State.merging_seedLeaves hpos
  have hlen : s.positives.length ≤ 257 := (List.length_filter_le _ _).trans (by simp)
  have hcount : s.freqAt = v.freqAt := by funext i; rw [State.freqAt, hfreq, State.freqAt]
  have hleaf : s.leafOf = v.leafOf := by funext i; rw [State.leafOf, hcount, State.leafOf]
  obtain ⟨hs, hsq⟩ := s.seedLeaves_entries
  obtain ⟨hv, hvq⟩ := v.seedLeaves_entries
  have hentries : s.seedLeaves.entries = v.seedLeaves.entries := by
    rw [hs, hv, State.positives, hcount, hleaf, State.positives]
  have hqueue : s.seedLeaves.pq = v.seedLeaves.pq := by
    rw [hsq, hvq, State.indices, State.nodes_eq_of_entries hentries, State.indices]
  refine ⟨hmerging.forest, ?_, hmerging.nonempty, hqueue, hentries⟩
  rw [hmerging.trees, List.length_map]
  omega

/-- A merge appends its internal entry (42_tree_builder.md rule R160). -/
theorem State.entries_mergePair {s : State} (hn : s.nodes.toNat < 513) (a b : NodeIdx) (rest : List NodeIdx) :
    (s.mergePair a b rest).entries =
      s.entries ++ [Node.mkInternal a b ((s.nodeAt a).weight + (s.nodeAt b).weight)] :=
  State.entries_allocNode hn _

/-- ExtractMin takes the same two entries from both, and the merges leave them alike (42_tree_builder.md rules R161,
R166). -/
theorem State.Alike.merge {s v : State} (h : s.Alike v) (h2 : 2 ≤ s.pq.length) : ∃ a b rest,
    s.pq.Perm (a :: b :: rest) ∧ s.mergeStep = .next (s.mergePair a b rest) ∧
      v.mergeStep = .next (v.mergePair a b rest) ∧ (s.mergePair a b rest).Alike (v.mergePair a b rest) := by
  obtain ⟨hforest, hroom, -, hqueue, hentries⟩ := h
  have hagree : ∀ i ∈ s.pq, s.nodeAt i = v.nodeAt i :=
    fun i hi => State.nodeAt_eq_of_entries hentries (hforest.pqValid i hi)
  have hnodes := State.nodes_eq_of_entries hentries
  obtain ⟨a, b, ha, hb, hs⟩ := State.mergeStep_least h2
  obtain ⟨a', b', ha', hb', hv⟩ := State.mergeStep_least (hqueue ▸ h2)
  rw [← hqueue] at ha' hb' hv
  obtain rfl := ha.unique ha' hagree
  obtain rfl := hb.unique hb' fun i hi => hagree i (List.mem_of_mem_erase hi)
  have hperm := (List.perm_cons_erase ha.1).trans ((List.perm_cons_erase hb.1).cons a)
  have hlen := hperm.length_eq
  rw [List.length_cons, List.length_cons] at hlen
  have hn : s.nodes.toNat < 513 := by omega
  refine ⟨a, b, _, hperm, hs, hv, hforest.mergePair hn hperm, ?_, by simp, by simp [hnodes], ?_⟩
  · rw [State.mergePair_nodes, State.mergePair_pq, NodeIdx.toNat_succ hn, List.length_append, List.length_singleton]
    omega
  · rw [State.entries_mergePair hn, State.entries_mergePair (hnodes ▸ hn), hentries, hagree a ha.1,
      hagree b (List.mem_of_mem_erase hb.1)]

/-- A merge writes no more than the tree. -/
theorem State.mergePair_withTree (s : State) (a b : NodeIdx) (rest : List NodeIdx) (v : Vector Node 513) (n r : NodeIdx)
    (q : List NodeIdx) : (s.mergePair a b rest).withTree v n r q = s.withTree v n r q := by simp [State.withTree]

/-- After a merge the phase still runs. -/
theorem State.Runs.mergePair {s : State} {p : Phase} (h : s.Runs p) (a b : NodeIdx) (rest : List NodeIdx) :
    (s.mergePair a b rest).Runs p :=
  ⟨by simpa using h.outOfReset, by simpa using h.alone, by simpa using h.phase⟩

/-- With one entry left in PQ a turn of the loop makes it the root (42_tree_builder.md rule R160). -/
theorem State.mergeStep_last {s : State} {r : NodeIdx} (h : s.pq = [r]) :
    s.mergeStep = .next ((s.withTree s.node s.nodes r []).atSeq .phaseEnd) := by
  rw [State.mergeStep, h]
  rfl

/-! ### Two runs alike -/

/-- Two merge loops that start alike end with the same tree (42_tree_builder.md rule R166). -/
theorem State.Alike.mergeLoop {s v : State} (h : s.Alike v) (hs : s.Runs .tree) (hv : v.Runs .tree)
    (hsq : s.seq = .merge) (hvq : v.seq = .merge) : ∃ n n' N r,
      Reaches s ((s.withTree n N r []).atSeq .phaseEnd) ∧ Reaches v ((v.withTree n' N r []).atSeq .phaseEnd) ∧
        (s.withTree n N r []).entries = (v.withTree n' N r []).entries := by
  induction hk : s.pq.length generalizing s v with
  | zero => exact absurd (List.length_eq_zero_iff.mp hk) h.nonempty
  | succ k ih =>
    have hsturn := phaseStep_merge hs.phase hsq
    have hvturn := phaseStep_merge hv.phase hvq
    rcases Nat.eq_zero_or_pos k with rfl | hpos
    · obtain ⟨r, hr⟩ := List.length_eq_one_iff.mp hk
      have hslast := hs.head (hsturn.trans (State.mergeStep_last hr)) (.refl _)
      have hvlast := hv.head (hvturn.trans (State.mergeStep_last (h.queue ▸ hr))) (.refl _)
      have he : (s.withTree s.node s.nodes r []).entries = (v.withTree v.node v.nodes r []).entries := h.entries
      rw [← State.nodes_eq_of_entries h.entries] at hvlast he
      exact ⟨_, _, _, r, hslast, hvlast, he⟩
    · obtain ⟨a, b, rest, hperm, hsm, hvm, hnext⟩ := h.merge (by omega)
      have hlen : (s.mergePair a b rest).pq.length = k := by
        have hlen := hperm.length_eq
        rw [List.length_cons, List.length_cons] at hlen
        rw [State.mergePair_pq, List.length_append, List.length_singleton]
        omega
      obtain ⟨n, n', N, r, hsreach, hvreach, he⟩ := ih hnext (hs.mergePair a b rest) (hv.mergePair a b rest)
        (by simpa using hsq) (by simpa using hvq) hlen
      rw [State.mergePair_withTree] at hsreach hvreach
      rw [State.mergePair_withTree, State.mergePair_withTree] at he
      exact ⟨n, n', N, r, hs.head (hsturn.trans hsm) hsreach, hv.head (hvturn.trans hvm) hvreach, he⟩

/-- Settles O30: the leaves are alike, the merges keep them so, and both commands complete. -/
theorem treeReproducible : Obligations.TreeReproducible := by
  intro s v hs hv hfreq hpos
  have hvpos : v.positives ≠ [] := by simpa only [State.positives, State.freqAt, hfreq] using hpos
  have halike : ((s.accepted 4).seedLeaves.atSeq .merge).Alike ((v.accepted 4).seedLeaves.atSeq .merge) :=
    State.alike_seedLeaves hfreq hpos
  obtain ⟨n, n', N, r, hsreach, hvreach, hentries⟩ :=
    halike.mergeLoop (hs.runs 4).seedLeaves (hv.runs 4).seedLeaves rfl rfl
  obtain ⟨_, _, _, hsframe⟩ := (s.accepted 4).seedLeaves_frame
  obtain ⟨_, _, _, hvframe⟩ := (v.accepted 4).seedLeaves_frame
  have hsrun := (hs.runs 4).head (State.treeStart (hs.runs 4).phase rfl hpos) hsreach
  have hvrun := (hv.runs 4).head (State.treeStart (hv.runs 4).phase rfl hvpos) hvreach
  rw [hsframe] at hsrun hentries
  rw [hvframe] at hvrun hentries
  refine ⟨_, _, _, _, congrArg Host.Outcome.next (hs.accepts 4), hsrun.trans (hs.treeComplete n N r),
    ⟨rfl, rfl, rfl⟩, congrArg Host.Outcome.next (hv.accepts 4), hvrun.trans (hv.treeComplete n' N r),
    ⟨rfl, rfl, rfl⟩, rfl, rfl, fun i hi => ?_⟩
  have hnode : ((s.accepted 4).withTree n N r []).complete.nodeAt i =
      ((v.accepted 4).withTree n' N r []).complete.nodeAt i := State.nodeAt_eq_of_entries hentries hi
  rw [hnode]
  exact ⟨rfl, rfl⟩

end Sys2Proof.Machine
end

section
/-! SUPPORT. What the code table of BUILD_CODES holds past the end of a code (10_state.md rule R65), and the command from its
acceptance to its completion, O31. -/

namespace Sys2Proof.Machine

/-- An entry of node memory is the root of one tree at most. -/
theorem State.Represents.unique {s : State} {T U : CodeTree} {i : NodeIdx} (hT : s.Represents i T)
    (hU : s.Represents i U) : T = U := by
  induction T generalizing i U with
  | leaf sym =>
    obtain ⟨-, hleaf, rfl⟩ := hT
    cases U with
    | leaf sym' =>
      obtain ⟨-, -, hsym⟩ := hU
      rw [hsym]
    | node l r =>
      obtain ⟨-, hinternal, -⟩ := hU
      simp [hleaf] at hinternal
  | node l r ihl ihr =>
    obtain ⟨-, hinternal, hl, hr⟩ := hT
    cases U with
    | leaf sym =>
      obtain ⟨-, hleaf, -⟩ := hU
      simp [hinternal] at hleaf
    | node l' r' =>
      obtain ⟨-, -, hl', hr'⟩ := hU
      rw [ihl hl hl', ihr hr hr']

/-! ### The entries of the code table -/

/-- The table's entry `i` is a code of at most 256 bits with zeros past its end (10_state.md rule R65, 43_code_table.md rule
R182). -/
structure State.CodeFits (s : State) (i : Nat) : Prop where
  length : (s.codeLenAt i).toNat ≤ 256
  past : ∀ j, (s.codeLenAt i).toNat ≤ j → (s.codeBitsAt i).getLsbD j = false

/-- In a cleared table there is no code and no bit (43_code_table.md rule R180). -/
theorem State.codeFits_clearCodes (s : State) {i : Nat} (hi : i ≤ 256) : s.clearCodes.CodeFits i := by
  have hlt : i < 257 := by omega
  have hlen : s.clearCodes.codeLenAt i = 0 := by simp [State.codeLenAt, hlt]
  have hbits : s.clearCodes.codeBitsAt i = 0 := by simp [State.codeBitsAt, hlt]
  exact ⟨by simp [hlen], fun j _ => by simp [hbits]⟩

/-- `SetCode` writes a whole entry or none (43_code_table.md rule R180). -/
theorem State.CodeFits.setCode {s : State} {i : Nat} (h : s.CodeFits i) (hi : i ≤ 256) (sym : Sym) {p : List Bool}
    (hp : p.length ≤ 256) : (s.setCode sym p.length p).CodeFits i := by
  have hlen := State.codeLenAt_setCode s hi sym p.length p
  have hbits := State.codeBitsAt_setCode s hi sym p.length p
  by_cases hsym : sym = BitVec.ofNat 9 i
  · have htoNat : (BitVec.ofNat 9 p.length).toNat = p.length := by rw [BitVec.toNat_ofNat, Nat.mod_eq_of_lt (by omega)]
    rw [if_pos hsym] at hlen hbits
    refine ⟨by rw [hlen, htoNat]; exact hp, fun j hj => ?_⟩
    rw [hlen, htoNat] at hj
    rw [hbits, pathBits_getLsbD hp, List.getD_eq_default _ _ hj]
  · rw [if_neg hsym] at hlen hbits
    exact ⟨hlen ▸ h.length, hlen ▸ hbits ▸ h.past⟩

/-- Setting codes keeps the table's entries well formed. -/
theorem State.CodeFits.setCodes {s : State} {i : Nat} (h : s.CodeFits i) (hi : i ≤ 256) {es : List (Sym × List Bool)}
    (hes : ∀ e ∈ es, e.2.length ≤ 256) : (s.setCodes es).CodeFits i := by
  induction es generalizing s with
  | nil => exact h
  | cons e es ih =>
    obtain ⟨he, hrest⟩ := List.forall_mem_cons.mp hes
    exact ih (h.setCode hi e.1 he) hrest

/-! ### The command -/

/-- BUILD_CODES on the tree `T`: the table is cleared and `T`'s codes are set, and, CODES being the row's only phase, the
command completes (43_code_table.md rule R185). -/
theorem State.Quiet.buildCodes {s : State} {T : CodeTree} (hq : s.Quiet) (hT : s.Represents s.root T) :
    Reaches (s.accepted 5) (((s.accepted 5).clearCodes.setCodes T.codes).atSeq .phaseEnd).complete := by
  have hclear : (s.accepted 5).clearCodes.Runs .codes := ⟨hq.outOfReset, hq.alone, rfl⟩
  exact ((hq.runs 5).codes rfl (hT.congr rfl rfl)).trans
    (((hclear.setCodes T.codes).atSeq .phaseEnd).complete nofun rfl (by simp; rfl))

/-- Settles O31: a tree of at most 513 nodes has codes of at most 256 bits, the table holds these and nothing past them after
the command, and setting codes writes the table alone. -/
theorem buildCodes : Obligations.BuildCodes := by
  intro s T hq hn htree hT
  obtain ⟨U, hU, -, hdepth⟩ := treeOfNodes s hn htree
  obtain rfl := hU.unique hT
  refine ⟨_, _, congrArg Host.Outcome.next (hq.accepts 5), hq.buildCodes hT, ?_, fun sym hsym => ?_⟩
  · obtain ⟨l, b, hframe⟩ := (s.accepted 5).clearCodes.setCodes_eq U.codes
    rw [hframe]
    rfl
  · have hfits := ((s.accepted 5).codeFits_clearCodes hsym).setCodes hsym (es := U.codes)
      fun _ he => CodeTree.codes_length hdepth he
    exact ⟨State.codeOf_clearCodes_setCodes (s.accepted 5) hdepth hsym, hfits.length, hfits.past⟩

end Sys2Proof.Machine
end

section
/-! SUPPORT. The first step of the phases that need a tree, with none in node memory (60_exceptions.md rule R279), and
O33. -/

namespace Sys2Proof.Machine

section
variable {s : State} (hs : s.seq = .start) (hn : s.nodes = 0)
include hs hn

/-- CODES without a tree clears the table and aborts (43_code_table.md rule R180). -/
theorem State.codesStart_noTree (hp : s.phase = .codes) : phaseStep s = .next (s.clearCodes.abort .noTree 0) := by
  rw [phaseStep, hp]
  simp only [codesStep, hs, State.codesStart, if_pos hn]

/-- HDR_WRITE without a tree aborts before it writes a bit (44_header_codec.md rule R190). -/
theorem State.hdrWriteStart_noTree (hp : s.phase = .hdrWrite) : phaseStep s = .next (s.abort .noTree 0) := by
  rw [phaseStep, hp]
  simp only [hdrWriteStep, hs, State.hdrWriteStart, if_pos hn]

/-- DECODE without a tree aborts before it reads a bit (46_decompressor.md rule R232). -/
theorem State.decodeStart_noTree (hp : s.phase = .decode) : phaseStep s = .next (s.abort .noTree 0) := by
  rw [phaseStep, hp]
  simp only [decodeStep, hs, if_pos hn]

end

/-- Settles O33: the start of a command leaves NODES alone, and the first step of each command's first phase is the abort. -/
theorem noTree : Obligations.NoTree := by
  intro s hq hn
  have hcodes := (hq.runs 5).head (State.codesStart_noTree rfl hn (hq.runs 5).phase) (.refl _)
  have hwrite := (hq.runs 6).head (State.hdrWriteStart_noTree rfl hn (hq.runs 6).phase) (.refl _)
  have hdecode := (hq.runs 9).head (State.decodeStart_noTree rfl hn (hq.runs 9).phase) (.refl _)
  exact ⟨⟨_, congrArg Host.Outcome.next (hq.accepts 5), hcodes⟩, ⟨_, congrArg Host.Outcome.next (hq.accepts 6), hwrite⟩,
    ⟨_, congrArg Host.Outcome.next (hq.accepts 9), hdecode⟩⟩

end Sys2Proof.Machine
end

section
/-! SUPPORT. WRITE_HEADER from its acceptance to its completion (44_header_codec.md rule R191), O34. -/

namespace Sys2Proof.Machine

/-- The bits past the last whole byte stay right-aligned in WBUF (40_bitio.md rule R135). -/
theorem State.writeList_wbuf_lt {s : State} (h : s.wbuf.toNat < 2 ^ s.wcnt.toNat) (bits : List Bool) :
    (s.writeList bits).wbuf.toNat < 2 ^ (s.writeList bits).wcnt.toNat := by
  obtain ⟨l, n, w, c, he, -, hw⟩ := State.writeList_frame bits s
  rw [he]
  exact hw h

/-- Settles O34: the start clears the writer, HDR_WRITE writes the magic and the tokens, and, HDR_WRITE being the row's
only phase, the command completes. -/
theorem writeHeader : Obligations.WriteHeader := by
  intro s T hq hT
  have hwrite := (hq.runs 6).hdrWrite (T := T) rfl (hT.congr rfl rfl)
  have hrun := hwrite.trans ((((hq.runs 6).writeList _).atSeq .phaseEnd).complete nofun rfl (by simp; rfl))
  have halign := State.writeList_wbuf_lt (s := s.accepted 6) (show 0 < 2 ^ 0 by decide) (bitsOf 32 s.magic ++ T.header)
  obtain ⟨bytes, w, c, he, hbits, -⟩ := (s.accepted 6).writeList_eq (bitsOf 32 s.magic ++ T.header)
  have hcount : (s.accepted 6).outBytes + BitVec.ofNat 32 bytes.length = BitVec.ofNat 32 bytes.length :=
    BitVec.zero_add _
  rw [he] at halign
  rw [show (s.accepted 6).magic = s.magic from rfl, he, hcount] at hrun
  exact ⟨_, _, bytes, congrArg Host.Outcome.next (hq.accepts 6), hrun, rfl, hbits, halign⟩

end Sys2Proof.Machine
end

section
/-! SUPPORT. The HDR_READ phase on the magic and a tree's pre-order tokens (44_header_codec.md rules R196 to R201), O19
and O35. -/

namespace Sys2Proof.Machine

/-! ### Bits taken one by one -/

/-- `s` after `n` calls of `ReadBit` (40_bitio.md rule R131). -/
def State.skipBits : State → Nat → State
  | s, 0 => s
  | s, n + 1 => s.readBit.2.skipBits n

theorem State.skipBits_add (s : State) (m n : Nat) : s.skipBits (m + n) = (s.skipBits m).skipBits n := by
  induction m generalizing s with
  | zero => rw [Nat.zero_add]; rfl
  | succ m ih => rw [Nat.succ_add]; exact ih s.readBit.2

/-- `ReadBit` does not look at the sequencer. -/
theorem State.readBit_atSeq (s : State) (q : Seq) : (s.atSeq q).readBit = (s.readBit.1, s.readBit.2.atSeq q) := by
  unfold State.readBit State.takeByte State.inRead
  rw [State.atSeq_inData, State.atSeq_inPos, show (s.atSeq q).rcnt = s.rcnt from rfl]
  cases s.inData[s.inPos]? <;> split <;> rfl

@[simp] theorem State.skipBits_atSeq (s : State) (q : Seq) (n : Nat) :
    (s.atSeq q).skipBits n = (s.skipBits n).atSeq q := by
  induction n generalizing s with
  | zero => rfl
  | succ n ih => rw [State.skipBits, State.readBit_atSeq]; exact ih s.readBit.2

/-- A bit that the stream still holds is the one `ReadBit` finds (40_bitio.md rule R131). -/
theorem State.readBit_of_inBits {s : State} {b : Bool} {bits : List Bool} (h : s.inBits = b :: bits) :
    s.readBit = (some b, s.skipBits 1) ∧ (s.skipBits 1).inBits = bits := by
  rcases hr : s.readBit with ⟨_ | b', t⟩
  · rw [State.inBits_of_readBit_none hr] at h
    cases h
  · have ht : s.skipBits 1 = t := congrArg Prod.snd hr
    obtain ⟨rfl, rfl⟩ := List.cons.inj ((State.inBits_of_readBit_some hr).symm.trans h)
    rw [ht]
    exact ⟨rfl, rfl⟩

/-- Calls of `ReadBit` take bytes of IN as they need them, and nothing else; RBUF never holds a whole byte after one
(40_bitio.md rules R130, R131). -/
theorem State.skipBits_takes (s : State) (n : Nat) :
    (∃ m, s.TakesBytes m (s.skipBits n)) ∧ (s.rcnt.toNat ≤ 7 → (s.skipBits n).rcnt.toNat ≤ 7) := by
  induction n generalizing s with
  | zero => exact ⟨⟨0, s.takesBytes_refl⟩, id⟩
  | succ n ih =>
    rcases hr : s.readBit with ⟨_ | b, t⟩ <;> rw [State.skipBits, hr]
    · obtain ⟨rfl, -, -⟩ := State.readBit_none hr
      exact ih t
    · obtain ⟨⟨m, hm⟩, hbuf⟩ := ih t
      exact ⟨⟨_, (State.takesBytes_of_readBit_some hr).trans hm⟩,
        fun h => hbuf (State.rcnt_le_of_readBit_some (by omega) hr)⟩

/-- The bits the stream holds are taken off it. -/
theorem State.inBits_skipBits {s : State} {bits rest : List Bool} (h : s.inBits = bits ++ rest) :
    (s.skipBits bits.length).inBits = rest := by
  induction bits generalizing s with
  | nil => exact h
  | cons b bits ih => exact ih (State.readBit_of_inBits h).2

section
variable (s : State) (n : Nat)

@[simp] theorem State.skipBits_magic : (s.skipBits n).magic = s.magic := by
  obtain ⟨⟨m, r, c, he⟩, -⟩ := s.skipBits_takes n; rw [he]; rfl
@[simp] theorem State.skipBits_nodes : (s.skipBits n).nodes = s.nodes := by
  obtain ⟨⟨m, r, c, he⟩, -⟩ := s.skipBits_takes n; rw [he]; rfl

end

/-- Taking bits leaves a running phase running. -/
theorem State.Runs.skipBits {s : State} {p : Phase} (h : s.Runs p) (n : Nat) : (s.skipBits n).Runs p := by
  obtain ⟨⟨m, r, c, he⟩, -⟩ := s.skipBits_takes n
  rw [he]
  exact h.withReader _ _ r c

/-! ### The magic -/

/-- Bits of the magic while more are due: they are gathered first bit first (44_header_codec.md rule R196). -/
theorem State.Runs.magicBits {s : State} {k : Nat} {v : Word} {bits rest : List Bool} (h : s.Runs .hdrRead)
    (hs : s.seq = .magicIn k v) (hk : k + bits.length ≤ 31) (hin : s.inBits = bits ++ rest) :
    Reaches s ((s.skipBits bits.length).atSeq (.magicIn (k + bits.length) (bits.foldl BitVec.shiftConcat v))) := by
  induction bits generalizing s k v with
  | nil => exact hs ▸ .refl s
  | cons b bits ih =>
    rw [List.length_cons] at hk ⊢
    obtain ⟨hbit, hleft⟩ := State.readBit_of_inBits hin
    have hstep : phaseStep s = .next ((s.skipBits 1).atSeq (.magicIn (k + 1) (v.shiftConcat b))) := by
      rw [phaseStep, h.phase]
      simp [hdrReadStep, hs, State.magicBit, hbit, show k < 31 by omega, State.atSeq]
    have hrest := ih ((h.skipBits 1).atSeq (.magicIn (k + 1) (v.shiftConcat b))) rfl (by omega) hleft
    rw [State.skipBits_atSeq, State.atSeq_atSeq, ← State.skipBits_add, Nat.add_comm 1, Nat.add_assoc,
      Nat.add_comm 1] at hrest
    exact h.head hstep hrest

/-- The last bit of the magic: the root's token is due (44_header_codec.md rule R196). -/
theorem State.Runs.magicLast {s : State} {k : Nat} {v : Word} {b : Bool} {rest : List Bool} (h : s.Runs .hdrRead)
    (hs : s.seq = .magicIn k v) (hk : 31 ≤ k) (hv : v.shiftConcat b = s.magic) (hin : s.inBits = b :: rest) :
    Reaches s ((s.skipBits 1).atSeq (.token [] [])) := by
  have hbit := (State.readBit_of_inBits hin).1
  refine h.head ?_ (.refl _)
  rw [phaseStep, h.phase]
  simp [hdrReadStep, hs, State.magicBit, hbit, hv, Nat.not_lt.mpr hk, State.atSeq]

/-- The 32 bits of the magic (44_header_codec.md rule R196). -/
theorem State.Runs.magic {s : State} {rest : List Bool} (h : s.Runs .hdrRead) (hs : s.seq = .magicIn 0 0)
    (hin : s.inBits = bitsOf 32 s.magic ++ rest) :
    Reaches s ((s.skipBits (bitsOf 32 s.magic).length).atSeq (.token [] [])) := by
  obtain ⟨init, b, hlast⟩ := (List.eq_nil_or_concat (bitsOf 32 s.magic)).resolve_left (by simp [bitsOf])
  rw [List.concat_eq_append] at hlast
  have hlen : init.length = 31 := by simpa using (congrArg List.length hlast).symm
  have hvalue : (init.foldl BitVec.shiftConcat 0).shiftConcat b = s.magic := by
    rw [← ofBits_bitsOf s.magic, hlast, ofBits, List.foldl_append]
    rfl
  rw [hlast, List.append_assoc] at hin
  have hinit := h.magicBits hs (by omega) hin
  have hend := ((h.skipBits init.length).atSeq (.magicIn (0 + init.length) (init.foldl BitVec.shiftConcat 0))).magicLast
    rfl (by omega) (hvalue.trans (s.skipBits_magic init.length).symm) (State.inBits_skipBits hin)
  rw [State.skipBits_atSeq, State.atSeq_atSeq, ← State.skipBits_add] at hend
  rw [hlast, List.length_append, List.length_singleton]
  exact hinit.trans hend

/-! ### The tokens -/

/-- A token that finds node memory full aborts (44_header_codec.md rule R196, 60_exceptions.md rule R277). -/
theorem State.headerNode_full {s : State} (hn : s.nodes = 513) (n : Node) (opens : NodeIdx → List Slot) :
    s.headerNode n opens = s.abort .headerOverflow 513 := by
  rcases s.headerNode_cases n opens with ⟨-, he⟩ | ⟨hroom, -⟩
  · exact he
  · exact absurd hn hroom

/-- Settles O19: either token's node is refused, and the abort leaves the fields stated. -/
theorem tokenOverflow : Obligations.TokenOverflow := by
  rintro s i hn (rfl | ⟨sym, rfl⟩)
  · exact congrArg Host.Outcome.next (State.headerNode_full hn _ _)
  · exact congrArg Host.Outcome.next (State.headerNode_full hn _ _)

/-- A token cut short is no token yet (30_encoding.md rule R109). -/
theorem decodeToken_cut {p q : List Bool} {i : Instr} (h : decodeToken (p ++ q) = .ok (i, [])) (hq : q ≠ []) :
    ∃ e, decodeToken p = .error e := by
  rcases hp : decodeToken p with e | ⟨j, left⟩
  · exact ⟨e, rfl⟩
  · obtain ⟨token, hj, rfl⟩ := decodeToken_eq_ok.mp hp
    have hwhole := decodeToken_eq_ok.mpr ⟨token, hj, List.append_assoc token left q⟩
    obtain ⟨-, hnil⟩ := Prod.mk.inj (Except.ok.inj (h.symm.trans hwhole))
    exact absurd (List.append_eq_nil_iff.mp hnil.symm).2 hq

/-- The bits of a token are gathered until it is whole (44_header_codec.md rule R196). -/
theorem State.Runs.tokenBits {s : State} {bits more rest : List Bool} {slots : List Slot} {i : Instr}
    (h : s.Runs .hdrRead) (hs : s.seq = .token bits slots) (hi : decodeToken (bits ++ more) = .ok (i, []))
    (hin : s.inBits = more ++ rest) : Reaches s ((s.skipBits more.length).atSeq (.token (bits ++ more) slots)) := by
  induction more generalizing s bits with
  | nil => rw [List.append_nil, ← hs]; exact .refl s
  | cons b more ih =>
    obtain ⟨hbit, hleft⟩ := State.readBit_of_inBits hin
    obtain ⟨e, he⟩ := decodeToken_cut hi (by simp)
    have hstep : phaseStep s = .next ((s.skipBits 1).atSeq (.token (bits ++ [b]) slots)) := by
      rw [phaseStep, h.phase]
      simp [hdrReadStep, hs, he, State.tokenBit, hbit, State.atSeq]
    rw [List.append_cons] at hi ⊢
    have hrest := ih ((h.skipBits 1).atSeq (.token (bits ++ [b]) slots)) rfl hi hleft
    rw [State.skipBits_atSeq, State.atSeq_atSeq, ← State.skipBits_add, Nat.add_comm 1] at hrest
    exact h.head hstep hrest

/-- What HDR_READ keeps from the state `s` on, once the magic is read: the tree grown so far with `slots` to fill, of
weight 0, the bits `rest` to come, and everything the phase does not write. -/
structure State.Parsing (s : State) (slots : List Slot) (rest : List Bool) (u : State) : Prop where
  frame : ∃ m r c v n q,
    u = ((s.withReader (s.inPos + m) (s.inBytes + BitVec.ofNat 32 m) r c).withTree v n s.root s.pq).atSeq q
  runs : u.Runs .hdrRead
  stream : u.inBits = rest
  buffer : u.rcnt.toNat ≤ 7
  grown : u.Grown slots
  weights : ∀ p, p < u.nodes → (u.nodeAt p).weight = 0

theorem State.Parsing.atSeq {s u : State} {slots : List Slot} {rest : List Bool} (h : s.Parsing slots rest u)
    (q : Seq) : s.Parsing slots rest (u.atSeq q) := by
  obtain ⟨⟨m, r, c, v, n, _, rfl⟩, hruns, hstream, hbuf, ⟨h1, h2, h3, h4⟩, hw⟩ := h
  exact ⟨⟨m, r, c, v, n, q, rfl⟩, hruns.atSeq q, hstream, hbuf, ⟨h1, h2, h3, h4⟩, hw⟩

/-- Taking bits takes them off the stream, and leaves the tree alone. -/
theorem State.Parsing.skipBits {s u : State} {slots : List Slot} {bits rest : List Bool}
    (h : s.Parsing slots (bits ++ rest) u) : s.Parsing slots rest (u.skipBits bits.length) := by
  obtain ⟨⟨m, r, c, v, n, q, rfl⟩, hruns, hstream, hbuf, ⟨h1, h2, h3, h4⟩, hw⟩ := h
  obtain ⟨⟨m', r', c', he⟩, hbuf'⟩ := State.skipBits_takes _ bits.length
  have hleft := State.inBits_skipBits hstream
  have hruns' := hruns.skipBits bits.length
  rw [he] at hleft hruns' hbuf' ⊢
  refine ⟨⟨m + m', r', c', v, n, q, ?_⟩, hruns', hleft, hbuf' hbuf, ⟨h1, h2, h3, h4⟩, hw⟩
  simp [State.withReader, State.withTree, State.atSeq, Nat.add_assoc, BitVec.add_assoc, BitVec.ofNat_add]

/-- The entry `p` of node memory, `n` before, once the entry `i` is linked into the slot `o` (44_header_codec.md rule
R196). -/
def Node.linked (n : Node) (p i : NodeIdx) (o : Option Slot) : Node :=
  if o = some ⟨p, .left⟩ then { n with left := i }
  else if o = some ⟨p, .right⟩ then { n with right := i }
  else n

theorem Node.linked_weight (n : Node) (p i : NodeIdx) (o : Option Slot) : (n.linked p i o).weight = n.weight := by
  unfold Node.linked
  split
  · rfl
  · split <;> rfl

/-- An entry that is not the slot's parent stays. -/
theorem Node.linked_of_ne (n : Node) {p q : NodeIdx} (h : p ≠ q) (i : NodeIdx) (side : Side) :
    n.linked p i (some ⟨q, side⟩) = n := by
  have hne : ∀ side', ¬ some (⟨q, side⟩ : Slot) = some ⟨p, side'⟩ := fun side' he => by
    cases he
    exact h rfl
  rw [Node.linked, if_neg (hne _), if_neg (hne _)]

/-- What a tree, or a token's node alone, read into the slot `o` of `u` leaves in node memory, the new entries apart:
`count` of them more, and the link. -/
structure State.Grows (u : State) (o : Option Slot) (count : Nat) (t : State) : Prop where
  nodes : t.nodes.toNat = u.nodes.toNat + count
  older : ∀ p, p < u.nodes → t.nodeAt p = (u.nodeAt p).linked p u.nodes o

/-- A whole token's node: one entry more, in the slot that was due (44_header_codec.md rules R196, R197). -/
theorem State.Parsing.headerNode {s u : State} {slots : List Slot} {tok rest : List Bool}
    (h : s.Parsing slots rest u) (hs : u.seq = .token tok slots) (hbegun : slots = [] ↔ u.nodes = 0)
    (hroom : u.nodes.toNat ≤ 512) {n : Node} (hweight : n.weight = 0) {opens : NodeIdx → List Slot}
    (hnodup : (opens u.nodes).Nodup) (hopens : ∀ slot, slot ∈ opens u.nodes ↔ slot.parent = u.nodes ∧ n.leaf = false) :
    ∃ t, u.headerNode n opens = t.afterToken (opens u.nodes ++ slots.tail) ∧
      s.Parsing (opens u.nodes ++ slots.tail) rest t ∧ u.Grows slots.head? 1 t ∧ t.nodeAt u.nodes = n := by
  have hlt : u.nodes.toNat < 513 := Nat.lt_succ_of_le hroom
  have hpending : u.pendingSlots = slots := by rw [State.pendingSlots, hs]
  have hparent : ∀ slot ∈ slots, slot.parent < u.nodes := fun slot hslot => (h.grown.slotsInternal slot hslot).lt
  obtain ⟨v, hv, he⟩ := State.headerNode_room hroom n opens
  obtain ⟨hnew, hold⟩ := State.nodeAt_tokenNode hroom (by rwa [hpending]) n
  have hgrown := h.grown.headerNode hlt hbegun hnodup hopens
  rw [hpending] at hv he hold hnew
  rw [hv] at hgrown hnew hold
  have holder : ∀ p, p < u.nodes → _ = (u.nodeAt p).linked p u.nodes slots.head? :=
    fun p hp => hold p (BitVec.ne_of_lt hp)
  refine ⟨_, he, ⟨?_, ⟨h.runs.outOfReset, h.runs.alone, h.runs.phase⟩, h.stream, h.buffer, hgrown, fun p hp => ?_⟩,
    ⟨NodeIdx.toNat_succ hlt, holder⟩, hnew⟩
  · obtain ⟨m, r, c, v', n', q, rfl⟩ := h.frame
    exact ⟨m, r, c, v, _, q, rfl⟩
  · rcases (NodeIdx.lt_succ hlt).mp hp with rfl | hp
    · rw [hnew, hweight]
    · rw [holder p hp, Node.linked_weight]
      exact h.weights p hp

/-- From one token to the next: the token's bits, then its node (44_header_codec.md rules R196, R197). -/
theorem State.Parsing.token {s u : State} {slots : List Slot} {tok rest : List Bool}
    (h : s.Parsing slots (tok ++ rest) u) (hbegun : slots = [] ↔ u.nodes = 0)
    (hroom : u.nodes.toNat ≤ 512) {i : Instr} (htok : decodeToken tok = .ok (i, [])) {n : Node} (hweight : n.weight = 0)
    {opens : NodeIdx → List Slot} (hexec : ∀ t, exec i t = .next (t.headerNode n opens))
    (hnodup : (opens u.nodes).Nodup) (hopens : ∀ slot, slot ∈ opens u.nodes ↔ slot.parent = u.nodes ∧ n.leaf = false) :
    ∃ t, Reaches (u.atSeq (.token [] slots)) (t.afterToken (opens u.nodes ++ slots.tail)) ∧
      s.Parsing (opens u.nodes ++ slots.tail) rest t ∧ u.Grows slots.head? 1 t ∧ t.nodeAt u.nodes = n := by
  have hbits := (h.runs.atSeq (.token [] slots)).tokenBits rfl htok h.stream
  have hwhole := h.skipBits.atSeq (.token tok slots)
  rw [State.skipBits_atSeq, State.atSeq_atSeq] at hbits
  obtain ⟨⟨m, r, c, he⟩, -⟩ := u.skipBits_takes tok.length
  rw [he] at hbits hwhole
  obtain ⟨t, ht, hparsing, ⟨hnodes, holder⟩, hnew⟩ := hwhole.headerNode rfl hbegun hroom hweight hnodup hopens
  refine ⟨t, hbits.trans (hwhole.runs.head ?_ (.refl _)), hparsing, ⟨hnodes, holder⟩, hnew⟩
  rw [phaseStep, hwhole.runs.phase]
  simp only [hdrReadStep, State.atSeq_seq, htok, hexec]
  exact congrArg _ ht

/-- A tree in pre-order is read off its own entries alone. -/
theorem State.PreOrder.congr {s t : State} {T : CodeTree} {i : Nat} (h : s.PreOrder i T)
    (hn : ∀ j, i ≤ j → j < i + T.nodeCount → t.nodeAt (BitVec.ofNat 10 j) = s.nodeAt (BitVec.ofNat 10 j)) :
    t.PreOrder i T := by
  induction T generalizing i with
  | leaf sym =>
    rw [State.PreOrder, hn i (Nat.le_refl i) (by simp [CodeTree.nodeCount])]
    exact h
  | node l r ihl ihr =>
    simp only [CodeTree.nodeCount] at hn
    obtain ⟨hf, hl, hr, h1, h2⟩ := h
    rw [State.PreOrder, hn i (Nat.le_refl i) (by omega)]
    exact ⟨hf, hl, hr, ihl h1 fun j _ _ => hn j (by omega) (by omega), ihr h2 fun j _ _ => hn j (by omega) (by omega)⟩

/-- An index below another, given as a number. -/
theorem NodeIdx.ofNat_lt {i : NodeIdx} {j : Nat} (h : j < i.toNat) :
    BitVec.ofNat 10 j < i ∧ (BitVec.ofNat 10 j).toNat = j := by
  have := i.isLt
  have hj : (BitVec.ofNat 10 j).toNat = j := by rw [BitVec.toNat_ofNat, Nat.mod_eq_of_lt (by omega)]
  exact ⟨BitVec.lt_def.mpr (by omega), hj⟩

/-- A node, its left subtree and its right subtree, grown one after the other, are the tree of the node
(44_header_codec.md rules R196, R197). -/
theorem State.Grows.node {u t₁ t₂ t₃ : State} {o : Option Slot} {l r : CodeTree} (h₁ : u.Grows o 1 t₁)
    (h₂ : t₁.Grows (some ⟨u.nodes, .left⟩) l.nodeCount t₂) (h₃ : t₂.Grows (some ⟨u.nodes, .right⟩) r.nodeCount t₃)
    (hnew : t₁.nodeAt u.nodes = Node.mkInternal 0 0 0) (hl : t₂.PreOrder t₁.nodes.toNat l)
    (hr : t₃.PreOrder t₂.nodes.toNat r) :
    u.Grows o (1 + l.nodeCount + r.nodeCount) t₃ ∧ t₃.PreOrder u.nodes.toNat (.node l r) := by
  obtain ⟨hnodes₁, holder₁⟩ := h₁
  obtain ⟨hnodes₂, holder₂⟩ := h₂
  obtain ⟨hnodes₃, holder₃⟩ := h₃
  have hself₁ : u.nodes < t₁.nodes := BitVec.lt_def.mpr (by omega)
  have hself₂ : u.nodes < t₂.nodes := BitVec.lt_def.mpr (by omega)
  have hnode : t₃.nodeAt u.nodes = Node.mkInternal t₁.nodes t₂.nodes 0 := by
    rw [holder₃ _ hself₂, holder₂ _ hself₁, hnew]
    simp [Node.linked, Node.mkInternal]
  refine ⟨⟨by omega, fun p hp => ?_⟩, ?_⟩
  · have hne : p ≠ u.nodes := BitVec.ne_of_lt hp
    rw [holder₃ p (BitVec.lt_trans hp hself₂), Node.linked_of_ne _ hne, holder₂ p (BitVec.lt_trans hp hself₁),
      Node.linked_of_ne _ hne, holder₁ p hp]
  · rw [hnodes₁] at hl
    rw [hnodes₂, hnodes₁] at hr
    rw [State.PreOrder, BitVec.ofNat_toNat, BitVec.setWidth_eq, hnode]
    refine ⟨rfl, ?_, ?_, hl.congr fun j hij hj => ?_, hr⟩
    · rw [← hnodes₁]
      simp [Node.mkInternal]
    · rw [← hnodes₁, ← hnodes₂]
      simp [Node.mkInternal]
    · obtain ⟨hlt, hj⟩ := NodeIdx.ofNat_lt (i := t₂.nodes) (j := j) (by omega)
      exact (holder₃ _ hlt).trans (Node.linked_of_ne _ (fun he => by rw [he] at hj; omega) _ _)

/-- The tokens of a tree: its nodes from the next free entry on, in pre-order, and the slot that was due filled
(44_header_codec.md rules R196, R197). -/
theorem State.Parsing.tree {s u : State} {T : CodeTree} {slots : List Slot} {rest : List Bool}
    (h : s.Parsing slots (T.header ++ rest) u) (hbegun : slots = [] ↔ u.nodes = 0)
    (hroom : u.nodes.toNat + T.nodeCount ≤ 513) :
    ∃ t, Reaches (u.atSeq (.token [] slots)) (t.afterToken slots.tail) ∧ s.Parsing slots.tail rest t ∧
      u.Grows slots.head? T.nodeCount t ∧ t.PreOrder u.nodes.toNat T := by
  induction T generalizing u slots rest with
  | leaf sym =>
    simp only [CodeTree.nodeCount] at hroom
    have htok : decodeToken (CodeTree.leaf sym).header = .ok (.hdrLeaf sym, []) := decodeToken_leaf sym []
    obtain ⟨t, hreach, hparsing, hgrows, hnew⟩ := h.token hbegun (by omega) htok (n := Node.mkLeaf sym 0)
      (opens := fun _ => []) rfl (fun _ => rfl) List.nodup_nil fun slot => by simp [Node.mkLeaf]
    refine ⟨t, hreach, hparsing, hgrows, ?_⟩
    rw [State.PreOrder, BitVec.ofNat_toNat, BitVec.setWidth_eq, hnew]
    exact ⟨rfl, rfl⟩
  | node l r ihl ihr =>
    simp only [CodeTree.nodeCount] at hroom
    rw [CodeTree.header, ← List.singleton_append, List.append_assoc, List.append_assoc] at h
    have hl := l.nodeCount_pos
    have hr := r.nodeCount_pos
    have hbegun' : ∀ {t : State} {slot slots}, 0 < t.nodes.toNat →
        (slot :: slots = ([] : List Slot) ↔ t.nodes = 0) := fun hpos => ⟨nofun, fun h0 => by simp [h0] at hpos⟩
    obtain ⟨t₁, hreach₁, hparsing₁, hgrows₁, hnew₁⟩ := h.token hbegun (by omega)
      (i := .hdrInternal) rfl (n := Node.mkInternal 0 0 0) (opens := fun i => [⟨i, .left⟩, ⟨i, .right⟩]) rfl
      (fun _ => rfl) (by simp) fun slot => by
        obtain ⟨p, side⟩ := slot
        cases side <;> simp [Node.mkInternal]
    have hnodes₁ := hgrows₁.nodes
    obtain ⟨t₂, hreach₂, hparsing₂, hgrows₂, hpre₂⟩ := ihl hparsing₁ (hbegun' (by omega)) (by omega)
    have hnodes₂ := hgrows₂.nodes
    obtain ⟨t₃, hreach₃, hparsing₃, hgrows₃, hpre₃⟩ := ihr hparsing₂ (hbegun' (by omega)) (by omega)
    obtain ⟨hgrows, hpre⟩ := hgrows₁.node hgrows₂ hgrows₃ hnew₁ hpre₂ hpre₃
    exact ⟨t₃, (hreach₁.trans hreach₂).trans hreach₃, hparsing₃, hgrows, hpre⟩

/-! ### The phase -/

/-- What HDR_READ leaves, from its start in `s`, of a header of the tree `T` before the bits `rest`: the tree in
pre-order from entry 0, of weight 0, the reader at `rest`, and everything else as it was (44_header_codec.md rules R196
to R199). -/
structure State.HeaderRead (s : State) (T : CodeTree) (rest : List Bool) (u : State) : Prop where
  frame : ∃ m r c v, u = ((s.withReader (s.inPos + m) (s.inBytes + BitVec.ofNat 32 m) r c).withTree v
    (BitVec.ofNat 10 T.nodeCount) 0 s.pq).atSeq .phaseEnd
  stream : u.inBits = rest
  buffer : u.rcnt.toNat ≤ 7
  preOrder : u.PreOrder 0 T
  isTree : u.IsTree
  weights : ∀ p, p < u.nodes → (u.nodeAt p).weight = 0

/-- The node count of a tree that fits in node memory is a value of NODES (10_state.md rule R36). -/
theorem CodeTree.toNat_nodeCount {T : CodeTree} (h : T.nodeCount ≤ 513) :
    (BitVec.ofNat 10 T.nodeCount).toNat = T.nodeCount := by
  rw [BitVec.toNat_ofNat, Nat.mod_eq_of_lt (by omega)]

/-- The HDR_READ phase on the magic and the tokens of the tree `T` (44_header_codec.md rules R196 to R199). -/
theorem State.Runs.hdrRead {s : State} {T : CodeTree} {rest : List Bool} (h : s.Runs .hdrRead) (hs : s.seq = .start)
    (hbuf : s.rcnt.toNat ≤ 7) (hroom : T.nodeCount ≤ 513) (hin : s.inBits = bitsOf 32 s.magic ++ (T.header ++ rest)) :
    ∃ u, s.HeaderRead T rest u ∧ Reaches s u := by
  have hstart : phaseStep s = .next s.hdrReadStart := by
    rw [phaseStep, h.phase]
    simp only [hdrReadStep, hs]
  have hruns : s.hdrReadStart.Runs .hdrRead := ⟨h.outOfReset, h.alone, h.phase⟩
  have hmagic := hruns.magic rfl hin
  have hempty : s.hdrReadStart.Parsing [] (bitsOf 32 s.magic ++ (T.header ++ rest)) s.hdrReadStart :=
    ⟨⟨0, s.rbuf, s.rcnt, s.node, 0, .magicIn 0 0, by simp [State.withReader]; rfl⟩, hruns, hin, hbuf,
      (State.isPartial_nil rfl).grown, fun p hp => absurd (BitVec.lt_def.mp hp) (Nat.not_lt_zero _)⟩
  have hnodes : (s.hdrReadStart.skipBits (bitsOf 32 s.magic).length).nodes = 0 := State.skipBits_nodes _ _
  obtain ⟨t, hreach, hparsing, hgrows, hpre⟩ := hempty.skipBits.tree (by rw [hnodes]; simp) (by rw [hnodes]; simpa)
  have hcount := hgrows.nodes
  rw [hnodes] at hpre hcount
  obtain ⟨⟨m, r, c, v, n, q, rfl⟩, -, hstream, hbuf', hgrown, hweights⟩ := hparsing
  obtain rfl : n = BitVec.ofNat 10 T.nodeCount := by
    rw [← BitVec.setWidth_eq (x := n), ← BitVec.ofNat_toNat]
    exact congrArg _ (hcount.trans (Nat.zero_add _))
  have hne : BitVec.ofNat 10 T.nodeCount ≠ 0 := fun h0 =>
    T.nodeCount_pos.ne' ((CodeTree.toNat_nodeCount hroom).symm.trans (congrArg BitVec.toNat h0))
  exact ⟨_, ⟨⟨m, r, c, v, rfl⟩, hstream, hbuf', hpre.congr fun _ _ _ => rfl, (hgrown.isTree hne rfl).congr rfl rfl rfl,
    hweights⟩, h.head hstart (hmagic.trans hreach)⟩

/-- Where an internal node's children stand in pre-order: the left one next to it, the right one further on
(44_header_codec.md rule R197). -/
theorem State.PreOrder.children {s : State} {T : CodeTree} {i : Nat} (h : s.PreOrder i T)
    (hroom : i + T.nodeCount ≤ 513) {p : NodeIdx} (hi : i ≤ p.toNat) (hp : p.toNat < i + T.nodeCount)
    (hf : (s.nodeAt p).leaf = false) : (s.nodeAt p).left = p + 1 ∧ p < (s.nodeAt p).right := by
  induction T generalizing i with
  | leaf sym =>
    obtain ⟨hl, -⟩ := h
    simp only [CodeTree.nodeCount] at hp
    obtain rfl : i = p.toNat := by omega
    rw [BitVec.ofNat_toNat, BitVec.setWidth_eq, hf] at hl
    cases hl
  | node l r ihl ihr =>
    simp only [CodeTree.nodeCount] at hp hroom
    have hr := r.nodeCount_pos
    obtain ⟨-, hleft, hright, h1, h2⟩ := h
    rcases Nat.eq_or_lt_of_le hi with rfl | hi
    · rw [BitVec.ofNat_toNat, BitVec.setWidth_eq] at hleft hright
      rw [hleft, hright, BitVec.lt_def, BitVec.toNat_ofNat, Nat.mod_eq_of_lt (by omega), BitVec.ofNat_add]
      exact ⟨by simp, by omega⟩
    · by_cases hside : p.toNat < i + 1 + l.nodeCount
      · exact ihl h1 (by omega) hi hside
      · exact ihr h2 (by omega) (by omega) (by omega)

/-- Settles O35: the start clears the reader, HDR_READ rebuilds the tree, and, HDR_READ being the row's only phase, the
command completes. -/
theorem readHeader : Obligations.ReadHeader := by
  intro s T rest hq hroom hin
  obtain ⟨u, ⟨⟨m, r, c, v, rfl⟩, hstream, hbuf, hpre, htree, hweights⟩, hreach⟩ :=
    (hq.runs 8).hdrRead rfl (Nat.zero_le 7) hroom (hin.trans (List.append_assoc _ _ _))
  have hnodes := CodeTree.toNat_nodeCount hroom
  have hrun := hreach.trans
    (State.Runs.complete (p := .hdrRead) ⟨hq.outOfReset, hq.alone, rfl⟩ nofun rfl rfl)
  have hbytes : (s.accepted 8).inBytes + BitVec.ofNat 32 m = BitVec.ofNat 32 (s.inPos + m - s.inPos) := by
    rw [Nat.add_sub_cancel_left]
    exact BitVec.zero_add _
  have hpre := hpre.congr (t := State.complete _) fun _ _ _ => rfl
  refine ⟨_, _, congrArg Host.Outcome.next (hq.accepts 8), hrun, ?_,
    hpre.represents (by rw [Nat.zero_add]; exact hnodes.ge), hpre, htree.congr rfl rfl rfl, hweights,
    fun p hp => ?_, hstream, hbuf, Nat.le_add_right _ _⟩
  · rw [hbytes]
    rfl
  · have hlt := BitVec.lt_def.mp hp.lt
    exact hpre.children (by omega) (Nat.zero_le _) (by rw [Nat.zero_add, ← hnodes]; exact hlt) hp.2

end Sys2Proof.Machine
end

section
/-! SUPPORT. The loop of ENCODE up to the first symbol without a code, the abort there (45_compressor.md rule R212,
60_exceptions.md rule R276), and O40. -/

namespace Sys2Proof.Machine

/-! ### The loop -/

/-- The symbol of an 8-bit chunk is the byte (45_compressor.md rule R212). -/
theorem chunk_sym_toNat (x : Byte) : (BitVec.setWidth 9 (x.setWidth 32)).toNat = x.toNat := by
  rw [BitVec.toNat_setWidth, BitVec.toNat_setWidth]
  omega

/-- Where the sequencer stood does not show after an abort (60_exceptions.md rule R280). -/
@[simp] theorem State.abort_atSeq (s : State) (q : Seq) (e : Error) (info : Word) (nbits : BitVec 6) :
    (s.atSeq q).abort e info nbits = s.abort e info nbits := rfl

/-- A symbol without a code that is due: the abort with it in ERR_INFO (60_exceptions.md rule R276). -/
theorem State.startCode_noCode {s : State} {sym : Sym} (h : s.codeLenAt sym.toNat = 0) (last : Bool) :
    s.startCode sym last = s.abort .noCode (BitVec.ofNat 32 sym.toNat) := by
  rcases s.startCode_cases sym last with ⟨-, he⟩ | ⟨hne, -⟩
  · rw [he, BitVec.ofNat_toNat]
  · exact absurd h hne

section
variable {s : State} (h : s.Runs .encode) (hs : s.seq = .byteLoop) (hr : s.rcnt = 0)
include h hs hr

/-- One turn of the loop of ENCODE and the code it makes due, for a byte that has one (45_compressor.md rule R212). -/
theorem State.Runs.byteOut {x : Byte} (hx : s.inData[s.inPos]? = some x) (hcode : s.codeLenAt x.toNat ≠ 0) :
    Reaches s (((s.writeList (s.codeOf x.toNat)).withReader (s.inPos + 1) (s.inBytes + 1) x 0).atSeq .byteLoop) := by
  have hturn : phaseStep s =
      .next ((s.withReader (s.inPos + 1) (s.inBytes + 1) x 0).startCode ((x.setWidth 32).setWidth 9) false) := by
    rw [phaseStep, h.phase]
    simp [encodeStep, hs, State.encodeByte, State.readBits_byte hr hx]
  have hout := h.symbolOut (h.withReader _ _ _ _) hturn (by rwa [chunk_sym_toNat])
  rw [chunk_sym_toNat, State.writeList_withReader] at hout
  exact hout

/-- The turn of the loop that meets a symbol without a code: the byte is taken, if there is one, and the command aborts
(45_compressor.md rule R212, 60_exceptions.md rules R276, R280). -/
theorem State.Runs.abortNoCode {sym : Nat} (hsym : (s.inLeft.head?.map BitVec.toNat).getD 256 = sym)
    (h0 : s.codeLenAt sym = 0) :
    Reaches s ((s.withReader (s.inPos + min 1 s.inLeft.length) (s.inBytes + BitVec.ofNat 32 (min 1 s.inLeft.length))
      0 0).abort .noCode (BitVec.ofNat 32 sym)) := by
  have hturn : phaseStep s = .next s.encodeByte := by rw [phaseStep, h.phase]; simp [encodeStep, hs]
  refine h.head hturn (Eq.mp (congrArg (Reaches _) ?_) (.refl _))
  cases hl : s.inLeft with
  | nil =>
    obtain rfl : 256 = sym := by simpa [hl] using hsym
    rw [State.encodeByte, State.readBits_end hr (State.inLeft_nil hl)]
    refine (State.startCode_noCode (sym := Config.pseudoEof) h0 true).trans ?_
    rw [List.length_nil, Nat.min_zero, BitVec.ofNat_eq_ofNat, BitVec.add_zero]
    rfl
  | cons x rest =>
    obtain rfl : x.toNat = sym := by simpa [hl] using hsym
    rw [State.encodeByte, State.readBits_byte hr (State.inLeft_cons hl).1]
    refine (State.startCode_noCode (by rwa [chunk_sym_toNat]) false).trans ?_
    rw [chunk_sym_toNat, List.length_cons, Nat.min_eq_left (Nat.succ_pos _)]
    rfl

/-- The loop of ENCODE when `sym` is the first symbol without a code, after the bytes `pre`: their codes go to the
writer, and the turn after them aborts (45_compressor.md rule R212). -/
theorem State.Runs.loopNoCode {pre post : List Byte} {sym : Nat} (hl : s.inLeft = pre ++ post)
    (hcode : ∀ b ∈ pre, s.codeLenAt b.toNat ≠ 0) (hsym : (post.head?.map BitVec.toNat).getD 256 = sym)
    (h0 : s.codeLenAt sym = 0) :
    Reaches s (((s.writeList (pre.flatMap fun b => s.codeOf b.toNat)).withReader
      (s.inPos + (pre.length + min 1 post.length)) (s.inBytes + BitVec.ofNat 32 (pre.length + min 1 post.length))
      0 0).abort .noCode (BitVec.ofNat 32 sym)) := by
  induction pre generalizing s with
  | nil =>
    obtain rfl : s.inLeft = post := hl
    rw [List.length_nil, Nat.zero_add]
    exact h.abortNoCode hs hr hsym h0
  | cons x pre ih =>
    obtain ⟨hx, hrest⟩ := State.inLeft_cons hl
    have hout := h.byteOut hs hr hx (hcode x List.mem_cons_self)
    have hloop := ih (((h.writeList (s.codeOf x.toNat)).withReader (s.inPos + 1) (s.inBytes + 1) x 0).atSeq .byteLoop)
      rfl rfl (by simpa using hrest) (by simpa using fun b hb => hcode b (List.mem_cons_of_mem x hb)) (by simpa using h0)
    refine hout.trans (Eq.mp (congrArg (Reaches _) ?_) hloop)
    rw [List.length_cons, Nat.succ_add, ← BitVec.add_one_add_ofNat, List.flatMap_cons]
    simp [Nat.add_assoc, Nat.add_comm 1]

end

/-- The ENCODE phase when `sym` is the first symbol without a code, after the bytes `pre` of the input
(45_compressor.md rule R212). -/
theorem State.Runs.encodeNoCode {s : State} {pre post : List Byte} {sym : Nat} (h : s.Runs .encode) (hs : s.seq = .start)
    (hin : s.inData = pre ++ post) (hcode : ∀ b ∈ pre, s.codeLenAt b.toNat ≠ 0)
    (hsym : (post.head?.map BitVec.toNat).getD 256 = sym) (h0 : s.codeLenAt sym = 0) :
    Reaches s (((s.writeList (pre.flatMap fun b => s.codeOf b.toNat)).withReader (min (pre.length + 1) s.inData.length)
      (BitVec.ofNat 32 (min (pre.length + 1) s.inData.length)) 0 0).abort .noCode (BitVec.ofNat 32 sym)) := by
  have hstart : phaseStep s = .next ((s.withReader 0 0 0 0).atSeq .byteLoop) := by
    rw [phaseStep, h.phase]; simp only [encodeStep, hs]; rfl
  have htaken : min (pre.length + 1) s.inData.length = pre.length + min 1 post.length := by
    rw [hin, List.length_append, Nat.add_min_add_left]
  have hloop := ((h.withReader 0 0 0 0).atSeq .byteLoop).loopNoCode rfl rfl hin hcode hsym h0
  refine h.head hstart (Eq.mp (congrArg (Reaches _) ?_) hloop)
  simp [htaken]

/-! ### The bytes sent -/

/-- The bytes the writer has sent are the whole bytes of the bits it was given, packed (40_bitio.md rule R135). -/
theorem packBits_wholeBytes {bits rest : List Bool} {bytes : List Byte} (h : byteBits bytes ++ rest = bits)
    (hrest : rest.length < 8) : packBits (bits.take (bits.length / 8 * 8)) = bytes := by
  have hlen : bits.length / 8 * 8 = (byteBits bytes).length := by
    rw [← h, List.length_append, byteBits_length]
    omega
  apply packBits_eq
  rw [hlen, ← h, List.take_left]
  simp [padding]

/-- Settles O40: the loop of ENCODE sends the whole bytes of the codes before the symbol, and the turn that meets it
aborts, which drops the pending bits. -/
theorem noCode : Obligations.NoCode := by
  intro s pre post sym hq hin hcode hsym h0
  have hrun := (hq.runs 7).encodeNoCode rfl hin hcode hsym h0
  obtain ⟨bytes, w, c, he, hbits, -⟩ := (s.accepted 7).writeList_eq (pre.flatMap fun b => (s.accepted 7).codeOf b.toNat)
  have hbytes := packBits_wholeBytes hbits (by rw [bitsOf_length]; exact c.isLt)
  have hcount : (s.accepted 7).outBytes + BitVec.ofNat 32 bytes.length = BitVec.ofNat 32 bytes.length :=
    BitVec.zero_add _
  rw [he, hcount] at hrun
  exact ⟨_, _, bytes, congrArg Host.Outcome.next (hq.accepts 7), rfl, hbytes.symm, hrun⟩

end Sys2Proof.Machine
end

section
/-! SUPPORT. The DECODE phase on a represented tree, and DECODE_BODY (46_decompressor.md rules R232 to R237), O41 and
O42. -/

namespace Sys2Proof.Machine

/-! ### The bit reader and the rest of the state -/

/-- `f` updates nothing that the bit reader reads, and nothing that it writes. -/
def Unread (f : State → State) : Prop := ∀ s : State, (f s).readBit = (s.readBit.1, f s.readBit.2)

/-- `ReadBit` by what it reads and what it writes (40_bitio.md rules R130, R131). -/
theorem State.readBit_eq (s : State) : s.readBit =
    if s.rcnt = 0 then s.inData[s.inPos]?.elim (none, s) fun x =>
      (some (x.getLsbD 7), s.withReader (s.inPos + 1) (s.inBytes + 1) x 7)
    else (some (s.rbuf.getLsbD (s.rcnt - 1).toNat), s.withReader s.inPos s.inBytes s.rbuf (s.rcnt - 1)) := by
  rcases h : s.readBit with ⟨_ | b, t⟩
  · obtain ⟨rfl, h0, hx⟩ := State.readBit_none h
    rw [if_pos h0, hx, Option.elim_none]
  · rcases State.readBit_some h with ⟨h0, rfl, rfl⟩ | ⟨h0, x, hx, rfl, rfl⟩
    · rw [if_neg h0]
      rfl
    · rw [if_pos h0, hx, Option.elim_some]
      rfl

/-- An update that keeps what the bit reader reads and commutes with what it writes. -/
theorem Unread.of {f : State → State} (hcnt : ∀ s, (f s).rcnt = s.rcnt) (hbuf : ∀ s, (f s).rbuf = s.rbuf)
    (hdata : ∀ s, (f s).inData = s.inData) (hpos : ∀ s, (f s).inPos = s.inPos)
    (hpop : ∀ (s : State) p r c, f (s.withReader p s.inBytes r c) = (f s).withReader p (f s).inBytes r c)
    (htake : ∀ (s : State) p r c, f (s.withReader p (s.inBytes + 1) r c) = (f s).withReader p ((f s).inBytes + 1) r c) :
    Unread f := by
  intro s
  rw [State.readBit_eq, State.readBit_eq, hcnt, hbuf, hdata, hpos, ← hpop]
  simp only [← htake]
  by_cases h0 : s.rcnt = 0
  · rw [if_pos h0, if_pos h0]
    cases s.inData[s.inPos]? <;> rfl
  · rw [if_neg h0, if_neg h0]

theorem Unread.skipBits {f : State → State} (hf : Unread f) (s : State) (n : Nat) :
    (f s).skipBits n = f (s.skipBits n) := by
  induction n generalizing s with
  | zero => rfl
  | succ n ih => rw [State.skipBits, hf s]; exact ih s.readBit.2

section
variable (s : State) (n : Nat)

@[simp] theorem State.skipBits_node : (s.skipBits n).node = s.node := by
  obtain ⟨⟨m, r, c, he⟩, -⟩ := s.skipBits_takes n; rw [he]; rfl
@[simp] theorem State.skipBits_root : (s.skipBits n).root = s.root := by
  obtain ⟨⟨m, r, c, he⟩, -⟩ := s.skipBits_takes n; rw [he]; rfl
@[simp] theorem State.skipBits_wbuf : (s.skipBits n).wbuf = s.wbuf := by
  obtain ⟨⟨m, r, c, he⟩, -⟩ := s.skipBits_takes n; rw [he]; rfl
@[simp] theorem State.skipBits_wcnt : (s.skipBits n).wcnt = s.wcnt := by
  obtain ⟨⟨m, r, c, he⟩, -⟩ := s.skipBits_takes n; rw [he]; rfl
@[simp] theorem State.skipBits_seq : (s.skipBits n).seq = s.seq := by
  obtain ⟨⟨m, r, c, he⟩, -⟩ := s.skipBits_takes n; rw [he]; rfl
@[simp] theorem State.skipBits_nodeAt : (s.skipBits n).nodeAt = s.nodeAt := by
  obtain ⟨⟨m, r, c, he⟩, -⟩ := s.skipBits_takes n; rw [he]; rfl
@[simp] theorem State.skipBits_lastCmd : (s.skipBits n).lastCmd = s.lastCmd := by
  obtain ⟨⟨m, r, c, he⟩, -⟩ := s.skipBits_takes n; rw [he]; rfl

end

/-- `ReadBit` at the end of the stream, and before it (40_bitio.md rule R131). -/
theorem State.readBit_cases (s : State) :
    (s.inBits = [] ∧ s.readBit = (none, s)) ∨
    (∃ b, s.inBits = b :: (s.skipBits 1).inBits ∧ s.readBit = (some b, s.skipBits 1)) := by
  rcases h : s.readBit with ⟨_ | b, t⟩
  · exact .inl ⟨State.inBits_of_readBit_none h, by rw [(State.readBit_none h).1]⟩
  · obtain rfl : s.skipBits 1 = t := congrArg Prod.snd h
    exact .inr ⟨b, State.inBits_of_readBit_some h, rfl⟩

/-- After a bit is asked for, at most seven bits stand in RBUF (40_bitio.md rule R131). -/
theorem State.rcnt_skipBits_le {s : State} (h : s.rcnt.toNat ≤ 8) {n : Nat} (hn : n ≠ 0) :
    (s.skipBits n).rcnt.toNat ≤ 7 := by
  obtain ⟨n, rfl⟩ := Nat.exists_eq_succ_of_ne_zero hn
  refine (s.readBit.2.skipBits_takes n).2 ?_
  rcases hr : s.readBit with ⟨_ | b, t⟩
  · obtain ⟨rfl, h0, -⟩ := State.readBit_none hr
    simp [h0]
  · exact State.rcnt_le_of_readBit_some h hr

/-- A byte that `ReadBit` takes is one less to come (40_bitio.md rule R130). -/
theorem State.inLeft_length_of_readBit_some {s t : State} {b : Bool} (h : s.readBit = (some b, t)) :
    t.inLeft.length + (if s.rcnt = 0 then 1 else 0) = s.inLeft.length := by
  rcases State.readBit_some h with ⟨h0, -, rfl⟩ | ⟨h0, x, hx, -, rfl⟩
  · rw [if_neg h0]
    rfl
  · have hlt := (List.getElem?_eq_some_iff.mp hx).1
    simp only [if_pos h0, State.inLeft, List.length_drop]
    omega

/-- Calls of `ReadBit` take bytes of IN, each one less to come. -/
theorem State.skipBits_inLeft (s : State) (n : Nat) :
    ∃ m, s.TakesBytes m (s.skipBits n) ∧ (s.skipBits n).inLeft.length + m = s.inLeft.length := by
  induction n generalizing s with
  | zero => exact ⟨0, s.takesBytes_refl, rfl⟩
  | succ n ih =>
    rcases hr : s.readBit with ⟨_ | b, t⟩ <;> rw [State.skipBits, hr] <;> dsimp only
    · obtain ⟨rfl, -, -⟩ := State.readBit_none hr
      exact ih t
    · obtain ⟨m, htake, hleft⟩ := ih t
      have hbyte := State.inLeft_length_of_readBit_some hr
      exact ⟨_, (State.takesBytes_of_readBit_some hr).trans htake, by omega⟩

/-- With less than a byte of the stream to read, no byte of IN is to come. -/
theorem State.inLeft_length_of_inBits {s : State} (h : s.inBits.length < 8) : s.inLeft.length = 0 := by
  rw [State.inBits, List.length_append, byteBits_length] at h
  omega

/-- The reader at the end of the stream has taken every byte that was to come. -/
theorem State.skipBits_dry {s : State} {n : Nat} (h : (s.skipBits n).inBits = []) :
    s.TakesBytes s.inLeft.length (s.skipBits n) := by
  obtain ⟨m, htake, hleft⟩ := s.skipBits_inLeft n
  have hdry := State.inLeft_length_of_inBits (s := s.skipBits n) (by rw [h]; decide)
  rwa [show s.inLeft.length = m by omega]

/-! ### The symbols sent -/

/-- `s` in DECODE at entry `i` and position `q`, with the symbols `syms` sent, one byte each (46_decompressor.md rule
R233). -/
def State.decoding (s : State) (i : NodeIdx) (syms : List Sym) (q : Seq) : State :=
  { s with
    outLog := s.outLog ++ syms.map fun sym => .byte (sym.setWidth 8)
    outBytes := s.outBytes + BitVec.ofNat 32 syms.length
    cur := i, seq := q }

section
variable (s : State) (i j : NodeIdx) (syms more : List Sym) (q q' : Seq) (n : Nat)

@[simp] theorem State.decoding_decoding :
    (s.decoding i syms q).decoding j more q' = s.decoding j (syms ++ more) q' := by
  simp [State.decoding, BitVec.ofNat_add, BitVec.add_assoc]

@[simp] theorem State.skipBits_decoding :
    (s.decoding i syms q).skipBits n = (s.skipBits n).decoding i syms q :=
  Unread.skipBits (f := (·.decoding i syms q)) (.of (fun _ => rfl) (fun _ => rfl) (fun _ => rfl) (fun _ => rfl)
    (fun _ _ _ _ => rfl) fun _ _ _ _ => rfl) s n

@[simp] theorem State.skipBits_skipBits (m : Nat) : (s.skipBits m).skipBits n = s.skipBits (m + n) :=
  (s.skipBits_add m n).symm

end

theorem State.Runs.decoding {s : State} {p : Phase} (h : s.Runs p) (i : NodeIdx) (syms : List Sym) (q : Seq) :
    (s.decoding i syms q).Runs p :=
  ⟨h.outOfReset, h.alone, h.phase⟩

/-- From a byte boundary a symbol leaves as one byte, its low 8 bits (46_decompressor.md rule R233). -/
theorem State.writeBits_sym {s : State} (h : s.wcnt = 0) (sym : Sym) :
    s.writeBits 8 sym = { s with
      outLog := s.outLog ++ [.byte (sym.setWidth 8)], outBytes := s.outBytes + 1, wbuf := 0, wcnt := 0 } := by
  obtain ⟨bytes, w, c, he, hbits, h0⟩ := s.writeList_eq (bitsOf 8 sym)
  have hw : s.wcnt.toNat = 0 := by
    rw [h]
    rfl
  have hc : c = 0 := by
    have hlen := congrArg List.length hbits
    simp only [List.length_append, byteBits_length, bitsOf_length, hw] at hlen
    have := c.isLt
    exact BitVec.eq_of_toNat_eq (show c.toNat = 0 by omega)
  subst hc
  have hbytes : bytes = [sym.setWidth 8] := byteBits_injective (by simpa [bitsOf, h, byteBits] using hbits)
  rw [State.writeBits, he, hbytes, h0 (List.cons_ne_nil _ _) rfl]
  rfl

/-! ### The turns of the loop -/

/-- `s` in DECODE at the node of entry `i`. -/
def State.atNode (s : State) (i : NodeIdx) : State := { s with cur := i, seq := .descend }

@[simp] theorem State.skipBits_atNode (s : State) (i : NodeIdx) (n : Nat) :
    (s.atNode i).skipBits n = (s.skipBits n).atNode i :=
  Unread.skipBits (f := (·.atNode i)) (.of (fun _ => rfl) (fun _ => rfl) (fun _ => rfl) (fun _ => rfl)
    (fun _ _ _ _ => rfl) fun _ _ _ _ => rfl) s n

theorem State.Runs.atNode {s : State} {p : Phase} (h : s.Runs p) (i : NodeIdx) : (s.atNode i).Runs p :=
  ⟨h.outOfReset, h.alone, h.phase⟩

/-- The head of the loop: a single leaf takes one bit, any other tree none (46_decompressor.md rules R232, R237). -/
theorem State.decodeSymbol_eq (s : State) : s.decodeSymbol =
    if (s.nodeAt s.root).leaf then s.readBit.1.elim s.readBit.2.truncatedBody fun _ => s.readBit.2.atNode s.root
    else s.atNode s.root := by
  have hread : ({ s with cur := s.root } : State).readBit = (s.readBit.1, { s.readBit.2 with cur := s.root }) :=
    Unread.of (f := fun t => { t with cur := s.root }) (fun _ => rfl) (fun _ => rfl) (fun _ => rfl) (fun _ => rfl)
      (fun _ _ _ _ => rfl) (fun _ _ _ _ => rfl) s
  unfold State.decodeSymbol
  simp only [hread]
  rcases s.readBit with ⟨_ | b, t⟩ <;> rfl

/-- The head of the loop: the root, or on a single leaf TruncatedBody at the end of the stream and the leaf after one
bit before it (46_decompressor.md rules R232, R237). -/
theorem State.decodeSymbol_cases (s : State) :
    ((s.nodeAt s.root).leaf = false ∧ s.decodeSymbol = s.atNode s.root) ∨
    ((s.nodeAt s.root).leaf = true ∧ s.inBits = [] ∧ s.decodeSymbol = s.truncatedBody) ∨
    (∃ b, (s.nodeAt s.root).leaf = true ∧ s.inBits = b :: (s.skipBits 1).inBits ∧
      s.decodeSymbol = (s.skipBits 1).atNode s.root) := by
  rw [State.decodeSymbol_eq]
  cases hl : (s.nodeAt s.root).leaf
  · exact .inl ⟨rfl, rfl⟩
  · rcases s.readBit_cases with ⟨hin, hr⟩ | ⟨b, hin, hr⟩ <;> rw [hr]
    · exact .inr (.inl ⟨rfl, hin, rfl⟩)
    · exact .inr (.inr ⟨b, rfl, hin, rfl⟩)

/-- At a node: the end of the phase at the sentinel's leaf, the symbol of any other leaf; TruncatedBody at the end of
the stream, and the child that one bit chooses before it (46_decompressor.md rules R232, R233). -/
theorem State.decodeDescend_cases {s : State} (hs : s.seq = .descend) :
    ((s.nodeAt s.cur).leaf = true ∧ (s.nodeAt s.cur).sym = 256 ∧ s.decodeDescend = s.atSeq .phaseEnd) ∨
    ((s.nodeAt s.cur).leaf = true ∧ (s.nodeAt s.cur).sym ≠ 256 ∧
      s.decodeDescend = (s.writeBits 8 (s.nodeAt s.cur).sym).atSeq .symbol) ∨
    ((s.nodeAt s.cur).leaf = false ∧ s.inBits = [] ∧ s.decodeDescend = s.truncatedBody) ∨
    (∃ b, (s.nodeAt s.cur).leaf = false ∧ s.inBits = b :: (s.skipBits 1).inBits ∧ s.decodeDescend =
      (s.skipBits 1).atNode (if b then (s.nodeAt s.cur).right else (s.nodeAt s.cur).left)) := by
  unfold State.decodeDescend
  cases hl : (s.nodeAt s.cur).leaf
  · rcases s.readBit_cases with ⟨hin, hr⟩ | ⟨b, hin, hr⟩ <;> rw [hr]
    · exact .inr (.inr (.inl ⟨rfl, hin, rfl⟩))
    · exact .inr (.inr (.inr ⟨b, rfl, hin, by rw [State.atNode, ← hs, ← s.skipBits_seq 1]; rfl⟩))
  · by_cases hsym : (s.nodeAt s.cur).sym = 256
    · exact .inl ⟨rfl, hsym, if_pos hsym⟩
    · exact .inr (.inl ⟨rfl, hsym, if_neg hsym⟩)

section
variable {s : State} (h : s.Runs .decode)
include h

theorem State.Runs.decodeSymbol (hs : s.seq = .symbol) : phaseStep s = .next s.decodeSymbol := by
  rw [phaseStep, h.phase]
  simp only [decodeStep, hs]

theorem State.Runs.decodeDescend (hs : s.seq = .descend) : phaseStep s = .next s.decodeDescend := by
  rw [phaseStep, h.phase]
  simp only [decodeStep, hs]

end

/-! ### From the head of the loop to a leaf -/

/-- From `s` the walk down the tree ends as `o` says: at a leaf of the symbol, with the rest of the stream to come, or
in TruncatedBody at the end of the stream (46_decompressor.md rule R232). -/
def State.WalksTo (s : State) : Option (Sym × List Bool) → Prop
  | some (sym, rest) => ∃ n i, (s.skipBits n).inBits = rest ∧ (s.nodeAt i).leaf = true ∧ (s.nodeAt i).sym = sym ∧
      Reaches s ((s.skipBits n).atNode i)
  | none => ∃ n, (s.skipBits n).inBits = [] ∧ Reaches s (s.skipBits n).truncatedBody

/-- A step on the way, and the walk after it. -/
theorem State.Runs.walk {s : State} {o : Option (Sym × List Bool)} {n : Nat} {i : NodeIdx} (h : s.Runs .decode)
    (hs : phaseStep s = .next ((s.skipBits n).atNode i)) (hwalk : ((s.skipBits n).atNode i).WalksTo o) :
    s.WalksTo o := by
  cases o with
  | none =>
    obtain ⟨m, hin, hreach⟩ := hwalk
    rw [State.skipBits_atNode, State.skipBits_skipBits] at hin hreach
    exact ⟨n + m, hin, h.head hs hreach⟩
  | some found =>
    obtain ⟨m, j, hin, hl, hsym, hreach⟩ := hwalk
    rw [State.skipBits_atNode, State.skipBits_skipBits] at hin hreach
    have hnode : ((s.skipBits n).atNode i).nodeAt = s.nodeAt := s.skipBits_nodeAt n
    rw [hnode] at hl hsym
    exact ⟨n + m, j, hin, hl, hsym, h.head hs hreach⟩

/-- The walk down a represented tree, one bit an edge (46_decompressor.md rule R232). -/
theorem State.Runs.descend {s : State} {T : CodeTree} (h : s.Runs .decode) (hs : s.seq = .descend)
    (hT : s.Represents s.cur T) : s.WalksTo (T.descend s.inBits) := by
  induction T generalizing s with
  | leaf sym =>
    obtain ⟨-, hl, hsym⟩ := hT
    exact ⟨0, s.cur, rfl, hl, hsym, Eq.mp (congrArg (fun q => Reaches s { s with seq := q }) hs) (.refl s)⟩
  | node l r ihl ihr =>
    obtain ⟨-, hf, hl, hr⟩ := hT
    have hturn := h.decodeDescend hs
    rcases State.decodeDescend_cases hs with ⟨hleaf, -⟩ | ⟨hleaf, -⟩ | ⟨-, hin, he⟩ | ⟨b, -, hin, he⟩
    · simp [hf] at hleaf
    · simp [hf] at hleaf
    · rw [hin]
      exact ⟨0, hin, h.head (hturn.trans (congrArg _ he)) (.refl _)⟩
    · refine h.walk (hturn.trans (congrArg _ he)) ?_
      rw [hin]
      cases b
      · exact ihl ((h.skipBits 1).atNode _) rfl (hl.congr (s.skipBits_node 1) (s.skipBits_nodes 1))
      · exact ihr ((h.skipBits 1).atNode _) rfl (hr.congr (s.skipBits_node 1) (s.skipBits_nodes 1))

/-- The next symbol of the body, from the head of the loop (46_decompressor.md rules R232, R237). -/
theorem State.Runs.symbol {s : State} {T : CodeTree} (h : s.Runs .decode) (hs : s.seq = .symbol)
    (hT : s.Represents s.root T) : s.WalksTo (T.nextSym s.inBits) := by
  have hturn := h.decodeSymbol hs
  cases T with
  | leaf sym =>
    obtain ⟨-, hl, hsym⟩ := hT
    rcases s.decodeSymbol_cases with ⟨hf, -⟩ | ⟨-, hin, he⟩ | ⟨b, -, hin, he⟩
    · simp [hl] at hf
    · rw [hin]
      exact ⟨0, hin, h.head (hturn.trans (congrArg _ he)) (.refl _)⟩
    · rw [hin]
      exact ⟨1, s.root, rfl, hl, hsym, h.head (hturn.trans (congrArg _ he)) (.refl _)⟩
  | node l r =>
    have hf : (s.nodeAt s.root).leaf = false := by
      obtain ⟨-, hf, -⟩ := hT
      exact hf
    rcases s.decodeSymbol_cases with ⟨-, he⟩ | ⟨hl, -⟩ | ⟨b, hl, -⟩
    · exact h.walk (n := 0) (hturn.trans (congrArg _ he)) ((h.atNode s.root).descend rfl (hT.congr rfl rfl))
    · simp [hf] at hl
    · simp [hf] at hl

/-! ### The loop -/

/-- At a leaf the sentinel ends the phase, and any other symbol leaves as one byte (46_decompressor.md rules R232,
R233). -/
theorem State.Runs.atLeaf {s : State} (h : s.Runs .decode) (hs : s.seq = .descend) (hl : (s.nodeAt s.cur).leaf = true) :
    ((s.nodeAt s.cur).sym = 256 → Reaches s (s.decoding s.cur [] .phaseEnd)) ∧
    ((s.nodeAt s.cur).sym ≠ 256 → s.wcnt = 0 → s.wbuf = 0 →
      Reaches s (s.decoding s.cur [(s.nodeAt s.cur).sym] .symbol)) := by
  have hturn := h.decodeDescend hs
  rcases State.decodeDescend_cases hs with ⟨-, hsym, he⟩ | ⟨-, hsym, he⟩ | ⟨hf, -⟩ | ⟨b, hf, -⟩
  · refine ⟨fun _ => h.head (hturn.trans (congrArg _ he)) (Eq.mp (congrArg (Reaches _) ?_) (.refl _)),
      fun hne => absurd hsym hne⟩
    simp [State.decoding, State.atSeq]
  · refine ⟨fun heq => absurd heq hsym, fun _ hw h0 => h.head (hturn.trans (congrArg _ he)) ?_⟩
    rw [State.writeBits_sym hw, ← hw, ← h0]
    exact .refl _
  · simp [hl] at hf
  · simp [hl] at hf

/-- `s` stands at the head of the loop of DECODE, with the tree `T` at ROOT and the writer empty. -/
structure State.AtHead (s : State) (T : CodeTree) : Prop where
  runs : s.Runs .decode
  head : s.seq = .symbol
  tree : s.Represents s.root T
  aligned : s.wcnt = 0
  empty : s.wbuf = 0

theorem State.AtHead.decoding {s : State} {T : CodeTree} (h : s.AtHead T) (n : Nat) (i : NodeIdx) (syms : List Sym) :
    ((s.skipBits n).decoding i syms .symbol).AtHead T where
  runs := (h.runs.skipBits n).decoding i syms .symbol
  head := rfl
  tree := by
    rw [show ((s.skipBits n).decoding i syms .symbol).root = s.root from s.skipBits_root n]
    exact h.tree.congr (s.skipBits_node n) (s.skipBits_nodes n)
  aligned := (s.skipBits_wcnt n).trans h.aligned
  empty := (s.skipBits_wbuf n).trans h.empty

section
variable {s : State} {T : CodeTree} (h : s.AtHead T)
include h

/-- The sentinel ends the phase (46_decompressor.md rule R232). -/
theorem State.AtHead.sentinel {rest : List Bool} (hsym : T.nextSym s.inBits = some (256, rest)) :
    ∃ n i, (s.skipBits n).inBits = rest ∧ Reaches s ((s.skipBits n).decoding i [] .phaseEnd) := by
  have hwalk := h.runs.symbol h.head h.tree
  rw [hsym] at hwalk
  obtain ⟨n, i, hin, hl, heof, hreach⟩ := hwalk
  rw [← s.skipBits_nodeAt n] at hl heof
  exact ⟨n, i, hin, hreach.trans ((((h.runs.skipBits n).atNode i).atLeaf rfl hl).1 heof)⟩

/-- Any other symbol is sent (46_decompressor.md rule R233). -/
theorem State.AtHead.emit {sym : Sym} {more : List Bool} (hsym : T.nextSym s.inBits = some (sym, more))
    (hne : sym ≠ 256) :
    ∃ n i, (s.skipBits n).inBits = more ∧ Reaches s ((s.skipBits n).decoding i [sym] .symbol) := by
  have hwalk := h.runs.symbol h.head h.tree
  rw [hsym] at hwalk
  obtain ⟨n, i, hin, hl, rfl, hreach⟩ := hwalk
  rw [← s.skipBits_nodeAt n] at hl hne ⊢
  exact ⟨n, i, hin, hreach.trans ((((h.runs.skipBits n).atNode i).atLeaf rfl hl).2 hne
    ((s.skipBits_wcnt n).trans h.aligned) ((s.skipBits_wbuf n).trans h.empty))⟩

/-- A body that ends before the next symbol aborts (46_decompressor.md rule R232). -/
theorem State.AtHead.dry (hsym : T.nextSym s.inBits = none) :
    ∃ n, (s.skipBits n).inBits = [] ∧ Reaches s ((s.skipBits n).decoding 0 [] .start).truncatedBody := by
  have hwalk := h.runs.symbol h.head h.tree
  rw [hsym] at hwalk
  obtain ⟨n, hdry, hreach⟩ := hwalk
  refine ⟨n, hdry, Eq.mp (congrArg (Reaches s) ?_) hreach⟩
  simp [State.truncatedBody, State.decoding, State.abort, State.readerClear, State.writerClear]

/-- The loop over a body that spells symbols and the sentinel: each symbol is sent, and the phase ends
(46_decompressor.md rules R232, R233). -/
theorem State.AtHead.spells {bits rest : List Bool} {syms : List Sym} (hin : s.inBits = bits)
    (hsp : T.Spells bits syms rest) :
    ∃ n i, (s.skipBits n).inBits = rest ∧ Reaches s ((s.skipBits n).decoding i syms .phaseEnd) := by
  induction hsp generalizing s with
  | stop hsym => exact h.sentinel (hin ▸ hsym)
  | emit hsym hne _ ih =>
    obtain ⟨n, i, hleft, hreach⟩ := h.emit (hin ▸ hsym) hne
    obtain ⟨m, j, hrest, hloop⟩ := ih (h.decoding n i _) hleft
    rw [State.skipBits_decoding, State.skipBits_skipBits] at hrest hloop
    rw [State.decoding_decoding] at hloop
    exact ⟨n + m, j, hrest, hreach.trans hloop⟩

/-- The loop over a body that ends before the sentinel: each symbol is sent, and the phase aborts at the end of the
stream (46_decompressor.md rule R232, 60_exceptions.md rule R273). -/
theorem State.AtHead.starves {bits : List Bool} {syms : List Sym} (hin : s.inBits = bits) (hst : T.Starves bits syms) :
    ∃ n, (s.skipBits n).inBits = [] ∧ Reaches s ((s.skipBits n).decoding 0 syms .start).truncatedBody := by
  induction hst generalizing s with
  | dry hsym => exact h.dry (hin ▸ hsym)
  | emit hsym hne _ ih =>
    obtain ⟨n, i, hleft, hreach⟩ := h.emit (hin ▸ hsym) hne
    obtain ⟨m, hdry, hloop⟩ := ih (h.decoding n i _) hleft
    rw [State.skipBits_decoding, State.skipBits_skipBits] at hdry hloop
    rw [State.decoding_decoding] at hloop
    exact ⟨n + m, hdry, hreach.trans hloop⟩

end

/-! ### The phase -/

section
variable {s : State} {T : CodeTree} {syms : List Sym} (h : s.Runs .decode) (hs : s.seq = .start)
  (hT : s.Represents s.root T) (hw : s.wcnt = 0) (h0 : s.wbuf = 0)
include h hs hT hw h0

/-- With a tree in node memory DECODE begins at the head of its loop (46_decompressor.md rule R232). -/
theorem State.Runs.decodeStart : (s.atSeq .symbol).AtHead T ∧ Reaches s (s.atSeq .symbol) := by
  refine ⟨⟨h.atSeq .symbol, rfl, hT.congr rfl rfl, hw, h0⟩, h.head ?_ (.refl _)⟩
  rw [phaseStep, h.phase]
  simp only [decodeStep, hs, if_neg hT.nodes_ne_zero]
  rfl

/-- DECODE and FLUSH as the last two phases of a command: one byte for each symbol, then `End` (46_decompressor.md rules
R232 to R234). -/
theorem State.Runs.decodeFlush {rest : List Bool} (hsp : T.Spells s.inBits syms rest)
    (hflush : phaseAfter .decode (phaseRow (cmdOp s.lastCmd)) = some .flush)
    (hlast : phaseAfter .flush (phaseRow (cmdOp s.lastCmd)) = none) :
    ∃ n, (s.skipBits n).inBits = rest ∧ Reaches s ((s.skipBits n).decoding 0 syms .start).outEnd.complete := by
  obtain ⟨hhead, hstart⟩ := h.decodeStart hs hT hw h0
  obtain ⟨n, i, hrest, hloop⟩ := hhead.spells rfl hsp
  rw [State.skipBits_atSeq] at hrest hloop
  have hwcnt : ((s.skipBits n).decoding i syms .phaseEnd).wcnt = 0 := (s.skipBits_wcnt n).trans hw
  have hcmd : ((s.skipBits n).decoding i syms .phaseEnd).lastCmd = s.lastCmd := s.skipBits_lastCmd n
  have hend := ((h.skipBits n).decoding i syms .phaseEnd).flushLast nofun rfl (by rwa [hcmd]) (by rwa [hcmd])
  rw [hwcnt] at hend
  exact ⟨n, hrest, hstart.trans (hloop.trans hend)⟩

/-- DECODE on a body that ends before the sentinel (60_exceptions.md rule R273). -/
theorem State.Runs.decodeDry (hst : T.Starves s.inBits syms) :
    ∃ n, (s.skipBits n).inBits = [] ∧ Reaches s ((s.skipBits n).decoding 0 syms .start).truncatedBody := by
  obtain ⟨hhead, hstart⟩ := h.decodeStart hs hT hw h0
  obtain ⟨n, hdry, hloop⟩ := hhead.starves rfl hst
  rw [State.skipBits_atSeq] at hdry hloop
  exact ⟨n, hdry, hstart.trans hloop⟩

end

/-! ### DECODE_BODY -/

theorem CodeTree.descend_length {T : CodeTree} {bits rest : List Bool} {sym : Sym}
    (h : T.descend bits = some (sym, rest)) : rest.length ≤ bits.length := by
  induction T generalizing bits with
  | leaf sym' =>
    cases h
    exact Nat.le_refl _
  | node l r ihl ihr =>
    rcases bits with _ | ⟨_ | _, bits⟩
    · cases h
    · exact Nat.le_succ_of_le (ihl h)
    · exact Nat.le_succ_of_le (ihr h)

/-- Every symbol of a body takes a bit or more (46_decompressor.md rules R232, R237). -/
theorem CodeTree.nextSym_length {T : CodeTree} {bits rest : List Bool} {sym : Sym}
    (h : T.nextSym bits = some (sym, rest)) : rest.length < bits.length := by
  rcases T with sym' | ⟨l, r⟩ <;> rcases bits with _ | ⟨b, bits⟩
  · cases h
  · cases h
    exact Nat.lt_succ_self _
  · cases h
  · cases b
    · exact Nat.lt_succ_of_le (CodeTree.descend_length (T := l) h)
    · exact Nat.lt_succ_of_le (CodeTree.descend_length (T := r) h)

theorem CodeTree.Spells.length_lt {T : CodeTree} {bits rest : List Bool} {syms : List Sym}
    (h : T.Spells bits syms rest) : rest.length < bits.length := by
  induction h with
  | stop hsym => exact CodeTree.nextSym_length hsym
  | emit hsym _ _ ih => exact ih.trans (CodeTree.nextSym_length hsym)

/-- With nothing counted before, OUT_BYTES counts the symbols (46_decompressor.md rule R233). -/
theorem State.decoding_eq {s : State} (h : s.outBytes = 0) (i : NodeIdx) (syms : List Sym) (q : Seq) :
    s.decoding i syms q = { s with
      outLog := s.outLog ++ syms.map fun sym => .byte (sym.setWidth 8)
      outBytes := BitVec.ofNat 32 syms.length
      cur := i, seq := q } := by
  rw [State.decoding, h, BitVec.ofNat_eq_ofNat, BitVec.zero_add]

/-- Settles O41: the start clears the writer and keeps the reader, DECODE sends the symbols and FLUSH has nothing to
pad. -/
theorem decodeBody : Obligations.DecodeBody := by
  intro s T syms rest hq hr hT hsp
  obtain ⟨n, hrest, hrun⟩ := (hq.runs 9).decodeFlush rfl (hT.congr rfl rfl) rfl rfl hsp rfl rfl
  have hn : n ≠ 0 := by
    rintro rfl
    exact (congrArg List.length hrest).not_gt hsp.length_lt
  have hbuf := State.rcnt_skipBits_le (s := s.accepted 9) hr hn
  obtain ⟨⟨m, r, c, he⟩, -⟩ := (s.accepted 9).skipBits_takes n
  rw [he] at hrest hrun hbuf
  have hbytes : (s.accepted 9).inBytes + BitVec.ofNat 32 m = BitVec.ofNat 32 (s.inPos + m - s.inPos) := by
    rw [Nat.add_sub_cancel_left]
    exact BitVec.zero_add _
  rw [hbytes, State.decoding_eq rfl] at hrun
  exact ⟨_, _, congrArg Host.Outcome.next (hq.accepts 9), hrun, rfl, hrest, hbuf, Nat.le_add_right _ _⟩

/-- Settles O42: DECODE sends the symbols, and the abort comes with every byte taken. -/
theorem truncatedBody : Obligations.TruncatedBody := by
  intro s T syms hq hr hT hst
  obtain ⟨n, hdry, hrun⟩ := (hq.runs 9).decodeDry rfl (hT.congr rfl rfl) rfl rfl hst
  obtain ⟨r, c, he⟩ := State.skipBits_dry hdry
  have hbytes : (s.accepted 9).inBytes + BitVec.ofNat 32 (s.accepted 9).inLeft.length =
      BitVec.ofNat 32 s.inLeft.length := BitVec.zero_add _
  rw [he, hbytes, State.decoding_eq rfl] at hrun
  exact ⟨_, congrArg Host.Outcome.next (hq.accepts 9), hrun⟩

end Sys2Proof.Machine
end

section
/-! SUPPORT. HDR_READ, DECODE and FLUSH in a row, and DECOMPRESS (46_decompressor.md rules R230 to R234), O45. -/

namespace Sys2Proof.Machine

section
variable {s u : State} {T : CodeTree} {rest : List Bool} (h : s.HeaderRead T rest u)
include h

/-- HDR_READ ends in its phase, and stays undisturbed. -/
theorem State.HeaderRead.runs (hs : s.Runs .hdrRead) : u.Runs .hdrRead := by
  obtain ⟨m, r, c, v, rfl⟩ := h.frame
  exact ⟨hs.outOfReset, hs.alone, hs.phase⟩

/-- The tree of the header stands at ROOT (44_header_codec.md rule R196). -/
theorem State.HeaderRead.represents (hroom : T.nodeCount ≤ 513) : u.Represents u.root T := by
  have hT := h.preOrder.represents (s := u) (i := 0)
  obtain ⟨m, r, c, v, rfl⟩ := h.frame
  exact hT (by rw [Nat.zero_add]; exact (CodeTree.toNat_nodeCount hroom).ge)

end

/-- HDR_READ, DECODE and FLUSH as the phases of DECOMPRESS (46_decompressor.md rules R230 to R234). -/
theorem State.HeaderRead.decompress {s u : State} {T : CodeTree} {body rest : List Bool} {syms : List Sym}
    (h : s.HeaderRead T body u) (hs : s.Runs .hdrRead) (hcmd : cmdOp s.lastCmd = 2) (hw : s.wcnt = 0) (h0 : s.wbuf = 0)
    (hroom : T.nodeCount ≤ 513) (hsp : T.Spells body syms rest) :
    ∃ n, ((u.enter .decode).skipBits n).inBits = rest ∧
      Reaches u (((u.enter .decode).skipBits n).decoding 0 syms .start).outEnd.complete := by
  have hruns := h.runs hs
  have hT := h.represents hroom
  obtain ⟨m, r, c, v, he⟩ := h.frame
  have hrow : phaseRow (cmdOp u.lastCmd) = [.hdrRead, .decode, .flush] := by
    rw [he]
    show phaseRow (cmdOp s.lastCmd) = _
    rw [hcmd]
    rfl
  have hnext := hruns.next (q := .decode) nofun (by rw [he]; rfl) (by rw [hrow]; rfl)
  obtain ⟨n, hrest, hdecode⟩ := (hruns.enter .decode).decodeFlush rfl (hT.congr rfl rfl) (by rw [he]; exact hw)
    (by rw [he]; exact h0) (h.stream.symm ▸ hsp) (by rw [State.enter_lastCmd, hrow]; rfl)
    (by rw [State.enter_lastCmd, hrow]; rfl)
  exact ⟨n, hrest, hnext.trans hdecode⟩

/-- Settles O45: HDR_READ rebuilds the tree and leaves the reader at the body, and DECODE sends the symbols that the
body spells on it. -/
theorem decompress : Obligations.Decompress := by
  intro s T body rest syms hq hroom hin hsp
  obtain ⟨u, hu, hheader⟩ := (hq.runs 2).hdrRead rfl (Nat.zero_le 7) hroom (hin.trans (List.append_assoc _ _ _))
  have hT := hu.represents hroom
  obtain ⟨n, hrest, hdecode⟩ := hu.decompress (hq.runs 2) rfl rfl rfl hroom hsp
  have hrun := hheader.trans hdecode
  have hbuf := ((u.enter .decode).skipBits_takes n).2 hu.buffer
  obtain ⟨⟨m', r', c', he⟩, -⟩ := (u.enter .decode).skipBits_takes n
  obtain ⟨m, r, c, v, hframe⟩ := hu.frame
  have hpos : u.inPos = s.inPos + m := by
    rw [hframe]
    rfl
  have hbytes : (u.enter .decode).inBytes + BitVec.ofNat 32 m' = BitVec.ofNat 32 (u.inPos + m' - s.inPos) := by
    rw [hpos, Nat.add_assoc, Nat.add_sub_cancel_left, BitVec.ofNat_add, hframe]
    exact congrArg (· + BitVec.ofNat 32 m') (BitVec.zero_add _)
  have hout : (u.enter .decode).outBytes = 0 := by
    rw [hframe]
    rfl
  rw [he, hbytes] at hrun hrest hbuf
  rw [State.decoding_eq (s := (u.enter .decode).withReader _ _ r' c') hout] at hrun
  subst hframe
  refine ⟨_, _, congrArg Host.Outcome.next (hq.accepts 2), hrun, rfl, hT.congr rfl rfl, hrest, hbuf, ?_⟩
  rw [hpos]
  exact (Nat.le_add_right _ _).trans (Nat.le_add_right _ _)

end Sys2Proof.Machine
end

section
/-! SUPPORT. The body of a stream spells its symbols, the input position along a run, and the round trip
(46_decompressor.md rules R231, R234), O46. -/

namespace Sys2Proof.Machine

/-! ### A tree and the bits of its codes -/

/-- A strictly binary tree of `L` leaves has `2 L - 1` nodes (42_tree_builder.md rule R162). -/
theorem CodeTree.nodeCount_succ (T : CodeTree) : T.nodeCount + 1 = 2 * T.paths.length := by
  induction T with
  | leaf sym => rfl
  | node l r ihl ihr =>
    simp only [CodeTree.nodeCount, CodeTree.paths, List.length_append, List.length_map]
    omega

/-- The bits of a leaf's path lead to the leaf (46_decompressor.md rule R232). -/
theorem CodeTree.descend_path {T : CodeTree} {e : Sym × List Bool} (he : e ∈ T.paths) (more : List Bool) :
    T.descend (e.2 ++ more) = some (e.1, more) := by
  induction T generalizing e with
  | leaf sym =>
    obtain rfl := List.mem_singleton.mp he
    rfl
  | node l r ihl ihr =>
    rcases List.mem_append.mp he with h | h <;> obtain ⟨f, hf, rfl⟩ := List.mem_map.mp h
    · exact ihl hf
    · exact ihr hf

/-- The bits of a symbol's code are its next symbol's (46_decompressor.md rules R232, R237). -/
theorem CodeTree.nextSym_code {T : CodeTree} {sym : Sym} (h : T.codeFor sym ≠ []) (more : List Bool) :
    T.nextSym (T.codeFor sym ++ more) = some (sym, more) := by
  have hmem := CodeTree.mem_codes_of_codeFor h
  cases T with
  | leaf sym' =>
    obtain ⟨rfl, hcode⟩ := Prod.mk.inj (List.mem_singleton.mp hmem)
    rw [hcode]
    rfl
  | node l r => exact CodeTree.descend_path hmem more

/-- The codes of symbols and the sentinel's spell the symbols (30_encoding.md rule R110,
46_decompressor.md rule R231). -/
theorem CodeTree.spells_codes {T : CodeTree} {syms : List Sym} (rest : List Bool)
    (hsyms : ∀ sym ∈ syms, T.codeFor sym ≠ [] ∧ sym ≠ 256) (heof : T.codeFor 256 ≠ []) :
    T.Spells (syms.flatMap T.codeFor ++ (T.codeFor 256 ++ rest)) syms rest := by
  induction syms with
  | nil => exact .stop (CodeTree.nextSym_code heof rest)
  | cons sym syms ih =>
    obtain ⟨⟨hcode, hne⟩, hsyms⟩ := List.forall_mem_cons.mp hsyms
    rw [List.flatMap_cons, List.append_assoc]
    exact .emit (CodeTree.nextSym_code hcode _) hne (ih hsyms)

/-! ### The input position along a run -/

/-- What every step keeps holds along a run. -/
theorem Reaches.keeps {P : State → Prop} (hstep : ∀ s t, P s → step s = .next t → P t) {s t : State}
    (h : Reaches s t) (hs : P s) : P t := by
  obtain ⟨n, hn⟩ := h
  induction n generalizing s with
  | zero =>
    cases hn
    exact hs
  | succ n ih =>
    simp only [Host.Core.run] at hn
    split at hn
    · exact ih (hstep _ _ hs ‹_›) hn
    · cases hn
    · cases hn

/-- After its first step the HDR_READ phase of DECOMPRESS holds the invariant of every run, whatever the tables held
before (44_header_codec.md rule R196). -/
theorem State.Quiet.hdrReadStart_inv {s : State} (hq : s.Quiet) (hpos : s.inPos ≤ s.inData.length) :
    (s.accepted 2).hdrReadStart.Inv where
  nodesBound := Nat.zero_le _
  readerBound := Nat.zero_le _
  writerBound := Nat.one_pos
  inPosBound := hpos
  oneOutcome := nofun
  busyClear := fun _ => ⟨rfl, rfl, rfl, rfl⟩
  doneClear := nofun
  errNamed := nofun
  idleRest := nofun
  errReserved := errReserved_zero
  errRange := errRange_zero
  seqFits := rfl
  rowFits := fun _ => by
    show Phase.hdrRead ∈ phaseRow (cmdOp (opWord 2))
    decide
  decodeAligned := fun _ => rfl
  mergeRoom := nofun
  magicRoom := fun k v h => by cases h; decide
  resetHeld := fun h => nomatch hq.outOfReset.symm.trans h

/-- DECOMPRESS never takes the input position past the end (20_memory.md rule R76). -/
theorem State.Quiet.inPos_le {s t : State} (hq : s.Quiet) (hpos : s.inPos ≤ s.inData.length)
    (h : Reaches (s.accepted 2) t) : t.inPos ≤ t.inData.length := by
  have hkept : t = s.accepted 2 ∨ t.Inv := by
    refine h.keeps (P := fun u => u = s.accepted 2 ∨ u.Inv) (fun u v hu hv => ?_) (.inl rfl)
    rcases hu with rfl | hi
    · have hfirst : step (s.accepted 2) = .next (s.accepted 2).hdrReadStart := by
        rw [step_alone (hq.runs 2).alone, blockStep_running (hq.runs 2).outOfReset]
        rfl
      obtain rfl : (s.accepted 2).hdrReadStart = v := Host.Outcome.next.inj (hfirst.symm.trans hv)
      exact .inr (hq.hdrReadStart_inv hpos)
    · exact .inr (hi.step hv)
  rcases hkept with rfl | hi
  · exact hpos
  · exact hi.inPosBound

/-! ### The round trip -/

/-- The symbols that COMPRESS counts have codes in the tree it leaves, which fits in node memory (42_tree_builder.md
rules R161, R162). -/
theorem CodeTree.of_counts {T : CodeTree} {t : State} {bytes : List Byte} (hfreq : t.freq = countsOf bytes 1)
    (hlen : bytes.length ≤ 0xFFFFFFFE) (hleaves : (T.paths.map Prod.fst).Perm (t.positives.map (BitVec.ofNat 9))) :
    T.nodeCount ≤ 513 ∧ (∀ b ∈ bytes, T.codeFor (b.setWidth 9) ≠ []) ∧ T.codeFor 256 ≠ [] := by
  obtain ⟨hbytes, heof⟩ := State.mem_positives_of_countsOf hfreq hlen
  have hcode : ∀ i ∈ t.positives, T.codeFor (BitVec.ofNat 9 i) ≠ [] := fun i hi =>
    CodeTree.codeFor_ne_nil (hleaves.mem_iff.mpr (List.mem_map_of_mem hi))
  refine ⟨?_, fun b hb => ?_, hcode 256 heof⟩
  · have hcount := T.nodeCount_succ
    have hpaths : T.paths.length = t.positives.length := by simpa using hleaves.length_eq
    have hpos : t.positives.length ≤ 257 := by
      simpa [State.positives] using List.length_filter_le (fun i => t.freqAt i != 0) (List.range 257)
    omega
  · have h := hcode b.toNat (hbytes b hb)
    rwa [BitVec.ofNat_toNat] at h

/-- A byte is not the sentinel, and comes back from its symbol (46_decompressor.md rule R233). -/
theorem sym_of_byte (b : Byte) : b.setWidth 9 ≠ (256 : Sym) ∧ (b.setWidth 9).setWidth 8 = b := by
  constructor
  · intro h
    have := congrArg BitVec.toNat h
    simp at this
    omega
  · simp

/-- Packed bits are followed by less than a byte of padding (30_encoding.md rule R111). -/
theorem byteBits_packBits_pad (bits : List Bool) :
    ∃ pad : List Bool, pad.length < 8 ∧ byteBits (packBits bits) = bits ++ pad := by
  refine ⟨padding bits.length, ?_, byteBits_packBits bits⟩
  rw [padding, List.length_replicate]
  omega

/-- The stream of an input on the tree `T`: the magic, `T`'s header and a body that spells the input, with less than a
byte of padding after it (30_encoding.md rules R105, R111). -/
theorem CodeTree.stream_spells {T : CodeTree} {input : List Byte} (magic : Word)
    (hcodes : ∀ b ∈ input, T.codeFor (b.setWidth 9) ≠ []) (heof : T.codeFor 256 ≠ []) :
    ∃ body pad, pad.length < 8 ∧ T.Spells body (input.map (BitVec.setWidth 9)) pad ∧
      byteBits (packBits (bitsOf 32 magic ++ T.header ++ input.flatMap (fun b => T.codeFor (b.setWidth 9)) ++
        T.codeFor 256)) = bitsOf 32 magic ++ T.header ++ body := by
  have hsyms : ∀ sym ∈ input.map (BitVec.setWidth 9), T.codeFor sym ≠ [] ∧ sym ≠ 256 := by
    intro sym hsym
    obtain ⟨b, hb, rfl⟩ := List.mem_map.mp hsym
    exact ⟨hcodes b hb, (sym_of_byte b).1⟩
  obtain ⟨pad, hpad, hpack⟩ := byteBits_packBits_pad
    (bitsOf 32 magic ++ T.header ++ input.flatMap (fun b => T.codeFor (b.setWidth 9)) ++ T.codeFor 256)
  refine ⟨_, pad, hpad, CodeTree.spells_codes pad hsyms heof, hpack.trans ?_⟩
  rw [List.flatMap_map, List.append_assoc, List.append_assoc _ (input.flatMap _)]

/-- With less than a byte of the stream to read, the input is taken. -/
theorem State.inPos_eq_length {s : State} (hpos : s.inPos ≤ s.inData.length) (h : s.inBits.length < 8) :
    s.inPos = s.inData.length := by
  have hleft := State.inLeft_length_of_inBits h
  rw [State.inLeft, List.length_drop] at hleft
  omega

/-- Settles O46: the stream that COMPRESS sends is the magic, the header of its tree and a body that spells the input on
it, and less than a byte of padding. -/
theorem roundTrip : Obligations.RoundTrip := by
  intro s hq hpos hlen
  obtain ⟨t₀, t, T, bytes, hexec, hreach, hbytes, ht, -, -, hleaves, -⟩ := compress s hq hpos hlen
  obtain ⟨hroom, hcodes, heof⟩ := CodeTree.of_counts (by rw [ht]) hlen hleaves
  refine ⟨t₀, t, bytes, hexec, hreach, ⟨by rw [ht]; rfl, by rw [ht]; rfl, by rw [ht]; rfl⟩, by rw [ht], ?_⟩
  intro u huq hmagic hdata hstart
  obtain ⟨body, pad, hpad, hsp, hstream⟩ := CodeTree.stream_spells u.magic hcodes heof
  rw [hmagic, ← hbytes, ← hmagic] at hstream
  have hleft : u.inLeft = bytes := by rw [State.inLeft, hstart, hdata, List.drop_zero]
  obtain ⟨v₀, v, hexec', hreach', hv, -, hrest, -, -⟩ :=
    decompress u T body pad _ huq hroom ((congrArg byteBits hleft).trans hstream) hsp
  have hend : v.inPos ≤ v.inData.length := by
    obtain rfl : v₀ = u.accepted 2 := by
      rw [show exec .decompress u = .next (u.accepted 2) from congrArg Host.Outcome.next (huq.accepts 2)] at hexec'
      exact (Host.Outcome.next.inj hexec').symm
    exact huq.inPos_le (by rw [hstart]; exact Nat.zero_le _) hreach'
  have htaken := State.inPos_eq_length hend (by rwa [hrest])
  refine ⟨v₀, v, hexec', hreach', ⟨by rw [hv]; rfl, by rw [hv]; rfl, by rw [hv]; rfl⟩, ?_, ?_⟩
  · have hlog : v.outLog = u.outLog ++
        (s.inData.map (BitVec.setWidth 9)).map (fun sym => .byte (sym.setWidth 8)) ++ [.close] := by rw [hv]
    rw [hlog, List.map_map]
    simp only [Function.comp_def, (sym_of_byte _).2]
  · rw [htaken, show v.inData = u.inData by rw [hv]; rfl, hdata]

end Sys2Proof.Machine
end

section
/-! SUPPORT. Two runs in step: HDR_READ of READ_HEADER and of DECOMPRESS, then DECODE of DECODE_BODY and of
DECOMPRESS, on any input (46_decompressor.md rule R236), O47. -/

namespace Sys2Proof.Machine

/-! ### A phase that ends -/

theorem State.phaseWrites_self (s : State) (p : Phase) : s.phaseWrites p s = s := by cases p <;> rfl

theorem State.phaseWrites_phaseWrites (s t u : State) (p : Phase) :
    (s.phaseWrites p t).phaseWrites p u = s.phaseWrites p u := by cases p <;> rfl

/-- A phase whose steps commute with the update `f` and bring down the measure `μ` ends, from `s` and from `f s` alike:
in an abort, or at the end of its rule with what the phase may write changed and nothing else. -/
theorem State.Runs.ends {p : Phase} {f : State → State} {μ : State → Nat} (hp : p ≠ .idle)
    (hf : ∀ s, s.Runs p → (f s).Runs p)
    (hstep : ∀ s, s.Runs p → seqFits p s.seq = true → s.seq ≠ .phaseEnd →
      ∃ t, phaseStep s = .next t ∧ phaseStep (f s) = .next (f t) ∧ (t.phase = p → μ t < μ s))
    {s : State} (h : s.Runs p) (hs : seqFits p s.seq = true) :
    ∃ u, Reaches s u ∧ Reaches (f s) (f u) ∧ ((u.phase = .idle ∧ u.err = true) ∨
      (u.Runs p ∧ u.seq = .phaseEnd ∧ u = s.phaseWrites p u)) := by
  induction hμ : μ s using Nat.strong_induction_on generalizing s with
  | _ k ih =>
    by_cases hend : s.seq = .phaseEnd
    · exact ⟨s, .refl s, .refl _, .inr ⟨h, hend, (s.phaseWrites_self p).symm⟩⟩
    · obtain ⟨t, ht, hft, hlt⟩ := hstep s h hs hend
      have hmove := phaseStep_move (h.phase ▸ hp) ht
      rw [h.phase] at hmove
      rcases hmove with ⟨hend', -⟩ | hturn | ⟨u, e, info, nbits, -, -, -, rfl⟩
      · exact absurd hend' hend
      · have hwrites := hturn.writes
        have hphase : t.phase = p := by rw [hwrites, State.phaseWrites_phase, h.phase]
        have hruns : t.Runs p := ⟨by rw [hwrites, State.phaseWrites_rstN, h.outOfReset],
          by rw [hwrites, State.phaseWrites_agenda, h.alone], hphase⟩
        obtain ⟨u, hu, hfu, hcase⟩ := ih _ (hμ ▸ hlt hphase) hruns hturn.fits rfl
        refine ⟨u, h.head ht hu, (hf s h).head hft hfu, hcase.imp_right fun ⟨hr, hq, he⟩ => ⟨hr, hq, ?_⟩⟩
        rw [hwrites, State.phaseWrites_phaseWrites] at he
        exact he
      · exact ⟨_, h.head ht (.refl _), (hf s h).head hft (.refl _), .inl ⟨rfl, rfl⟩⟩

/-! ### The header -/

/-- `s` in the run of DECOMPRESS, whose start clears the writer (47_control.md rule R252). -/
def State.asDecompress (s : State) : State := { s with lastCmd := opWord 2, wbuf := 0, wcnt := 0 }

theorem State.unread_asDecompress : Unread State.asDecompress :=
  .of (fun _ => rfl) (fun _ => rfl) (fun _ => rfl) (fun _ => rfl) (fun _ _ _ _ => rfl) fun _ _ _ _ => rfl

section
variable (s : State)

theorem State.magicBit_asDecompress (k : Nat) (v : Word) :
    s.asDecompress.magicBit k v = (s.magicBit k v).asDecompress := by
  unfold State.magicBit
  rw [State.unread_asDecompress s]
  rcases s.readBit with ⟨_ | b, t⟩
  · rfl
  · simp only [show t.asDecompress.magic = t.magic from rfl]
    split
    · rfl
    · split <;> rfl

theorem State.tokenBit_asDecompress (bits : List Bool) (slots : List Slot) :
    s.asDecompress.tokenBit bits slots = (s.tokenBit bits slots).asDecompress := by
  unfold State.tokenBit
  rw [State.unread_asDecompress s]
  rcases s.readBit with ⟨_ | b, t⟩ <;> rfl

theorem State.linkChild_asDecompress (i : NodeIdx) (o : Option Slot) :
    s.asDecompress.linkChild i o = (s.linkChild i o).asDecompress := by
  rcases o with _ | ⟨p, _ | _⟩ <;> rfl

theorem State.afterToken_asDecompress (slots : List Slot) :
    s.asDecompress.afterToken slots = (s.afterToken slots).asDecompress := by
  cases slots <;> rfl

theorem State.headerNode_asDecompress (n : Node) (opens : NodeIdx → List Slot) :
    s.asDecompress.headerNode n opens = (s.headerNode n opens).asDecompress := by
  unfold State.headerNode
  rw [show s.asDecompress.nodes = s.nodes from rfl, show s.asDecompress.pendingSlots = s.pendingSlots from rfl,
    show s.asDecompress.allocNode n = (s.allocNode n).asDecompress from rfl, State.linkChild_asDecompress,
    State.afterToken_asDecompress]
  split <;> rfl

end

/-- A complete token makes a node (44_header_codec.md rule R196). -/
theorem exec_eq_headerNode {bits rest : List Bool} {i : Instr} (h : decodeToken bits = .ok (i, rest)) :
    ∃ n opens, ∀ s, exec i s = .next (s.headerNode n opens) := by
  unfold decodeToken at h
  split at h
  · cases h
    exact ⟨_, _, fun _ => rfl⟩
  · cases h
    exact ⟨_, _, fun _ => rfl⟩
  · cases h

/-- The sequencer's part in the measure of HDR_READ: the start and a token's node come before the next bit. -/
def Seq.headerRank : Seq → Nat
  | .start => 1
  | .token bits _ => min 1 bits.length
  | _ => 0

/-- What the steps of HDR_READ bring down: the bits still to read, each one before the node it may complete. -/
def State.headerMeasure (s : State) : Nat := 2 * s.inBits.length + s.seq.headerRank

/-- A bit of the magic is read, or the phase aborts. -/
theorem State.headerMeasure_magicBit {s : State} {k : Nat} {v : Word} (h : (s.magicBit k v).phase = .hdrRead) :
    (s.magicBit k v).headerMeasure < 2 * s.inBits.length := by
  rcases s.readBit_cases with ⟨hin, hr⟩ | ⟨b, hin, hr⟩
  · simp only [State.magicBit, hr] at h
    cases h
  · rw [hin, List.length_cons]
    rcases s.magicBit_cases k v with ⟨t, hr', -⟩ | ⟨b', t, hr', ⟨-, he⟩ | ⟨-, -, he⟩ | ⟨-, -, he⟩⟩
    · cases hr.symm.trans hr'
    all_goals
      obtain rfl : s.skipBits 1 = t := congrArg Prod.snd (hr.symm.trans hr')
      rw [he] at h ⊢
    · exact Nat.lt_succ_of_lt (Nat.lt_succ_self _)
    · exact Nat.lt_succ_of_lt (Nat.lt_succ_self _)
    · cases h

/-- A bit of a token is read, or the phase aborts. -/
theorem State.headerMeasure_tokenBit {s : State} {bits : List Bool} {slots : List Slot}
    (h : (s.tokenBit bits slots).phase = .hdrRead) : (s.tokenBit bits slots).headerMeasure < 2 * s.inBits.length := by
  rcases s.readBit_cases with ⟨hin, hr⟩ | ⟨b, hin, hr⟩
  · simp only [State.tokenBit, hr] at h
    cases h
  · have hrank : min 1 (bits ++ [b]).length ≤ 1 := Nat.min_le_left _ _
    simp only [State.tokenBit, hr, hin, List.length_cons, State.headerMeasure, Seq.headerRank]
    rw [show State.inBits { s.skipBits 1 with seq := .token (bits ++ [b]) slots } = (s.skipBits 1).inBits from rfl]
    omega

/-- A token's node takes no bit, and the next token has none yet. -/
theorem State.headerMeasure_headerNode {s : State} {n : Node} {opens : NodeIdx → List Slot}
    (h : (s.headerNode n opens).phase = .hdrRead) : (s.headerNode n opens).headerMeasure = 2 * s.inBits.length := by
  rcases s.headerNode_cases n opens with ⟨-, he⟩ | ⟨-, he⟩ <;> rw [he] at h ⊢
  · cases h
  · obtain ⟨v, hv⟩ := (s.allocNode n).linkChild_frame s.nodes s.pendingSlots.head?
    rw [hv]
    rcases State.afterToken_cases { s.allocNode n with node := v } (opens s.nodes ++ s.pendingSlots.tail) with
      ⟨-, he⟩ | ⟨-, he⟩ <;> rw [he] <;> rfl

/-- A step of HDR_READ is the same step in the run of DECOMPRESS, and brings down the measure. -/
theorem State.Runs.headerStep {s : State} (h : s.Runs .hdrRead) (hfits : seqFits .hdrRead s.seq = true)
    (hend : s.seq ≠ .phaseEnd) :
    ∃ t, phaseStep s = .next t ∧ phaseStep s.asDecompress = .next t.asDecompress ∧
      (t.phase = .hdrRead → t.headerMeasure < s.headerMeasure) := by
  have hphase : s.asDecompress.phase = .hdrRead := h.phase
  have hseq : s.asDecompress.seq = s.seq := rfl
  simp only [phaseStep, h.phase, hphase, hdrReadStep, hseq]
  rw [State.headerMeasure.eq_def s]
  cases hs : s.seq with
  | start => exact ⟨_, rfl, rfl, fun _ => Nat.lt_succ_self _⟩
  | magicIn k v =>
    exact ⟨_, rfl, congrArg _ (s.magicBit_asDecompress k v), State.headerMeasure_magicBit⟩
  | token bits slots =>
    dsimp only
    cases htok : decodeToken bits with
    | error e =>
      exact ⟨_, rfl, congrArg _ (s.tokenBit_asDecompress bits slots), fun ht =>
        (State.headerMeasure_tokenBit ht).trans_le (Nat.le_add_right _ _)⟩
    | ok r =>
      obtain ⟨n, opens, hexec⟩ := exec_eq_headerNode htok
      have hpos : 0 < bits.length := List.length_pos_iff.mpr fun hnil => by rw [hnil] at htok; cases htok
      refine ⟨_, hexec s, (hexec _).trans (congrArg _ (s.headerNode_asDecompress n opens)), fun ht => ?_⟩
      rw [State.headerMeasure_headerNode ht, Seq.headerRank]
      omega
  | phaseEnd => exact absurd hs hend
  | _ =>
    rw [hs] at hfits
    cases hfits

/-! ### The body -/

/-- `s` in the run of DECOMPRESS, which has taken `n` bytes before. -/
def State.resumed (s : State) (n : Word) : State := { s with lastCmd := opWord 2, inBytes := n + s.inBytes }

theorem State.unread_resumed (n : Word) : Unread (·.resumed n) := by
  refine .of (fun _ => rfl) (fun _ => rfl) (fun _ => rfl) (fun _ => rfl) (fun _ _ _ _ => rfl) fun s p r c => ?_
  simp [State.resumed, State.withReader, BitVec.add_assoc]

section
variable (s : State) (n : Word)

theorem State.writeList_resumed (bits : List Bool) : (s.resumed n).writeList bits = (s.writeList bits).resumed n :=
  s.writeList_comm bits (f := (·.resumed n)) fun s b => by
    unfold State.writeBit State.resumed
    dsimp only
    split <;> rfl

theorem State.decodeSymbol_resumed : (s.resumed n).decodeSymbol = s.decodeSymbol.resumed n := by
  rw [State.decodeSymbol_eq, State.decodeSymbol_eq, State.unread_resumed n s,
    show (s.resumed n).nodeAt (s.resumed n).root = s.nodeAt s.root from rfl]
  split
  · rcases s.readBit with ⟨_ | b, t⟩ <;> rfl
  · rfl

theorem State.decodeDescend_resumed : (s.resumed n).decodeDescend = s.decodeDescend.resumed n := by
  have hread := State.unread_resumed n s
  unfold State.decodeDescend
  dsimp only at hread ⊢
  rw [hread, show (s.resumed n).nodeAt (s.resumed n).cur = s.nodeAt s.cur from rfl,
    show (s.resumed n).writeBits 8 (s.nodeAt s.cur).sym = _ from s.writeList_resumed n _, ← State.writeBits]
  generalize s.writeBits 8 _ = w
  split
  · split <;> rfl
  · rcases s.readBit with ⟨_ | b, t⟩ <;> rfl

end

/-- How far DECODE is from its next read of a bit: at a leaf its symbol comes before it, and then the head of the
loop. -/
def State.decodeRank (s : State) : Nat :=
  match s.seq with
  | .start => 2
  | .symbol => 1
  | .descend => if (s.nodeAt s.cur).leaf then 2 else 0
  | _ => 0

theorem State.decodeRank_le (s : State) : s.decodeRank ≤ 2 := by
  unfold State.decodeRank
  split
  · exact Nat.le_refl 2
  · exact Nat.le_succ 1
  · split
    · exact Nat.le_refl 2
    · exact Nat.zero_le 2
  · exact Nat.zero_le 2

/-- What the steps of DECODE bring down: the bits still to read, each one before the symbol it may complete. -/
def State.decodeMeasure (s : State) : Nat := 3 * s.inBits.length + s.decodeRank

/-- A bit taken brings the measure down. -/
theorem State.decodeMeasure_skipBit {s : State} {b : Bool} (hin : s.inBits = b :: (s.skipBits 1).inBits) (i : NodeIdx) :
    ((s.skipBits 1).atNode i).decodeMeasure < 3 * s.inBits.length := by
  have hrank := ((s.skipBits 1).atNode i).decodeRank_le
  rw [hin, List.length_cons, State.decodeMeasure,
    show ((s.skipBits 1).atNode i).inBits = (s.skipBits 1).inBits from rfl]
  omega

theorem State.decodeMeasure_symbol {s : State} (hs : s.seq = .symbol) (h : s.decodeSymbol.phase = .decode) :
    s.decodeSymbol.decodeMeasure < s.decodeMeasure := by
  rw [State.decodeMeasure.eq_def s, State.decodeRank, hs]
  rcases s.decodeSymbol_cases with ⟨hf, he⟩ | ⟨-, -, he⟩ | ⟨b, -, hin, he⟩ <;> rw [he] at h ⊢
  · have hrank : (s.atNode s.root).decodeRank = 0 := if_neg (Bool.eq_false_iff.mp hf)
    rw [State.decodeMeasure, hrank]
    exact Nat.lt_succ_self _
  · cases h
  · exact (State.decodeMeasure_skipBit hin _).trans_le (Nat.le_add_right _ _)

theorem State.decodeMeasure_descend {s : State} (hs : s.seq = .descend) (h : s.decodeDescend.phase = .decode) :
    s.decodeDescend.decodeMeasure < s.decodeMeasure := by
  rw [State.decodeMeasure.eq_def s, State.decodeRank, hs]
  rcases State.decodeDescend_cases hs with ⟨hl, -, he⟩ | ⟨hl, -, he⟩ | ⟨-, -, he⟩ | ⟨b, -, hin, he⟩ <;> rw [he] at h ⊢
  · simp only [if_pos hl]
    exact Nat.lt_add_of_pos_right Nat.two_pos
  · obtain ⟨bytes, w, c, hw, -⟩ := s.writeList_eq (bitsOf 8 (s.nodeAt s.cur).sym)
    simp only [if_pos hl]
    rw [State.writeBits, hw]
    exact Nat.lt_succ_self _
  · cases h
  · exact (State.decodeMeasure_skipBit hin _).trans_le (Nat.le_add_right _ _)

/-- A step of DECODE is the same step in the run of DECOMPRESS, and brings down the measure. -/
theorem State.Runs.bodyStep {s : State} (n : Word) (h : s.Runs .decode) (hfits : seqFits .decode s.seq = true)
    (hend : s.seq ≠ .phaseEnd) :
    ∃ t, phaseStep s = .next t ∧ phaseStep (s.resumed n) = .next (t.resumed n) ∧
      (t.phase = .decode → t.decodeMeasure < s.decodeMeasure) := by
  have hphase : (s.resumed n).phase = .decode := h.phase
  have hseq : (s.resumed n).seq = s.seq := rfl
  simp only [phaseStep, h.phase, hphase, decodeStep, hseq]
  cases hs : s.seq with
  | start =>
    rw [show (s.resumed n).nodes = s.nodes from rfl]
    by_cases hn : s.nodes = 0
    · simp only [if_pos hn]
      exact ⟨_, rfl, rfl, nofun⟩
    · simp only [if_neg hn]
      refine ⟨_, rfl, rfl, fun _ => ?_⟩
      rw [State.decodeMeasure.eq_def s, State.decodeRank, hs]
      exact Nat.lt_succ_self _
  | symbol => exact ⟨_, rfl, congrArg _ (s.decodeSymbol_resumed n), State.decodeMeasure_symbol hs⟩
  | descend => exact ⟨_, rfl, congrArg _ (s.decodeDescend_resumed n), State.decodeMeasure_descend hs⟩
  | phaseEnd => exact absurd hs hend
  | _ =>
    rw [hs] at hfits
    cases hfits

/-- DECODE and FLUSH as the last two phases of DECODE_BODY, and of DECOMPRESS in step (46_decompressor.md rule R236). -/
theorem State.Runs.bodyEnds {s : State} (n : Word) (h : s.Runs .decode) (hs : s.seq = .start)
    (hcmd : s.lastCmd = opWord 9) :
    ∃ u, Reaches s u ∧ Reaches (s.resumed n) (u.resumed n) ∧ u.phase = .idle := by
  obtain ⟨u, hu, hru, ⟨hidle, -⟩ | ⟨hruns, hend, hwrites⟩⟩ := State.Runs.ends (p := .decode) (f := (·.resumed n))
    (μ := State.decodeMeasure) nofun (fun s h => ⟨h.outOfReset, h.alone, h.phase⟩) (fun s h => h.bodyStep n) h
    (by rw [hs]; rfl)
  · exact ⟨u, hu, hru, hidle⟩
  · have hrow : phaseRow (cmdOp u.lastCmd) = [.decode, .flush] := by
      rw [hwrites, State.phaseWrites_lastCmd, hcmd]
      rfl
    have hruns' : (u.resumed n).Runs .decode := ⟨hruns.outOfReset, hruns.alone, hruns.phase⟩
    have hflush := hruns.flushLast nofun hend (by rw [hrow]; rfl) (by rw [hrow]; rfl)
    have hflush' := hruns'.flushLast nofun hend rfl rfl
    rw [State.writeList_resumed] at hflush'
    exact ⟨_, hu.trans hflush, hru.trans hflush', rfl⟩

/-! ### The two commands and the one -/

/-- The phases of READ_HEADER and of DECOMPRESS begin alike (47_control.md rule R252). -/
theorem State.accepted_asDecompress (s : State) : (s.accepted 8).asDecompress = s.accepted 2 := by
  rw [State.accepted, State.accepted, State.commandStart_eq, State.commandStart_eq]
  rfl

/-- DECODE_BODY after the header begins like DECODE of DECOMPRESS, but for the bytes counted (47_control.md rules R251,
R252). -/
theorem State.accepted_resumed {s u : State} (h : u = (s.accepted 8).phaseWrites .hdrRead u) :
    (u.complete.accepted 9).resumed u.inBytes = u.asDecompress.enter .decode := by
  have hcount : u.inBytes + 0 = u.inBytes := BitVec.add_zero _
  have hstart : (u.complete.accepted 9).resumed u.inBytes =
      { u.asDecompress.enter .decode with inBytes := u.inBytes + 0 } := by
    rw [h]
    rfl
  rw [hstart, hcount]
  rfl

/-- Settles O47: HDR_READ goes step by step with the same phase of DECOMPRESS, and after it DECODE and FLUSH do. -/
theorem splitDecompress : Obligations.SplitDecompress := by
  intro s hq
  obtain ⟨u, hu, hru, hcase⟩ := State.Runs.ends (p := .hdrRead) (f := State.asDecompress) (μ := State.headerMeasure)
    nofun (fun s h => ⟨h.outOfReset, h.alone, h.phase⟩) (fun s h => h.headerStep) (hq.runs 8) rfl
  rw [State.accepted_asDecompress] at hru
  have hexec : exec .decompress s = .next (s.accepted 2) := congrArg Host.Outcome.next (hq.accepts 2)
  have hexec' : exec .readHeader s = .next (s.accepted 8) := congrArg Host.Outcome.next (hq.accepts 8)
  rcases hcase with ⟨hidle, herr⟩ | ⟨hruns, hend, hwrites⟩
  · exact ⟨_, _, _, _, hexec, hru, hidle, hexec', hu, hidle, .inl ⟨herr, herr, rfl, rfl, rfl, rfl⟩⟩
  · have hcmd : u.lastCmd = opWord 8 := by
      rw [hwrites, State.phaseWrites_lastCmd]
      rfl
    have herr : u.err = false := by
      rw [hwrites, State.phaseWrites_err]
      rfl
    have hdone := hruns.complete nofun hend (by rw [hcmd]; rfl)
    have hruns' : u.asDecompress.Runs .hdrRead := ⟨hruns.outOfReset, hruns.alone, hruns.phase⟩
    have hnext := hruns'.next (q := .decode) nofun hend rfl
    have hq' : u.complete.Quiet := ⟨hruns.outOfReset, rfl, hruns.alone⟩
    obtain ⟨v, hv, hrv, hidle⟩ := (hq'.runs 9).bodyEnds u.inBytes rfl rfl
    rw [State.accepted_resumed hwrites] at hrv
    exact ⟨_, _, _, _, hexec, hru.trans (hnext.trans hrv), hidle, hexec', hu.trans hdone, rfl, .inr ⟨⟨rfl, rfl, herr⟩,
      _, v, congrArg Host.Outcome.next (hq'.accepts 9), hv, hidle, rfl, rfl, rfl, rfl, rfl, rfl, rfl, rfl, rfl, rfl⟩⟩

end Sys2Proof.Machine
end

section
/-! SUPPORT. What a CMD word does, for all the rows of its kind at once (47_control.md rules R250 to R254): O4, O5, O6 and
O7. -/

namespace Sys2Proof.Machine

/-! ### The acceptance of a CMD word -/

/-- What becomes of a word once LAST_CMD holds it: IllegalCommand, NOP, or the start of a command (47_control.md rule
R250). -/
def State.accept (s : State) (w : Word) : State :=
  if w.extractLsb' 4 28 ≠ 0 ∨ 0xA ≤ (w.extractLsb' 0 4).toNat then s.illegalCommand w
  else if w.extractLsb' 0 4 = 0 then s
  else s.commandStart (w.extractLsb' 0 4)

/-- The reserved bits of a CMD word made of its two fields (30_encoding.md rule R100). -/
theorem reservedBits_append (reserved : BitVec 28) (op : BitVec 4) : (reserved ++ op).extractLsb' 4 28 = reserved := by
  rw [BitVec.extractLsb'_append_eq_of_le (Nat.le_refl 4), Nat.sub_self, BitVec.extractLsb'_eq_self]

/-- An instruction that stands in a CMD word does what the acceptance of its word does, or sets OVERRUN: the words of the
illegal rows have a reserved bit or an OP from 0xA on, those of the others have neither (47_control.md rules R250,
R254, R256). -/
theorem exec_cmdWord {i : Instr} {w : Word} (hwf : i.wellFormed = true) (henc : encode i = .cmdWord w) (s : State) :
    exec i s = .next (s.cmdWrite w fun t => t.accept w) := by
  have hillegal : (w.extractLsb' 4 28 ≠ 0 ∨ 0xA ≤ (w.extractLsb' 0 4).toNat) →
      s.cmdWrite w (fun t => t.illegalCommand w) = s.cmdWrite w fun t => t.accept w := fun h =>
    congrArg (s.cmdWrite w) (funext fun _ => (if_pos h).symm)
  have hAB : ∀ low : BitVec 1, 0xA ≤ ((opWord (0b101#3 ++ low)).extractLsb' 0 4).toNat := by decide
  have hCF : ∀ low : BitVec 2, 0xA ≤ ((opWord (0b11#2 ++ low)).extractLsb' 0 4).toNat := by decide
  cases i with
  | softReset | hdrInternal | hdrLeaf => cases henc
  | illegalOpAB low => cases henc; exact congrArg Host.Outcome.next (hillegal (.inr (hAB low)))
  | illegalOpCF low => cases henc; exact congrArg Host.Outcome.next (hillegal (.inr (hCF low)))
  | illegalReservedBits reserved op =>
    cases henc
    have hr : reserved ≠ 0#28 := by simpa [Instr.wellFormed] using hwf
    exact congrArg Host.Outcome.next (hillegal (.inl (by rwa [reservedBits_append])))
  | _ => cases henc; rfl

/-- While BUSY = 1 it sets OVERRUN and nothing else (47_control.md rule R256). -/
theorem exec_cmdWord_busy {i : Instr} {w : Word} (hwf : i.wellFormed = true) (henc : encode i = .cmdWord w) {s : State}
    (hp : s.phase ≠ .idle) : exec i s = .next { s with overrun := true } := by
  rw [exec_cmdWord hwf henc, State.cmdWrite_busy (State.busy_eq_true.mpr hp)]

/-- While BUSY = 0 the word is latched and accepted (47_control.md rule R250). -/
theorem exec_cmdWord_idle {i : Instr} {w : Word} (hwf : i.wellFormed = true) (henc : encode i = .cmdWord w) {s : State}
    (hp : s.phase = .idle) : exec i s = .next (({ s with lastCmd := w } : State).accept w) := by
  rw [exec_cmdWord hwf henc, State.cmdWrite_idle (State.busy_eq_false.mpr hp)]

/-- Settles O4: the decoded word is an instruction whose word it is. -/
theorem commandWord : Obligations.CommandWord := by
  intro w s
  obtain ⟨hwf, henc⟩ := encode_decodeCmd w
  exact ⟨exec_cmdWord_busy hwf henc, exec_cmdWord_idle hwf henc⟩

/-- Settles O6: the word of NOP is 0, and its acceptance changes nothing more. -/
theorem nopCommand : Obligations.NopCommand :=
  fun _ => ⟨exec_cmdWord_idle (i := .nop) rfl rfl, exec_cmdWord_busy (i := .nop) rfl rfl⟩

/-! ### The start of a command -/

/-- A word with a command's OP is accepted as that command's start (47_control.md rules R250, R251). -/
theorem State.accept_command {w : Word} (hres : w.extractLsb' 4 28 = 0) (hop : cmdOp w ≠ 0) (hcmd : (cmdOp w).toNat < 0xA)
    (s : State) : s.accept w = s.commandStart (cmdOp w) := by
  rw [State.accept, ← cmdOp, if_neg (not_or_intro (not_not_intro hres) (Nat.not_le_of_lt hcmd)), if_neg hop]

/-- Settles O5: each row's word is accepted as the start of its OP, whose clearings and first phase are those of the
row. -/
theorem commandStart : Obligations.CommandStart := by
  intro row hrow s hp
  have hword : row.1.wellFormed = true ∧ encode row.1 = .cmdWord row.2.1 ∧ row.2.1.extractLsb' 4 28 = 0 ∧
      cmdOp row.2.1 ≠ 0 ∧ (cmdOp row.2.1).toNat < 0xA := by
    revert row; decide
  have htables : (phaseRow (cmdOp row.2.1)).headD .idle = row.2.2.1 ∧ clearsReader (cmdOp row.2.1) = row.2.2.2.1 ∧
      clearsWriter (cmdOp row.2.1) = row.2.2.2.2 := by
    revert row; decide
  obtain ⟨hwf, henc, hres, hop, hcmd⟩ := hword
  obtain ⟨hfirst, hreader, hwriter⟩ := htables
  rw [exec_cmdWord_idle hwf henc hp, State.accept_command hres hop hcmd, State.commandStart_eq, hfirst, hreader, hwriter]

/-! ### IllegalCommand -/

/-- The abort of an illegal word, field by field (47_control.md rule R254; 60_exceptions.md rule R280). -/
theorem State.illegalCommand_eq (s : State) (w : Word) :
    s.illegalCommand w = { s with
      done := false, err := true, errCode := 5, errInfo := w, inBytes := 0, outBytes := 0
      rbuf := 0, rcnt := 0, wbuf := 0, wcnt := 0, cur := 0, pq := [], phase := .idle, seq := .start } := rfl

/-- Settles O7: each row's meaning is the abort with the row's word, and PHASE is IDLE already. -/
theorem illegalCommand : Obligations.IllegalCommand := by
  intro s i w hp hi
  have hAB : ∀ low : BitVec 1, opWord (0b101#3 ++ low) = 0x5#31 ++ low := by decide
  have hCF : ∀ low : BitVec 2, opWord (0b11#2 ++ low) = 0x3#30 ++ low := by decide
  have hexec : exec i s = .next (s.cmdWrite w fun t => t.illegalCommand w) := by
    rcases hi with ⟨low, rfl, rfl⟩ | ⟨low, rfl, rfl⟩ | ⟨reserved, op, -, rfl, rfl⟩
    · rw [← hAB]; rfl
    · rw [← hCF]; rfl
    · rfl
  rw [hexec, State.cmdWrite_idle (State.busy_eq_false.mpr hp), State.illegalCommand_eq, ← hp]

end Sys2Proof.Machine
end

section
/-! SUPPORT. The writes of each register while BUSY = 1 (47_control.md rule R256) and the soft reset (rule R258): O8 and
O9. -/

namespace Sys2Proof.Machine

/-- A CMD write while BUSY = 1 sets OVERRUN (47_control.md rule R256). -/
theorem csrWrite_cmd_busy {s : State} (hp : s.phase ≠ .idle) (v : Word) :
    csrWrite .cmd v s = .next { s with overrun := true } :=
  (commandWord v s).1 hp

/-- A write of FREQ_DATA while BUSY = 1 is lost and sets OVERRUN (10_state.md rule R38). -/
theorem State.writeFreqData_busy {s : State} (hp : s.phase ≠ .idle) (v : Word) :
    s.writeFreqData v = { s with overrun := true } :=
  if_pos (State.busy_eq_true.mpr hp)

/-- A CTRL write with bit 0 set is the soft reset (47_control.md rule R258). -/
theorem csrWrite_ctrl_reset {v : Word} (h : v.getLsbD 0 = true) (s : State) :
    csrWrite .ctrl v s = .next s.resetBlock := by
  rw [csrWrite, decodeCtrl, h]
  rfl

/-- A CTRL write with bit 0 clear does nothing (30_encoding.md rule R104). -/
theorem csrWrite_ctrl_nothing {v : Word} (h : v.getLsbD 0 = false) (s : State) : csrWrite .ctrl v s = .next s := by
  rw [csrWrite, decodeCtrl, h]
  rfl

/-- Settles O8: CMD and FREQ_DATA ask for BUSY = 0, CTRL for its bit 0, and the other registers are written at once or
never. -/
theorem busyWrites : Obligations.BusyWrites := by
  intro s v hp
  refine ⟨csrWrite_cmd_busy hp v, congrArg Host.Outcome.next (State.writeFreqData_busy hp v), rfl, rfl, rfl, rfl, rfl,
    fun h => csrWrite_ctrl_reset h s, fun h => csrWrite_ctrl_nothing h s, fun r hr => csrWrite_readOnly ?_ v s⟩
  revert r
  decide

/-- `ResetBlock()` leaves the block in its reset state, whatever it was in (10_state.md rule R69): every register and
every table is that of the state after reset, but for MAGIC, which stays. -/
theorem State.resetBlock_atReset (s : State) : s.resetBlock.AtReset := by
  have h : State.reset.AtReset := resetState.1
  exact { h with
    registers := fun r => by
      have hr := h.registers r
      cases r with
      | magic => rfl
      | _ => exact hr }

/-- Settles O9: the soft reset is `ResetBlock()`, which leaves MAGIC and the host's side alone. -/
theorem softReset : Obligations.SoftReset :=
  ⟨fun _ s => ⟨s.resetBlock, rfl, s.resetBlock_atReset, rfl, rfl, rfl, rfl, rfl⟩, fun _ s h => csrWrite_ctrl_nothing h s⟩

end Sys2Proof.Machine
end

section
/-! SUPPORT. The registers that the host may write while BUSY = 1 are none that a step of the block reads (47_control.md
rule R256; 20_memory.md rule R88): O53. -/

namespace Sys2Proof.Machine

/-! ### The host's registers as an update -/

/-- `s` with OVERRUN, IRQ_EN and the index registers of `h`. -/
def State.withHost (s h : State) : State :=
  { s with overrun := h.overrun, irqEn := h.irqEn, freqIdx := h.freqIdx, codeIdx := h.codeIdx, nodeIdx := h.nodeIdx }

/-- The same in the next state of an answer. -/
def Answer.withHost (h : State) : Answer → Answer
  | .next t => .next (t.withHost h)
  | .fault r => .fault r
  | .refused r => .refused r

/-- `ReadBits` under an update that the bit reader does not see (40_bitio.md rule R132). -/
theorem Unread.readBitsFrom {f : State → State} (hf : Unread f) (n k : Nat) (v : Word) (s : State) :
    readBitsFrom n k v (f s) = ((readBitsFrom n k v s).1, f (readBitsFrom n k v s).2) := by
  induction n generalizing k v s with
  | zero => rfl
  | succ n ih =>
    unfold Machine.readBitsFrom
    rw [hf s]
    rcases s.readBit with ⟨_ | b, t⟩
    · rfl
    · exact ih _ _ t

section
variable (s h : State)

@[simp] theorem State.withHost_rstN : (s.withHost h).rstN = s.rstN := rfl
@[simp] theorem State.withHost_phase : (s.withHost h).phase = s.phase := rfl
@[simp] theorem State.withHost_lastCmd : (s.withHost h).lastCmd = s.lastCmd := rfl
@[simp] theorem State.withHost_seq : (s.withHost h).seq = s.seq := rfl
@[simp] theorem State.withHost_magic : (s.withHost h).magic = s.magic := rfl
@[simp] theorem State.withHost_root : (s.withHost h).root = s.root := rfl
@[simp] theorem State.withHost_nodes : (s.withHost h).nodes = s.nodes := rfl
@[simp] theorem State.withHost_cur : (s.withHost h).cur = s.cur := rfl
@[simp] theorem State.withHost_pq : (s.withHost h).pq = s.pq := rfl
@[simp] theorem State.withHost_inBytes : (s.withHost h).inBytes = s.inBytes := rfl
@[simp] theorem State.withHost_wcnt : (s.withHost h).wcnt = s.wcnt := rfl
@[simp] theorem State.withHost_nodeAt : (s.withHost h).nodeAt = s.nodeAt := rfl
@[simp] theorem State.withHost_codeLenAt : (s.withHost h).codeLenAt = s.codeLenAt := rfl
@[simp] theorem State.withHost_pendingSlots : (s.withHost h).pendingSlots = s.pendingSlots := rfl
@[simp] theorem State.withHost_allocNode (n : Node) : (s.withHost h).allocNode n = (s.allocNode n).withHost h := rfl

/-! ### The operations of the phases -/

theorem State.unread_withHost : Unread (·.withHost h) :=
  .of (fun _ => rfl) (fun _ => rfl) (fun _ => rfl) (fun _ => rfl) (fun _ _ _ _ => rfl) fun _ _ _ _ => rfl

theorem State.readBit_withHost : (s.withHost h).readBit = (s.readBit.1, s.readBit.2.withHost h) :=
  State.unread_withHost h s

theorem State.readBits_withHost (n : Nat) :
    (s.withHost h).readBits n = ((s.readBits n).1, (s.readBits n).2.withHost h) :=
  (State.unread_withHost h).readBitsFrom n 0 0 s

theorem State.writeBit_withHost (b : Bool) : (s.withHost h).writeBit b = (s.writeBit b).withHost h := by
  unfold State.writeBit
  rw [State.withHost_wcnt]
  split <;> rfl

theorem State.writeList_withHost (bits : List Bool) : (s.withHost h).writeList bits = (s.writeList bits).withHost h :=
  s.writeList_comm bits (f := (·.withHost h)) fun s b => s.writeBit_withHost h b

theorem State.nextPhase_withHost : (s.withHost h).nextPhase = s.nextPhase.withHost h := by
  unfold State.nextPhase
  rw [State.withHost_phase, State.withHost_lastCmd]
  split <;> rfl

theorem State.countByte_withHost : (s.withHost h).countByte = s.countByte.withHost h := by
  unfold State.countByte
  rw [State.readBits_withHost]
  rcases s.readBits 8 with ⟨v | _, t⟩
  · dsimp only
    rw [State.withHost_inBytes]
    split <;> rfl
  · rfl

theorem State.codesStart_withHost : (s.withHost h).codesStart = s.codesStart.withHost h := by
  unfold State.codesStart
  rw [State.withHost_nodes, State.withHost_nodeAt, State.withHost_root]
  split
  · rfl
  · split <;> rfl

theorem State.visitNode_withHost (i : NodeIdx) (p : List Bool) (todo : List (NodeIdx × List Bool)) :
    (s.withHost h).visitNode i p todo = (s.visitNode i p todo).withHost h := by
  unfold State.visitNode
  rw [State.withHost_nodeAt]
  split <;> rfl

theorem State.hdrWriteStart_withHost : (s.withHost h).hdrWriteStart = s.hdrWriteStart.withHost h := by
  unfold State.hdrWriteStart
  rw [State.withHost_nodes]
  split <;> rfl

theorem State.hdrNode_withHost (i : NodeIdx) (todo : List NodeIdx) :
    (s.withHost h).hdrNode i todo = (s.hdrNode i todo).withHost h := by
  unfold State.hdrNode
  rw [State.withHost_nodeAt]
  split <;> rfl

theorem State.startCode_withHost (sym : Sym) (last : Bool) :
    (s.withHost h).startCode sym last = (s.startCode sym last).withHost h := by
  unfold State.startCode
  rw [State.withHost_codeLenAt]
  split <;> rfl

theorem State.encodeByte_withHost : (s.withHost h).encodeByte = s.encodeByte.withHost h := by
  unfold State.encodeByte
  rw [State.readBits_withHost]
  rcases s.readBits 8 with ⟨v | _, t⟩
  · exact t.startCode_withHost h _ _
  · exact t.startCode_withHost h _ _

theorem State.magicBit_withHost (k : Nat) (v : Word) : (s.withHost h).magicBit k v = (s.magicBit k v).withHost h := by
  unfold State.magicBit
  rw [State.readBit_withHost]
  rcases s.readBit with ⟨_ | b, t⟩
  · rfl
  · dsimp only
    rw [State.withHost_magic]
    split
    · rfl
    · split <;> rfl

theorem State.tokenBit_withHost (bits : List Bool) (slots : List Slot) :
    (s.withHost h).tokenBit bits slots = (s.tokenBit bits slots).withHost h := by
  unfold State.tokenBit
  rw [State.readBit_withHost]
  rcases s.readBit with ⟨_ | b, t⟩ <;> rfl

theorem State.linkChild_withHost (i : NodeIdx) (o : Option Slot) :
    (s.withHost h).linkChild i o = (s.linkChild i o).withHost h := by
  rcases o with _ | ⟨p, _ | _⟩ <;> rfl

theorem State.afterToken_withHost (slots : List Slot) :
    (s.withHost h).afterToken slots = (s.afterToken slots).withHost h := by
  cases slots <;> rfl

theorem State.headerNode_withHost (n : Node) (opens : NodeIdx → List Slot) :
    (s.withHost h).headerNode n opens = (s.headerNode n opens).withHost h := by
  unfold State.headerNode
  rw [State.withHost_nodes, State.withHost_pendingSlots, State.withHost_allocNode, State.linkChild_withHost,
    State.afterToken_withHost]
  split <;> rfl

theorem State.decodeSymbol_withHost : (s.withHost h).decodeSymbol = s.decodeSymbol.withHost h := by
  rw [State.decodeSymbol_eq, State.decodeSymbol_eq, State.readBit_withHost, State.withHost_nodeAt, State.withHost_root]
  split
  · rcases s.readBit with ⟨_ | b, t⟩ <;> rfl
  · rfl

theorem State.decodeDescend_withHost : (s.withHost h).decodeDescend = s.decodeDescend.withHost h := by
  unfold State.decodeDescend State.writeBits
  rw [State.readBit_withHost, State.withHost_nodeAt, State.withHost_cur, State.writeList_withHost]
  generalize s.writeList _ = w
  split
  · split <;> rfl
  · rcases s.readBit with ⟨_ | b, t⟩ <;> rfl

theorem seedFrom_withHost (counts : List Word) (sym : Nat) :
    seedFrom counts sym (s.withHost h) = (seedFrom counts sym s).withHost h := by
  induction counts generalizing sym s with
  | nil => rfl
  | cons c rest ih =>
    unfold seedFrom
    split
    · exact ih s _
    · exact ih (s.seedLeaf sym c) _

theorem State.seedLeaves_withHost : (s.withHost h).seedLeaves = s.seedLeaves.withHost h :=
  seedFrom_withHost { s with nodes := 0, root := 0, pq := [] } h s.freq.toList 0

theorem State.pqLeast_withHost (m : NodeIdx) (l : List NodeIdx) : (s.withHost h).pqLeast m l = s.pqLeast m l := by
  induction l generalizing m with
  | nil => rfl
  | cons i rest ih => exact ih _

theorem State.extractMin_withHost (i : NodeIdx) (rest : List NodeIdx) :
    (s.withHost h).extractMin i rest = s.extractMin i rest := by
  rw [State.extractMin, State.pqLeast_withHost, State.extractMin]

theorem State.mergeStep_withHost : (s.withHost h).mergeStep = Answer.withHost h s.mergeStep := by
  unfold State.mergeStep
  simp only [State.extractMin_withHost, State.withHost_pq]
  split
  · rfl
  · rfl
  · split <;> rfl

/-! ### The step of each phase -/

theorem countStep_withHost : countStep (s.withHost h) = Answer.withHost h (countStep s) := by
  unfold countStep
  rw [State.withHost_seq, State.countByte_withHost, State.nextPhase_withHost]
  split <;> rfl

theorem treeStep_withHost : treeStep (s.withHost h) = Answer.withHost h (treeStep s) := by
  unfold treeStep
  rw [State.withHost_seq, State.seedLeaves_withHost, State.withHost_pq, State.mergeStep_withHost,
    State.nextPhase_withHost]
  split
  · split <;> rfl
  · rfl
  · rfl
  · rfl

theorem codesStep_withHost : codesStep (s.withHost h) = Answer.withHost h (codesStep s) := by
  unfold codesStep
  simp only [State.withHost_seq, State.codesStart_withHost, State.visitNode_withHost, State.nextPhase_withHost]
  split <;> rfl

theorem hdrWriteStep_withHost : hdrWriteStep (s.withHost h) = Answer.withHost h (hdrWriteStep s) := by
  unfold hdrWriteStep
  simp only [State.withHost_seq, State.hdrWriteStart_withHost, State.writeBit_withHost, State.hdrNode_withHost,
    State.nextPhase_withHost]
  split <;> rfl

theorem encodeStep_withHost : encodeStep (s.withHost h) = Answer.withHost h (encodeStep s) := by
  unfold encodeStep
  simp only [State.withHost_seq, State.encodeByte_withHost, State.writeBit_withHost, State.nextPhase_withHost]
  split
  · rfl
  · rfl
  · rfl
  · split <;> rfl
  · rfl
  · rfl

theorem flushStep_withHost : flushStep (s.withHost h) = Answer.withHost h (flushStep s) := by
  unfold flushStep
  rw [State.withHost_seq, State.withHost_wcnt, State.writeBit_withHost, State.nextPhase_withHost]
  split
  · split <;> rfl
  · rfl
  · rfl

theorem hdrReadStep_withHost : hdrReadStep (s.withHost h) = Answer.withHost h (hdrReadStep s) := by
  unfold hdrReadStep
  simp only [State.withHost_seq, State.magicBit_withHost, State.tokenBit_withHost, State.nextPhase_withHost]
  split
  · rfl
  · rfl
  · split
    · obtain ⟨n, opens, hexec⟩ := exec_eq_headerNode ‹_›
      rw [hexec, hexec, State.headerNode_withHost]
      rfl
    · rfl
  · rfl
  · rfl

theorem decodeStep_withHost : decodeStep (s.withHost h) = Answer.withHost h (decodeStep s) := by
  unfold decodeStep
  rw [State.withHost_seq, State.withHost_nodes, State.decodeSymbol_withHost, State.decodeDescend_withHost,
    State.nextPhase_withHost]
  split
  · split <;> rfl
  · rfl
  · rfl
  · rfl
  · rfl

/-- A step of the block reads none of the host's registers and writes none (47_control.md rule R256). -/
theorem blockStep_withHost : blockStep (s.withHost h) = Answer.withHost h (blockStep s) := by
  unfold blockStep phaseStep
  rw [State.withHost_rstN, State.withHost_phase]
  split
  · split
    · rfl
    · exact countStep_withHost s h
    · exact treeStep_withHost s h
    · exact codesStep_withHost s h
    · exact hdrWriteStep_withHost s h
    · exact encodeStep_withHost s h
    · exact flushStep_withHost s h
    · exact hdrReadStep_withHost s h
    · exact decodeStep_withHost s h
  · rfl

end

/-! ### The writes -/

/-- While a command runs no outcome stands, so a write of STATUS can only clear OVERRUN (47_control.md rule R251). -/
theorem State.Inv.clearStatus_busy {s : State} (hi : s.Inv) (hp : s.phase ≠ .idle) (v : Word) :
    s.clearStatus v = { s with overrun := s.overrun && !v.getLsbD 3 } := by
  obtain ⟨hdone, herr, -⟩ := hi.busyClear (State.busy_eq_true.mpr hp)
  have hdone' : (s.done && !v.getLsbD 1) = s.done := by rw [hdone]; rfl
  have herr' : (s.err && !v.getLsbD 2) = s.err := by rw [herr]; rfl
  rw [State.clearStatus, hdone', herr']

/-- A write while BUSY = 1 of any register but CTRL changes the host's registers at most (47_control.md rule R256). -/
theorem csrWrite_busy_withHost {s t : State} {r : Csr} {v : Word} (hi : s.Inv) (hp : s.phase ≠ .idle) (hr : r ≠ .ctrl)
    (h : csrWrite r v s = .next t) : t = s.withHost t := by
  rcases csrWrite_cases h with ⟨rfl, -⟩ | ⟨rfl, -⟩ | ⟨-, rfl⟩ | ⟨-, rfl⟩ | ⟨-, rfl⟩ | ⟨-, rfl⟩ | ⟨-, rfl⟩ | ⟨-, rfl⟩ | rfl
  · rw [csrWrite_cmd_busy hp] at h
    cases h
    rfl
  · exact absurd rfl hr
  · rw [hi.clearStatus_busy hp]
    rfl
  · rfl
  · rfl
  · rfl
  · rfl
  · rw [State.writeFreqData_busy hp]
    rfl
  · rfl

/-- Settles O53: the write changes the host's registers at most, and the block's step neither reads nor writes them. -/
theorem hostCannotDisturb : Obligations.HostCannotDisturb := by
  intro r v s s' t hi hp hr hwrite hstep
  have hs := csrWrite_busy_withHost hi hp hr hwrite
  have hnext : blockStep s' = .next (t.withHost s') := by
    rw [hs, blockStep_withHost, hstep]
    rfl
  exact ⟨hs, hnext⟩

end Sys2Proof.Machine
end

section
/-! SUPPORT. The COUNT phase on more bytes than it accepts (41_frequency_counter.md rule R150, 60_exceptions.md rule R278),
and O25. -/

namespace Sys2Proof.Machine

section
variable {s : State} (h : s.Runs .count) (hs : s.seq = .byteLoop) (hr : s.rcnt = 0)
include h hs hr

/-- The counting loop on the next `bytes` of the input, whatever comes after them (41_frequency_counter.md rule R150). -/
theorem State.Runs.countBytes {pre bytes post : List Byte} (hf : s.freq = countsOf pre 0) (hl : s.inLeft = bytes ++ post)
    (hmax : s.inBytes.toNat + bytes.length ≤ 0xFFFFFFFE) :
    Reaches s ((s.withFreq (countsOf (pre ++ bytes) 0)).withReader (s.inPos + bytes.length)
      (s.inBytes + BitVec.ofNat 32 bytes.length) (bytes.getLast?.getD s.rbuf) 0) := by
  induction bytes generalizing s pre with
  | nil =>
    refine Eq.mp (congrArg (Reaches s) ?_) (.refl s)
    rw [List.append_nil, ← hf, ← hr]
    simp [State.withReader, State.withFreq]
  | cons x bytes ih =>
    obtain ⟨hx, hrest⟩ := State.inLeft_cons hl
    rw [List.length_cons] at hmax
    have hn : (s.inBytes + 1).toNat = s.inBytes.toNat + 1 := by rw [BitVec.toNat_add]; simp; omega
    have hcount := State.countByte_byte hr hx hf (by rw [gt_iff_lt, BitVec.lt_def, hn]; simp [Config.maxIn]; omega)
    have hturn : phaseStep s = .next s.countByte := by rw [phaseStep, h.phase]; simp [countStep, hs]
    have hloop := ih (pre := pre ++ [x])
      ((h.withFreq (countsOf (pre ++ [x]) 0)).withReader (s.inPos + 1) (s.inBytes + 1) x 0) (by simpa using hs)
        rfl rfl (by simpa using hrest)
      (by rw [State.withReader_inBytes, hn]; omega)
    refine h.head (hcount ▸ hturn) (Eq.mp (congrArg (Reaches _) ?_) hloop)
    rw [List.length_cons, ← BitVec.add_one_add_ofNat, List.getLast?_cons]
    simp [Nat.add_assoc, Nat.add_comm 1]

/-- The turn that takes a byte more than the counter holds: InputTooLong, with the count in ERR_INFO (60_exceptions.md
rule R278). -/
theorem State.Runs.countOverflow {x : Byte} (hx : s.inData[s.inPos]? = some x) (hmax : s.inBytes + 1 > Config.maxIn) :
    Reaches s ((s.withReader (s.inPos + 1) (s.inBytes + 1) 0 0).abort .inputTooLong (s.inBytes + 1)) := by
  have hturn : phaseStep s = .next s.countByte := by rw [phaseStep, h.phase]; simp [countStep, hs]
  rw [State.countByte, State.readBits_byte hr hx] at hturn
  exact h.head (hturn.trans (congrArg _ (if_pos hmax))) (.refl _)

/-- The counting loop on an input that goes on after its first 2^32 - 2 bytes (41_frequency_counter.md rule R150). -/
theorem State.Runs.countPast {bytes rest : List Byte} {x : Byte} (hf : s.freq = countsOf [] 0) (hb : s.inBytes = 0)
    (hl : s.inLeft = bytes ++ x :: rest) (hlen : bytes.length = 0xFFFFFFFE) :
    Reaches s (((s.withFreq (countsOf bytes 0)).withReader (s.inPos + (bytes.length + 1)) 0xFFFFFFFF 0 0).abort
      .inputTooLong 0xFFFFFFFF) := by
  have hx : s.inData[s.inPos + bytes.length]? = some x := by
    rw [← List.getElem?_drop, ← State.inLeft, hl, List.getElem?_append_right (Nat.le_refl _), Nat.sub_self]
    rfl
  have hcount : s.inBytes + BitVec.ofNat 32 bytes.length + 1 = 0xFFFFFFFF := by rw [hb, hlen]; decide
  have hloop := h.countBytes hs hr hf hl (by rw [hb, hlen]; decide)
  rw [List.nil_append] at hloop
  generalize countsOf bytes 0 = counts at hloop ⊢
  have hmid := (h.withFreq counts).withReader (s.inPos + bytes.length)
    (s.inBytes + BitVec.ofNat 32 bytes.length) (bytes.getLast?.getD s.rbuf) 0
  have hover := hmid.countOverflow hs rfl hx (by rw [State.withReader_inBytes, hcount]; decide)
  rw [State.withReader_inBytes, hcount] at hover
  exact hloop.trans hover

end

/-- The COUNT phase on such an input (41_frequency_counter.md rule R150, 60_exceptions.md rule R278). -/
theorem State.Runs.countTooLong {s : State} {bytes rest : List Byte} {x : Byte} (h : s.Runs .count) (hs : s.seq = .start)
    (hr : s.rcnt = 0) (hb : s.inBytes = 0) (hl : s.inLeft = bytes ++ x :: rest) (hlen : bytes.length = 0xFFFFFFFE) :
    Reaches s (((s.withFreq (countsOf bytes 0)).withReader (s.inPos + (bytes.length + 1)) 0xFFFFFFFF 0 0).abort
      .inputTooLong 0xFFFFFFFF) := by
  have hstart : phaseStep s = .next ((s.withFreq (countsOf [] 0)).atSeq .byteLoop) := by
    rw [phaseStep, h.phase, countsOf_nil]; simp only [countStep, hs]; rfl
  generalize hzero : countsOf [] 0 = zero at hstart
  have hloop := ((h.withFreq zero).atSeq .byteLoop).countPast rfl hr hzero.symm hb hl hlen
  rw [State.withFreq_atSeq, State.withReader_atSeq, State.abort_atSeq, State.withFreq_withFreq] at hloop
  exact h.head hstart hloop

/-- An input longer than COUNT accepts, cut after the bytes it counts (00_scope.md rule R8, MAX_IN). -/
theorem State.inLeft_tooLong {s : State} (h : 0xFFFFFFFE < s.inLeft.length) :
    ∃ x rest, s.inLeft = s.inLeft.take 0xFFFFFFFE ++ x :: rest ∧ (s.inLeft.take 0xFFFFFFFE).length = 0xFFFFFFFE := by
  obtain ⟨x, rest, hrest⟩ := List.exists_cons_of_length_pos (l := s.inLeft.drop 0xFFFFFFFE)
    (by rw [List.length_drop]; omega)
  exact ⟨x, rest, by rw [← hrest, List.take_append_drop], by rw [List.length_take]; omega⟩

/-- Settles O25: either command starts with COUNT, its reader clear, and ends in that phase's abort. -/
theorem countTooLong : Obligations.CountTooLong := by
  intro row hrow s hq hlong
  obtain ⟨x, rest, hl, hlen⟩ := State.inLeft_tooLong hlong
  have hpos : s.inPos + 0xFFFFFFFF = s.inPos + ((s.inLeft.take 0xFFFFFFFE).length + 1) := by rw [hlen]
  generalize s.inLeft.take 0xFFFFFFFE = bytes at hl hlen hpos ⊢
  rw [hpos]
  simp only [List.mem_cons, List.not_mem_nil, or_false] at hrow
  rcases hrow with rfl | rfl
  · exact ⟨_, congrArg Host.Outcome.next (hq.accepts 3), (hq.runs 3).countTooLong rfl rfl rfl hl hlen⟩
  · exact ⟨_, congrArg Host.Outcome.next (hq.accepts 1), (hq.runs 1).countTooLong rfl rfl rfl hl hlen⟩

end Sys2Proof.Machine
end

section
/-! SUPPORT. Every phase ends (70_reset_and_hazards.md rule R331), so every command does. -/

namespace Sys2Proof.Machine

/-! ### The end of a phase -/

/-- The phase `p` ends from `s` on: in IDLE, by an abort, or at the end of its rule. -/
def State.Ends (s : State) (p : Phase) : Prop :=
  ∃ u, Reaches s u ∧ (u.phase = .idle ∨ (u.Runs p ∧ u.seq = .phaseEnd))

/-- Outside the phases that build a tree, NODES counts the nodes of one (10_state.md rule R62). -/
theorem State.TreeInv.represented {s : State} (h : s.TreeInv) (hi : s.Inv) (hp : s.phase.buildsTree = false)
    (hn : s.nodes ≠ 0) : ∃ T, s.Represents s.root T := by
  obtain ⟨T, hT, -⟩ := treeOfNodes s hi.nodesBound (h.standing (fun hb => by simp [hp] at hb) hn)
  exact ⟨T, hT⟩

section
variable {s : State} {p : Phase}

/-- COUNT ends: with the input, or when it is too long (41_frequency_counter.md rule R150). -/
theorem State.Runs.countEnds (h : s.Runs .count) (hs : s.seq = .start) (hr : s.rcnt = 0) (hb : s.inBytes = 0) :
    s.Ends .count := by
  by_cases hlong : 0xFFFFFFFE < s.inLeft.length
  · obtain ⟨x, rest, hl, hlen⟩ := State.inLeft_tooLong hlong
    exact ⟨_, h.countTooLong hs hr hb hl hlen, .inl rfl⟩
  · exact ⟨_, h.count hs hr hb (Nat.le_of_not_lt hlong), .inr ⟨((h.withFreq _).withReader _ _ _ _).atSeq _, rfl⟩⟩

/-- TREE ends: with one tree, or without a positive count (42_tree_builder.md rule R160). -/
theorem State.Runs.treeEnds (h : s.Runs .tree) (hs : s.seq = .start) : s.Ends .tree := by
  by_cases hpos : s.positives = []
  · exact ⟨_, h.head (State.treeStart_none h.phase hs hpos) (.refl _), .inl rfl⟩
  · obtain ⟨v, n, r, hreach, -⟩ := h.tree hs hpos
    exact ⟨_, hreach, .inr ⟨(h.withTree v n r []).atSeq _, rfl⟩⟩

/-- CODES ends: with the whole tree visited, or without a tree (43_code_table.md rule R180). -/
theorem State.Runs.codesEnds (h : s.Runs .codes) (hs : s.seq = .start) (hi : s.Inv) (ht : s.TreeInv) :
    s.Ends .codes := by
  by_cases hn : s.nodes = 0
  · exact ⟨_, h.head (State.codesStart_noTree hs hn h.phase) (.refl _), .inl rfl⟩
  · obtain ⟨T, hT⟩ := ht.represented hi (by rw [h.phase]; rfl) hn
    have hclear : s.clearCodes.Runs .codes := ⟨h.outOfReset, h.alone, h.phase⟩
    exact ⟨_, h.codes hs hT, .inr ⟨(hclear.setCodes T.codes).atSeq _, rfl⟩⟩

/-- HDR_WRITE ends: with the whole tree written, or without a tree (44_header_codec.md rule R190). -/
theorem State.Runs.hdrWriteEnds (h : s.Runs .hdrWrite) (hs : s.seq = .start) (hi : s.Inv) (ht : s.TreeInv) :
    s.Ends .hdrWrite := by
  by_cases hn : s.nodes = 0
  · exact ⟨_, h.head (State.hdrWriteStart_noTree hs hn h.phase) (.refl _), .inl rfl⟩
  · obtain ⟨T, hT⟩ := ht.represented hi (by rw [h.phase]; rfl) hn
    exact ⟨_, h.hdrWrite hs hT, .inr ⟨(h.writeList _).atSeq _, rfl⟩⟩

/-- ENCODE ends: with the sentinel's code, or at the first symbol without one (45_compressor.md rule R212). -/
theorem State.Runs.encodeEnds (h : s.Runs .encode) (hs : s.seq = .start) : s.Ends .encode := by
  cases hfind : s.inData.find? fun b => s.codeLenAt b.toNat == 0 with
  | some x =>
    obtain ⟨h0, pre, post, hin, hcode⟩ := List.find?_eq_some_iff_append.mp hfind
    exact ⟨_, h.encodeNoCode hs hin (by simpa using hcode) rfl (by simpa using h0), .inl rfl⟩
  | none =>
    have hcode : ∀ b ∈ s.inData, s.codeLenAt b.toNat ≠ 0 := by simpa using List.find?_eq_none.mp hfind
    by_cases heof : s.codeLenAt 256 = 0
    · exact ⟨_, h.encodeNoCode hs (List.append_nil _).symm hcode rfl heof, .inl rfl⟩
    · exact ⟨_, h.encode hs hcode heof rfl, .inr ⟨((h.writeList _).withReader _ _ _ _).atSeq _, rfl⟩⟩

/-- FLUSH ends: with `End` (40_bitio.md rule R138). -/
theorem State.Runs.flushEnds (h : s.Runs .flush) (hs : s.seq = .start) : s.Ends .flush := by
  obtain ⟨hr, ha, hp⟩ := h.writeList (padding s.wcnt.toNat)
  exact ⟨_, h.flush hs, .inr ⟨⟨hr, ha, hp⟩, rfl⟩⟩

/-- HDR_READ ends: each of its steps brings down the bits still to read (44_header_codec.md rule R196). -/
theorem State.Runs.hdrReadEnds (h : s.Runs .hdrRead) (hs : s.seq = .start) : s.Ends .hdrRead := by
  obtain ⟨u, hu, -, hcase⟩ := State.Runs.ends (p := .hdrRead) (f := State.asDecompress) (μ := State.headerMeasure) nofun
    (fun s h => ⟨h.outOfReset, h.alone, h.phase⟩) (fun s h => h.headerStep) h (by rw [hs]; rfl)
  exact ⟨u, hu, hcase.imp And.left fun ⟨hruns, hend, _⟩ => ⟨hruns, hend⟩⟩

/-- DECODE ends: each of its steps brings down the bits still to read (46_decompressor.md rule R232). -/
theorem State.Runs.decodeEnds (h : s.Runs .decode) (hs : s.seq = .start) : s.Ends .decode := by
  obtain ⟨u, hu, -, hcase⟩ := State.Runs.ends (p := .decode) (f := (·.resumed 0)) (μ := State.decodeMeasure) nofun
    (fun s h => ⟨h.outOfReset, h.alone, h.phase⟩) (fun s h => h.bodyStep 0) h (by rw [hs]; rfl)
  exact ⟨u, hu, hcase.imp And.left fun ⟨hruns, hend, _⟩ => ⟨hruns, hend⟩⟩

/-- Every phase ends, COUNT from a reader and a byte counter that are clear, as its commands start with them
(47_control.md rules R251, R252). -/
theorem State.Runs.phaseEnds (h : s.Runs p) (hp : p ≠ .idle) (hs : s.seq = .start) (hi : s.Inv) (ht : s.TreeInv)
    (hcount : p = .count → s.rcnt = 0 ∧ s.inBytes = 0) : s.Ends p := by
  cases p with
  | idle => exact absurd rfl hp
  | count => exact h.countEnds hs (hcount rfl).1 (hcount rfl).2
  | tree => exact h.treeEnds hs
  | codes => exact h.codesEnds hs hi ht
  | hdrWrite => exact h.hdrWriteEnds hs hi ht
  | encode => exact h.encodeEnds hs
  | flush => exact h.flushEnds hs
  | hdrRead => exact h.hdrReadEnds hs
  | decode => exact h.decodeEnds hs

end

/-! ### The end of a command -/

/-- How many phases of a row may still come, a phase itself among them (10_state.md rule R23). -/
def Phase.rank : Phase → Nat
  | .count => 6
  | .tree => 5
  | .codes => 4
  | .hdrWrite | .hdrRead => 3
  | .encode | .decode => 2
  | .flush => 1
  | .idle => 0

/-- A row goes on to phases of lower rank, and never to COUNT (10_state.md rule R23). -/
theorem phaseAfter_lower {p q : Phase} {op : BitVec 4} (h : phaseAfter p (phaseRow op) = some q) :
    q.rank < p.rank ∧ q ≠ .idle ∧ q ≠ .count := by
  have hrows : ∀ op : BitVec 4, ∀ q ∈ phaseAfter p (phaseRow op), q.rank < p.rank ∧ q ≠ .idle ∧ q ≠ .count := by
    cases p <;> decide
  exact hrows op q h

/-- The two invariants hold along a run. -/
theorem Reaches.invs {s t : State} (h : Reaches s t) (hi : s.Inv) (ht : s.TreeInv) : t.Inv ∧ t.TreeInv :=
  h.keeps (P := fun u => u.Inv ∧ u.TreeInv) (fun u v ⟨hi, ht⟩ hstep => ⟨hi.step hstep, treeInvKept u v hi ht hstep⟩)
    ⟨hi, ht⟩

/-- The phases of a row end one after the other (70_reset_and_hazards.md rule R331). -/
theorem State.Runs.commandEnds {s : State} {p : Phase} (h : s.Runs p) (hp : p ≠ .idle) (hs : s.seq = .start) (hi : s.Inv)
    (ht : s.TreeInv) (hcount : p = .count → s.rcnt = 0 ∧ s.inBytes = 0) : ∃ t, Reaches s t ∧ t.phase = .idle := by
  induction hk : p.rank using Nat.strong_induction_on generalizing s p with
  | _ k ih =>
    obtain ⟨u, hu, hidle | ⟨hruns, hend⟩⟩ := h.phaseEnds hp hs hi ht hcount
    · exact ⟨u, hu, hidle⟩
    · cases hrow : phaseAfter p (phaseRow (cmdOp u.lastCmd)) with
      | none => exact ⟨_, hu.trans (hruns.complete hp hend hrow), rfl⟩
      | some q =>
        obtain ⟨hlower, hq, hqc⟩ := phaseAfter_lower hrow
        have hnext := hu.trans (hruns.next hp hend hrow)
        obtain ⟨hi', ht'⟩ := hnext.invs hi ht
        obtain ⟨t, hreach, hidle⟩ := ih _ (hk ▸ hlower) (hruns.enter q) hq rfl hi' ht' (fun h => absurd h hqc) rfl
        exact ⟨t, hnext.trans hreach, hidle⟩

end Sys2Proof.Machine
end

section
/-! SUPPORT. The tokens and the flags along the run of a command (60_exceptions.md rules R280, R283, R284;
70_reset_and_hazards.md rule R332), and O48. -/

namespace Sys2Proof.Machine

/-! ### `End` -/

/-- The `End` that a running command has sent, or one that has completed: it comes at the end of FLUSH (40_bitio.md rule
R138). -/
def State.endSent (s : State) : List OutTok :=
  if (s.phase = .flush ∧ s.seq = .phaseEnd) ∨
      (s.phase = .idle ∧ s.done = true ∧ .flush ∈ phaseRow (cmdOp s.lastCmd)) then
    [.close]
  else []

/-- At the end of FLUSH `End` has been sent. -/
theorem State.endSent_flushed {s : State} (hp : s.phase = .flush) (hs : s.seq = .phaseEnd) : s.endSent = [.close] :=
  if_pos (.inl ⟨hp, hs⟩)

/-- Before the end of FLUSH it has not. -/
theorem State.endSent_running {s : State} (hidle : s.phase ≠ .idle) (h : s.phase = .flush → s.seq ≠ .phaseEnd) :
    s.endSent = [] :=
  if_neg (not_or_intro (fun ⟨hp, hs⟩ => h hp hs) fun ⟨hp, _⟩ => hidle hp)

/-- A command that has completed has sent `End` exactly if its row has a FLUSH phase (60_exceptions.md rule R283). -/
theorem State.endSent_done {s : State} (hidle : s.phase = .idle) (hdone : s.done = true) :
    s.endSent = if .flush ∈ phaseRow (cmdOp s.lastCmd) then [.close] else [] := by
  simp [State.endSent, hidle, hdone]

theorem State.endSent_complete (s : State) :
    s.complete.endSent = if .flush ∈ phaseRow (cmdOp s.lastCmd) then [.close] else [] :=
  State.endSent_done rfl rfl

/-- An aborted command has sent none (60_exceptions.md rule R280). -/
theorem State.endSent_failed {s : State} (hidle : s.phase = .idle) (hdone : s.done = false) : s.endSent = [] := by
  simp [State.endSent, hidle, hdone]

/-- FLUSH is the last phase of a row that has it, and the only one that ends such a row (10_state.md rule R23). -/
theorem flush_mem_phaseRow {p : Phase} {op : BitVec 4} (hp : p ∈ phaseRow op) :
    (p = .flush → phaseAfter p (phaseRow op) = none) ∧
      (phaseAfter p (phaseRow op) = none → (.flush ∈ phaseRow op ↔ p = .flush)) := by
  revert op
  cases p <;> decide

/-! ### A step of a running command -/

section
variable {s t : State} (hi : s.Inv) (hp : s.phase ≠ .idle) (h : phaseStep s = .next t)
include hi hp h

/-- A step of FLUSH: a byte at most and then `End`, or, with `End` sent, the completion (40_bitio.md rule R138). -/
theorem State.Inv.flushStep_sends (hf : s.phase = .flush) :
    (s.endSent = [] ∧ ∃ l, .close ∉ l ∧ t.outLog = s.outLog ++ (l ++ t.endSent)) ∨
      (t.endSent = s.endSent ∧ t.outLog = s.outLog) := by
  have hmem := hi.rowFits (State.busy_eq_true.mpr hp)
  rw [hf] at hmem
  have hstep : flushStep s = .next t := by rwa [phaseStep, hf] at h
  unfold flushStep at hstep
  split at hstep <;> cases hstep
  · have hopen : s.endSent = [] := State.endSent_running hp (by simp [*])
    refine .inl ⟨hopen, ?_⟩
    split
    · exact ⟨[], List.not_mem_nil, by rw [State.endSent_flushed (s := s.outEnd.endPhase) hf rfl]; rfl⟩
    · obtain ⟨l, hl, -, hclose⟩ := s.writeBit_sendsByte false
      obtain ⟨bytes, w, c, he, -⟩ := s.writeBit_eq false
      have hopen' : (s.writeBit false).endSent = [] := by
        rw [he]
        exact State.endSent_running hp (by simp [*])
      exact ⟨l, hclose, by rw [hopen', List.append_nil, hl]⟩
  · have hlast := (flush_mem_phaseRow hmem).1 rfl
    have hdone : s.nextPhase = s.complete := by rw [State.nextPhase, hf, hlast]
    rw [hdone, State.endSent_complete, if_pos hmem, State.endSent_flushed hf ‹_›]
    exact .inr ⟨rfl, rfl⟩

/-- A step of another phase sends a byte at most, and `End` is due only after FLUSH. -/
theorem State.Inv.phaseStep_endSent (hf : s.phase ≠ .flush) : t.endSent = [] := by
  have hmem := hi.rowFits (State.busy_eq_true.mpr hp)
  rcases phaseStep_move hp h with ⟨-, rfl⟩ | hturn | ⟨u, e, info, n, -, -, -, rfl⟩
  · rcases s.nextPhase_cases with ⟨q, hq, he⟩ | ⟨hnone, he⟩ <;> rw [he]
    · exact State.endSent_running (phaseAfter_lower hq).2.1 nofun
    · rw [State.endSent_complete, if_neg (mt ((flush_mem_phaseRow hmem).2 hnone).mp hf)]
  · have hphase : t.phase = s.phase := by rw [hturn.writes, State.phaseWrites_phase]
    exact State.endSent_running (hphase ▸ hp) fun ht => absurd (hphase ▸ ht) hf
  · exact State.endSent_failed rfl rfl

/-- A step of a running command sends a byte at most, and `End` where it is due. -/
theorem State.Inv.phaseStep_sends (hr : s.rstN = true) :
    (s.endSent = [] ∧ ∃ l, .close ∉ l ∧ t.outLog = s.outLog ++ (l ++ t.endSent)) ∨
      (t.endSent = s.endSent ∧ t.outLog = s.outLog) := by
  by_cases hf : s.phase = .flush
  · exact hi.flushStep_sends hp h hf
  · rcases blockStep_sends ((blockStep_running hr).trans h) with ⟨l, hl, -, hclose⟩ | ⟨hf', -⟩
    · exact .inl ⟨State.endSent_running hp fun h => absurd h hf, l, hclose, by
        rw [hi.phaseStep_endSent hp h hf, List.append_nil, hl]⟩
    · exact absurd hf' hf

/-- A step of a running command that leads to IDLE sets DONE or ERR (60_exceptions.md rule R284). -/
theorem State.Inv.phaseStep_outcome (hr : s.rstN = true) (hidle : t.phase = .idle) : t.done = true ∨ t.err = true := by
  rcases phase_of_blockStep hi hp ((blockStep_running hr).trans h) with hsame | ⟨k, -, hk⟩ | ⟨-, -, hdone, -⟩ |
    ⟨-, -, herr⟩
  · exact absurd (hsame.symm.trans hidle) hp
  · exact absurd (hidle ▸ List.mem_of_getElem? hk) (idle_notMem_phaseRow _)
  · exact .inl hdone
  · exact .inr herr

end

/-! ### The run of a command -/

/-- What holds along the run of the command of OP `op` accepted in `s`: the invariant, the tokens sent so far, and the
outcome once it is IDLE. -/
structure State.Underway (s : State) (op : BitVec 4) (u : State) : Prop where
  inv : u.Inv
  outOfReset : u.rstN = true
  alone : u.agenda = []
  command : u.lastCmd = opWord op
  sent : ∃ l, .close ∉ l ∧ u.outLog = s.outLog ++ (l ++ u.endSent)
  outcome : u.phase = .idle → u.done = true ∨ u.err = true

/-- It holds at the command's start. -/
theorem State.Quiet.underway {s : State} (hq : s.Quiet) (hi : s.Inv) {op : BitVec 4}
    (hop : (phaseRow op).headD .idle ≠ .idle) :
    s.Underway op (s.accepted op) := by
  have hruns := hq.runs op
  have hbusy : (s.accepted op).phase ≠ .idle := hruns.phase ▸ hop
  have hinv : (s.accepted op).Inv := hi.commandStart hq.outOfReset op
  have heq := State.commandStart_eq { s with lastCmd := opWord op } op
  rw [← State.accepted] at heq
  refine ⟨hinv, hruns.outOfReset, hruns.alone, by rw [heq], ⟨[], List.not_mem_nil, ?_⟩, fun h => absurd h hbusy⟩
  rw [State.endSent_running hbusy (fun _ => by rw [heq]; nofun), List.append_nil, heq, List.append_nil]

/-- Every step keeps it. -/
theorem State.Underway.step {s u v : State} {op : BitVec 4} (h : s.Underway op u) (hstep : step u = .next v) :
    s.Underway op v := by
  have hinv := h.inv.step hstep
  rw [step_alone h.alone] at hstep
  obtain ⟨-, -, -, -, -, hcmd, -, -, -, -, -, -, hrst, -, hagenda, -⟩ := blockFrame u v hstep
  obtain ⟨l, hclose, hlog⟩ := h.sent
  rcases blockStep_cases hstep with rfl | ⟨-, hp, hphase⟩
  · exact h
  · refine ⟨hinv, hrst.trans h.outOfReset, hagenda.trans h.alone, hcmd.trans h.command, ?_,
      h.inv.phaseStep_outcome hp hphase h.outOfReset⟩
    rcases h.inv.phaseStep_sends hp hphase h.outOfReset with ⟨hopen, l', hclose', hsent⟩ | ⟨hsame, hsent⟩
    · refine ⟨l ++ l', by simp [hclose, hclose'], ?_⟩
      rw [hsent, hlog, hopen, List.append_nil, List.append_assoc, List.append_assoc]
    · exact ⟨l, hclose, by rw [hsent, hlog, hsame]⟩

/-- Tokens without `End` are bytes (20_memory.md rule R77). -/
theorem eq_map_byte {l : List OutTok} (h : .close ∉ l) : ∃ bytes : List Byte, l = bytes.map .byte := by
  induction l with
  | nil => exact ⟨[], rfl⟩
  | cons x l ih =>
    rw [List.mem_cons, not_or] at h
    obtain ⟨bytes, rfl⟩ := ih h.2
    cases x with
    | byte b => exact ⟨b :: bytes, rfl⟩
    | close => exact absurd rfl h.1

/-- The reader and the byte counter at the start of a command whose first phase is COUNT (47_control.md rules R251,
R252). -/
theorem State.accepted_count (s : State) {op : BitVec 4} (h : (phaseRow op).headD .idle = .count) :
    (s.accepted op).rcnt = 0 ∧ (s.accepted op).inBytes = 0 := by
  have hclears : ∀ op : BitVec 4, (phaseRow op).headD .idle = .count → clearsReader op = true := by decide
  rw [State.accepted, State.commandStart_eq]
  exact ⟨if_pos (hclears op h), rfl⟩

/-- A command's start leaves the tree alone (47_control.md rule R251). -/
theorem State.TreeInv.accepted {s : State} (h : s.TreeInv) (hq : s.Quiet) (op : BitVec 4) : (s.accepted op).TreeInv := by
  have hstands := h.standing fun hb => by simp [hq.idle, Phase.buildsTree] at hb
  rw [State.accepted, State.commandStart_eq]
  exact State.treeInv_of_standing (fun hn => (hstands hn).congr rfl rfl rfl) fun _ => .inl rfl

/-- Settles O48: the phases of the row end one after the other, and along the run the tokens are bytes, with `End` after
FLUSH. -/
theorem commandOutcome : Obligations.CommandOutcome := by
  intro row hrow s hq hi ht
  obtain ⟨op, hexec, hop, hflush⟩ : ∃ op, exec row.1 s = .next (s.accepted op) ∧ (phaseRow op).headD .idle ≠ .idle ∧
      row.2 = decide (.flush ∈ phaseRow op) := by
    simp only [List.mem_cons, List.not_mem_nil, or_false] at hrow
    rcases hrow with rfl | rfl | rfl | rfl | rfl | rfl | rfl | rfl | rfl
    · exact ⟨1, congrArg Host.Outcome.next (hq.accepts 1), nofun, rfl⟩
    · exact ⟨2, congrArg Host.Outcome.next (hq.accepts 2), nofun, rfl⟩
    · exact ⟨3, congrArg Host.Outcome.next (hq.accepts 3), nofun, rfl⟩
    · exact ⟨4, congrArg Host.Outcome.next (hq.accepts 4), nofun, rfl⟩
    · exact ⟨5, congrArg Host.Outcome.next (hq.accepts 5), nofun, rfl⟩
    · exact ⟨6, congrArg Host.Outcome.next (hq.accepts 6), nofun, rfl⟩
    · exact ⟨7, congrArg Host.Outcome.next (hq.accepts 7), nofun, rfl⟩
    · exact ⟨8, congrArg Host.Outcome.next (hq.accepts 8), nofun, rfl⟩
    · exact ⟨9, congrArg Host.Outcome.next (hq.accepts 9), nofun, rfl⟩
  have hstart := hq.underway hi hop
  obtain ⟨t, hreach, hidle⟩ := (hq.runs op).commandEnds hop rfl hstart.inv (ht.accepted hq op) s.accepted_count
  obtain ⟨hinv, -, -, hcmd, ⟨l, hclose, hlog⟩, houtcome⟩ := hreach.keeps (fun _ _ h => h.step) hstart
  obtain ⟨bytes, rfl⟩ := eq_map_byte hclose
  refine ⟨_, t, bytes, hexec, hreach, hidle, ?_⟩
  rcases houtcome hidle with hdone | herr
  · have herr : t.err = false := Bool.eq_false_iff.mpr fun herr => hinv.oneOutcome ⟨hdone, herr⟩
    refine .inl ⟨hdone, herr, hinv.doneClear hdone, ?_⟩
    rw [hlog, State.endSent_done hidle hdone, hcmd, cmdOp_opWord, hflush, List.append_assoc]
    simp only [decide_eq_true_eq]
  · have hdone : t.done = false := Bool.eq_false_iff.mpr fun hdone => hinv.oneOutcome ⟨hdone, herr⟩
    have hkind : errKind t.errCode ≠ 0 := hinv.errNamed herr
    refine .inr ⟨hdone, herr, Nat.one_le_iff_ne_zero.mpr fun h0 => hkind (BitVec.eq_of_toNat_eq h0),
      BitVec.le_def.mp hinv.errRange.1, ?_⟩
    rw [hlog, State.endSent_failed hidle hdone, List.append_nil]

end Sys2Proof.Machine
end

section
/-! SUPPORT. HDR_READ on a wrong or a short magic (44_header_codec.md rule R196, 60_exceptions.md rule R271), and O36. -/

namespace Sys2Proof.Machine

/-! ### The bytes that bits take -/

/-- From an empty RBUF, bits that the stream holds take the bytes they lie in (40_bitio.md rules R130, R131). -/
theorem State.skipBits_bytes {s : State} {n : Nat} (hr : s.rcnt = 0) (hn : n ≤ s.inBits.length) :
    s.TakesBytes ((n + 7) / 8) (s.skipBits n) := by
  obtain ⟨m, htake, hleft⟩ := s.skipBits_inLeft n
  have hbuf := (s.skipBits_takes n).2 (by rw [hr]; decide)
  have hbefore : s.inBits.length = 8 * s.inLeft.length := by rw [State.inBits, hr]; simp [bitsOf]
  have hafter : (s.skipBits n).inBits.length = s.inBits.length - n := by
    have h := State.inBits_skipBits (List.take_append_drop n s.inBits).symm
    rw [List.length_take, Nat.min_eq_left hn] at h
    rw [h, List.length_drop]
  rw [State.inBits, List.length_append, bitsOf_length, byteBits_length] at hafter
  rwa [show (n + 7) / 8 = m by omega]

/-- At the end of the stream `ReadBit` finds no data (40_bitio.md rule R131). -/
theorem State.readBit_of_end {s : State} (h : s.inBits = []) : s.readBit = (none, s) := by
  rcases s.readBit_cases with ⟨-, hread⟩ | ⟨b, hin, -⟩
  · exact hread
  · rw [h] at hin
    cases hin

/-! ### The magic -/

section
variable {s : State} {k : Nat} {v : Word} (h : s.Runs .hdrRead) (hs : s.seq = .magicIn k v)
include h hs

/-- The input ends within the magic: BadMagic with the bits there were (60_exceptions.md rule R271). -/
theorem State.Runs.magicEnd (hk : k + s.inBits.length ≤ 31) :
    Reaches s ((s.skipBits s.inBits.length).abort .badMagic (s.inBits.foldl BitVec.shiftConcat v)
      (BitVec.ofNat 6 (k + s.inBits.length))) := by
  have hbits := h.magicBits hs hk (List.append_nil _).symm
  have hend := (h.skipBits s.inBits.length).atSeq (.magicIn (k + s.inBits.length) (s.inBits.foldl BitVec.shiftConcat v))
  have hdry := State.inBits_skipBits (s := s) (List.append_nil _).symm
  refine hbits.trans (hend.head ?_ (.refl _))
  rw [phaseStep, hend.phase]
  simp only [hdrReadStep, State.atSeq_seq, State.magicBit, State.readBit_atSeq, State.readBit_of_end hdry,
    State.abort_atSeq]

/-- The last bit of a magic that is not HUFF_MAGIC: BadMagic with all 32 bits (60_exceptions.md rule R271). -/
theorem State.Runs.magicWrong {b : Bool} {rest : List Bool} (hk : 31 ≤ k) (hv : v.shiftConcat b ≠ s.magic)
    (hin : s.inBits = b :: rest) : Reaches s ((s.skipBits 1).abort .badMagic (v.shiftConcat b) 32) := by
  have hbit := (State.readBit_of_inBits hin).1
  refine h.head ?_ (.refl _)
  rw [phaseStep, h.phase]
  simp [hdrReadStep, hs, State.magicBit, hbit, hv, Nat.not_lt.mpr hk]

end

/-- HDR_READ on an input whose first 32 bits, or all of them if fewer, are not HUFF_MAGIC (44_header_codec.md rule R196,
60_exceptions.md rule R271). -/
theorem State.Runs.badMagic {s : State} {bits : List Bool} (h : s.Runs .hdrRead) (hs : s.seq = .magicIn 0 0)
    (hbits : bits = s.inBits.take 32) (hbad : bits ≠ bitsOf 32 s.magic) :
    Reaches s ((s.skipBits bits.length).abort .badMagic (ofBits 32 bits) (BitVec.ofNat 6 bits.length)) := by
  by_cases hshort : s.inBits.length ≤ 31
  · rw [List.take_of_length_le (by omega)] at hbits
    have hend := h.magicEnd hs (by omega)
    rwa [Nat.zero_add, ← hbits] at hend
  · have hlen : bits.length = 32 := by rw [hbits, List.length_take]; omega
    obtain ⟨init, b, rfl⟩ := (List.eq_nil_or_concat' bits).resolve_left (by rintro rfl; cases hlen)
    have hinit : init.length = 31 := by simpa using hlen
    have hin : s.inBits = init ++ b :: s.inBits.drop 32 := by
      rw [List.append_cons, hbits, List.take_append_drop]
    have hvalue : (init.foldl BitVec.shiftConcat 0).shiftConcat b = ofBits 32 (init ++ [b]) := by
      rw [ofBits, List.foldl_append]
      rfl
    have hwrong := ((h.skipBits init.length).atSeq (.magicIn (0 + init.length)
      (init.foldl BitVec.shiftConcat 0))).magicWrong rfl (by omega) (fun he => hbad ?_) (State.inBits_skipBits hin)
    · rw [State.skipBits_atSeq, ← State.skipBits_add, State.abort_atSeq, hvalue] at hwrong
      have hcount : BitVec.ofNat 6 (init ++ [b]).length = 32 := by rw [hlen]; rfl
      rw [hcount, List.length_append, List.length_singleton]
      exact (h.magicBits hs (by omega) hin).trans hwrong
    · rw [← bitsOf_ofBits hlen, ← hvalue, he]
      exact congrArg (bitsOf 32) (s.skipBits_magic init.length)

/-! ### The two commands that read a header -/

/-- The errors that empty the tree, by their codes (60_exceptions.md rules R270, R281). -/
theorem Error.code_mem_iff (e : Error) : e.code ∈ [1#4, 2#4, 4#4, 7#4] ↔ e.emptiesTree = true := by
  cases e <;> decide

/-- `u` is where HDR_READ reads its first bit in the command of OP `op` accepted in `s`, READ_HEADER or DECOMPRESS: from an
empty reader, with no tree (47_control.md rule R252, 44_header_codec.md rule R196). An abort from there on that empties the
tree leaves the bytes taken and the node entries written, and nothing else. -/
structure State.ReadsHeader (s : State) (op : BitVec 4) (u : State) : Prop where
  runs : u.Runs .hdrRead
  seq : u.seq = .magicIn 0 0
  buffer : u.rcnt = 0
  node : u.node = s.node
  nodes : u.nodes = 0
  magic : u.magic = s.magic
  left : u.inLeft = s.inLeft
  abort : ∀ (e : Error) (info : Word) (nbits : BitVec 6) (m : Nat) (r : BitVec 8) (c : BitVec 4) (v : Vector Node 513)
    (n : NodeIdx), e.emptiesTree = true →
    ((u.withReader (u.inPos + m) (u.inBytes + BitVec.ofNat 32 m) r c).withTree v n u.root u.pq).abort e info nbits =
      { s.failedWith op e.code info nbits with
        node := v, inBytes := BitVec.ofNat 32 m, outBytes := 0, inPos := s.inPos + m }

/-- The bits of the header are those of the bytes to come. -/
theorem State.ReadsHeader.stream {s u : State} {op : BitVec 4} (h : s.ReadsHeader op u) :
    u.inBits = byteBits s.inLeft := by
  rw [State.inBits, h.buffer, h.left]
  rfl

/-- Both commands that read a header start with HDR_READ (10_state.md rule R23). -/
theorem State.Quiet.readsHeader {s : State} (hq : s.Quiet) {row : Instr × BitVec 4}
    (hrow : row ∈ ([(.readHeader, 8), (.decompress, 2)] : List (Instr × BitVec 4))) :
    ∃ t₀ u, exec row.1 s = .next t₀ ∧ Reaches t₀ u ∧ s.ReadsHeader row.2 u := by
  have hstart : ∀ op, (phaseRow op).headD .idle = .hdrRead → clearsReader op = true →
      Reaches (s.accepted op) (s.accepted op).hdrReadStart ∧ s.ReadsHeader op (s.accepted op).hdrReadStart := by
    intro op hfirst hclears
    have hruns := hfirst ▸ hq.runs op
    have heq := State.commandStart_eq { s with lastCmd := opWord op } op
    rw [← State.accepted, hfirst, hclears] at heq
    have hstep : phaseStep (s.accepted op) = .next (s.accepted op).hdrReadStart := by
      rw [phaseStep, hruns.phase, heq]
      rfl
    refine ⟨hruns.head hstep (.refl _), ⟨⟨hruns.outOfReset, hruns.alone, hruns.phase⟩, rfl, by rw [heq]; rfl,
      by rw [heq]; rfl, rfl, by rw [heq]; rfl, by rw [heq]; rfl, fun e info nbits m r c v n he => ?_⟩⟩
    have hcount : (s.accepted op).hdrReadStart.inBytes + BitVec.ofNat 32 m = BitVec.ofNat 32 m := by
      rw [heq]
      exact BitVec.zero_add _
    rw [hcount, heq, State.failedWith, if_pos (e.code_mem_iff.mpr he), if_pos (e.code_mem_iff.mpr he), State.abort, he]
    rfl
  simp only [List.mem_cons, List.not_mem_nil, or_false] at hrow
  rcases hrow with rfl | rfl
  · obtain ⟨hreach, hreads⟩ := hstart 8 rfl rfl
    exact ⟨_, _, congrArg Host.Outcome.next (hq.accepts 8), hreach, hreads⟩
  · obtain ⟨hreach, hreads⟩ := hstart 2 rfl rfl
    exact ⟨_, _, congrArg Host.Outcome.next (hq.accepts 2), hreach, hreads⟩

/-- Settles O36: the bits read are the first 32, or all, and they lie in at most four bytes. -/
theorem badMagic : Obligations.BadMagic := by
  intro row hrow s hq hbad
  obtain ⟨t₀, u, hexec, hreach, hreads⟩ := hq.readsHeader hrow
  generalize hbits : (byteBits s.inLeft).take 32 = bits at hbad ⊢
  rw [← hreads.magic] at hbad
  rw [← hreads.stream] at hbits
  have hrun := hreads.runs.badMagic hreads.seq hbits.symm hbad
  have hlen : bits.length = min 32 (8 * s.inLeft.length) := by
    rw [← hbits, hreads.stream, List.length_take, byteBits_length]
  obtain ⟨r, c, he⟩ := State.skipBits_bytes hreads.buffer (n := bits.length) (by
    rw [hreads.stream, byteBits_length]
    omega)
  rw [show (bits.length + 7) / 8 = min 4 s.inLeft.length by omega] at he
  rw [he] at hrun
  refine ⟨t₀, hexec, hreach.trans (Eq.mp (congrArg (Reaches u) ?_) hrun)⟩
  exact (hreads.abort .badMagic _ _ _ r c u.node u.nodes rfl).trans (by rw [hreads.node]; rfl)

end Sys2Proof.Machine
end

section
/-! SUPPORT. HDR_READ token by token on a beginning of some tree's tokens (44_header_codec.md rules R196 to R198,
60_exceptions.md rules R272, R277), O37 and O38. -/

namespace Sys2Proof.Machine

/-! ### Whole tokens and tokens cut short -/

/-- A token at the head of a bit sequence is there whatever follows. -/
theorem decodeToken_append {p p' : List Bool} {i : Instr} (h : decodeToken p = .ok (i, p')) (q : List Bool) :
    decodeToken (p ++ q) = .ok (i, p' ++ q) := by
  obtain ⟨tok, henc, rfl⟩ := decodeToken_eq_ok.mp h
  exact decodeToken_eq_ok.mpr ⟨tok, henc, List.append_assoc _ _ _⟩

/-- With fewer bits than a token lacks it is not whole. -/
theorem tokensIn_cut {k : Nat} {bits : List Bool} (h : bits.length ≤ k) : tokensIn (k + 1) bits = 0 := by
  induction bits generalizing k with
  | nil => rfl
  | cons b bits ih =>
    obtain ⟨k, rfl⟩ := Nat.exists_eq_succ_of_ne_zero (Nat.ne_of_gt (Nat.lt_of_lt_of_le (Nat.succ_pos _) h))
    rw [tokensIn]
    exact ih (Nat.le_of_succ_le_succ h)

/-- A token at the head of a bit sequence is one of its whole tokens (30_encoding.md rules R106, R109). -/
theorem tokensIn_of_ok {bits rest : List Bool} {i : Instr} (h : decodeToken bits = .ok (i, rest)) :
    tokensIn 0 bits = 1 + tokensIn 0 rest := by
  unfold decodeToken at h
  split at h <;> cases h
  · rfl
  · simp only [tokensIn, Nat.zero_add]

/-- A bit sequence that begins with no whole token holds none (30_encoding.md rule R109). -/
theorem tokensIn_of_error {bits : List Bool} {e : Reject} (h : decodeToken bits = .error e) : tokensIn 0 bits = 0 := by
  rcases bits with _ | ⟨_ | _, bits⟩
  · rfl
  · cases h
  · refine tokensIn_cut (k := 8) (Nat.le_of_not_lt fun hlong => ?_)
    have hsym : bitsOf 9 (ofBits 9 (bits.take 9)) = bits.take 9 := bitsOf_ofBits (by rw [List.length_take]; omega)
    have hwhole := decodeToken_leaf (ofBits 9 (bits.take 9)) (bits.drop 9)
    rw [tokenBits, hsym, List.cons_append, List.take_append_drop, h] at hwhole
    cases hwhole

/-- The token of a tree's root: its node, the slots that it opens, and the trees still to come after it, one for each of
these slots and those that were to come before (44_header_codec.md rule R196). -/
theorem decodeToken_trees {T : CodeTree} {more : List CodeTree} {rest : List Bool} {i : Instr}
    (h : decodeToken ((T :: more).flatMap CodeTree.header) = .ok (i, rest)) :
    ∃ n opens, ∃ trees : List CodeTree, (∀ s, exec i s = .next (s.headerNode n opens)) ∧
      (∀ p, (opens p).length = trees.length) ∧ (trees ++ more).flatMap CodeTree.header = rest := by
  cases T with
  | leaf sym =>
    cases (decodeToken_leaf sym (more.flatMap CodeTree.header)).symm.trans h
    exact ⟨_, _, [], fun _ => rfl, fun _ => rfl, rfl⟩
  | node l r =>
    cases h
    exact ⟨_, _, [l, r], fun _ => rfl, fun _ => rfl, (List.append_assoc _ _ _).symm⟩

/-! ### Between two tokens -/

/-- An update of the tree is none that the bit reader sees. -/
theorem State.skipBits_withTree (s : State) (v : Vector Node 513) (n r : NodeIdx) (q : List NodeIdx) (k : Nat) :
    (s.withTree v n r q).skipBits k = (s.skipBits k).withTree v n r q :=
  Unread.skipBits (f := (·.withTree v n r q))
    (.of (fun _ => rfl) (fun _ => rfl) (fun _ => rfl) (fun _ => rfl) (fun _ _ _ _ => rfl) fun _ _ _ _ => rfl) s k

/-- `s` in HDR_READ once `k` bits are taken and `count` nodes made, with NODE `v` and the sequencer at `q`. -/
def State.parsed (s : State) (k : Nat) (v : Vector Node 513) (count : Nat) (q : Seq) : State :=
  ((s.skipBits k).withTree v (BitVec.ofNat 10 count) s.root s.pq).atSeq q

section
variable (s : State) (k : Nat) (v : Vector Node 513) (count : Nat) (q : Seq)

@[simp] theorem State.parsed_seq : (s.parsed k v count q).seq = q := rfl
@[simp] theorem State.parsed_nodes : (s.parsed k v count q).nodes = BitVec.ofNat 10 count := rfl
@[simp] theorem State.parsed_atSeq (q' : Seq) : (s.parsed k v count q).atSeq q' = s.parsed k v count q' := rfl

theorem State.parsed_abort (e : Error) (info : Word) : (s.parsed k v count q).abort e info =
    ((s.skipBits k).withTree v (BitVec.ofNat 10 count) s.root s.pq).abort e info := rfl

@[simp] theorem State.parsed_skipBits (m : Nat) :
    (s.parsed k v count q).skipBits m = s.parsed (k + m) v count q := by
  rw [State.parsed, State.skipBits_atSeq, State.skipBits_withTree, State.skipBits_skipBits, State.parsed]

theorem State.Runs.parsed {s : State} {p : Phase} (h : s.Runs p) : (s.parsed k v count q).Runs p :=
  ((h.skipBits k).withTree v _ _ _).atSeq q

end

/-- Between two tokens of a header, from `s` on: `count` nodes are made and the bits `p` and `rest` are to come. Together
with the bits `q` that are not, `p` is the tokens of the trees due: one for each open slot, and the root's before there is
a slot (44_header_codec.md rule R196). -/
structure State.BetweenTokens (s : State) (count : Nat) (p q rest : List Bool) (u : State) : Prop where
  frame : ∃ k v slots, u = s.parsed k v count (.token [] slots)
  stream : u.inBits = p ++ rest
  due : ∃ T more, more.length = u.pendingSlots.tail.length ∧ (T :: more).flatMap CodeTree.header = p ++ q

section
variable {s u : State} {count : Nat} {p q rest : List Bool} (hs : s.Runs .hdrRead)
include hs

/-- The next token is gathered, and makes its node (44_header_codec.md rule R196). -/
theorem State.BetweenTokens.gather (h : s.BetweenTokens count p q rest u) {i : Instr} {p' : List Bool}
    (htok : decodeToken p = .ok (i, p')) {n : Node} {opens : NodeIdx → List Slot}
    (hexec : ∀ s, exec i s = .next (s.headerNode n opens)) :
    ∃ k v tok, Reaches u ((s.parsed k v count (.token tok u.pendingSlots)).headerNode n opens) ∧
      (s.skipBits k).inBits = p' ++ rest := by
  obtain ⟨⟨k, v, slots, rfl⟩, hstream, -⟩ := h
  obtain ⟨tok, henc, rfl⟩ := decodeToken_eq_ok.mp htok
  have hwhole : decodeToken tok = .ok (i, []) := decodeToken_eq_ok.mpr ⟨tok, henc, (List.append_nil _).symm⟩
  rw [List.append_assoc] at hstream
  have hbits := (hs.parsed k v count (.token [] slots)).tokenBits rfl hwhole hstream
  rw [List.nil_append, State.parsed_skipBits, State.parsed_atSeq] at hbits
  have hend := hs.parsed (k + tok.length) v count (.token tok slots)
  refine ⟨k + tok.length, v, tok, hbits.trans (hend.head ?_ (.refl _)), ?_⟩
  · rw [phaseStep, hend.phase]
    simp only [hdrReadStep, State.parsed_seq, hwhole, hexec]
    rfl
  · rw [s.skipBits_add]
    exact State.inBits_skipBits hstream

/-- From one token to the next, while node memory has room and the header goes on (44_header_codec.md rule R196). -/
theorem State.BetweenTokens.token (h : s.BetweenTokens count p q rest u) (hroom : count < 513) {i : Instr}
    {p' : List Bool} (htok : decodeToken p = .ok (i, p')) (hmore : p' ++ q ≠ []) :
    ∃ t, Reaches u t ∧ s.BetweenTokens (count + 1) p' q rest t := by
  obtain ⟨T, more, hlen, hdue⟩ := h.due
  obtain ⟨n, opens, trees, hexec, hopens, hleft⟩ := decodeToken_trees (hdue ▸ decodeToken_append htok q)
  obtain ⟨k, v, tok, hreach, hstream⟩ := h.gather hs htok hexec
  generalize hw : s.parsed k v count (.token tok u.pendingSlots) = w at hreach
  have hnodes : w.nodes = BitVec.ofNat 10 count := by rw [← hw, State.parsed_nodes]
  have hpending : w.pendingSlots = u.pendingSlots := by rw [← hw]; rfl
  have hslots : (opens w.nodes ++ u.pendingSlots.tail).length = (trees ++ more).length := by
    rw [List.length_append, List.length_append, hopens, hlen]
  obtain ⟨T', more', htrees⟩ : ∃ T' more', trees ++ more = T' :: more' :=
    List.exists_cons_of_ne_nil fun hnil => hmore (by rw [← hleft, hnil]; rfl)
  rw [htrees] at hleft hslots
  rcases w.headerNode_cases n opens with ⟨hfull, -⟩ | ⟨-, he⟩
  · have := congrArg BitVec.toNat (hnodes.symm.trans hfull)
    rw [BitVec.toNat_ofNat, BitVec.toNat_ofNat] at this
    omega
  · obtain ⟨v', hv⟩ := (w.allocNode n).linkChild_frame w.nodes w.pendingSlots.head?
    rw [hv, hpending] at he
    rcases State.afterToken_cases { w.allocNode n with node := v' } (opens w.nodes ++ u.pendingSlots.tail) with
      ⟨hnil, -⟩ | ⟨-, he'⟩
    · rw [hnil] at hslots
      cases hslots
    · refine ⟨_, he' ▸ he ▸ hreach, ⟨k, v', opens w.nodes ++ u.pendingSlots.tail, ?_⟩, ?_, T', more', ?_,
        hleft⟩
      · rw [State.allocNode, hnodes, ← hw, show BitVec.ofNat 10 count + 1 = BitVec.ofNat 10 (count + 1) from
          (BitVec.ofNat_add count 1).symm]
        rfl
      · rw [← hw]
        exact hstream
      · rw [List.length_cons] at hslots
        show more'.length = (opens w.nodes ++ u.pendingSlots.tail).tail.length
        rw [List.length_tail, hslots]
        rfl

/-- From one token to the next `n` times (44_header_codec.md rule R196). -/
theorem State.BetweenTokens.tokens (n : Nat) (h : s.BetweenTokens count p q rest u) (hn : n ≤ tokensIn 0 p)
    (hroom : count + n ≤ 513) (hmore : q ≠ [] ∨ n < tokensIn 0 p) :
    ∃ t p', Reaches u t ∧ s.BetweenTokens (count + n) p' q rest t ∧ tokensIn 0 p = n + tokensIn 0 p' := by
  induction n generalizing u count p with
  | zero => exact ⟨u, p, .refl u, h, (Nat.zero_add _).symm⟩
  | succ n ih =>
    rcases htok : decodeToken p with e | ⟨i, p'⟩
    · rw [tokensIn_of_error htok] at hn
      cases hn
    · have hcount := tokensIn_of_ok htok
      have hmore' : p' ++ q ≠ [] := fun hnil => by
        obtain ⟨rfl, rfl⟩ := List.append_eq_nil_iff.mp hnil
        simp [hcount, tokensIn] at hmore
      obtain ⟨t, hreach, ht⟩ := h.token hs (by omega) htok hmore'
      obtain ⟨t', p'', hreach', ht', hcount'⟩ := ih ht (by omega) (by omega) (hmore.imp_right fun h => by omega)
      exact ⟨t', p'', hreach.trans hreach', by rwa [Nat.add_assoc, Nat.add_comm 1] at ht', by omega⟩

end

/-! ### The two ends of a header that is not whole -/

/-- The input ends within a token or before one: TruncatedHeader with the nodes made (44_header_codec.md rule R198,
60_exceptions.md rule R272). -/
theorem State.Runs.tokenCut {s : State} {bits more : List Bool} {slots : List Slot} {e : Reject} (h : s.Runs .hdrRead)
    (hs : s.seq = .token bits slots) (hcut : decodeToken (bits ++ more) = .error e) (hin : s.inBits = more) :
    Reaches s ((s.skipBits more.length).abort .truncatedHeader (s.nodes.setWidth 32)) := by
  induction more generalizing s bits with
  | nil =>
    rw [List.append_nil] at hcut
    refine h.head ?_ (.refl _)
    rw [phaseStep, h.phase]
    simp only [hdrReadStep, hs, hcut, State.tokenBit, State.readBit_of_end hin]
    rfl
  | cons b more ih =>
    obtain ⟨hbit, hleft⟩ := State.readBit_of_inBits (bits := more) hin
    have hstep : phaseStep s = .next ((s.skipBits 1).atSeq (.token (bits ++ [b]) slots)) := by
      rcases htok : decodeToken bits with e' | ⟨i, rest⟩
      · rw [phaseStep, h.phase]
        simp [hdrReadStep, hs, htok, State.tokenBit, hbit, State.atSeq]
      · cases (decodeToken_append htok (b :: more)).symm.trans hcut
    rw [List.append_cons] at hcut
    have hrest := ih ((h.skipBits 1).atSeq (.token (bits ++ [b]) slots)) rfl hcut hleft
    rw [State.skipBits_atSeq, State.abort_atSeq, ← State.skipBits_add, Nat.add_comm 1] at hrest
    refine h.head hstep (Eq.mp (congrArg (fun n => Reaches _ (State.abort _ _ n)) ?_) hrest)
    exact congrArg _ (s.skipBits_nodes 1)

/-- Once the magic is read the tokens begin, with no node made (44_header_codec.md rule R196). -/
theorem State.ReadsHeader.betweenTokens {s u : State} {op : BitVec 4} (h : s.ReadsHeader op u) {T : CodeTree}
    {p q rest : List Bool} (hT : T.header = p ++ q) (hin : byteBits s.inLeft = bitsOf 32 s.magic ++ p ++ rest) :
    ∃ t, Reaches u t ∧ u.BetweenTokens 0 p q rest t := by
  rw [← h.stream, ← h.magic, List.append_assoc] at hin
  have hreach := h.runs.magic h.seq hin
  have hstream := State.inBits_skipBits hin
  generalize (bitsOf 32 u.magic).length = k at hreach hstream
  refine ⟨_, hreach, ⟨k, u.node, [], ?_⟩, hstream, T, [], rfl, (List.append_nil T.header).trans hT⟩
  obtain ⟨⟨m, r, c, he⟩, -⟩ := u.skipBits_takes k
  rw [State.parsed, he, show BitVec.ofNat 10 0 = u.nodes from h.nodes.symm]
  rfl

/-- Settles O37: the whole tokens make their nodes, and the bits left are no token. -/
theorem truncatedHeader : Obligations.TruncatedHeader := by
  intro row hrow s T p q hq hT hqne hcount hin
  obtain ⟨t₀, u, hexec, hreach, hreads⟩ := hq.readsHeader hrow
  obtain ⟨t, hmagic, ht⟩ := hreads.betweenTokens hT (rest := []) (by rw [hin, List.append_nil])
  obtain ⟨w, p', htokens, hw, hleft⟩ := ht.tokens hreads.runs (tokensIn 0 p) (Nat.le_refl _) (by omega) (.inl hqne)
  obtain ⟨⟨k, v, slots, rfl⟩, hstream, -⟩ := hw
  rw [List.append_nil] at hstream
  rcases htok : decodeToken p' with e | ⟨i, p''⟩
  · have hcut := (hreads.runs.parsed k v _ (.token [] slots)).tokenCut (bits := []) rfl htok hstream
    have hdry := State.inBits_skipBits (hstream.trans (List.append_nil _).symm)
    rw [State.parsed_skipBits] at hcut hdry
    obtain ⟨r, c, he⟩ := State.skipBits_dry hdry
    rw [State.parsed_abort, he, hreads.left, hreads.abort .truncatedHeader _ _ _ r c v _ rfl] at hcut
    refine ⟨t₀, _, hexec, hreach.trans (hmagic.trans (htokens.trans hcut)), ?_⟩
    have hinfo : (BitVec.ofNat 10 (0 + tokensIn 0 p)).setWidth 32 = BitVec.ofNat 32 (tokensIn 0 p) :=
      BitVec.eq_of_toNat_eq (by simp; omega)
    rw [State.parsed_nodes, hinfo]
    rfl
  · have := tokensIn_of_ok htok
    omega

/-- Settles O38: 513 tokens fill node memory, and the next one finds it full. -/
theorem headerOverflow : Obligations.HeaderOverflow := by
  intro row hrow s T p q rest hq hT hcount hin
  obtain ⟨t₀, u, hexec, hreach, hreads⟩ := hq.readsHeader hrow
  obtain ⟨t, hmagic, ht⟩ := hreads.betweenTokens hT hin
  obtain ⟨w, p', htokens, hw, hleft⟩ := ht.tokens hreads.runs 513 (by omega) (by omega) (.inr (by omega))
  rcases htok : decodeToken p' with e | ⟨i, p''⟩
  · rw [tokensIn_of_error htok] at hleft
    omega
  · obtain ⟨n, opens, hnode⟩ := exec_eq_headerNode htok
    obtain ⟨k, v, tok, hlast, -⟩ := hw.gather hreads.runs htok hnode
    obtain ⟨⟨m, r, c, he⟩, -⟩ := u.skipBits_takes k
    rw [State.headerNode_full rfl, State.parsed_abort, he,
      hreads.abort .headerOverflow _ _ m r c v _ rfl] at hlast
    refine ⟨t₀, _, hexec, hreach.trans (hmagic.trans (htokens.trans hlast)), Nat.le_add_right _ _, ?_⟩
    rw [Nat.add_sub_cancel_left]
    rfl

end Sys2Proof.Machine
end

section
/-! SUPPORT. Hardware reset and the interrupt output (70_reset_and_hazards.md rule R310, 60_exceptions.md rule R286), O10
and O59. -/

namespace Sys2Proof.Machine

/-! ### Hardware reset -/

/-- The reset state is a matter of the block alone, not of the host's side. -/
theorem State.AtReset.withHostSide {s : State} (h : s.AtReset) (b : Bool) (moves : List Move) :
    { s with rstN := b, agenda := moves }.AtReset :=
  ⟨h.idle, h.registers, h.irqEn, h.indices, h.freq, h.tree, h.codes, h.reader, h.writer,
    h.walker, h.queue, h.lastCmd, h.irq⟩

/-- Settles O10: at both edges the block is reset, and in between nothing moves it. -/
theorem hardwareReset : Obligations.HardwareReset := by
  refine fun s rest => ⟨⟨_, rfl, rfl, ?_, rfl, rfl, rfl⟩, ⟨_, rfl, rfl, ?_, rfl, rfl, rfl, rfl⟩,
    fun hr => ⟨?_, fun off width v => ⟨?_, ?_⟩⟩⟩
  · exact (State.resetBlock_atReset _).withHostSide false rest
  · exact (State.resetBlock_atReset _).withHostSide true rest
  · simp [blockStep, hr]
  · simp [memRead, hr]
  · simp [memWrite, hr]

/-! ### The interrupt output -/

/-- With both flags clear the output is 0 (60_exceptions.md rule R286). -/
theorem State.irq_of_flags_clear {s : State} (hd : s.done = false) (he : s.err = false) : s.irq = false := by
  rw [State.irq, hd, he]
  rfl

/-- After a write of IRQ_EN the output is that of the enables written (60_exceptions.md rule R286). -/
theorem State.irq_irqEn (s : State) (v : Word) : { s with irqEn := v.extractLsb' 0 2 }.irq =
    (s.done && v.getLsbD 0 || s.err && v.getLsbD 1) := by
  simp [State.irq]

/-- Settles O59: the output at each write, start, reset and end of a command is read off the flags and enables left. -/
theorem interrupt : Obligations.Interrupt := by
  refine fun s => ⟨rfl, fun v => ⟨_, rfl, rfl, rfl, s.irq_irqEn v⟩, fun v => ⟨_, rfl, rfl⟩, ?_, fun op => ?_, ?_, ?_,
    ?_, ?_⟩
  · exact State.irq_of_flags_clear (Bool.and_false _) (Bool.and_false _)
  · rw [State.commandStart_eq]
    rfl
  · rfl
  · intro t h
    cases h
    exact (s.irq_irqEn 0).trans (by simp)
  · simp [State.irq, State.complete]
  · simp [State.irq, State.abort]

end Sys2Proof.Machine
end
